-- ==== Sys2Proof/Word.lean ====
section
/-! DEFINITION. The plainest types of the model: bytes, index types of Table 1-5 of the spec, and a table of a
fixed number of rows held as a list together with its length. -/

namespace Sys2Proof

/-- One byte of a telegram or of a load image. -/
abbrev Byte := BitVec 8

/-- A timing point, 0–63 (Table 1-5). -/
abbrev TpId := Fin 64
/-- A section, 0–31 (Table 1-5). -/
abbrev SecId := Fin 32
/-- A substation, 0–7 (Table 1-5). -/
abbrev SubId := Fin 8
/-- A feeder within a substation, 0–7 (Table 1-5). -/
abbrev FeederId := Fin 8
/-- A zone, 0–23 (Table 1-5). -/
abbrev ZoneId := Fin 24
/-- A train record, 0–47 (Table 1-5). -/
abbrev TrainId := Fin 48
/-- An incident record, 0–31 (Table 1-5). -/
abbrev IncId := Fin 32
/-- A profile slot, 0–2 (Table 1-5). -/
abbrev SlotId := Fin 3
/-- A template, 0–127 (Table 1-5). -/
abbrev TmplId := Fin 128
/-- An input-map entry, 0–63 (Table 1-5). -/
abbrev MapId := Fin 64
/-- An input class, 0–15 (Table 1-5). -/
abbrev InputId := Fin 16
/-- A set of areas 0–15, bit n for area n (R139, R180). -/
abbrev AreaSet := BitVec 16
/-- An area, 0–15 (Table 1-5). -/
abbrev AreaId := Fin 16

/-- A table of exactly `n` rows: the spec's register files and record tables. The length travels with the rows,
so a read at an index of `Fin n` always finds one. -/
structure Table (α : Type) (n : Nat) where
  items : List α
  size : items.length = n
  deriving DecidableEq, Repr

/-- `n` equal rows. -/
def Table.fill {α : Type} (n : Nat) (a : α) : Table α n := ⟨List.replicate n a, by simp⟩

/-- The row at `i`. -/
def Table.get {α : Type} {n : Nat} (t : Table α n) (i : Fin n) : α :=
  t.items[i.val]'(by rw [t.size]; exact i.isLt)

/-- The table with `a` at `i`. -/
def Table.set {α : Type} {n : Nat} (t : Table α n) (i : Fin n) (a : α) : Table α n :=
  ⟨t.items.set i.val a, by simp [t.size]⟩

/-- Every row changed by `f`. -/
def Table.map {α β : Type} {n : Nat} (f : α → β) (t : Table α n) : Table β n :=
  ⟨t.items.map f, by simp [t.size]⟩

/-- The table whose row at `i` is `f i`. -/
def Table.build {α : Type} (n : Nat) (f : Fin n → α) : Table α n := ⟨(List.finRange n).map f, by simp⟩

/-- The indices of an `n`-row table, ascending. -/
def indices (n : Nat) : List (Fin n) := List.finRange n

/-- The index `k` names, when it is in range. -/
def index? (n k : Nat) : Option (Fin n) := if h : k < n then some ⟨k, h⟩ else none

/-- The area set that holds area `a` alone. -/
def areaBit (a : AreaId) : AreaSet := BitVec.twoPow 16 a.val

/-- Whether a set of areas holds area `a`. -/
def hasArea (s : AreaSet) (a : AreaId) : Bool := s.getLsbD a.val

end Sys2Proof
end

