-- ==== Sys2Proof/Syntax.lean ====
section
/-! DEFINITION. The commands: one constructor of `Instr` for each row of spec/opcode_table.json, with its operands.
The rows give no bits, so the operands are the contents the row's rule names. -/

namespace Sys2Proof

/-- The two field ports (R1). -/
inductive FieldPort where
  | a
  | b
  deriving DecidableEq, Repr

/-- The three ports (R1). -/
inductive Port where
  | fieldA
  | fieldB
  | room
  deriving DecidableEq, Repr

/-- A field port as one of the three. -/
def FieldPort.port : FieldPort → Port
  | .a => .fieldA
  | .b => .fieldB

/-- The header bytes of a telegram that its kind and payload do not fix (Table 1-7): destination, source, flags. -/
structure Header where
  dest : Byte
  src : Byte
  flags : Byte
  deriving DecidableEq, Repr

/-- A telegram without its length and check bytes, which are functions of the rest (Table 1-7, R2). -/
structure Telegram where
  kind : Byte
  dest : Byte
  src : Byte
  flags : Byte
  payload : List Byte
  deriving DecidableEq, Repr

/-- The source of an announcement entry (Table 10-3). -/
inductive Source where
  | run (number : Nat)
  | incident (number : Nat)
  | console (identifier : Nat)
  deriving DecidableEq, Repr

/-- The key of an announcement entry: its template and its source (R157). -/
structure EntryKey where
  template : TmplId
  source : Source
  deriving DecidableEq, Repr

/-- The commands of the block, one constructor per row of spec/opcode_table.json.

A row that is the expiry of one countdown names the countdown's object. A row by which the TIU takes a MANAGE from its
input queue has no operand: the telegram at the queue's head holds the arguments (R10, R181). -/
inductive Instr where
  /-- POWER_ON: the reset input is released while the strap pins stand at `straps` (R187). -/
  | powerOn (straps : Byte)
  /-- LINK_UP: a port's link input is asserted (R1). -/
  | linkUp (port : Port)
  /-- LINK_DOWN: a port's link input is released (R1). -/
  | linkDown (port : Port)
  /-- ROOM_TRANSMISSION_END: the room port finishes sending (R9). -/
  | roomTransmissionEnd
  /-- FIELD_TRANSMISSION_END: the field ports whose link is up finish sending (R14). -/
  | fieldTransmissionEnd
  /-- CYCLE_MARKER with its two fields as received (Table 1-8). -/
  | cycleMarker (port : FieldPort) (header : Header) (number : BitVec 16) (dayTime : BitVec 32)
  /-- MARKER_TIMEOUT_EXPIRY: the LCK's marker deadline passes (R23). -/
  | markerTimeoutExpiry
  /-- SILENCE_EXPIRY of a train record (R68). -/
  | silenceExpiry (record : TrainId)
  /-- OVERDUE_EXPIRY of a train record (R69). -/
  | overdueExpiry (record : TrainId)
  /-- POWER_WAIT_EXPIRY of a train record (R120). -/
  | powerWaitExpiry (record : TrainId)
  /-- REPORT_HOLD_OFF_EXPIRY of the RRG (R61). -/
  | reportHoldOffExpiry
  /-- TELEMETRY_TIMEOUT_EXPIRY of a substation (R96). -/
  | telemetryTimeoutExpiry (substation : SubId)
  /-- CREDIT_EXPIRY of a substation (R99). -/
  | creditExpiry (substation : SubId)
  /-- SLOT_EXPIRY of the slot a train record holds (R112). -/
  | slotExpiry (record : TrainId)
  /-- ESCALATION_TICK: the tick prescaler reaches 0 (R143). -/
  | escalationTick
  /-- ESCALATION of an incident record (R145). -/
  | escalation (record : IncId)
  /-- RETENTION_EXPIRY of an incident record (R138). -/
  | retentionExpiry (record : IncId)
  /-- ELIGIBLE_COUNTDOWN_EXPIRY of the queued entry of a zone that has the key (R165). -/
  | eligibleCountdownExpiry (zone : ZoneId) (key : EntryKey)
  /-- ENTRY_EXPIRY of the queued or current entry of a zone that has the key (R165). -/
  | entryExpiry (zone : ZoneId) (key : EntryKey)
  /-- PLAY_TIMEOUT_EXPIRY of a zone (R163). -/
  | playTimeoutExpiry (zone : ZoneId)
  /-- GUARD_EXPIRY of a zone (R164). -/
  | guardExpiry (zone : ZoneId)
  /-- PASSAGE with its five fields as received (Table 1-8). -/
  | passage (port : FieldPort) (header : Header) (trainSet run : BitVec 16) (point event : Byte) (offset : BitVec 16)
  /-- SUBSTATION_STATUS with its fields as received (Table 1-8); the feeder list carries its own count. -/
  | substationStatus (port : FieldPort) (header : Header) (incomer load : Byte) (feeders : List Byte)
  /-- EQUIPMENT_STATUS with its list as received (Table 1-8). -/
  | equipmentStatus (port : FieldPort) (header : Header) (inputs : List Byte)
  /-- PA_DONE with its two fields as received (Table 1-8). -/
  | paDone (port : FieldPort) (header : Header) (zone tag : Byte)
  /-- OTHER_FIELD_TELEGRAM: any field telegram (R7). -/
  | otherFieldTelegram (port : FieldPort) (telegram : Telegram)
  /-- ROOM_TELEGRAM_FORWARD: a telegram on the room port (R13). -/
  | roomTelegramForward (telegram : Telegram)
  /-- MANAGE with its command, console tag and arguments as received (Table 1-8). -/
  | manage (header : Header) (command : Byte) (tag : BitVec 16) (args : List Byte)
  /-- MANAGE_UNKNOWN_COMMAND: the TIU takes a queued MANAGE with no command code of Table 12-2 (R181). -/
  | manageUnknownCommand
  /-- LOAD_OPEN taken from the management input queue (R44). -/
  | loadOpen
  /-- LOAD_BLOCK taken from the management input queue (R45). -/
  | loadBlock
  /-- LOAD_ABORT taken from the management input queue (R48). -/
  | loadAbort
  /-- PROFILE_ACTIVATE taken from the management input queue (R50). -/
  | profileActivate
  /-- EDIT_HOLD taken from the management input queue (R53). -/
  | editHold
  /-- EDIT taken from the management input queue (R52). -/
  | edit
  /-- EDIT_RELEASE taken from the management input queue (R53). -/
  | editRelease
  /-- INCIDENT_RAISE taken from the management input queue (R137). -/
  | incidentRaise
  /-- INCIDENT_ACK taken from the management input queue (R135). -/
  | incidentAck
  /-- INCIDENT_RESOLVE taken from the management input queue (R136). -/
  | incidentResolve
  /-- ZONE_SET taken from the management input queue (R166). -/
  | zoneSet
  /-- ANNOUNCE taken from the management input queue (R178). -/
  | announce
  /-- TRAIN_BIND taken from the management input queue (R76). -/
  | trainBind
  /-- TRAIN_REMOVE taken from the management input queue (R76). -/
  | trainRemove
  /-- QUERY with subject TRAIN taken from the management input queue (R76). -/
  | queryTrain
  /-- QUERY with subject TIMING_POINT taken from the management input queue (R183). -/
  | queryTimingPoint
  /-- QUERY with subject SECTION taken from the management input queue (R105). -/
  | querySection
  /-- QUERY with subject SUBSTATION taken from the management input queue (R105). -/
  | querySubstation
  /-- QUERY with subject INCIDENT taken from the management input queue (R140). -/
  | queryIncident
  /-- QUERY with subject ZONE taken from the management input queue (R170). -/
  | queryZone
  /-- QUERY with subject CLOCK taken from the management input queue (R34). -/
  | queryClock
  /-- QUERY with subject PROFILE taken from the management input queue (R57). -/
  | queryProfile
  /-- QUERY with subject COUNTERS taken from the management input queue (R184). -/
  | queryCounters
  /-- QUERY with subject IDENTITY taken from the management input queue (R184). -/
  | queryIdentity
  /-- QUERY with subject MODE taken from the management input queue (R183). -/
  | queryMode
  /-- COUNTERS_CLEAR taken from the management input queue (R184). -/
  | countersClear
  /-- RESTART of kind WARM taken from the management input queue (R185). -/
  | restartWarm
  /-- RESTART of kind FULL taken from the management input queue (R186). -/
  | restartFull
  /-- TELEGRAM_DISCARDED: a frame payload on a port, to be put through the receive checks (R4). -/
  | telegramDiscarded (port : Port) (frame : List Byte)
  /-- RESET_ASSERTION: the reset input is asserted (R187). -/
  | resetAssertion
  deriving DecidableEq, Repr

end Sys2Proof
end

