-- ==== Sys2Proof/Config.lean ====
section
/-! DEFINITION. What the part's manual leaves open and the machine needs: the free values. -/

namespace Sys2Proof

/-- FREE VALUE. The data of a REPLY refused with CONTENT is the ordinal and the byte offset of the first offending
record (R46). A profile image whose only faults are that it holds no PROFILE_HEADER or no PATTERN record has no
offending record, and R46 states no position for it. The `k`-th such REPLY carries this ordinal and offset, of which
nothing is known. Log entry 1. -/
opaque Config.freePosition : Nat → Nat × Nat

end Sys2Proof
end

