-- ==== Sys2Proof/Machine/State.lean ====
section
/-! DEFINITION. The state of the part, block by block, as plain data, and the state after reset. Each structure cites
the rule or table of spec/ that names its fields. -/

namespace Sys2Proof.Machine

/-! ## Telegram Interface Unit -/

/-- One entry of the duplicate memory (R6). -/
inductive DupEntry where
  | zero
  | one
  | unknown
  deriving DecidableEq, Repr

/-- What a telegram in the room-bound queue is: a forwarded one, or one the part built (R9, R16). -/
inductive RoomKind where
  | forwarded
  | reply
  | report
  deriving DecidableEq, Repr

/-- A telegram in the room-bound queue. The alternation bit of a built telegram is set when it is sent (R9). -/
structure RoomItem where
  kind : RoomKind
  telegram : Telegram
  deriving DecidableEq, Repr

/-- The reason of a HOLD_ORDER (Table 1-8). -/
inductive HoldReason where
  | regulation
  | incident
  | power
  | noPower
  deriving DecidableEq, Repr

/-- A CUT that an unsent ANNOUNCE has absorbed (R12). -/
structure AbsorbedCut where
  dest : Byte
  tag : Nat
  deriving DecidableEq, Repr

/-- An unsent order in the field order queue (R11, R12). -/
inductive Order where
  | hold (dest : Byte) (point : TpId) (run secs : Nat) (reason : HoldReason)
  | release (dest : Byte) (point : TpId) (run : Nat)
  | announce (dest : Byte) (zone : ZoneId) (tag : Nat) (template : TmplId) (preempt : Bool)
      (params : List Nat) (absorbed : Option AbsorbedCut)
  | cut (dest : Byte) (zone : ZoneId) (tag : Nat)
  deriving DecidableEq, Repr

/-- The counters of Table 1-11, in its order. -/
structure Counters where
  checkA : Nat
  checkB : Nat
  checkRoom : Nat
  lengthA : Nat
  lengthB : Nat
  lengthRoom : Nat
  duplicateA : Nat
  duplicateB : Nat
  misdirectedA : Nat
  misdirectedB : Nat
  misdirectedRoom : Nat
  statusRefused : Nat
  serviceRefused : Nat
  partRefused : Nat
  forwardRefused : Nat
  manageLost : Nat
  deriving DecidableEq, Repr

/-- All counters 0. -/
def Counters.zero : Counters :=
  { checkA := 0, checkB := 0, checkRoom := 0, lengthA := 0, lengthB := 0, lengthRoom := 0, duplicateA := 0,
    duplicateB := 0, misdirectedA := 0, misdirectedB := 0, misdirectedRoom := 0, statusRefused := 0,
    serviceRefused := 0, partRefused := 0, forwardRefused := 0, manageLost := 0 }

/-- The telegram the field transmitter last took, and the ports that are still sending it (R14). -/
structure FieldSending where
  telegram : Telegram
  onA : Bool
  onB : Bool
  deriving DecidableEq, Repr

/-- The state of the TIU (R6, R9–R16). -/
structure Tiu where
  duplicates : Table DupEntry 256
  room : List RoomItem
  manage : List Telegram
  orders : List Order
  forward : List Telegram
  roomBit : Bool
  fieldBit : Bool
  counters : Counters
  roomSending : Option Telegram
  fieldSending : Option FieldSending
  deriving DecidableEq, Repr

/-! ## Line Clock -/

/-- The lock states (Table 2-1). -/
inductive Lock where
  | unset
  | locked
  | coasting
  | unlocked
  deriving DecidableEq, Repr

/-- The state of the LCK (R17). `timeBase` is the LCK's own time base in ms, against which `deadline` stands; Tc is
read from the line defaults (R33). -/
structure Lck where
  lock : Lock
  cycle : Nat
  dayTime : Nat
  missed : Nat
  timeBase : Nat
  deadline : Option Nat
  deriving DecidableEq, Repr

/-! ## Table Store -/

/-- Table 3-1. -/
structure Defaults where
  tc : Nat
  w : Nat
  stall : Nat
  hn : Nat
  deriving DecidableEq, Repr

/-- The kinds of timing point (Table 3-2). -/
inductive PointKind where
  | platform
  | passPoint
  | lineExit
  deriving DecidableEq, Repr

/-- Table 3-2. The trigger's four fields count only while `hasTrigger` is set. -/
structure Point where
  kind : PointKind
  area : AreaId
  controller : Byte
  minDwell : Nat
  dwell : Nat
  depart : Option SecId
  accel : Nat
  hasTrigger : Bool
  trigZone : ZoneId
  trigTarget : TpId
  trigNext : TmplId
  trigDelayed : TmplId
  deriving DecidableEq, Repr

/-- A section record (Table 3-3). `feederB` counts only while feed B is present. -/
structure Sec where
  used : Bool
  area : AreaId
  subA : SubId
  feederA : FeederId
  subB : Option SubId
  feederB : FeederId
  deriving DecidableEq, Repr

/-- A substation record (Table 3-4). -/
structure Sub where
  used : Bool
  unit : Byte
  cap : Nat
  l1 : Nat
  l2 : Nat
  telemetry : Nat
  window : Nat
  deriving DecidableEq, Repr

/-- A zone record of the line tables (Table 3-5); the initial state is OPEN or OFF. -/
structure ZoneRow where
  controller : Byte
  areas : AreaSet
  guard : Nat
  opens : Bool
  deriving DecidableEq, Repr

/-- The object of an input-map entry: PLATFORM with a timing point, or EQUIPMENT (Table 3-5). -/
inductive MapObject where
  | platform (point : TpId)
  | equipment
  deriving DecidableEq, Repr

/-- An input-map entry the image describes (Table 3-5). -/
structure MapRow where
  equipment : Byte
  input : Fin 16
  inputClass : InputId
  object : MapObject
  area : AreaId
  deriving DecidableEq, Repr

/-- Sensitivities of an input class (Table 3-6). -/
inductive Sensitivity where
  | rise
  | fall
  | both
  | level
  deriving DecidableEq, Repr

/-- The incident classes (Table 8-1), in the order of their codes. -/
inductive IncClass where
  | operator
  | platformAlarm
  | doorFault
  | trainStalled
  | lateRunning
  | powerLoss
  | substationTrip
  | telemetryLoss
  | clockLoss
  | powerWait
  | equipmentInput
  deriving DecidableEq, Repr

/-- An input-class record (Table 3-6). -/
structure InputRow where
  sensitivity : Sensitivity
  incClass : IncClass
  deriving DecidableEq, Repr

/-- A set of effects (R148). -/
structure Effects where
  suspend : Bool
  hold : Bool
  announce : Bool
  deriving DecidableEq, Repr

/-- An incident-class record (Table 3-7). -/
structure ClassRow where
  effects : Effects
  reload : Nat
  mandatory : Bool
  retention : Nat
  template0 : Option TmplId
  template1 : Option TmplId
  template2 : Option TmplId
  template3 : Option TmplId
  repeats : Nat
  deriving DecidableEq, Repr

/-- Priority classes (Table 3-7), EMERGENCY the highest. -/
inductive Priority where
  | emergency
  | disruption
  | service
  | routine
  deriving DecidableEq, Repr

/-- A template record (Table 3-7). -/
structure TmplRow where
  priority : Priority
  duration : Nat
  params : Nat
  repeats : Nat
  interval : Nat
  deriving DecidableEq, Repr

/-- The line tables (Tables 3-1 to 3-7). -/
structure LineTables where
  defaults : Defaults
  points : Table Point 64
  secs : Table Sec 32
  subs : Table Sub 8
  zones : Table ZoneRow 24
  inputMap : Table (Option MapRow) 64
  inputs : Table InputRow 16
  classes : Table ClassRow 11
  templates : Table TmplRow 128
  deriving DecidableEq, Repr

/-- The line tables with every record at its default (R35–R39). -/
def LineTables.standard : LineTables :=
  { defaults := { tc := 250, w := 48, stall := 1200, hn := 950 }
    points := Table.fill 64
      { kind := .passPoint, area := 0, controller := 255, minDwell := 0, dwell := 0, depart := none, accel := 0,
        hasTrigger := false, trigZone := 0, trigTarget := 0, trigNext := 0, trigDelayed := 0 }
    secs := Table.fill 32 { used := false, area := 0, subA := 0, feederA := 0, subB := none, feederB := 0 }
    subs := Table.fill 8 { used := false, unit := 255, cap := 1, l1 := 50, l2 := 50, telemetry := 0, window := 0 }
    zones := Table.fill 24 { controller := 255, areas := 0, guard := 0, opens := false }
    inputMap := Table.fill 64 none
    inputs := Table.fill 16 { sensitivity := .level, incClass := .equipmentInput }
    classes := Table.fill 11
      { effects := { suspend := false, hold := false, announce := false }, reload := 63, mandatory := false,
        retention := 0, template0 := none, template1 := none, template2 := none, template3 := none, repeats := 1 }
    templates := Table.fill 128 { priority := .routine, duration := 0, params := 0, repeats := 1, interval := 0 } }

/-- The states of the line tables (R35). -/
inductive LineState where
  | invalid
  | loading
  | failed
  | valid
  deriving DecidableEq, Repr

/-- The regulation parameters (Table 3-8). -/
structure Params where
  w : Nat
  hmin : Nat
  hx : Nat
  late : Nat
  hysteresis : Nat
  delay : Nat
  stall : Nat
  powerLimit : Nat
  tick : Nat
  deriving DecidableEq, Repr

/-- A step of a pattern (R41). -/
structure Leg where
  point : TpId
  runTime : Nat
  dwell : Nat
  deriving DecidableEq, Repr

/-- A run (R41). -/
structure Run where
  number : Nat
  pattern : Fin 16
  origin : Nat
  destination : Nat
  deriving DecidableEq, Repr

/-- A profile with the check of the image it came from (R40). -/
structure Profile where
  name : List Byte
  params : Params
  patterns : Table (List Leg) 16
  runs : List Run
  check : BitVec 16
  deriving DecidableEq, Repr

/-- The states of a profile slot (R49). -/
inductive SlotState where
  | empty
  | loading
  | ready
  | failed
  | active
  deriving DecidableEq, Repr

/-- A profile slot (R49); it holds a profile while READY or ACTIVE. -/
structure ProfileSlot where
  state : SlotState
  profile : Option Profile
  deriving DecidableEq, Repr

/-- The target of a load (R44). -/
inductive LoadTarget where
  | line
  | slot (i : SlotId)
  deriving DecidableEq, Repr

/-- The open load with its image buffer (R44, R45). -/
structure Load where
  target : LoadTarget
  remaining : Nat
  expected : Nat
  check : BitVec 16
  image : List Byte
  deriving DecidableEq, Repr

/-- The tables an EDIT may name (R52). -/
inductive EditTable where
  | defaults
  | point
  | sec
  | sub
  | zone
  | input
  | incClass
  | template
  | profile
  deriving DecidableEq, Repr

/-- An accepted EDIT held in a group: the value is the one that will be written, and the slot is the one that was
ACTIVE when the edit was taken (R52). -/
structure HeldEdit where
  table : EditTable
  index : Nat
  field : Nat
  value : Nat
  slot : Option SlotId
  deriving DecidableEq, Repr

/-- The state of the TST (R35, R40, R44, R49, R53, R58). -/
structure Tst where
  lineState : LineState
  line : LineTables
  slots : Table ProfileSlot 3
  load : Option Load
  openGroup : Option (List HeldEdit)
  waiting : List (List HeldEdit)
  pendingSlot : Option SlotId
  deriving DecidableEq, Repr

/-! ## Run Regulator -/

/-- The train states (Table 4-2). -/
inductive TrainState where
  | running
  | dwelling
  | held
  | waitPower
  | waitDead
  | departing
  deriving DecidableEq, Repr

/-- A train's acceleration slot: its substation and its remaining cycles (Table 4-1). -/
structure HeldSlot where
  sub : SubId
  left : Nat
  deriving DecidableEq, Repr

/-- A train record in use (Table 4-1). -/
structure Train where
  set : Nat
  run : Option Nat
  step : Option Nat
  state : TrainState
  point : Option TpId
  time : Option Nat
  dev : Int
  target : Option Nat
  overdue : Option Nat
  powerWait : Option Nat
  slot : Option HeldSlot
  late : Bool
  silence : Nat
  deriving DecidableEq, Repr

/-- The passage memory of one timing point (R75). -/
structure Memory where
  released : Option Nat
  run : Option Nat
  scheduled : Option Nat
  deriving DecidableEq, Repr

/-- The state of the RRG (R59, R61, R66, R75). -/
structure Rrg where
  trains : Table (Option Train) 48
  memory : Table Memory 64
  holdOff : Nat
  refused : Nat
  unplanned : Nat
  deriving DecidableEq, Repr

/-! ## Power Supervisor -/

/-- The substation states (Table 6-2). -/
inductive SubState where
  | unknown
  | online
  | tripped
  | stale
  deriving DecidableEq, Repr

/-- The feeder memory (Table 6-1). -/
inductive FeederMemory where
  | opened
  | closed
  | neverReported
  deriving DecidableEq, Repr

/-- A place in a waiting list or in the dead-wait set (R107). `joined` orders the trains of one list as they joined it;
it is 0 outside a list. -/
structure Wait where
  train : TrainId
  target : Nat
  point : TpId
  sec : SecId
  joined : Nat := 0
  deriving DecidableEq, Repr

/-- The state the PSV holds for one substation (Table 6-1, R107). -/
structure Supply where
  state : SubState
  incomer : Option Bool
  load : Option Nat
  feeders : Table FeederMemory 8
  telemetry : Option Nat
  credit : Option Nat
  trip : Bool
  capacity : Nat
  held : Nat
  waits : List Wait
  deriving DecidableEq, Repr

/-- The section states (R101). -/
inductive SecState where
  | energized
  | singleFed
  | uncertain
  | dead
  deriving DecidableEq, Repr

/-- The feed a slot source comes from (R101, R105). -/
inductive FeedName where
  | a
  | b
  deriving DecidableEq, Repr

/-- The derived picture of a section: its state, and its slot source with the feed it comes from (R101). A section
that is unused, or that no valid line tables describe, has neither. -/
structure Picture where
  state : Option SecState
  source : Option (SubId × FeedName)
  deriving DecidableEq, Repr

/-- The state of the PSV (R94, R101, R107). -/
structure Psv where
  subs : Table Supply 8
  secs : Table Picture 32
  deadWaits : List Wait
  deriving DecidableEq, Repr

/-! ## Incident Unit -/

/-- The object of an incident (Table 8-2). -/
inductive IncObject where
  | train (set : Nat)
  | platform (point : TpId)
  | sec (s : SecId)
  | substation (s : SubId)
  | equipment (station : Byte)
  | line (identifier : Nat)
  deriving DecidableEq, Repr

/-- The states of an incident record in use (Table 8-2). -/
inductive IncState where
  | raised
  | acknowledged
  | resolved
  deriving DecidableEq, Repr

/-- The cause of an incident (Table 8-2). -/
inductive Cause where
  | absent
  | present
  | gone
  deriving DecidableEq, Repr

/-- An incident record in use (Table 8-2). A countdown of `none` is idle. -/
structure Incident where
  number : Nat
  cls : IncClass
  object : IncObject
  areas : AreaSet
  effects : Effects
  mandatory : Bool
  template : Option TmplId
  state : IncState
  cause : Cause
  level : Nat
  countdown : Option Nat
  recurrences : Nat
  recurred : Bool
  opened : Option Nat
  ackTag : Option Nat
  retention : Option Nat
  deriving DecidableEq, Repr

/-- The edge memory of an input-map entry (R126). -/
inductive Edge where
  | unknown
  | asserted
  | released
  deriving DecidableEq, Repr

/-- The state of the INC (R124, R126, R133, R143, R149). -/
structure Inc where
  records : Table (Option Incident) 32
  resolved : List IncId
  edges : Table Edge 64
  nextNumber : Nat
  refused : Nat
  holdOff : Bool
  prescaler : Nat
  underHold : Table Bool 64
  deriving DecidableEq, Repr

/-! ## Announcement Scheduler -/

/-- The zone states (Table 10-2). -/
inductive ZoneState where
  | off
  | barred
  | opened
  | playing
  | guarding
  deriving DecidableEq, Repr

/-- An entry (Table 10-3). -/
structure Entry where
  template : TmplId
  priority : Priority
  source : Source
  params : List Nat
  repeats : Nat
  interval : Nat
  eligible : Nat
  expiry : Option Nat
  seq : Nat
  deriving DecidableEq, Repr

/-- A zone record (Table 10-1). -/
structure Zone where
  state : ZoneState
  queue : List Entry
  current : Option Entry
  tag : Option Nat
  nextTag : Nat
  arrivals : Nat
  play : Option Nat
  guard : Option Nat
  missing : Nat
  refused : Nat
  deriving DecidableEq, Repr

/-- The state of the ASC (R156). The records exist while the line tables are VALID; they stand at their first values
before that. -/
structure Asc where
  zones : Table Zone 24
  deriving DecidableEq, Repr

/-! ## The part -/

/-- The link inputs of the three ports (R1, Table 12-5). -/
structure Links where
  a : Bool
  b : Bool
  room : Bool
  deriving DecidableEq, Repr

/-- The state of the part. `freeCount` is the MODEL's own field: how many free values have been drawn (log entry 1).
`pending` is the queue of waiting commands, first in, first out. -/
structure State where
  inReset : Bool
  links : Links
  straps : Byte
  address : Byte
  tiu : Tiu
  lck : Lck
  tst : Tst
  rrg : Rrg
  psv : Psv
  inc : Inc
  asc : Asc
  freeCount : Nat
  pending : List Instr
  deriving DecidableEq, Repr

/-- The faults of a step. No rule of spec/ stops the part with a fault, so the type has no constructor: nothing raises
one. -/
inductive Fault where
  deriving DecidableEq, Repr

/-- The refusals of a step. -/
inductive Refusal where
  /-- Raised by an arm of `exec` for a command that has no meaning yet. Safe: the model stops where the part goes on.
  No arm of `exec` raises it: every command has its meaning. -/
  | notModelled (mnemonic : String)
  deriving DecidableEq, Repr

/-! ## The values after reset -/

/-- The TIU after power-on (R16). -/
def Tiu.start : Tiu :=
  { duplicates := Table.fill 256 .unknown, room := [], manage := [], orders := [], forward := [], roomBit := false,
    fieldBit := false, counters := Counters.zero, roomSending := none, fieldSending := none }

/-- The LCK after power-on (R17). -/
def Lck.start : Lck :=
  { lock := .unset, cycle := 0, dayTime := 0, missed := 0, timeBase := 0, deadline := none }

/-- The TST after power-on (R58). -/
def Tst.start : Tst :=
  { lineState := .invalid, line := LineTables.standard, slots := Table.fill 3 { state := .empty, profile := none },
    load := none, openGroup := none, waiting := [], pendingSlot := none }

/-- An empty passage memory (R75). -/
def Memory.empty : Memory := { released := none, run := none, scheduled := none }

/-- The RRG after power-on (R77). -/
def Rrg.start : Rrg :=
  { trains := Table.fill 48 none, memory := Table.fill 64 Memory.empty, holdOff := 0, refused := 0, unplanned := 0 }

/-- A substation after power-on (R106, R122). -/
def Supply.start : Supply :=
  { state := .unknown, incomer := none, load := none, feeders := Table.fill 8 .neverReported, telemetry := none,
    credit := none, trip := false, capacity := 0, held := 0, waits := [] }

/-- The PSV after power-on (R106, R122). -/
def Psv.start : Psv :=
  { subs := Table.fill 8 Supply.start, secs := Table.fill 32 { state := none, source := none }, deadWaits := [] }

/-- The INC after power-on (R142, R155). The prescaler is cycles(150, 4) at a Tc of 250 ms, which R143 gives as 60. -/
def Inc.start : Inc :=
  { records := Table.fill 32 none, resolved := [], edges := Table.fill 64 .unknown, nextNumber := 1, refused := 0,
    holdOff := false, prescaler := 60, underHold := Table.fill 64 false }

/-- A zone record at line-table validation, in the initial state given (Table 10-1). -/
def Zone.start (st : ZoneState) : Zone :=
  { state := st, queue := [], current := none, tag := none, nextTag := 0, arrivals := 0, play := none, guard := none,
    missing := 0, refused := 0 }

/-- The ASC after power-on: no zone record exists until a LINE image is validated (R171). -/
def Asc.start : Asc := { zones := Table.fill 24 (Zone.start .off) }

/-- The part right after reset is released with every strap open, so that the sampled value is 0 and the address in use
is 1 (R187, Table 12-5). The link inputs are not the part's to set: they stand released (log entry 2). -/
def State.reset : State :=
  { inReset := false, links := { a := false, b := false, room := false }, straps := 0, address := 1,
    tiu := Tiu.start, lck := Lck.start, tst := Tst.start, rrg := Rrg.start, psv := Psv.start, inc := Inc.start,
    asc := Asc.start, freeCount := 0, pending := [] }

end Sys2Proof.Machine
end

