-- ==== Sys2Proof/Machine/Operands.lean ====
section
/-! DEFINITION. The forms in which commands carry their contents: numbers as bytes, the telegram check, frames and
telegrams, the fields of each telegram kind, and the codes of enumerations. -/

namespace Sys2Proof.Machine

/-! ## Numbers as bytes, high byte first -/

/-- A number in one byte. -/
def num1 (n : Nat) : List Byte := [BitVec.ofNat 8 n]

/-- A number in two bytes, high byte first. -/
def num2 (n : Nat) : List Byte := [BitVec.ofNat 8 (n / 256), BitVec.ofNat 8 n]

/-- A number in four bytes, high byte first. -/
def num4 (n : Nat) : List Byte := num2 (n / 65536) ++ num2 n

/-- A signed number in two bytes, in two's complement. -/
def int2 (i : Int) : List Byte := num2 (i % 65536).toNat

/-- A flag or yes/no in one byte. -/
def flag1 (b : Bool) : List Byte := num1 b.toNat

/-- An optional number in one byte: 255 when absent (R180). -/
def opt1 (o : Option Nat) : List Byte := num1 (o.getD 255)

/-- An optional number in two bytes: 0 when absent (R180). -/
def opt2 (o : Option Nat) : List Byte := num2 (o.getD 0)

/-- An optional number in four bytes: 0 when absent (R180). -/
def opt4 (o : Option Nat) : List Byte := num4 (o.getD 0)

/-- The number that bytes spell, high byte first. -/
def numOf (bs : List Byte) : Nat := bs.foldl (fun n b => n * 256 + b.toNat) 0

/-- The number in the `count` bytes of `bs` from `start`; bytes beyond the list read as absent. -/
def field (bs : List Byte) (start count : Nat) : Nat := numOf ((bs.drop start).take count)

/-- The pairs of bytes of a list, each as a number. -/
def pairs : List Byte → List Nat
  | hi :: lo :: rest => numOf [hi, lo] :: pairs rest
  | _ => []

/-! ## The telegram check (R2) -/

/-- One bit of the CRC-16 with generator x^16+x^12+x^5+1, most significant bit first. -/
def crcBit (c : BitVec 16) : BitVec 16 := if c.msb then (c <<< 1) ^^^ 0x1021#16 else c <<< 1

/-- One byte of the CRC-16. -/
def crcByte (c : BitVec 16) (b : Byte) : BitVec 16 :=
  crcBit (crcBit (crcBit (crcBit (crcBit (crcBit (crcBit (crcBit (c ^^^ (b.zeroExtend 16 <<< 8)))))))))

/-- The CRC-16 of bytes, from a register of all ones, with no final inversion (R2). -/
def crc16 (bs : List Byte) : BitVec 16 := bs.foldl crcByte 0xFFFF#16

/-! ## Telegrams as bytes (Table 1-7) -/

/-- The bytes the check covers: header and payload. -/
def telegramBody (t : Telegram) : List Byte :=
  [t.kind, t.dest, t.src, t.flags] ++ num1 t.payload.length ++ t.payload

/-- The telegram with its check. -/
def telegramBytes (t : Telegram) : List Byte := telegramBody t ++ num2 (crc16 (telegramBody t)).toNat

/-- The frame payload that carries a telegram the part sends, padded to the minimum of 46 bytes (R1). The spec gives the
padding bytes no value: the model pads with 0 (DESIGN CHOICE, log entry 35). -/
def telegramFrame (t : Telegram) : List Byte :=
  telegramBytes t ++ List.replicate (46 - (telegramBytes t).length) 0

/-- What the first two receive checks make of a frame payload (R4). -/
inductive Frame where
  | lengthFault
  | checkFault
  | sound (t : Telegram)
  deriving DecidableEq, Repr

/-- The length and check tests of R4 on a frame payload. Bytes after the check in a frame payload below 46 bytes do not fail
the test R4's table gives, though R1 accepts padding only at 46: the model follows the table (DESIGN CHOICE, log entry
35). -/
def readFrame (f : List Byte) : Frame :=
  let len := field f 4 1
  if 240 < len ∨ f.length < 7 + len ∨ (7 + len < f.length ∧ 46 < f.length) then .lengthFault
  else if (crc16 (f.take (5 + len))).toNat ≠ field f (5 + len) 2 then .checkFault
  else .sound { kind := f.getD 0 0, dest := f.getD 1 0, src := f.getD 2 0, flags := f.getD 3 0,
                payload := (f.drop 5).take len }

/-- The alternation bit of a telegram: bit 0 of its flags (Table 1-7). -/
def telegramBit (t : Telegram) : Bool := t.flags.getLsbD 0

/-! ## Kind codes (Table 1-8) -/

/-- CYCLE_MARKER. -/
def kindMarker : Byte := 0x01
/-- PASSAGE. -/
def kindPassage : Byte := 0x02
/-- SUBSTATION_STATUS. -/
def kindStatus : Byte := 0x03
/-- EQUIPMENT_STATUS. -/
def kindEquipment : Byte := 0x04
/-- PA_DONE. -/
def kindDone : Byte := 0x05
/-- HOLD_ORDER. -/
def kindHold : Byte := 0x11
/-- RELEASE_ORDER. -/
def kindRelease : Byte := 0x12
/-- ANNOUNCE. -/
def kindAnnounce : Byte := 0x13
/-- CUT. -/
def kindCut : Byte := 0x14
/-- MANAGE. -/
def kindManage : Byte := 0x21
/-- REPLY. -/
def kindReply : Byte := 0x22
/-- REPORT. -/
def kindReport : Byte := 0x23

/-! ## The fields of field telegrams (R5, Table 1-8) -/

/-- The events of a PASSAGE. -/
inductive PassageEvent where
  | arrive
  | depart
  | pass
  | approach
  deriving DecidableEq, Repr

/-- The event a code names. -/
def PassageEvent.ofCode : Nat → Option PassageEvent
  | 0 => some .arrive
  | 1 => some .depart
  | 2 => some .pass
  | 3 => some .approach
  | _ => none

/-- The fields of a PASSAGE that has passed the form check. -/
structure Passage where
  set : Nat
  run : Nat
  point : TpId
  event : PassageEvent
  offset : Nat
  deriving DecidableEq, Repr

/-- The contents of a field telegram that has passed the form check. -/
inductive Contents where
  | marker (number dayTime : Nat)
  | passage (p : Passage)
  | status (closed : Bool) (load : Nat) (feeders : List Bool)
  | equipment (inputs : List Bool)
  | done (zone : ZoneId) (tag : Nat)
  | other
  deriving DecidableEq, Repr

/-- A list of codes 0 and 1 as flags; none when another code stands in it. -/
def flags? : List Byte → Option (List Bool)
  | [] => some []
  | b :: bs =>
    if b = 0 then (flags? bs).map (false :: ·)
    else if b = 1 then (flags? bs).map (true :: ·)
    else none

/-- The fields of a PASSAGE payload, if its form is right. -/
def passage? (p : List Byte) : Option Passage :=
  if p.length = 8 ∧ 1 ≤ field p 0 2 ∧ field p 0 2 ≤ 999 ∧ field p 2 2 ≤ 9999 then
    match index? 64 (field p 4 1), PassageEvent.ofCode (field p 5 1) with
    | some tp, some ev => some { set := field p 0 2, run := field p 2 2, point := tp, event := ev, offset := field p 6 2 }
    | _, _ => none
  else none

/-- The contents of a field telegram, or none when it fails the form check of R5. Every field telegram whose source is
255 fails, those of a kind without a form too (log entry 3). -/
def contents? (t : Telegram) : Option Contents :=
  let p := t.payload
  if t.src = 255 then none
  else if t.kind = kindMarker then
    if p.length = 6 ∧ field p 2 4 ≤ 107999999 then some (.marker (field p 0 2) (field p 2 4)) else none
  else if t.kind = kindPassage then (passage? p).map .passage
  else if t.kind = kindStatus then
    if 3 ≤ p.length ∧ p.length = 3 + field p 2 1 ∧ 1 ≤ field p 2 1 ∧ field p 2 1 ≤ 8 ∧ field p 0 1 ≤ 1 then
      (flags? (p.drop 3)).map (.status (decide (field p 0 1 = 1)) (field p 1 1))
    else none
  else if t.kind = kindEquipment then
    if 1 ≤ p.length ∧ p.length = 1 + field p 0 1 ∧ 1 ≤ field p 0 1 ∧ field p 0 1 ≤ 16 then
      (flags? (p.drop 1)).map .equipment
    else none
  else if t.kind = kindDone then
    if p.length = 2 then (index? 24 (field p 0 1)).map (.done · (field p 1 1)) else none
  else some .other

/-! ## The telegrams the structured commands stand for -/

/-- The telegram of a kind with the header and payload given. -/
def mkTelegram (h : Header) (kind : Byte) (payload : List Byte) : Telegram :=
  { kind := kind, dest := h.dest, src := h.src, flags := h.flags, payload := payload }

/-- A CYCLE_MARKER (Table 1-8). -/
def markerTelegram (h : Header) (number : BitVec 16) (dayTime : BitVec 32) : Telegram :=
  mkTelegram h kindMarker (num2 number.toNat ++ num4 dayTime.toNat)

/-- A PASSAGE (Table 1-8). -/
def passageTelegram (h : Header) (trainSet run : BitVec 16) (point event : Byte) (offset : BitVec 16) : Telegram :=
  mkTelegram h kindPassage (num2 trainSet.toNat ++ num2 run.toNat ++ [point, event] ++ num2 offset.toNat)

/-- A SUBSTATION_STATUS (Table 1-8). -/
def statusTelegram (h : Header) (incomer load : Byte) (feeders : List Byte) : Telegram :=
  mkTelegram h kindStatus ([incomer, load] ++ num1 feeders.length ++ feeders)

/-- An EQUIPMENT_STATUS (Table 1-8). -/
def equipmentTelegram (h : Header) (inputs : List Byte) : Telegram :=
  mkTelegram h kindEquipment (num1 inputs.length ++ inputs)

/-- A PA_DONE (Table 1-8). -/
def doneTelegram (h : Header) (zone tag : Byte) : Telegram := mkTelegram h kindDone [zone, tag]

/-- A MANAGE (Table 1-8). -/
def manageTelegram (h : Header) (command : Byte) (tag : BitVec 16) (args : List Byte) : Telegram :=
  mkTelegram h kindManage ([command] ++ num2 tag.toNat ++ args)

/-! ## Codes of enumerations (R180) -/

/-- Table 1-8. -/
def HoldReason.code : HoldReason → Nat
  | .regulation => 0
  | .incident => 1
  | .power => 2
  | .noPower => 3

/-- R27. -/
def Lock.code : Lock → Nat
  | .unset => 0
  | .locked => 1
  | .coasting => 2
  | .unlocked => 3

/-- Table 3-9. -/
def PointKind.code : PointKind → Nat
  | .platform => 0
  | .passPoint => 1
  | .lineExit => 2

/-- The order of R35. -/
def LineState.code : LineState → Nat
  | .invalid => 0
  | .loading => 1
  | .failed => 2
  | .valid => 3

/-- The order of R49. -/
def SlotState.code : SlotState → Nat
  | .empty => 0
  | .loading => 1
  | .ready => 2
  | .failed => 3
  | .active => 4

/-- Table 1-10. -/
def TrainState.code : TrainState → Nat
  | .running => 0
  | .dwelling => 1
  | .held => 2
  | .waitPower => 3
  | .waitDead => 4
  | .departing => 5

/-- The order of Table 6-1. -/
def SubState.code : SubState → Nat
  | .unknown => 0
  | .online => 1
  | .tripped => 2
  | .stale => 3

/-- The order of Table 6-1. -/
def FeederMemory.code : FeederMemory → Nat
  | .opened => 0
  | .closed => 1
  | .neverReported => 2

/-- The order of R101. -/
def SecState.code : SecState → Nat
  | .energized => 0
  | .singleFed => 1
  | .uncertain => 2
  | .dead => 3

/-- The order of R105: A, then B. -/
def FeedName.code : FeedName → Nat
  | .a => 0
  | .b => 1

/-- Table 8-1. -/
def IncClass.code : IncClass → Fin 11
  | .operator => 0
  | .platformAlarm => 1
  | .doorFault => 2
  | .trainStalled => 3
  | .lateRunning => 4
  | .powerLoss => 5
  | .substationTrip => 6
  | .telemetryLoss => 7
  | .clockLoss => 8
  | .powerWait => 9
  | .equipmentInput => 10

/-- The kind of an incident's object (R139). -/
def IncObject.kindCode : IncObject → Nat
  | .train _ => 0
  | .platform _ => 1
  | .sec _ => 2
  | .substation _ => 3
  | .equipment _ => 4
  | .line _ => 5

/-- The identifier of an incident's object (R139). -/
def IncObject.ident : IncObject → Nat
  | .train n => n
  | .platform p => p.val
  | .sec x => x.val
  | .substation x => x.val
  | .equipment b => b.toNat
  | .line n => n

/-- R139. -/
def IncState.code : IncState → Nat
  | .raised => 0
  | .acknowledged => 1
  | .resolved => 2

/-- R139. -/
def Cause.code : Cause → Nat
  | .absent => 0
  | .present => 1
  | .gone => 2

/-- Table 3-9: bit 0 SUSPEND, bit 1 HOLD, bit 2 ANNOUNCE. -/
def Effects.code (e : Effects) : Nat := e.suspend.toNat + 2 * e.hold.toNat + 4 * e.announce.toNat

/-- The set of effects a code below 8 names (Table 3-9). -/
def Effects.ofCode (n : Nat) : Effects :=
  { suspend := n.testBit 0, hold := n.testBit 1, announce := n.testBit 2 }

/-- The order of Table 10-1. -/
def ZoneState.code : ZoneState → Nat
  | .off => 0
  | .barred => 1
  | .opened => 2
  | .playing => 3
  | .guarding => 4

/-- Table 3-7. -/
def Priority.code : Priority → Nat
  | .emergency => 0
  | .disruption => 1
  | .service => 2
  | .routine => 3

/-- The kind of an entry's source, in the order of Table 10-3. -/
def sourceKindCode : Source → Nat
  | .run _ => 0
  | .incident _ => 1
  | .console _ => 2

/-- The identifier of an entry's source. -/
def sourceIdent : Source → Nat
  | .run n => n
  | .incident n => n
  | .console n => n

/-! ## Codes read from images and commands -/

/-- Table 3-9. -/
def PointKind.ofCode : Nat → Option PointKind
  | 0 => some .platform
  | 1 => some .passPoint
  | 2 => some .lineExit
  | _ => none

/-- Table 3-9. -/
def Sensitivity.ofCode : Nat → Option Sensitivity
  | 0 => some .rise
  | 1 => some .fall
  | 2 => some .both
  | 3 => some .level
  | _ => none

/-- The incident classes an input class may name, by class code (Table 3-9). -/
def IncClass.ofInputCode : Nat → Option IncClass
  | 1 => some .platformAlarm
  | 2 => some .doorFault
  | 10 => some .equipmentInput
  | _ => none

/-- Table 3-7. -/
def Priority.ofCode : Nat → Option Priority
  | 0 => some .emergency
  | 1 => some .disruption
  | 2 => some .service
  | 3 => some .routine
  | _ => none

/-- A flag code. -/
def bool? : Nat → Option Bool
  | 0 => some false
  | 1 => some true
  | _ => none

/-- A reference of one byte for which 255 means none: the inner answer is the reference, the outer none a fault. -/
def optIndex? (n k : Nat) : Option (Option (Fin n)) :=
  if k = 255 then some none else (index? n k).map some

end Sys2Proof.Machine
end

