-- ==== Sys2Proof/Machine/Flags.lean ====
section
/-! DEFINITION. The conditions that blocks read off the state of other blocks: the mode, the parameters in force, line
time, durations as counts, schedules, and the coverage of incident effects. -/

namespace Sys2Proof.Machine

/-! ## Saturating counts -/

/-- A counter of the part after one more event, saturating at 65535 (section 1.6). -/
def bump (n : Nat) : Nat := min (n + 1) 65535

/-- A value brought into a range (section 1.6). -/
def clamp (lo hi n : Nat) : Nat := max lo (min hi n)

/-- A deviation, saturating at ±32767 (Table 4-1). -/
def saturateDev (d : Int) : Int := max (-32767) (min 32767 d)

/-! ## Mode and parameters -/

/-- The part's modes (R56). -/
inductive Mode where
  | bare
  | prepared
  | service
  deriving DecidableEq, Repr

/-- Whether the line tables are VALID. -/
def tablesValid (s : State) : Bool := decide (s.tst.lineState = .valid)

/-- The ACTIVE profile slot, if any (R56). -/
def activeSlot (s : State) : Option SlotId :=
  (indices 3).find? fun i => decide ((s.tst.slots.get i).state = .active)

/-- The mode follows what the TST holds (R56). -/
def mode (s : State) : Mode :=
  if tablesValid s then (if (activeSlot s).isSome then .service else .prepared) else .bare

/-- The code of a mode, in the order of R56. -/
def Mode.code : Mode → Nat
  | .bare => 0
  | .prepared => 1
  | .service => 2

/-- The ACTIVE profile, if any. -/
def activeProfile (s : State) : Option Profile := (activeSlot s).bind fun i => (s.tst.slots.get i).profile

/-- The parameters used while no profile is ACTIVE (Table 3-8). -/
def preparedParams : Params :=
  { w := 8, hmin := 800, hx := 300, late := 1200, hysteresis := 300, delay := 1200, stall := 600, powerLimit := 1200,
    tick := 150 }

/-- The regulation parameters in force (R40). -/
def params (s : State) : Params :=
  match activeProfile s with
  | some p => p.params
  | none => preparedParams

/-- The cycle length in force: 250 ms while no valid line tables are held (R33). -/
def cycleLength (s : State) : Nat := if tablesValid s then s.tst.line.defaults.tc else 250

/-- The warning level in force: 48 while no line tables are valid (R9). -/
def warnLevel (s : State) : Nat := if tablesValid s then s.tst.line.defaults.w else 48

/-! ## Line time (R30, R31) -/

/-- Whether the Line Clock is not UNSET. -/
def clockSet (s : State) : Bool := decide (s.lck.lock ≠ .unset)

/-- The boundary time B in ds; there is none while the clock is UNSET (R31). -/
def boundaryTime (s : State) : Option Nat := if clockSet s then some (s.lck.dayTime / 100) else none

/-- The passage time A in ds for an offset in ms; there is none while the clock is UNSET (R30). -/
def passageTime (s : State) (offset : Nat) : Option Nat :=
  if clockSet s then some (min (s.lck.dayTime + min offset (cycleLength s - 1)) 107999999 / 100) else none

/-- The uncertain indication (R30). -/
def uncertain (s : State) : Bool := decide (s.lck.lock = .coasting ∨ s.lck.lock = .unlocked)

/-! ## Durations (R32) -/

/-- The duration rule at a cycle length: `t` ds with floor `f`, as a count of cycles saturating at 65535. -/
def cyclesAt (tc t f : Nat) : Nat := min (max ((t * 100 + tc - 1) / tc) f) 65535

/-- The duration rule at the cycle length in force. -/
def cycles (s : State) (t f : Nat) : Nat := cyclesAt (cycleLength s) t f

/-- One boundary's fall of an optional countdown (R29). -/
def fall (o : Option Nat) : Option Nat := o.map (· - 1)

/-! ## Schedules (R41) -/

/-- The legs of a run's pattern. -/
def legsOf (p : Profile) (r : Run) : List Leg := p.patterns.get r.pattern

/-- The run of a profile with a run number. -/
def findRun (p : Profile) (n : Nat) : Option Run := p.runs.find? fun r => decide (r.number = n)

/-- The run of the ACTIVE profile with a run number, with its legs. -/
def activeRun (s : State) (n : Nat) : Option (Run × List Leg) :=
  (activeProfile s).bind fun p => (findRun p n).map fun r => (r, legsOf p r)

/-- The scheduled arrival at step `k` (R41). -/
def scheduledArrival (origin : Nat) (legs : List Leg) (k : Nat) : Nat :=
  origin + ((legs.take (k + 1)).map (·.runTime)).sum + ((legs.take k).map (·.dwell)).sum

/-- The scheduled departure at step `k` (R41). -/
def scheduledDeparture (origin : Nat) (legs : List Leg) (k : Nat) : Nat :=
  scheduledArrival origin legs k + ((legs[k]?).map (·.dwell)).getD 0

/-- The first step at or after `start` whose timing point is `p` (R63, R173). -/
def findStep (legs : List Leg) (start : Nat) (p : TpId) : Option Nat :=
  (List.range legs.length).find? fun k => decide (start ≤ k ∧ (legs[k]?).map (·.point) = some p)

/-! ## Trains and incidents by number -/

/-- The record of a train set (R59). -/
def findTrain (s : State) (set : Nat) : Option TrainId :=
  (indices 48).find? fun i => decide ((s.rrg.trains.get i).map (·.set) = some set)

/-- The lowest-numbered free train record (R61). -/
def freeTrain (s : State) : Option TrainId := (indices 48).find? fun i => (s.rrg.trains.get i).isNone

/-- The stop states (Table 4-2). -/
def TrainState.stopped : TrainState → Bool
  | .dwelling | .held | .waitPower | .waitDead => true
  | .running | .departing => false

/-- The incident record with a key (R124). -/
def findKey (s : State) (c : IncClass) (o : IncObject) : Option IncId :=
  (indices 32).find? fun i => decide ((s.inc.records.get i).map (fun r => (r.cls, r.object)) = some (c, o))

/-- The incident record that holds a number (R135). -/
def findNumber (s : State) (n : Nat) : Option IncId :=
  (indices 32).find? fun i => decide ((s.inc.records.get i).map (·.number) = some n)

/-- The lowest-numbered free incident record (R124). -/
def freeIncident (s : State) : Option IncId := (indices 32).find? fun i => (s.inc.records.get i).isNone

/-- The class record of a class (R39). -/
def classRow (s : State) (c : IncClass) : ClassRow := s.tst.line.classes.get c.code

/-! ## Coverage (R148) -/

/-- A record whose effects are live: RAISED or ACKNOWLEDGED. -/
def Incident.live (r : Incident) : Bool := decide (r.state ≠ .resolved)

/-- Whether a record's live HOLD effect covers an area. -/
def Incident.holds (r : Incident) (a : AreaId) : Bool := r.live && r.effects.hold && hasArea r.areas a

/-- Whether a record's live SUSPEND effect covers an area. -/
def Incident.suspends (r : Incident) (a : AreaId) : Bool := r.live && r.effects.suspend && hasArea r.areas a

/-- The incident records in use, in record order. -/
def incidents (s : State) : List Incident := s.inc.records.items.filterMap id

/-- Whether a timing point is under HOLD. -/
def underHold (s : State) (p : TpId) : Bool := (incidents s).any (·.holds (s.tst.line.points.get p).area)

/-- Whether a timing point is under SUSPEND. -/
def underSuspend (s : State) (p : TpId) : Bool := (incidents s).any (·.suspends (s.tst.line.points.get p).area)

end Sys2Proof.Machine
end

