-- ==== Sys2Proof/Machine/Image.lean ====
section
/-! DEFINITION. Load images: their records, the content validation, and the tables or profile a valid image gives, with
its clamped count (R42, R43, R46). -/

namespace Sys2Proof.Machine

/-! ## Records (R42) -/

/-- One record of an image: its ordinal, its byte offset, its kind and its body. `whole` is false for a record that runs
past the end of the image. -/
structure Rec where
  ordinal : Nat
  offset : Nat
  kind : Nat
  body : List Byte
  whole : Bool
  deriving DecidableEq, Repr

/-- The records of an image, by their length bytes; `fuel` is at least the image's length. -/
def splitFrom : Nat → Nat → Nat → List Byte → List Rec
  | 0, _, _, _ => []
  | _ + 1, _, _, [] => []
  | _ + 1, n, at_, [k] => [{ ordinal := n, offset := at_, kind := k.toNat, body := [], whole := false }]
  | fuel + 1, n, at_, k :: l :: rest =>
    if rest.length < l.toNat then [{ ordinal := n, offset := at_, kind := k.toNat, body := rest, whole := false }]
    else
      { ordinal := n, offset := at_, kind := k.toNat, body := rest.take l.toNat, whole := true }
        :: splitFrom fuel (n + 1) (at_ + 2 + l.toNat) (rest.drop l.toNat)

/-- The records of an image. -/
def splitImage (image : List Byte) : List Rec := splitFrom image.length 0 0 image

/-- The body length of a kind of a LINE image (Table 3-9). -/
def lineBody : Nat → Option Nat
  | 0x01 => some 7
  | 0x02 => some 16
  | 0x03 => some 6
  | 0x04 => some 9
  | 0x05 => some 7
  | 0x06 => some 7
  | 0x07 => some 3
  | 0x08 => some 11
  | 0x09 => some 8
  | _ => none

/-- Whether a record has the form its kind in a LINE image requires: a kind of Table 3-9, its body length, and all its
bytes in the image (R46). -/
def Rec.lineForm (r : Rec) : Bool := r.whole && decide (lineBody r.kind = some r.body.length)

/-- Whether a record has the form its kind in a profile image requires (R46). -/
def Rec.profileForm (r : Rec) : Bool :=
  r.whole &&
    match r.kind with
    | 0x21 => decide (r.body.length = 33)
    | 0x22 => decide (2 ≤ r.body.length ∧ r.body.length = 2 + 5 * field r.body 1 1)
    | 0x23 => decide (r.body.length = 8)
    | _ => false

/-- Whether a LINE image contains the record of a kind with an index (R37, R46). -/
def describes (rs : List Rec) (kind index : Nat) : Bool :=
  rs.any fun r => r.lineForm && decide (r.kind = kind ∧ field r.body 0 1 = index)

/-- Whether a LINE image makes a timing point a PLATFORM; one it does not describe is a pass point (R36). -/
def platformIn (rs : List Rec) (p : TpId) : Bool :=
  rs.any fun r => r.lineForm && decide (r.kind = 0x02 ∧ field r.body 0 1 = p.val ∧ field r.body 1 1 = 0)

/-! ## Clamping (R43) -/

/-- A numeric value clamped into its range, with 1 when it was outside. -/
def clampField (lo hi v : Nat) : Nat × Nat := (clamp lo hi v, if lo ≤ v ∧ v ≤ hi then 0 else 1)

/-! ## Rows of a LINE image -/

/-- A row a LINE image gives, with its index. -/
inductive LineRow where
  | defaults (d : Defaults)
  | point (i : TpId) (p : Point)
  | sec (i : SecId) (x : Sec)
  | sub (i : SubId) (b : Sub)
  | zone (i : ZoneId) (z : ZoneRow)
  | map (i : MapId) (m : MapRow)
  | input (i : InputId) (r : InputRow)
  | cls (i : Fin 11) (c : ClassRow)
  | tmpl (i : TmplId) (t : TmplRow)
  deriving DecidableEq, Repr

/-- The kind and index of a row: two rows of one image may not share them (R46); DEFAULTS counts as one index (log entry
8). -/
def LineRow.place : LineRow → Nat × Nat
  | .defaults _ => (0x01, 0)
  | .point i _ => (0x02, i.val)
  | .sec i _ => (0x03, i.val)
  | .sub i _ => (0x04, i.val)
  | .zone i _ => (0x05, i.val)
  | .map i _ => (0x06, i.val)
  | .input i _ => (0x07, i.val)
  | .cls i _ => (0x08, i.val)
  | .tmpl i _ => (0x09, i.val)

/-- A DEFAULTS body: the row and its clamps. -/
def readDefaults (b : List Byte) : LineRow × Nat :=
  let tc := clampField 100 500 (field b 0 2)
  let w := clampField 16 56 (field b 2 1)
  let stall := clampField 300 6000 (field b 3 2)
  let hn := clampField 300 3000 (field b 5 2)
  (.defaults { tc := tc.1, w := w.1, stall := stall.1, hn := hn.1 }, tc.2 + w.2 + stall.2 + hn.2)

/-- The four trigger fields of a TIMING_POINT body; they are ignored while the trigger-present byte is 0, and then stand
at 0 (R46, log entry 9). -/
def readTrigger (b : List Byte) (here : Bool) : Option (ZoneId × TpId × TmplId × TmplId) :=
  if here then
    match index? 24 (field b 12 1), index? 64 (field b 13 1), index? 128 (field b 14 1), index? 128 (field b 15 1) with
    | some z, some p, some m, some n => some (z, p, m, n)
    | _, _, _, _ => none
  else some (0, 0, 0, 0)

/-- A TIMING_POINT body; a departure section must be one the image contains. -/
def readPoint (rs : List Rec) (b : List Byte) : Option (LineRow × Nat) := do
  let i ← index? 64 (field b 0 1)
  let kind ← PointKind.ofCode (field b 1 1)
  let area ← index? 16 (field b 2 1)
  let depart ← optIndex? 32 (field b 8 1)
  if depart.all fun x => describes rs 0x03 x.val then
    let here ← bool? (field b 11 1)
    let trig ← readTrigger b here
    let minDwell := clampField 0 600 (field b 4 2)
    let dwell := clampField 0 1200 (field b 6 2)
    let accel := clampField 0 1200 (field b 9 2)
    some (.point i { kind := kind, area := area, controller := BitVec.ofNat 8 (field b 3 1), minDwell := minDwell.1,
                     dwell := dwell.1, depart := depart, accel := accel.1, hasTrigger := here, trigZone := trig.1,
                     trigTarget := trig.2.1, trigNext := trig.2.2.1, trigDelayed := trig.2.2.2 },
      minDwell.2 + dwell.2 + accel.2)
  else none

/-- A SECTION body; its feeds must be on substations the image contains, and feed B must differ from feed A. The feed B
feeder is ignored while the feed B substation is 255, and then stands at 0 (R46, log entry 9). A feeder above 7 is a fault
(DESIGN CHOICE, log entry 40). -/
def readSec (rs : List Rec) (b : List Byte) : Option (LineRow × Nat) := do
  let i ← index? 32 (field b 0 1)
  let area ← index? 16 (field b 1 1)
  let subA ← index? 8 (field b 2 1)
  let feederA ← index? 8 (field b 3 1)
  let subB ← optIndex? 8 (field b 4 1)
  let feederB ← if subB.isSome then index? 8 (field b 5 1) else some 0
  if describes rs 0x04 subA.val ∧ (subB.all fun x => describes rs 0x04 x.val) ∧
      ¬(subB = some subA ∧ feederB = feederA) then
    some (.sec i { used := true, area := area, subA := subA, feederA := feederA, subB := subB, feederB := feederB }, 0)
  else none

/-- A SUBSTATION body; an L2 below L1 is raised to L1 once the rest is clamped, which counts as one clamp (R43, R37). An L2
below 50 beside an L1 above 50 counts two, one for its range and one for the raise, where R43 can be read to count the raise
alone (DESIGN CHOICE, log entry 58). -/
def readSub (b : List Byte) : Option (LineRow × Nat) := do
  let i ← index? 8 (field b 0 1)
  let cap := clampField 1 6 (field b 2 1)
  let l1 := clampField 50 200 (field b 3 1)
  let l2 := clampField 50 255 (field b 4 1)
  let telemetry := clampField 0 600 (field b 5 2)
  let window := clampField 0 600 (field b 7 2)
  some (.sub i { used := true, unit := BitVec.ofNat 8 (field b 1 1), cap := cap.1, l1 := l1.1, l2 := max l2.1 l1.1,
                 telemetry := telemetry.1, window := window.1 },
    cap.2 + l1.2 + l2.2 + (if l2.1 < l1.1 then 1 else 0) + telemetry.2 + window.2)

/-- A ZONE body. -/
def readZone (b : List Byte) : Option (LineRow × Nat) := do
  let i ← index? 24 (field b 0 1)
  let opens ← bool? (field b 6 1)
  let guard := clampField 0 600 (field b 4 2)
  some (.zone i { controller := BitVec.ofNat 8 (field b 1 1), areas := BitVec.ofNat 16 (field b 2 2), guard := guard.1,
                  opens := opens }, guard.2)

/-- An INPUT_MAP body; a PLATFORM object must name a PLATFORM, and the timing point of an EQUIPMENT object is ignored
(R38). An input number above 15 and an equipment address of 255 are faults (DESIGN CHOICE, log entry 40). -/
def readMap (rs : List Rec) (b : List Byte) : Option (LineRow × Nat) := do
  let i ← index? 64 (field b 0 1)
  let input ← index? 16 (field b 2 1)
  let cls ← index? 16 (field b 3 1)
  let area ← index? 16 (field b 6 1)
  let equipment ← bool? (field b 4 1)
  if field b 1 1 = 255 then none
  else
    let object ← if equipment then some MapObject.equipment
      else (index? 64 (field b 5 1)).bind fun p => if platformIn rs p then some (.platform p) else none
    some (.map i { equipment := BitVec.ofNat 8 (field b 1 1), input := input, inputClass := cls, object := object,
                   area := area }, 0)

/-- An INPUT_CLASS body. -/
def readInput (b : List Byte) : Option (LineRow × Nat) := do
  let i ← index? 16 (field b 0 1)
  let sens ← Sensitivity.ofCode (field b 1 1)
  let cls ← IncClass.ofInputCode (field b 2 1)
  some (.input i { sensitivity := sens, incClass := cls }, 0)

/-- An INCIDENT_CLASS body. -/
def readClass (b : List Byte) : Option (LineRow × Nat) := do
  let i ← index? 11 (field b 0 1)
  let mandatory ← bool? (field b 3 1)
  let t0 ← optIndex? 128 (field b 6 1)
  let t1 ← optIndex? 128 (field b 7 1)
  let t2 ← optIndex? 128 (field b 8 1)
  let t3 ← optIndex? 128 (field b 9 1)
  if field b 1 1 < 8 then
    let reload := clampField 1 63 (field b 2 1)
    let retention := clampField 0 36000 (field b 4 2)
    let repeats := clampField 1 8 (field b 10 1)
    some (.cls i { effects := Effects.ofCode (field b 1 1), reload := reload.1, mandatory := mandatory,
                   retention := retention.1, template0 := t0, template1 := t1, template2 := t2, template3 := t3,
                   repeats := repeats.1 }, reload.2 + retention.2 + repeats.2)
  else none

/-- A TEMPLATE body. -/
def readTmpl (b : List Byte) : Option (LineRow × Nat) := do
  let i ← index? 128 (field b 0 1)
  let priority ← Priority.ofCode (field b 1 1)
  let duration := clampField 0 1200 (field b 2 2)
  let count := clampField 0 4 (field b 4 1)
  let repeats := clampField 1 8 (field b 5 1)
  let interval := clampField 0 6000 (field b 6 2)
  some (.tmpl i { priority := priority, duration := duration.1, params := count.1, repeats := repeats.1,
                  interval := interval.1 }, duration.2 + count.2 + repeats.2 + interval.2)

/-- The row a record gives, with its clamps; none when the record has a fault of its own or a bad reference (R46). -/
def readLineRow (rs : List Rec) (r : Rec) : Option (LineRow × Nat) :=
  if r.lineForm then
    match r.kind with
    | 0x01 => some (readDefaults r.body)
    | 0x02 => readPoint rs r.body
    | 0x03 => readSec rs r.body
    | 0x04 => readSub r.body
    | 0x05 => readZone r.body
    | 0x06 => readMap rs r.body
    | 0x07 => readInput r.body
    | 0x08 => readClass r.body
    | 0x09 => readTmpl r.body
    | _ => none
  else none

/-- Whether a row clashes with an earlier one: the same kind and index, or two input-map entries of one equipment input
(R46). -/
def LineRow.clashes (x y : LineRow) : Bool :=
  decide (x.place = y.place) ||
    match x, y with
    | .map _ m, .map _ n => decide (m.equipment = n.equipment ∧ m.input = n.input)
    | _, _ => false

/-- A row put into the line tables. -/
def LineRow.write (l : LineTables) : LineRow → LineTables
  | .defaults d => { l with defaults := d }
  | .point i p => { l with points := l.points.set i p }
  | .sec i x => { l with secs := l.secs.set i x }
  | .sub i b => { l with subs := l.subs.set i b }
  | .zone i z => { l with zones := l.zones.set i z }
  | .map i m => { l with inputMap := l.inputMap.set i (some m) }
  | .input i r => { l with inputs := l.inputs.set i r }
  | .cls i c => { l with classes := l.classes.set i c }
  | .tmpl i t => { l with templates := l.templates.set i t }

/-- The outcome of a content validation (R46, R47): the position of the first offending record (none where no record
offends, log entry 1), or what the image gives with its clamped count. -/
inductive Verdict (α : Type) where
  | fault (position : Option (Nat × Nat))
  | valid (result : α) (clamps : Nat)
  deriving DecidableEq, Repr

/-- The rows of a LINE image taken in order: the first record with a fault, or the tables and the clamped count. -/
def takeLine (rs : List Rec) (earlier : List LineRow) (l : LineTables) (clamps : Nat) :
    List Rec → Verdict LineTables
  | [] => .valid l clamps
  | r :: rest =>
    match readLineRow rs r with
    | none => .fault (some (r.ordinal, r.offset))
    | some (row, n) =>
      if earlier.any row.clashes then .fault (some (r.ordinal, r.offset))
      else takeLine rs (row :: earlier) (row.write l) (clamps + n) rest

/-- The content validation of a LINE image (R46). -/
def validateLine (image : List Byte) : Verdict LineTables :=
  let rs := splitImage image
  takeLine rs [] LineTables.standard 0 rs

/-! ## Rows of a profile image -/

/-- The regulation parameters of a PROFILE_HEADER, with their clamps (Tables 3-8, 3-9). -/
def readParams (b : List Byte) : Params × Nat :=
  let w := clampField 0 16 (field b 16 1)
  let hmin := clampField 300 3000 (field b 17 2)
  let hx := clampField 0 1800 (field b 19 2)
  let late := clampField 300 6000 (field b 21 2)
  let hyst := clampField 0 1200 (field b 23 2)
  let delay := clampField 300 6000 (field b 25 2)
  let stall := clampField 0 6000 (field b 27 2)
  let limit := clampField 0 6000 (field b 29 2)
  let tick := clampField 0 6000 (field b 31 2)
  ({ w := w.1, hmin := hmin.1, hx := hx.1, late := late.1, hysteresis := hyst.1, delay := delay.1, stall := stall.1,
     powerLimit := limit.1, tick := tick.1 },
    w.2 + hmin.2 + hx.2 + late.2 + hyst.2 + delay.2 + stall.2 + limit.2 + tick.2)

/-- The legs of a PATTERN, `count` of them from a byte position on; the first leg's run time is made 0, which counts as
one clamp (R43; DEDUCED for a value above its range, log entry 25). None when a step names a timing point above 63. -/
def readLegs (b : List Byte) : Nat → Nat → Bool → Option (List Leg × Nat)
  | 0, _, _ => some ([], 0)
  | n + 1, at_, first => do
    let p ← index? 64 (field b at_ 1)
    let run := if first then (0, if field b (at_ + 1) 2 = 0 then 0 else 1) else clampField 0 6000 (field b (at_ + 1) 2)
    let dwell := clampField 0 1200 (field b (at_ + 3) 2)
    let (rest, k) ← readLegs b n (at_ + 5) false
    some ({ point := p, runTime := run.1, dwell := dwell.1 } :: rest, run.2 + dwell.2 + k)

/-- What the records of a profile image have given so far. -/
structure Draft where
  header : Option (List Byte × Params)
  patterns : List (Fin 16 × List Leg)
  runs : List Run
  clamps : Nat
  deriving DecidableEq, Repr

/-- Whether a profile image contains a pattern. -/
def describesPattern (rs : List Rec) (index : Nat) : Bool :=
  rs.any fun r => r.profileForm && decide (r.kind = 0x22 ∧ field r.body 0 1 = index)

/-- One record of a profile image is taken; none when it has a fault (R46). -/
def takeProfileRec (rs : List Rec) (r : Rec) (d : Draft) : Option Draft :=
  let b := r.body
  if r.profileForm then
    match r.kind with
    | 0x21 =>
      if d.header.isSome then none
      else
        let (q, n) := readParams b
        some { d with header := some (b.take 16, q), clamps := d.clamps + n }
    | 0x22 => do
      let i ← index? 16 (field b 0 1)
      let n := field b 1 1
      if 1 ≤ n ∧ n ≤ 40 ∧ (d.patterns.all fun x => decide (x.1 ≠ i)) then
        let (legs, k) ← readLegs b n 2 true
        some { d with patterns := (i, legs) :: d.patterns, clamps := d.clamps + k }
      else none
    | _ => do
      let pattern ← index? 16 (field b 2 1)
      let n := field b 0 2
      let origin := clampField 0 1079999 (field b 3 4)
      if 1 ≤ n ∧ n ≤ 9999 ∧ d.runs.length < 512 ∧ describesPattern rs pattern.val ∧
          (d.runs.all fun x => decide (x.number ≠ n)) then
        some { d with
          runs := d.runs ++ [{ number := n, pattern := pattern, origin := origin.1, destination := field b 7 1 }]
          clamps := d.clamps + origin.2 }
      else none
  else none

/-- The records of a profile image taken in order. -/
def takeProfile (rs : List Rec) (d : Draft) : List Rec → Verdict Draft
  | [] => .valid d d.clamps
  | r :: rest =>
    match takeProfileRec rs r d with
    | none => .fault (some (r.ordinal, r.offset))
    | some d => takeProfile rs d rest

/-- The content validation of a profile image whose check is `check` (R46). An image without PROFILE_HEADER or without
PATTERN fails with no offending record (log entry 1). -/
def validateProfile (check : BitVec 16) (image : List Byte) : Verdict Profile :=
  let rs := splitImage image
  match takeProfile rs { header := none, patterns := [], runs := [], clamps := 0 } rs with
  | .fault p => .fault p
  | .valid d n =>
    match d.header with
    | none => .fault none
    | some (name, q) =>
      if d.patterns = [] then .fault none
      else
        .valid
          { name := name, params := q, runs := d.runs, check := check
            patterns := d.patterns.foldl (fun t x => t.set x.1 x.2) (Table.fill 16 []) } n

end Sys2Proof.Machine
end

