-- ==== Sys2Proof/Machine/Regulation.lean ====
section
/-! DEFINITION. Departure regulation: the stages that fix a departure target at a platform arrival (R78–R84). All
quantities are in ds; differences are signed. -/

namespace Sys2Proof.Machine

/-- What a matched arrival takes from its run: scheduled arrival, scheduled departure and dwell of the matched step
(Table 5-1). -/
structure Matched where
  arrival : Nat
  departure : Nat
  dwell : Nat
  deriving DecidableEq, Repr

/-- The inputs of the departure computation (Table 5-1). -/
structure Inputs where
  time : Nat
  sched : Option Matched
  minDwell : Nat
  defDwell : Nat
  released : Option Nat
  releasedSched : Option Nat
  w : Nat
  hmin : Nat
  hx : Nat
  hn : Nat
  deriving DecidableEq, Repr

/-- The dwell the stages use: the matched step's, or the default (R78). -/
def Inputs.dwell (x : Inputs) : Nat :=
  match x.sched with
  | some m => m.dwell
  | none => x.defDwell

/-- Stage 2: the timetable target (R79). -/
def Inputs.timetable (x : Inputs) : Option Int := x.sched.map fun m => (m.departure : Int)

/-- The last release at the platform, unless it lies later than the arrival (R80, R82). -/
def Inputs.lastRelease (x : Inputs) : Option Nat := x.released.filter fun p => decide (p ≤ x.time)

/-- The headway of stage 3 (R80). -/
def Inputs.headway (x : Inputs) : Int :=
  match x.sched, x.releasedSched with
  | some m, some sp => if sp < m.departure then (m.departure : Int) - sp else x.hn
  | _, _ => x.hn

/-- Stage 3: the headway target (R80). -/
def Inputs.spacing (x : Inputs) : Option Int := x.lastRelease.map fun p => (p : Int) + x.headway

/-- Stage 4: the blend (R81). -/
def Inputs.blend (x : Inputs) : Int :=
  match x.timetable, x.spacing with
  | some tt, some th => tt + ((th - tt) * x.w + 8) / 16
  | some tt, none => tt
  | none, some th => th
  | none, none => (x.time : Int) + x.defDwell

/-- The lower bound of stage 5 (R82). -/
def Inputs.lower (x : Inputs) : Nat :=
  match x.lastRelease with
  | some p => max (x.time + x.minDwell) (p + x.hmin)
  | none => x.time + x.minDwell

/-- The upper bound of stage 5 (R82). -/
def Inputs.upper (x : Inputs) : Nat := x.time + x.dwell + x.hx

/-- Whether the bounds conflict: cap exceeded (R82). -/
def Inputs.conflict (x : Inputs) : Bool := decide (x.upper < x.lower)

/-- Stage 5: the blend held between the bounds; the lower bound when they conflict (R82). -/
def Inputs.bounded (x : Inputs) : Nat :=
  if x.conflict then x.lower else (max (x.lower : Int) (min x.upper x.blend)).toNat

/-- Stage 6: the target, if there is one, and whether cap exceeded is recorded (R83). `held` is coverage by HOLD,
`prepared` PREPARED mode, `free` an unlocked clock or coverage by SUSPEND. -/
def Inputs.target (x : Inputs) (held prepared free : Bool) : Option Nat × Bool :=
  if held then (none, false)
  else if prepared then (some (max (x.time + x.defDwell) (x.time + x.minDwell)), false)
  else if free then (some (max (x.time + x.dwell) (x.time + x.minDwell)), false)
  else (some x.bounded, x.conflict)

end Sys2Proof.Machine
end

