-- ==== Sys2Proof/Machine/Ops.lean ====
section
/-! DEFINITION. The operations every block shares: an action and what it makes, the queues of the TIU, the two
transmitters, and the writes of train, substation, incident and zone records. -/

namespace Sys2Proof.Machine

/-! ## An action (R7, R10, R103, R149)

One command is one action of the part. Orders and reports made in it enter the queues only after the forwarded
telegram or the REPLY has been offered (R7, R10), so they are gathered in `out`. Incident requests made by the PSV while
it works are handed to the INC in order (`requests`), and trains that an ended hold hands to the PSV are placed once the
PSV's own work is done (`handOvers`); log entry 4. -/

/-- What an action makes for the queues of the TIU. -/
inductive Made where
  | order (o : Order)
  | report (content : List Byte)
  deriving DecidableEq, Repr

/-- A request to the INC (R123): a raise, with cause PRESENT or without cause, or a cause-gone. -/
inductive Request where
  | raise (cls : IncClass) (object : IncObject) (present : Bool)
  | gone (cls : IncClass) (object : IncObject)
  deriving DecidableEq, Repr

/-- An action in progress. -/
structure Act where
  s : State
  out : List Made
  requests : List Request
  handOvers : List (List Wait)
  deriving DecidableEq, Repr

/-- An action that has made nothing yet. -/
def Act.start (s : State) : Act := { s := s, out := [], requests := [], handOvers := [] }

/-- An order is made. -/
def Act.order (o : Order) (a : Act) : Act := { a with out := a.out ++ [.order o] }

/-- A report is made; the content begins with the report kind (Table 1-8). -/
def Act.report (kind : Nat) (content : List Byte) (a : Act) : Act :=
  { a with out := a.out ++ [.report (num1 kind ++ content)] }

/-- A request is handed to the INC. -/
def Act.ask (r : Request) (a : Act) : Act := { a with requests := a.requests ++ [r] }

/-- `f` applied for each index of an `n`-row table, ascending. -/
def forAll (n : Nat) (f : Fin n → Act → Act) (a : Act) : Act := (indices n).foldl (fun a i => f i a) a

/-! ## Writing records -/

/-- The train record `i`. -/
def Act.train (a : Act) (i : TrainId) : Option Train := a.s.rrg.trains.get i

/-- The action after train record `i` is written whole. -/
def Act.putTrain (i : TrainId) (t : Option Train) (a : Act) : Act :=
  { a with s.rrg.trains := a.s.rrg.trains.set i t }

/-- The action after a train record in use is changed by `f`; a free record stays free. -/
def Act.onTrain (i : TrainId) (f : Train → Train) (a : Act) : Act := a.putTrain i ((a.train i).map f)

/-- The substation `b` as the PSV holds it. -/
def Act.supply (a : Act) (b : SubId) : Supply := a.s.psv.subs.get b

/-- The action after a substation's state is changed by `f`. -/
def Act.onSupply (b : SubId) (f : Supply → Supply) (a : Act) : Act :=
  { a with s.psv.subs := a.s.psv.subs.set b (f (a.supply b)) }

/-- The incident record `i`. -/
def Act.incident (a : Act) (i : IncId) : Option Incident := a.s.inc.records.get i

/-- The action after incident record `i` is written whole. -/
def Act.putIncident (i : IncId) (r : Option Incident) (a : Act) : Act :=
  { a with s.inc.records := a.s.inc.records.set i r }

/-- The zone `z` as the ASC holds it. -/
def Act.zone (a : Act) (z : ZoneId) : Zone := a.s.asc.zones.get z

/-- The action after zone `z` is written whole. -/
def Act.putZone (z : ZoneId) (q : Zone) (a : Act) : Act := { a with s.asc.zones := a.s.asc.zones.set z q }

/-! ## Orders to platforms -/

/-- The seconds of a hold that lasts `ds` deciseconds: rounded up, saturating at 254 (R84). -/
def holdSeconds (ds : Nat) : Nat := min ((ds + 9) / 10) 254

/-- A HOLD_ORDER for a timing point is made, to its platform controller (R11). -/
def Act.hold (p : TpId) (run : Option Nat) (secs : Nat) (reason : HoldReason) (a : Act) : Act :=
  a.order (.hold (a.s.tst.line.points.get p).controller p (run.getD 0) secs reason)

/-- A RELEASE_ORDER for a timing point is made (R11). -/
def Act.release (p : TpId) (run : Option Nat) (a : Act) : Act :=
  a.order (.release (a.s.tst.line.points.get p).controller p (run.getD 0))

/-! ## The field order queue (R11, R12) -/

/-- The timing point a HOLD_ORDER or RELEASE_ORDER names. -/
def Order.point? : Order → Option TpId
  | .hold _ p _ _ _ => some p
  | .release _ p _ => some p
  | .announce _ _ _ _ _ _ _ => none
  | .cut _ _ _ => none

/-- The zone an ANNOUNCE or CUT names. -/
def Order.zone? : Order → Option ZoneId
  | .hold _ _ _ _ _ => none
  | .release _ _ _ => none
  | .announce _ z _ _ _ _ _ => some z
  | .cut _ z _ => some z

/-- What an unsent order for a zone and a new order for it become together, by the table of R12: the order that stands
in the place of the old one, or none when neither is sent. -/
def combine : Order → Order → Option Order
  | .announce d z t m _ ps absorbed, .cut d' _ t' =>
    if t = t' then absorbed.map fun c => .cut c.dest z c.tag
    else some (.announce d z t m true ps (some (absorbed.getD { dest := d', tag := t' })))
  | .announce _ _ _ _ p _ absorbed, .announce d' z' t' m' p' ps' _ =>
    some (.announce d' z' t' m' (p || p') ps' absorbed)
  | .cut d _ t, .announce d' z' t' m' _ ps' _ => some (.announce d' z' t' m' true ps' (some { dest := d, tag := t }))
  | _, new => some new

/-- Whether two orders compete for one place in the queue: the same timing point, or the same zone. -/
def Order.rivals (o new : Order) : Bool :=
  (o.point?.isSome && decide (o.point? = new.point?)) || (o.zone?.isSome && decide (o.zone? = new.zone?))

/-- An order offered to the field order queue: it meets the unsent order for its timing point or zone in that order's
place (R11, R12), and is appended at the tail when there is none. -/
def offerOrder (new : Order) : List Order → List Order
  | [] => [new]
  | o :: rest => if o.rivals new then (combine o new).toList ++ rest else o :: offerOrder new rest

/-- The telegram of an order, sent with an alternation bit (R14, Table 1-8). -/
def orderTelegram (src : Byte) (bit : Bool) : Order → Telegram
  | .hold d p run secs reason =>
    { kind := kindHold, dest := d, src := src, flags := BitVec.ofNat 8 bit.toNat,
      payload := num1 p.val ++ num2 run ++ num1 secs ++ num1 reason.code }
  | .release d p run =>
    { kind := kindRelease, dest := d, src := src, flags := BitVec.ofNat 8 bit.toNat,
      payload := num1 p.val ++ num2 run }
  | .announce d z t m p ps _ =>
    { kind := kindAnnounce, dest := d, src := src, flags := BitVec.ofNat 8 bit.toNat,
      payload := num1 z.val ++ num1 t ++ num1 m.val ++ flag1 p ++ num1 ps.length ++ ps.flatMap num2 }
  | .cut d z t =>
    { kind := kindCut, dest := d, src := src, flags := BitVec.ofNat 8 bit.toNat, payload := num1 z.val ++ num1 t }

/-! ## The room-bound queue (R9) -/

/-- The admission classes of the room-bound queue. -/
inductive RoomClass where
  | status
  | service
  | part
  deriving DecidableEq, Repr

/-- The occupancy below which a class is admitted. The queue holds up to 64 telegrams, whatever W is. -/
def roomLimit (s : State) : RoomClass → Nat
  | .status => min (warnLevel s) 64
  | .service => 60
  | .part => 64

/-- The counters after a refusal of a class. -/
def Counters.refuse (c : Counters) : RoomClass → Counters
  | .status => { c with statusRefused := bump c.statusRefused }
  | .service => { c with serviceRefused := bump c.serviceRefused }
  | .part => { c with partRefused := bump c.partRefused }

/-- A telegram offered to the room-bound queue: appended at the tail below its class's limit, refused and counted
otherwise. -/
def offerRoom (c : RoomClass) (item : RoomItem) (s : State) : State :=
  if s.tiu.room.length < roomLimit s c then { s with tiu.room := s.tiu.room ++ [item] }
  else { s with tiu.counters := s.tiu.counters.refuse c }

/-- The class of a forwarded field telegram: a PASSAGE is service, every other kind status. -/
def forwardClass (t : Telegram) : RoomClass := if t.kind = kindPassage then .service else .status

/-- A field telegram offered to the room-bound queue (R8). -/
def forwardToRoom (t : Telegram) (s : State) : State :=
  offerRoom (forwardClass t) { kind := .forwarded, telegram := t } s

/-- A REPORT built by the part (R9): to every station, from the station address. -/
def reportTelegram (s : State) (content : List Byte) : Telegram :=
  { kind := kindReport, dest := 255, src := s.address, flags := 0, payload := content }

/-- What an action made enters the queues, in the order it was made. -/
def enterMade (s : State) : List Made → State
  | [] => s
  | .order o :: rest => enterMade { s with tiu.orders := offerOrder o s.tiu.orders } rest
  | .report content :: rest =>
    enterMade (offerRoom .part { kind := .report, telegram := reportTelegram s content } s) rest

/-- The state after an action: what it made is in the queues. -/
def Act.finish (a : Act) : State := enterMade a.s a.out

/-! ## The transmitters (R9, R14) -/

/-- The telegram as the room port sends it: a built telegram carries the room-side alternation bit. -/
def roomTelegram (bit : Bool) (item : RoomItem) : Telegram :=
  match item.kind with
  | .forwarded => item.telegram
  | .reply | .report => { item.telegram with flags := BitVec.ofNat 8 bit.toNat }

/-- The room transmitter takes the head of the room-bound queue when the room link is up and the port is not sending. -/
def startRoom (s : State) : State :=
  if s.links.room ∧ s.tiu.roomSending = none then
    match s.tiu.room with
    | [] => s
    | item :: rest =>
      { s with
        tiu.room := rest
        tiu.roomSending := some (roomTelegram s.tiu.roomBit item)
        tiu.roomBit := if item.kind = .forwarded then s.tiu.roomBit else !s.tiu.roomBit }
  else s

/-- The field transmitter takes one telegram when some field link is up and no port is sending: the head of the field
order queue, otherwise the head of the field forward queue. -/
def startField (s : State) : State :=
  if (s.links.a ∨ s.links.b) ∧ s.tiu.fieldSending = none then
    match s.tiu.orders, s.tiu.forward with
    | o :: rest, _ =>
      { s with
        tiu.orders := rest
        tiu.fieldSending := some { telegram := orderTelegram s.address s.tiu.fieldBit o, onA := s.links.a, onB := s.links.b }
        tiu.fieldBit := !s.tiu.fieldBit }
    | [], t :: rest =>
      { s with
        tiu.forward := rest
        tiu.fieldSending := some { telegram := t, onA := s.links.a, onB := s.links.b } }
    | [], [] => s
  else s

/-- Both transmitters look for work: what every command ends with (log entry 5). -/
def settle (s : State) : State := startField (startRoom s)

/-- A command that finds the part in reset leaves it so (R187, Table 12-5); otherwise it has its effect, and the
transmitters take what they can. -/
def whenAwake (f : State → State) (s : State) : State := if s.inReset then s else settle (f s)

end Sys2Proof.Machine
end

