-- ==== Sys2Proof/Machine/Announcements.lean ====
section
/-! DEFINITION. The Announcement Scheduler: placing, issue, preemption, end of playing, the boundary, zone control and
removal (R156–R171). -/

namespace Sys2Proof.Machine

/-- An entry as its maker hands it to a zone. `interval` is the repeat interval in ds where the maker gives one (R179);
`expiry` is a count of cycles (R176). -/
structure NewEntry where
  template : TmplId
  source : Source
  params : List Nat
  repeats : Nat
  interval : Option Nat
  expiry : Option Nat
  deriving DecidableEq, Repr

/-- The outcome of a placing (R179). -/
inductive Placing where
  | joined
  | renewed
  | evicted
  | refused
  | discarded
  deriving DecidableEq, Repr

/-- R179. -/
def Placing.code : Placing → Nat
  | .joined => 0
  | .renewed => 1
  | .evicted => 2
  | .refused => 3
  | .discarded => 4

/-- The key of an entry (R157). -/
def Entry.key (e : Entry) : EntryKey := { template := e.template, source := e.source }

/-- The key of an arriving entry (R157). -/
def NewEntry.key (e : NewEntry) : EntryKey := { template := e.template, source := e.source }

/-! ## Queue order (R157) -/

/-- Whether `x` stands before `y` in queue order. -/
def Entry.before (x y : Entry) : Bool :=
  decide (x.priority.code < y.priority.code ∨ (x.priority.code = y.priority.code ∧ x.seq < y.seq))

/-- An entry put in its place in queue order. -/
def insertEntry (e : Entry) : List Entry → List Entry
  | [] => [e]
  | x :: rest => if e.before x then e :: x :: rest else x :: insertEntry e rest

/-- The queued entry that a full queue gives up: of lowest priority, and among those with the latest arrival
sequence, which stands last. -/
def lastEntry (q : List Entry) : Option Entry := q.getLast?

/-- Numbers given from `n` upward in queue order, with the current entry after all queued entries of its priority
(log entry 6). The answer is the queue, the current entry and the next number. -/
def renumberFrom (n : Nat) (current : Option Entry) : List Entry → List Entry × Option Entry × Nat
  | [] =>
    match current with
    | none => ([], none, n)
    | some c => ([], some { c with seq := n }, n + 1)
  | x :: rest =>
    match current with
    | some c =>
      if c.priority.code < x.priority.code then
        let (q, _, k) := renumberFrom (n + 2) none rest
        ({ x with seq := n + 1 } :: q, some { c with seq := n }, k)
      else
        let (q, c', k) := renumberFrom (n + 1) (some c) rest
        ({ x with seq := n } :: q, c', k)
    | none =>
      let (q, c', k) := renumberFrom (n + 1) none rest
      ({ x with seq := n } :: q, c', k)

/-- The arrival counter rises by one after an entry has joined; when it would pass 65535 the zone's entries are
renumbered (R157). -/
def countArrival (z : Zone) : Zone :=
  if z.arrivals < 65535 then { z with arrivals := z.arrivals + 1 }
  else
    let (q, c, k) := renumberFrom 0 z.current z.queue
    { z with queue := q, current := c, arrivals := k }

/-! ## Issue and preemption (R160, R161) -/

/-- The first entry in queue order whose eligible countdown is 0. -/
def firstEligible (q : List Entry) : Option Entry := q.find? fun e => decide (e.eligible = 0)

/-- The parameters an ANNOUNCE carries: as many as the template's parameter count (R39). -/
def fitParams (count : Nat) (ps : List Nat) : List Nat := ps.take count ++ List.replicate (count - ps.length) 0

/-- A zone issues entry `e`: it becomes current with the next tag, an ANNOUNCE is offered, and the zone enters PLAYING
(R160). -/
def issueEntry (z : ZoneId) (preempt : Bool) (e : Entry) (a : Act) : Act :=
  let q := a.zone z
  let row := a.s.tst.line.templates.get e.template
  (a.order (.announce (a.s.tst.line.zones.get z).controller z q.nextTag e.template preempt
      (fitParams row.params e.params) none)).putZone z
    { q with
      state := .playing
      queue := q.queue.erase e
      current := some e
      tag := some q.nextTag
      nextTag := (q.nextTag + 1) % 256
      play := some (cycles a.s (row.duration + 20) 2)
      guard := none }

/-- The issue test of R160. -/
def issueTest (z : ZoneId) (a : Act) : Act :=
  if (a.zone z).state = .opened then
    match firstEligible (a.zone z).queue with
    | some e => issueEntry z false e a
    | none => a
  else a

/-- An entry returns to its zone's queue (R159). -/
def returnEntry (e : Entry) (q : Zone) : Zone :=
  if e.expiry = some 0 then q
  else if q.queue.length < 8 then { q with queue := insertEntry e q.queue }
  else
    match lastEntry q.queue with
    | some x =>
      if e.priority.code < x.priority.code then
        { q with queue := insertEntry e q.queue.dropLast, refused := bump q.refused }
      else { q with refused := bump q.refused }
    | none => q

/-- The preemption test of R161, made for an EMERGENCY entry placed with its eligible countdown at 0. -/
def preemptTest (z : ZoneId) (a : Act) : Act :=
  let q := a.zone z
  match q.state with
  | .opened => issueTest z a
  | .guarding =>
    match firstEligible q.queue with
    | some e => issueEntry z true e a
    | none => a
  | .playing =>
    match q.current, firstEligible q.queue with
    | some c, some e =>
      if c.priority = .emergency then a
      else
        let b := issueEntry z true e a
        b.putZone z (returnEntry { c with eligible := 0 } (b.zone z))
    | _, _ => a
  | .off | .barred => a

/-- The test that follows a placing (R158): preemption for an EMERGENCY entry that is eligible, the issue test for a
lesser one. -/
def placedTest (z : ZoneId) (p : Priority) (eligible : Nat) (a : Act) : Act :=
  if p = .emergency then (if eligible = 0 then preemptTest z a else a) else issueTest z a

/-! ## Placing (R158) -/

/-- An entry renewed in place by an arriving one of its key. -/
def Entry.renew (e : Entry) (n : NewEntry) : Entry :=
  { e with params := n.params, repeats := n.repeats, expiry := n.expiry }

/-- The entry that joins a zone: priority and repeat interval from its template, or the interval its maker gave
(R157, R179). -/
def makeEntry (s : State) (n : NewEntry) (seq : Nat) : Entry :=
  let row := s.tst.line.templates.get n.template
  { template := n.template, priority := row.priority, source := n.source, params := n.params, repeats := n.repeats,
    interval := cycles s (n.interval.getD row.interval) 4, eligible := 0, expiry := n.expiry, seq := seq }

/-- An entry handed to a zone is placed, by the first case of R158 that applies. -/
def placeEntry (z : ZoneId) (n : NewEntry) (a : Act) : Act × Placing :=
  let q := a.zone z
  if q.state = .off then (a.putZone z { q with refused := bump q.refused }, .discarded)
  else if q.current.map Entry.key = some n.key then
    (a.putZone z { q with current := q.current.map (·.renew n) }, .renewed)
  else
    match q.queue.find? fun e => decide (e.key = n.key) with
    | some e =>
      (placedTest z e.priority e.eligible
        (a.putZone z { q with queue := q.queue.map fun x => if x.key = n.key then x.renew n else x }), .renewed)
    | none =>
      let e := makeEntry a.s n q.arrivals
      if q.queue.length < 8 then
        (placedTest z e.priority 0 (a.putZone z (countArrival { q with queue := insertEntry e q.queue })), .joined)
      else
        match lastEntry q.queue with
        | some x =>
          if e.priority.code < x.priority.code then
            (placedTest z e.priority 0
              (a.putZone z (countArrival
                { q with queue := insertEntry e q.queue.dropLast, refused := bump q.refused })), .evicted)
          else (a.putZone z { q with refused := bump q.refused }, .refused)
        | none => (a, .refused)

/-! ## End of playing and guard (R163, R164) -/

/-- A zone enters GUARD with a fresh guard countdown; nothing plays in it. -/
def enterGuard (z : ZoneId) (q : Zone) (a : Act) : Act :=
  a.putZone z
    { q with
      state := .guarding
      current := none
      tag := none
      play := none
      guard := some (cycles a.s (a.s.tst.line.zones.get z).guard 1) }

/-- The current entry ends playing (R163). -/
def endPlaying (z : ZoneId) (a : Act) : Act :=
  let q := a.zone z
  match q.current with
  | none => a
  | some e =>
    let left := e.repeats - 1
    let q' := if left = 0 then q else returnEntry { e with repeats := left, eligible := e.interval } q
    enterGuard z q' a

/-- The play countdown has run out: a completion not heard is counted, and the playing ends (R163). -/
def playTimeout (z : ZoneId) (a : Act) : Act :=
  let q := a.zone z
  endPlaying z (a.putZone z { q with missing := bump q.missing })

/-- The guard countdown has run out: the zone enters OPEN and makes the issue test (R164). -/
def guardEnd (z : ZoneId) (a : Act) : Act :=
  let q := a.zone z
  issueTest z (a.putZone z { q with state := .opened, guard := none })

/-- A PA_DONE handed to the ASC (R162). -/
def paDone (src : Byte) (z : ZoneId) (tag : Nat) (a : Act) : Act :=
  let q := a.zone z
  if src = (a.s.tst.line.zones.get z).controller ∧ q.state = .playing ∧ q.tag = some tag then endPlaying z a else a

/-! ## The boundary (R165) -/

/-- The fall of an entry's countdowns at a boundary. -/
def Entry.fall (e : Entry) : Entry := { e with eligible := e.eligible - 1, expiry := Machine.fall e.expiry }

/-- Step 1 of R165 for a zone's play and guard countdowns. They fall before the TST takes the boundary, so that one which the
TST's work sets then is not lowered by the boundary that set it (R29, log entry 10). -/
def Zone.fall (q : Zone) : Zone :=
  { q with
    play := if q.state = .playing then Machine.fall q.play else q.play
    guard := if q.state = .guarding then Machine.fall q.guard else q.guard }

/-- Step 1 of R165 for a zone's entries. The TST has by then taken the boundary (R54). -/
def Zone.fallEntries (q : Zone) : Zone :=
  { q with
    queue := q.queue.map Entry.fall
    current := q.current.map fun e => { e with expiry := Machine.fall e.expiry } }

/-- Step 2 of R165: queued entries whose expiry countdown has reached 0 are dropped without being counted. -/
def Zone.dropExpired (q : Zone) : Zone :=
  { q with queue := q.queue.filter fun e => decide (e.expiry ≠ some 0) }

/-- R165 for a zone whose play and guard countdowns have fallen: its entries' countdowns fall, and steps 2 to 5 follow. -/
def zoneBoundary (z : ZoneId) (a : Act) : Act :=
  let a := a.putZone z (a.zone z).fallEntries.dropExpired
  let a := if (a.zone z).state = .playing ∧ (a.zone z).play = some 0 then playTimeout z a else a
  let a := if (a.zone z).state = .guarding ∧ (a.zone z).guard = some 0 then guardEnd z a else a
  issueTest z a

/-! ## Control by the room (R166) -/

/-- A CUT for a zone's current tag is offered (R12). -/
def cutCurrent (z : ZoneId) (a : Act) : Act :=
  match (a.zone z).tag with
  | some t => a.order (.cut (a.s.tst.line.zones.get z).controller z t)
  | none => a

/-- ZONE_SET to OFF. -/
def zoneOff (z : ZoneId) (a : Act) : Act :=
  let a := if (a.zone z).state = .playing then cutCurrent z a else a
  a.putZone z
    { a.zone z with state := .off, queue := [], current := none, tag := none, play := none, guard := none }

/-- ZONE_SET to BARRED. -/
def zoneBar (z : ZoneId) (a : Act) : Act :=
  let a := if (a.zone z).state = .playing then cutCurrent z a else a
  let q := a.zone z
  let q := match q.current with
    | some e => returnEntry { e with eligible := 0 } q
    | none => q
  a.putZone z { q with state := .barred, current := none, tag := none, play := none, guard := none }

/-- ZONE_SET to OPEN. -/
def zoneOpen (z : ZoneId) (a : Act) : Act :=
  match (a.zone z).state with
  | .off | .barred => issueTest z (a.putZone z { a.zone z with state := .opened })
  | .opened | .playing | .guarding => a

/-! ## Removal by incident resolution (R167) -/

/-- A zone gives up the entries of a resolved incident; a current one is cut and the guard kept. -/
def zoneRemove (source : Source) (z : ZoneId) (a : Act) : Act :=
  let q := a.zone z
  let q' := { q with queue := q.queue.filter fun e => decide (e.source ≠ source) }
  if q.current.map (·.source) = some source then enterGuard z q' (cutCurrent z a) else a.putZone z q'

end Sys2Proof.Machine
end

