-- ==== Sys2Proof/Machine/Power.lean ====
section
/-! DEFINITION. The Power Supervisor: capacity, feeds and sections, waiting lists, grants and releases of slots, and the
placing of hand-overs (R94–R122). -/

namespace Sys2Proof.Machine

/-! ## Capacity (R98) -/

/-- The base of an ONLINE substation from its load level (R98). -/
def baseCapacity (row : Sub) (load : Nat) : Nat :=
  if row.l2 ≤ load then 1 else if row.l1 ≤ load then max (row.cap - 1) 1 else row.cap

/-- The credit: 1 while the credit countdown runs (R98). -/
def creditOf (v : Supply) : Nat := v.credit.isSome.toNat

/-- The effective capacity of a substation (R98); an unused one offers none (R94). -/
def effectiveCapacity (row : Sub) (v : Supply) : Nat :=
  if row.used then
    match v.state with
    | .online => baseCapacity row (v.load.getD 0) + creditOf v
    | .unknown | .stale => 1
    | .tripped => 0
  else 0

/-! ## Feeds and sections (R100, R101) -/

/-- The judgement of a feed (R100). -/
inductive Feed where
  | available
  | uncertain
  | unavailable
  deriving DecidableEq, Repr

/-- The order of R100. -/
def Feed.code : Feed → Nat
  | .available => 0
  | .uncertain => 1
  | .unavailable => 2

/-- The table of R100. -/
def judgeFeed : SubState → FeederMemory → Feed
  | .online, .closed => .available
  | .online, .opened | .online, .neverReported => .unavailable
  | .unknown, .closed | .unknown, .neverReported => .uncertain
  | .unknown, .opened => .unavailable
  | .stale, .closed | .stale, .neverReported => .uncertain
  | .stale, .opened => .unavailable
  | .tripped, _ => .unavailable

/-- The judgement of the feed from feeder `f` of substation `b`. -/
def feedOf (psv : Psv) (b : SubId) (f : FeederId) : Feed :=
  judgeFeed (psv.subs.get b).state ((psv.subs.get b).feeders.get f)

/-- The configured feeds of a section with their judgements, feed A before feed B (R101). -/
def sectionFeeds (psv : Psv) (x : Sec) : List (SubId × FeedName × Feed) :=
  (x.subA, .a, feedOf psv x.subA x.feederA) ::
    match x.subB with
    | some b => [(b, .b, feedOf psv b x.feederB)]
    | none => []

/-- The state and slot source of a section (R101). -/
def pictureOf (psv : Psv) (x : Sec) : Picture :=
  if x.used then
    let feeds := sectionFeeds psv x
    match feeds.find? fun f => decide (f.2.2 = .available) with
    | some f =>
      { state := some (if feeds.all fun f => decide (f.2.2 = .available) then .energized else .singleFed)
        source := some (f.1, f.2.1) }
    | none =>
      match feeds.find? fun f => decide (f.2.2 = .uncertain) with
      | some f => { state := some .uncertain, source := some (f.1, f.2.1) }
      | none => { state := some .dead, source := none }
  else { state := none, source := none }

/-- The slot-source substation of a section. -/
def sourceOf (s : State) (x : SecId) : Option SubId := (s.psv.secs.get x).source.map (·.1)

/-- Capacities and sections are derived afresh from the state of the substations and the line tables (R103). -/
def derived (s : State) : Psv :=
  { s.psv with
    subs := Table.build 8 fun b =>
      { s.psv.subs.get b with capacity := effectiveCapacity (s.tst.line.subs.get b) (s.psv.subs.get b) }
    secs := Table.build 32 fun x => pictureOf s.psv (s.tst.line.secs.get x) }

/-! ## Waiting lists (R107) -/

/-- Whether a waiting train stands before another: ascending Td, then ascending timing point, then the order in which they
joined (R107). -/
def Wait.before (x y : Wait) : Bool :=
  decide (x.target < y.target
    ∨ (x.target = y.target ∧ (x.point.val < y.point.val ∨ (x.point = y.point ∧ x.joined < y.joined))))

/-- A train put in its place in a waiting list, behind those it ties with (R107). -/
def insertWait (w : Wait) : List Wait → List Wait
  | [] => [w]
  | x :: rest => if w.before x then w :: x :: rest else x :: insertWait w rest

/-- Requests in the order of R86: ascending Td, timing point, and, as they come in record order, record. -/
def sortWaits (ws : List Wait) : List Wait := ws.foldl (fun q w => insertWait w q) []

/-- The number a train that joins a list takes: above that of every train in it (R107). -/
def nextJoin (ws : List Wait) : Nat := ws.foldl (fun n w => max n (w.joined + 1)) 0

/-- A list that a train has joined, behind every train of its Td and timing point (R107). -/
def waitsWith (w : Wait) (ws : List Wait) : List Wait := insertWait { w with joined := nextJoin ws } ws

/-- A train joins the waiting list of a substation. -/
def joinList (b : SubId) (w : Wait) (a : Act) : Act := a.onSupply b fun v => { v with waits := waitsWith w v.waits }

/-- Whether a train stands in some waiting list. -/
def waitsInList (s : State) (i : TrainId) : Bool :=
  s.psv.subs.items.any fun v => v.waits.any fun w => decide (w.train = i)

/-- A train is withdrawn from whatever waiting list or dead wait it stands in (R119). -/
def withdraw (i : TrainId) (a : Act) : Act :=
  let stays (ws : List Wait) : List Wait := ws.filter fun w => decide (w.train ≠ i)
  { a with
    s.psv.subs := a.s.psv.subs.map (fun v => { v with waits := stays v.waits })
    s.psv.deadWaits := stays a.s.psv.deadWaits }

/-! ## Grants and releases of slots (R110–R114) -/

/-- The scheduled departure of a train's matched step, if it is bound and has one (R75). -/
def matchedDeparture (s : State) (t : Train) : Option Nat :=
  match t.run, t.step with
  | some n, some k => (activeRun s n).map fun r => scheduledDeparture r.1.origin r.2 k
  | _, _ => none

/-- A train that R110 finds covered at the head of a list is taken to HELD as R117 lays down. Where several trains of one
timing point are taken so in one action, R110 does not say which run the HOLD_ORDER carries: the model orders for each, and
the last supersedes (DESIGN CHOICE, log entry 45). -/
def takeToHeld (w : Wait) (a : Act) : Act :=
  let run := (a.train w.train).bind (·.run)
  (a.onTrain w.train fun t => { t with state := .held, powerWait := none }).hold w.point run 255 .incident

/-- The passage memory of a timing point is written whole (R75). -/
def Act.putMemory (p : TpId) (m : Memory) (a : Act) : Act := { a with s.rrg.memory := a.s.rrg.memory.set p m }

/-- A train joins the dead-wait set, which has no order: the model lists it as the trains entered (log entry 38). -/
def Act.addDead (w : Wait) (a : Act) : Act :=
  { a with s.psv.deadWaits := a.s.psv.deadWaits ++ [{ w with joined := 0 }] }

/-- A substation grants a slot to a train: slot, RELEASE_ORDER, passage memory, DEPARTING, and the end of its power wait
(R110, R111, R75). -/
def grantSlot (b : SubId) (w : Wait) (a : Act) : Act :=
  match a.train w.train with
  | none => a
  | some t =>
    let left := cycles a.s (a.s.tst.line.points.get w.point).accel 2
    let m : Memory := { released := boundaryTime a.s, run := t.run, scheduled := matchedDeparture a.s t }
    ((((a.onSupply b fun v => { v with held := v.held + 1 }).onTrain w.train
      fun t => { t with slot := some { sub := b, left := left } }).release w.point t.run).putMemory w.point m).onTrain
      w.train (fun t => { t with state := .departing, powerWait := none }) |>.ask (.gone .powerWait (.train t.set))

/-- The grants of a substation, from the head of its waiting list on (R110). -/
def grantFrom (b : SubId) : List Wait → Act → Act
  | [], a => a.onSupply b fun v => { v with waits := [] }
  | w :: rest, a =>
    if (a.supply b).held < (a.supply b).capacity then
      if underHold a.s w.point then grantFrom b rest (takeToHeld w a) else grantFrom b rest (grantSlot b w a)
    else a.onSupply b fun v => { v with waits := w :: rest }

/-- A substation grants while its held count is below its effective capacity and a train waits (R110). -/
def grants (b : SubId) (a : Act) : Act := grantFrom b (a.supply b).waits a

/-- Every substation that can grant does (R110). R110 sets no order among substations: the model takes them in ascending
index (DESIGN CHOICE, log entry 38). -/
def grantAll (a : Act) : Act := forAll 8 grants a

/-- The slot a train holds is released, if it holds one; grants are not yet made (R112, R113). -/
def dropSlot (i : TrainId) (a : Act) : Act :=
  match (a.train i).bind (·.slot) with
  | none => a
  | some h =>
    (a.onSupply h.sub fun v => { v with held := v.held - 1 }).onTrain i fun t => { t with slot := none }

/-- The slot a train holds is released and grants follow (R113). -/
def releaseSlot (i : TrainId) (a : Act) : Act :=
  if ((a.train i).bind (·.slot)).isSome then grantAll (dropSlot i a) else a

/-- Every slot of a substation that enters TRIPPED is released (R114). -/
def releaseTripped (b : SubId) (a : Act) : Act :=
  let a := forAll 48 (fun i a =>
    if ((a.train i).bind (·.slot)).map (·.sub) = some b then a.onTrain i fun t => { t with slot := none } else a) a
  a.onSupply b fun v => { v with held := 0 }

/-! ## Placing a hand-over (R108) -/

/-- The power-wait countdown of a train that begins to wait (R120). -/
def startPowerWait (i : TrainId) (st : TrainState) (a : Act) : Act :=
  let n := cycles a.s (params a.s).powerLimit 4
  a.onTrain i fun t => { t with state := st, powerWait := some n }

/-- Whether a request can still be placed when its hand-over is: its train is DWELLING or HELD, at the timing point and with
the Td of the request (R109). A train whose timing point has come under HOLD while the hand-over waited stays HELD (log
entry 4). -/
def placeable (w : Wait) (a : Act) : Bool :=
  match a.train w.train with
  | some t =>
    decide (t.point = some w.point ∧ t.target = some w.target) &&
      (decide (t.state = .dwelling) || (decide (t.state = .held) && !underHold a.s w.point))
  | none => false

/-- One request of a hand-over is placed by the state of its section (R108). -/
def placeOne (w : Wait) (a : Act) : Act :=
  if placeable w a then
    match sourceOf a.s w.sec with
    | some b => joinList b w a
    | none =>
      (startPowerWait w.train .waitDead (a.addDead w)).hold w.point ((a.train w.train).bind (·.run)) 255 .noPower
  else a

/-- A train of a hand-over that still stands in a list once the grants are done enters WAIT_POWER (R108). -/
def settleWait (w : Wait) (a : Act) : Act :=
  if waitsInList a.s w.train then
    (startPowerWait w.train .waitPower a).hold w.point ((a.train w.train).bind (·.run)) 255 .power
  else a

/-- A hand-over of power requests is placed: all requests, then the grants, then the trains left waiting. R108 does not order
these last, of whose POWER HOLD_ORDERs to one timing point the last supersedes the others: they are taken in hand-over order
(DESIGN CHOICE, log entry 49). -/
def placeHandOver (ws : List Wait) (a : Act) : Act :=
  ws.foldl (fun a w => settleWait w a) (grantAll (ws.foldl (fun a w => placeOne w a) a))

/-! ## Re-placing waiting trains (R116) -/

/-- A waiting train of substation `b`'s list is judged by its section: it stays, moves to the new source's list, or goes
to the dead-wait set (R116). -/
def replaceOne (b : SubId) (w : Wait) (a : Act) : Act :=
  if sourceOf a.s w.sec = some b then a
  else
    let a := a.onSupply b fun v => { v with waits := v.waits.erase w }
    match sourceOf a.s w.sec with
    | some c => joinList c w a
    | none =>
      ((a.addDead w).onTrain w.train fun t => { t with state := .waitDead }).hold w.point
        ((a.train w.train).bind (·.run)) 255 .noPower

/-- The trains of substation `b`'s list, in list order. -/
def replaceList (b : SubId) (a : Act) : Act := (a.supply b).waits.foldl (fun a w => replaceOne b w a) a

/-- A train of the dead-wait set whose section has a slot source joins that source's list (R116). -/
def rejoinOne (w : Wait) (a : Act) : Act :=
  match sourceOf a.s w.sec with
  | none => a
  | some c => joinList c w { a with s.psv.deadWaits := a.s.psv.deadWaits.erase w }

/-- A train that came from the dead-wait set and still stands in a list after the grants enters WAIT_POWER with a
HOLD_ORDER; its power-wait countdown keeps its count (R116). Such trains are taken in the order of entry into the set
(DESIGN CHOICE, log entry 49). -/
def settleRejoined (w : Wait) (a : Act) : Act :=
  if waitsInList a.s w.train then
    (a.onTrain w.train fun t => { t with state := .waitPower }).hold w.point ((a.train w.train).bind (·.run)) 255 .power
  else a

/-- Steps 2 and 3 of R103: slots of tripped substations are released, waiting trains re-placed, and grants made. R116 works
list by list and then the dead-wait set; which list comes first, and the order within the set, are the model's: ascending
substation index, and the order of entry (DESIGN CHOICE, log entry 38). -/
def replaceAndGrant (tripped : List SubId) (a : Act) : Act :=
  let a := tripped.foldl (fun a b => releaseTripped b a) a
  let a := forAll 8 replaceList a
  let rejoined := a.s.psv.deadWaits.filter fun w => (sourceOf a.s w.sec).isSome
  let a := a.s.psv.deadWaits.foldl (fun a w => rejoinOne w a) a
  rejoined.foldl (fun a w => settleRejoined w a) (grantAll a)

/-! ## Telemetry (R95, R96) -/

/-- The feeder memory after a list of feeder states; a feeder beyond the list keeps its memory (R95). -/
def reportFeeders (feeders : List Bool) (m : Table FeederMemory 8) : Table FeederMemory 8 :=
  Table.build 8 fun f =>
    match feeders[f.val]? with
    | some true => .closed
    | some false => .opened
    | none => m.get f

/-- A substation after a status (R95), without its trip flag. -/
def Supply.report (v : Supply) (closed : Bool) (load : Nat) (feeders : List Bool) (countdown : Nat) : Supply :=
  { v with
    incomer := some closed
    load := some load
    feeders := reportFeeders feeders v.feeders
    telemetry := some countdown
    state := if closed then .online else .tripped }

/-- The trip flag after a change of state (R97). -/
def Supply.flagTrip (v : Supply) : Supply :=
  { v with trip := if v.state = .tripped then true else if v.state = .online then false else v.trip }

/-- The incident requests of R97 for a substation's change from `old` to `new`. Where one status ends both a silence and a
reported trip, R97 does not order the two: the model reports TELEMETRY_LOSS gone first (DESIGN CHOICE, log entry 44). -/
def tripRequests (b : SubId) (old new : Supply) : List Request :=
  (if old.state = .stale ∧ new.state ≠ .stale then [.gone .telemetryLoss (.substation b)] else [])
    ++ (if new.state = .tripped ∧ old.state ≠ .tripped ∧ old.trip = false then
          [.raise .substationTrip (.substation b) true] else [])
    ++ (if new.state = .online ∧ old.state ≠ .online ∧ old.trip = true then
          [.gone .substationTrip (.substation b)] else [])
    ++ (if new.state = .stale ∧ old.state ≠ .stale then [.raise .telemetryLoss (.substation b) true] else [])

/-- The incident requests of R102 for a section's change. -/
def deadRequests (x : SecId) (old new : Picture) : List Request :=
  if new.state = some .dead ∧ old.state ≠ some .dead then [.raise .powerLoss (.sec x) true]
  else if old.state = some .dead ∧ new.state ≠ some .dead then [.gone .powerLoss (.sec x)]
  else []

end Sys2Proof.Machine
end

