-- ==== Sys2Proof/Machine/Incidents.lean ====
section
/-! DEFINITION. The Incident Unit: records, requests, resolution, escalation, and the effects HOLD and ANNOUNCE on the
trains and zones (R123–R155, R90, R91). -/

namespace Sys2Proof.Machine

/-! ## Hold starts and hold ends (R90, R91, R151, R152) -/

/-- Whether a train is one that a hold start at `p` takes: at `p`, and DWELLING or waiting (R151). -/
def Train.taken (t : Train) (p : TpId) : Bool :=
  decide (t.point = some p ∧ (t.state = .dwelling ∨ t.state = .waitPower ∨ t.state = .waitDead))

/-- The records that a hold start at `p` takes, in record order. -/
def takenAt (s : State) (p : TpId) : List TrainId :=
  (indices 48).filter fun i => match s.rrg.trains.get i with
    | some t => t.taken p
    | none => false

/-- One train is taken to HELD: out of its list or set, Td kept, power-wait countdown none (R117, R151). -/
def holdTrain (i : TrainId) (a : Act) : Act :=
  (withdraw i a).onTrain i fun t => { t with state := .held, powerWait := none }

/-- A hold start at a timing point; while the clock is UNSET it changes no train record (R151). -/
def holdStart (p : TpId) (a : Act) : Act :=
  if clockSet a.s then
    match takenAt a.s p with
    | [] => a
    | i :: rest =>
      ((i :: rest).foldl (fun a j => holdTrain j a) a).hold p ((a.train i).bind (·.run)) 255 .incident
  else a

/-- The target of a train HELD since its arrival when its hold ends: B, raised to its last passage time plus the minimum
dwell (R91). A train that arrived while the clock was UNSET and was taken to HELD later has no Td either, without having
been HELD since its arrival; R91 and R74 do not say what its hold end gives it, and the model gives it B (DESIGN CHOICE,
log entry 41). -/
def heldTarget (b minDwell : Nat) (t : Train) : Nat :=
  match t.target with
  | some td => td
  | none =>
    match t.time with
    | some last => max b (last + minDwell)
    | none => b

/-- A train HELD at `p` at a hold end: due trains are gathered for the hand-over, the others return to DWELLING with a
REGULATION hold (R91). A record whose silence countdown has reached 0, which a boundary then removes, is in no hand-over
(R68): due, it stays HELD until it is removed. -/
def unholdTrain (p : TpId) (b : Nat) (i : TrainId) (x : List Wait × Act) : List Wait × Act :=
  match x.2.train i with
  | none => x
  | some t =>
    if t.state = .held ∧ t.point = some p then
      let row := x.2.s.tst.line.points.get p
      let td := heldTarget b row.minDwell t
      match row.depart with
      | some sec =>
        if td ≤ b then
          (if t.silence = 0 then x.1 else x.1 ++ [{ train := i, target := td, point := p, sec := sec }],
            x.2.putTrain i (some { t with target := some td }))
        else
          (x.1, (x.2.putTrain i (some { t with target := some td, state := .dwelling })).hold p t.run
            (holdSeconds (td - b)) .regulation)
      | none =>
        (x.1, (x.2.putTrain i (some { t with target := some td, state := .dwelling })).hold p t.run
          (holdSeconds (td - b)) .regulation)
    else x

/-- The hold ends of one event, timing points ascending; the due trains of all of them make one hand-over (R152). No rule
orders the records HELD at one timing point, of whose REGULATION HOLD_ORDERs the last supersedes the others: they are taken
in ascending record number (DESIGN CHOICE, log entry 44). While the clock is UNSET a hold end changes no train record. -/
def holdEnds (ps : List TpId) (a : Act) : Act :=
  match boundaryTime a.s with
  | none => a
  | some b =>
    let x := ps.foldl (fun x p => (indices 48).foldl (fun x i => unholdTrain p b i x) x) (([] : List Wait), a)
    match x.1 with
    | [] => x.2
    | ws => { x.2 with handOvers := x.2.handOvers ++ [sortWaits ws] }

/-- The coverage under HOLD is reckoned afresh for every timing point: hold starts, then `middle`, then hold ends
(R149). -/
def reckonHolds (middle : Act → Act) (a : Act) : Act :=
  let starts := (indices 64).filter fun p => underHold a.s p && !a.s.inc.underHold.get p
  let ends := (indices 64).filter fun p => a.s.inc.underHold.get p && !underHold a.s p
  let a := { a with s.inc.underHold := Table.build 64 (underHold a.s) }
  holdEnds ends (middle (starts.foldl (fun a p => holdStart p a) a))

/-! ## Areas (R125) -/

/-- The union of area sets. -/
def unionAreas (l : List AreaSet) : AreaSet := l.foldl (· ||| ·) 0

/-- Whether a used section has a feed on a substation. -/
def Sec.feeds (x : Sec) (b : SubId) : Bool := x.used && (decide (x.subA = b) || decide (x.subB = some b))

/-- The area set of a record with a class and object; `kept` is what stands where the object gives none: the set of an
OPERATOR record, and of a record whose train record no longer exists (R125). -/
def areasOf (s : State) (cls : IncClass) (object : IncObject) (kept : AreaSet) : AreaSet :=
  match object with
  | .platform p => areaBit (s.tst.line.points.get p).area
  | .sec x => areaBit (s.tst.line.secs.get x).area
  | .substation b => unionAreas ((s.tst.line.secs.items.filter (·.feeds b)).map fun x => areaBit x.area)
  | .train n =>
    match (findTrain s n).bind fun i => s.rrg.trains.get i with
    | some t =>
      match t.point with
      | some p => areaBit (s.tst.line.points.get p).area
      | none => 0
    | none => kept
  | .equipment st =>
    unionAreas ((s.tst.line.inputMap.items.filterMap id).filterMap fun m =>
      if m.equipment = st ∧ m.object = .equipment ∧ (s.tst.line.inputs.get m.inputClass).incClass = cls then
        some (areaBit m.area) else none)
  | .line _ => if cls = .clockLoss then BitVec.allOnes 16 else kept

/-! ## Reports (R139, R146, R133) -/

/-- The events of an INCIDENT report (R139). -/
inductive IncEvent where
  | opened
  | recurred
  | reopened
  | acknowledged
  | causeGone
  | resolved
  | freed
  deriving DecidableEq, Repr

/-- R139. -/
def IncEvent.code : IncEvent → Nat
  | .opened => 0
  | .recurred => 1
  | .reopened => 2
  | .acknowledged => 3
  | .causeGone => 4
  | .resolved => 5
  | .freed => 6

/-- The content of an INCIDENT report (R139). -/
def incidentContent (e : IncEvent) (r : Incident) : List Byte :=
  num1 e.code ++ num2 r.number ++ num1 r.cls.code.val ++ num1 r.object.kindCode ++ num2 r.object.ident
    ++ num2 r.areas.toNat ++ num1 r.state.code ++ num1 r.cause.code ++ num1 r.level ++ num1 r.recurrences
    ++ flag1 r.recurred

/-- An INCIDENT report is made (kind 0). -/
def Act.tell (e : IncEvent) (r : Incident) (a : Act) : Act := a.report 0 (incidentContent e r)

/-- A record is written and the event reported with its values (R139). -/
def Act.record (e : IncEvent) (i : IncId) (r : Incident) (a : Act) : Act := (a.putIncident i (some r)).tell e r

/-! ## Announcements (R153) -/

/-- The template of a class record for exactly a level. -/
def ClassRow.at (c : ClassRow) : Nat → Option TmplId
  | 0 => c.template0
  | 1 => c.template1
  | 2 => c.template2
  | _ => c.template3

/-- The template for a level, falling back to the highest lower level that has one (R153). -/
def ClassRow.choose (c : ClassRow) : Nat → Option TmplId
  | 0 => c.at 0
  | l + 1 => (c.at (l + 1)).orElse fun _ => c.choose l

/-- The template for a record's current level (R153). -/
def chosenTemplate (s : State) (r : Incident) : Option TmplId :=
  if r.cls = .operator then r.template else (classRow s r.cls).choose r.level

/-- The zones a record's ANNOUNCE effect reaches, ascending (R148). -/
def reachedZones (s : State) (r : Incident) : List ZoneId :=
  (indices 24).filter fun z => decide (r.areas &&& (s.tst.line.zones.get z).areas ≠ 0)

/-- The template and the zones of a record's announcement; none when it makes no entry (R153). -/
def announcement (s : State) (r : Incident) : Option (TmplId × List ZoneId) :=
  if r.effects.announce then (chosenTemplate s r).map fun t => (t, reachedZones s r) else none

/-- A record's announcement entries are handed to the ASC, zones ascending (R153). -/
def announceIncident (r : Incident) (a : Act) : Act :=
  match announcement a.s r with
  | none => a
  | some (t, zs) =>
    let e : NewEntry :=
      { template := t, source := .incident r.number, params := [r.number, r.level],
        repeats := (classRow a.s r.cls).repeats, interval := none, expiry := none }
    zs.foldl (fun a z => (placeEntry z e a).1) a

/-! ## Opening, merging and reopening (R130–R133) -/

/-- The number after `n`: from 65535 it passes to 1 (R124). -/
def numberAfter (n : Nat) : Nat := if 65535 ≤ n then 1 else n + 1

/-- The first number from `n` on, in counting order, that no record in use holds. At most 32 are held, so 33 tries find
one. -/
def freshNumber (used : List Nat) : Nat → Nat → Nat
  | 0, n => n
  | k + 1, n => if n ∈ used then freshNumber used k (numberAfter n) else n

/-- The record a raise may open: the lowest-numbered free one, or the one that has been RESOLVED longest, whose incident
is then reported FREED (R130, R133). -/
def takeRecord (a : Act) : Option (IncId × Act) :=
  match freeIncident a.s with
  | some i => some (i, a)
  | none =>
    match a.s.inc.resolved with
    | [] => none
    | i :: rest =>
      let b := { a with s.inc.resolved := rest }
      match a.incident i with
      | some r => some (i, (b.tell .freed r).putIncident i none)
      | none => some (i, b)

/-- What a raise gives a new record besides its number (R130, R137). -/
structure Opening where
  cls : IncClass
  object : Option IncObject
  areas : Option AreaSet
  effects : Effects
  mandatory : Bool
  template : Option TmplId
  cause : Cause
  countdown : Option Nat
  deriving DecidableEq, Repr

/-- A record is opened in `i`: it takes the next number, is RAISED at level 0, is reported OPENED, and its effects start
(R130, R149). An OPERATOR incident's object is LINE with its own number. -/
def openRecord (o : Opening) (i : IncId) (a : Act) : Act :=
  let n := a.s.inc.nextNumber
  let object := o.object.getD (.line n)
  let r : Incident :=
    { number := n, cls := o.cls, object := object, areas := o.areas.getD (areasOf a.s o.cls object 0),
      effects := o.effects, mandatory := o.mandatory, template := o.template, state := .raised, cause := o.cause,
      level := 0, countdown := o.countdown, recurrences := 0, recurred := false, opened := boundaryTime a.s,
      ackTag := none, retention := none }
  let a := a.putIncident i (some r)
  let a := { a with s.inc.nextNumber := freshNumber ((incidents a.s).map Incident.number) 33 (numberAfter n) }
  reckonHolds (announceIncident r) (a.tell .opened r)

/-- A raise that found the table full is counted, and reported at most once a tick (R133). -/
def refuseRaise (cls : IncClass) (object : IncObject) (a : Act) : Act :=
  let a := { a with s.inc.refused := bump a.s.inc.refused }
  if a.s.inc.holdOff then a
  else
    let a := a.report 4 (num1 cls.code.val ++ num1 object.kindCode ++ num2 object.ident ++ num2 a.s.inc.refused)
    { a with s.inc.holdOff := true }

/-- What a raise of a class other than OPERATOR gives a new record (R130). -/
def openingOf (s : State) (cls : IncClass) (object : IncObject) (present : Bool) : Opening :=
  let row := classRow s cls
  { cls := cls, object := some object, areas := none, effects := row.effects, mandatory := row.mandatory,
    template := none, cause := if present then .present else .absent, countdown := some row.reload }

/-- A recurrence (R131). -/
def recur (i : IncId) (r : Incident) (present : Bool) (a : Act) : Act :=
  let r' : Incident :=
    { r with
      recurrences := min (r.recurrences + 1) 255
      cause := if present then .present else r.cause
      recurred := r.recurred || decide (r.state = .acknowledged)
      areas := areasOf a.s r.cls r.object r.areas }
  reckonHolds id (a.record .recurred i r')

/-- A reopening (R132). -/
def reopen (i : IncId) (r : Incident) (present : Bool) (a : Act) : Act :=
  let row := classRow a.s r.cls
  let r' : Incident :=
    { r with
      state := .raised
      countdown := some row.reload
      recurrences := min (r.recurrences + 1) 255
      recurred := false
      ackTag := none
      retention := none
      cause := if present then .present else .absent
      effects := row.effects
      mandatory := row.mandatory
      areas := areasOf a.s r.cls r.object r.areas }
  let a := { a with s.inc.resolved := a.s.inc.resolved.filter fun j => decide (j ≠ i) }
  reckonHolds (announceIncident r') (a.record .reopened i r')

/-- A raise is handled by what the INC holds for its key (R130–R133). -/
def handleRaise (cls : IncClass) (object : IncObject) (present : Bool) (a : Act) : Act :=
  match findKey a.s cls object with
  | some i =>
    match a.incident i with
    | some r => if r.state = .resolved then reopen i r present a else recur i r present a
    | none => a
  | none =>
    match takeRecord a with
    | some (i, b) => openRecord (openingOf a.s cls object present) i b
    | none => refuseRaise cls object a

/-! ## Resolution (R134, R138, R154) -/

/-- A record enters RESOLVED: retention starts, RESOLVED is reported, its entries are removed from every zone, and its
holds end (R138, R149). -/
def resolve (i : IncId) (r : Incident) (a : Act) : Act :=
  let r' : Incident := { r with state := .resolved, retention := some (cycles a.s (classRow a.s r.cls).retention 1) }
  let a := { a with s.inc.resolved := a.s.inc.resolved ++ [i] }
  let a := a.record .resolved i r'
  reckonHolds (forAll 24 (zoneRemove (.incident r.number))) a

/-- A cause-gone request (R134). An ACKNOWLEDGED record enters RESOLVED also where INCIDENT_RESOLVE was refused with
CAUSE_PRESENT just before: R141's cell for that pair says that the record stays in its state, and the model follows R134, from
which R141 draws its outcomes (DEDUCED, log entry 54). -/
def handleGone (cls : IncClass) (object : IncObject) (a : Act) : Act :=
  match (findKey a.s cls object).bind fun i => (a.incident i).map fun r => (i, r) with
  | none => a
  | some (i, r) =>
    if r.cause = .present then
      match r.state with
      | .raised => a.record .causeGone i { r with cause := .gone }
      | .acknowledged => resolve i { r with cause := .gone } a
      | .resolved => a
    else a

/-- A RESOLVED record is freed and reported so (R138). -/
def freeResolved (i : IncId) (r : Incident) (a : Act) : Act :=
  let a := { a with s.inc.resolved := a.s.inc.resolved.filter fun j => decide (j ≠ i) }
  (a.tell .freed r).putIncident i none

/-! ## Requests handed on (log entry 4) -/

/-- One request is handled. -/
def handleRequest (r : Request) (a : Act) : Act :=
  match r with
  | .raise c o present => handleRaise c o present a
  | .gone c o => handleGone c o a

/-- What an action has handed on is worked off: incident requests in the order they arose, and, when there is none,
the next hand-over of trains. -/
def drainFor : Nat → Act → Act
  | 0, a => a
  | k + 1, a =>
    match a.requests, a.handOvers with
    | r :: rest, _ => drainFor k (handleRequest r { a with requests := rest })
    | [], ws :: rest => drainFor k (placeHandOver ws { a with handOvers := rest })
    | [], [] => a

/-- Everything an action has handed on is worked off. An action makes at most 48 grants, since a granted train is past
recall, and ends at most 32 incidents, so 1000 pieces of work are more than any action hands on (log entry 4). -/
def drain (a : Act) : Act := drainFor 1000 a

/-- Requests are handed to the INC as they arise (R60) and worked off at once. -/
def Act.request (r : Request) (a : Act) : Act := drain (a.ask r)

/-! ## Escalation (R143–R147) -/

/-- The content of an ESCALATION report (R146). -/
def escalationContent (r : Incident) (before : IncState) (chosen : Option (TmplId × List ZoneId)) : List Byte :=
  num2 r.number ++ num1 r.cls.code.val ++ num1 r.object.kindCode ++ num2 r.object.ident ++ num2 r.areas.toNat
    ++ num1 r.state.code ++ num1 r.level ++ num1 before.code ++ num1 (r.countdown.getD 255)
    ++ opt1 (chosen.map (·.1.val)) ++ num1 ((chosen.map (·.2.length)).getD 0)

/-- The record after an escalation (R145). -/
def Incident.escalated (r : Incident) (reload : Nat) : Incident :=
  { r with level := min (r.level + 1) 3, countdown := some reload, state := .raised }

/-- A record escalates (R145). -/
def escalate (i : IncId) (r : Incident) (a : Act) : Act :=
  let r' := r.escalated (classRow a.s r.cls).reload
  let a := a.putIncident i (some r')
  announceIncident r' (a.report 1 (escalationContent r' r.state (announcement a.s r')))

/-- The fall of a record's countdown at a tick: an open record whose countdown is not idle is lowered by one, and
escalates at 0 (R144). -/
def tickRecord (i : IncId) (a : Act) : Act :=
  match a.incident i with
  | none => a
  | some r =>
    match r.countdown with
    | none => a
    | some n =>
      if r.live then
        if n ≤ 1 then escalate i r a else a.putIncident i (some { r with countdown := some (n - 1) })
      else a

/-- An escalation tick: the prescaler is reloaded, the table-full hold-off cleared, and the records taken in ascending
order (R143, R144). -/
def tick (a : Act) : Act :=
  let n := cycles a.s (params a.s).tick 4
  forAll 32 tickRecord { a with s.inc.prescaler := n, s.inc.holdOff := false }

/-! ## Equipment inputs (R126–R128) -/

/-- The incident object of an input-map entry (R126). -/
def MapRow.incObject (m : MapRow) : IncObject :=
  match m.object with
  | .platform p => .platform p
  | .equipment => .equipment m.equipment

/-- The sensitivity of an input-map entry. -/
def rowInput (s : State) (m : MapRow) : InputRow := s.tst.line.inputs.get m.inputClass

/-- The state a report gives for an input-map entry: none when the entry is empty, names another station, or lies beyond
the report's list (R126). -/
def reported (s : State) (src : Byte) (inputs : List Bool) (k : MapId) : Option (MapRow × Bool) :=
  match s.tst.line.inputMap.get k with
  | some m => if m.equipment = src then (inputs[m.input.val]?).map fun b => (m, b) else none
  | none => none

/-- The edge memory after a report (R126). -/
def edgesAfter (s : State) (src : Byte) (inputs : List Bool) : Table Edge 64 :=
  Table.build 64 fun k =>
    match reported s src inputs k with
    | some (_, true) => .asserted
    | some (_, false) => .released
    | none => s.inc.edges.get k

/-- Whether an edge is a raise for a sensitivity (R127). -/
def edgeRaises : Sensitivity → Edge → Bool → Bool
  | .rise, .released, true => true
  | .fall, .asserted, false => true
  | .both, .released, true => true
  | .both, .asserted, false => true
  | _, _, _ => false

/-- Whether a LEVEL entry other than `k` with the key given has memory ASSERTED (R128). -/
def otherAsserted (s : State) (k : MapId) (c : IncClass) (o : IncObject) : Bool :=
  (indices 64).any fun j =>
    decide (j ≠ k) && decide (s.inc.edges.get j = .asserted) &&
      match s.tst.line.inputMap.get j with
      | some m =>
        decide ((rowInput s m).sensitivity = .level ∧ (rowInput s m).incClass = c ∧ m.incObject = o)
      | none => false

/-- One input-map entry acts on a report, with the memory it held before the report (R127, R128). -/
def actOnInput (old : Table Edge 64) (src : Byte) (inputs : List Bool) (k : MapId) (a : Act) : Act :=
  match reported a.s src inputs k with
  | none => a
  | some (m, b) =>
    let row := rowInput a.s m
    let o := m.incObject
    match row.sensitivity with
    | .level =>
      if b then
        if old.get k ≠ .asserted ∨ findKey a.s row.incClass o = none then a.request (.raise row.incClass o true) else a
      else if old.get k = .asserted ∧ otherAsserted a.s k row.incClass o = false then
        a.request (.gone row.incClass o)
      else a
    | .rise | .fall | .both =>
      if edgeRaises row.sensitivity (old.get k) b then a.request (.raise row.incClass o false) else a

/-- An EQUIPMENT_STATUS handed to the INC (R126). -/
def equipmentReport (src : Byte) (inputs : List Bool) (a : Act) : Act :=
  let old := a.s.inc.edges
  forAll 64 (actOnInput old src inputs) { a with s.inc.edges := edgesAfter a.s src inputs }

end Sys2Proof.Machine
end

