-- ==== Sys2Proof/Machine/Supply.lean ====
section
/-! DEFINITION. The events of the Power Supervisor, each one derivation of the supply picture (R95–R106, R118). -/

namespace Sys2Proof.Machine

/-- The derivation of R103. The substations have already been changed by the event; the pictures of the sections are
still those before it. The picture is derived afresh, and handed on: the incident requests of the substations and
sections, then the re-placing of waiting trains, then the grants. What those hand on in turn is worked off last. R103 sets
no order among the requests of step 1: those of the substations come first, each kind in ascending index (DESIGN CHOICE, log
entry 44). -/
def deriveSupply (requests : List Request) (tripped : List SubId) (a : Act) : Act :=
  let old := a.s.psv.secs
  let a := { a with s.psv := derived a.s }
  let sections := (indices 32).flatMap fun x => deadRequests x (old.get x) (a.s.psv.secs.get x)
  let a := (requests ++ sections).foldl (fun a r => handleRequest r a) a
  drain (replaceAndGrant tripped a)

/-- Whether a substation enters TRIPPED. -/
def entersTripped (old new : Supply) : Bool := decide (new.state = .tripped ∧ old.state ≠ .tripped)

/-- The substations a status applies to: the used ones whose telemetry unit is its source (R95). -/
def statusTargets (s : State) (src : Byte) : List SubId :=
  (indices 8).filter fun b => (s.tst.line.subs.get b).used && decide ((s.tst.line.subs.get b).unit = src)

/-- A SUBSTATION_STATUS handed to the PSV (R95). One from a station that is no used substation's unit is not acted on. -/
def statusReport (src : Byte) (closed : Bool) (load : Nat) (feeders : List Bool) (a : Act) : Act :=
  match statusTargets a.s src with
  | [] => a
  | targets =>
    let after := fun b : SubId =>
      ((a.supply b).report closed load feeders (cycles a.s (a.s.tst.line.subs.get b).telemetry 3)).flagTrip
    let requests := targets.flatMap fun b => tripRequests b (a.supply b) (after b)
    let tripped := targets.filter fun b => entersTripped (a.supply b) (after b)
    deriveSupply requests tripped (targets.foldl (fun a' b => a'.onSupply b fun _ => after b) a)

/-- A substation whose telemetry countdown has run out (R96). -/
def Supply.silent (v : Supply) : Supply := { v with telemetry := none, state := .stale }

/-- The telemetry countdowns of some substations have run out (R96). -/
def telemetryOut (bs : List SubId) (a : Act) : List Request × Act :=
  (bs.flatMap fun b => tripRequests b (a.supply b) (a.supply b).silent,
    bs.foldl (fun a b => a.onSupply b Supply.silent) a)

/-- The credits of some substations have run out (R99). -/
def creditOut (bs : List SubId) (a : Act) : Act := bs.foldl (fun a b => a.onSupply b fun v => { v with credit := none }) a

/-- The PSV's boundary work once every countdown has fallen: all expiries in one derivation (R103, R112). -/
def supplyBoundary (a : Act) : Act :=
  let silent := (indices 8).filter fun b => decide ((a.supply b).telemetry = some 0)
  let spent := (indices 8).filter fun b => decide ((a.supply b).credit = some 0)
  let ended := (indices 48).filter fun i => decide (((a.train i).bind (·.slot)).map (·.left) = some 0)
  let (requests, a) := telemetryOut silent a
  deriveSupply requests [] (ended.foldl (fun a i => dropSlot i a) (creditOut spent a))

/-- An APPROACH handed on by the RRG gives a regeneration credit where R99 says so. -/
def giveCredit (p : TpId) (a : Act) : Act :=
  let row := a.s.tst.line.points.get p
  if clockSet a.s ∧ row.kind = .platform then
    match row.depart.bind (sourceOf a.s) with
    | some b =>
      let n := cycles a.s (a.s.tst.line.subs.get b).window 1
      deriveSupply [] [] (a.onSupply b fun v => { v with credit := some n })
    | none => a
  else a

/-- The supply when line tables have been validated: every used substation UNKNOWN with its telemetry countdown running
(R96, R101). -/
def supplyValidated (a : Act) : Act :=
  let subs := Table.build 8 fun b =>
    let row := a.s.tst.line.subs.get b
    { Supply.start with telemetry := if row.used then some (cycles a.s row.telemetry 3) else none }
  let a := { a with s.psv := { subs := subs, secs := a.s.psv.secs, deadWaits := [] } }
  { a with s.psv := derived a.s }

/-- A substation over a WARM restart (R106, R122). -/
def Supply.warm (v : Supply) : Supply :=
  { v with credit := none, trip := decide (v.state = .tripped), held := 0, waits := [] }

/-- The supply over a WARM restart (R106, R122): derived afresh from the kept states while valid tables are held, and at
its first values otherwise. -/
def supplyWarm (s : State) : Psv :=
  if tablesValid s then
    derived { s with psv := { subs := s.psv.subs.map Supply.warm, secs := s.psv.secs, deadWaits := [] } }
  else Psv.start

/-- The raises the PSV makes after a WARM restart for what is then TRIPPED, STALE or DEAD (R106). Their order is the model's:
substations ascending, SUBSTATION_TRIP and TELEMETRY_LOSS as they come, then sections ascending (DESIGN CHOICE, log entry
39). -/
def standingRaises (s : State) : List Request :=
  (indices 8).flatMap (fun b =>
      if (s.tst.line.subs.get b).used then
        match (s.psv.subs.get b).state with
        | .tripped => [.raise .substationTrip (.substation b) true]
        | .stale => [.raise .telemetryLoss (.substation b) true]
        | .unknown | .online => []
      else [])
    ++ (indices 32).flatMap fun x =>
      if (s.psv.secs.get x).state = some .dead then [.raise .powerLoss (.sec x) true] else []

/-! ## Edits of departure sections (R118) -/

/-- A train that waits from a timing point whose departure section an edit has removed: back to DWELLING with a
REGULATION hold (R118). -/
def unwait (w : Wait) (a : Act) : Act :=
  let b := (boundaryTime a.s).getD 0
  let run := (a.train w.train).bind (·.run)
  ((withdraw w.train a).onTrain w.train fun t => { t with state := .dwelling, powerWait := none }).hold w.point run
    (holdSeconds (w.target - b)) .regulation

/-- Every train that waits in a list or in the dead-wait set, list by list. -/
def allWaits (psv : Psv) : List Wait := psv.subs.items.flatMap (·.waits) ++ psv.deadWaits

/-- The departure section of a waiting train's timing point replaces the section it carries (R118). -/
def Wait.resection (line : LineTables) (w : Wait) : Wait :=
  match (line.points.get w.point).depart with
  | some x => { w with sec := x }
  | none => w

/-- An edit group has changed departure sections: waiting trains carry the new ones, and those with none left return to
DWELLING. The derivation that follows re-places them. R118 places the return nowhere in the derivation and orders no trains:
the model makes it first, over the lists in ascending substation index and then the dead-wait set, so that the last
HOLD_ORDER made to a timing point supersedes the others (DESIGN CHOICE, log entry 48). -/
def resectionWaits (changed : TpId → Bool) (a : Act) : Act :=
  let leaving := (allWaits a.s.psv).filter fun w =>
    changed w.point && ((a.s.tst.line.points.get w.point).depart).isNone
  let a := leaving.foldl (fun a w => unwait w a) a
  let f : Wait → Wait := fun w => if changed w.point then w.resection a.s.tst.line else w
  { a with
    s.psv.subs := a.s.psv.subs.map (fun v => { v with waits := v.waits.map f })
    s.psv.deadWaits := a.s.psv.deadWaits.map f }

end Sys2Proof.Machine
end

