-- ==== Sys2Proof/Machine/Trains.lean ====
section
/-! DEFINITION. The Run Regulator: binding, passages, removal, countdowns, the day roll and the service announcement
(R59–R77, R84–R93, R172–R177). -/

namespace Sys2Proof.Machine

/-! ## Binding (R62, R71, R72) -/

/-- A record loses its run and step, and its late flag; the LATE_RUNNING cause of a late one is to be reported gone
(R71). -/
def unbind (i : TrainId) (a : Act) : Act :=
  match a.train i with
  | none => a
  | some t =>
    let a := a.putTrain i (some { t with run := none, step := none, late := false })
    if t.late then a.ask (.gone .lateRunning (.train t.set)) else a

/-- A record becomes unscheduled (R71). -/
def unschedule (i : TrainId) (a : Act) : Act := drain (unbind i a)

/-- The other record bound to a run, if there is one. -/
def boundElsewhere (s : State) (i : TrainId) (n : Nat) : Option TrainId :=
  (indices 48).find? fun j => decide (j ≠ i ∧ (s.rrg.trains.get j).bind (·.run) = some n)

/-- A record is bound to a run of the ACTIVE profile, taking it from any other record (R62). R62 does not place the
LATE_RUNNING cause that the other record's late spell leaves: the model works it off once this record is bound (DESIGN
CHOICE, log entry 37). -/
def bindRun (i : TrainId) (n : Nat) (a : Act) : Act :=
  let bound := a.onTrain i fun t => { t with run := some n, step := none }
  match boundElsewhere a.s i n with
  | some j => unschedule j bound
  | none => bound

/-- The run carried in a passage is applied to a record (R62). -/
def applyRun (i : TrainId) (n : Nat) (a : Act) : Act :=
  if n = 0 ∨ (a.train i).bind (·.run) = some n then a
  else if (activeRun a.s n).isSome then bindRun i n a
  else if ((a.train i).bind (·.run)).isSome then unschedule i a
  else a

/-- A record after a profile activation: a run that the new profile holds is kept with step index none, another is lost, and
the cause of a late spell it ends is to be reported gone (R72). -/
def rebindOne (i : TrainId) (a : Act) : Act :=
  match (a.train i).bind (·.run) with
  | none => a
  | some n => if (activeRun a.s n).isSome then a.onTrain i fun t => { t with step := none } else unbind i a

/-- The RRG rebinds its trains to the ACTIVE profile (R72). R72 does not place the LATE_RUNNING causes of the records made
unscheduled: the model hands them to the INC, in record order, once every record has been taken, so that no consequence
reads an old step index in the new profile (DESIGN CHOICE, log entry 37). -/
def rebind (a : Act) : Act := drain (forAll 48 rebindOne a)

/-! ## Creation and removal (R61, R68) -/

/-- The record of a train heard for the first time (Table 4-1, column "at creation"). -/
def newTrain (set : Nat) : Train :=
  { set := set, run := none, step := none, state := .running, point := none, time := none, dev := 0, target := none,
    overdue := none, powerWait := none, slot := none, late := false, silence := 480 }

/-- A creation refused for a full table is counted, and reported unless the hold-off runs (R61). Whether a refusal while the
hold-off runs sets it to 60 again can be read either way from R61: the model sets it only with a report due, where it stands at
0 (DESIGN CHOICE, log entry 55). -/
def refuseCreation (set : Nat) (p : TpId) (a : Act) : Act :=
  let a := { a with s.rrg.refused := bump a.s.rrg.refused }
  if a.s.rrg.holdOff = 0 then
    let a := a.report 5 (num2 set ++ num1 p.val ++ num2 a.s.rrg.refused)
    { a with s.rrg.holdOff := 60 }
  else a

/-- A record is removed: its slot is released, the train withdrawn, the record freed, and its causes reported gone
(R68). The record is freed before the causes are reported, so that a hold they end finds no train to release (log
entry 7). A waiting train that is removed counts no unplanned departure: R119 has removal among the exits that end the stop as
R66 states, while R68 names no count (DESIGN CHOICE, log entry 53). -/
def removeTrain (i : TrainId) (a : Act) : Act :=
  match a.train i with
  | none => a
  | some t =>
    let a := drain (releaseSlot i a)
    let a := (withdraw i a).putTrain i none
    let a := a.request (.gone .trainStalled (.train t.set))
    let a := a.request (.gone .lateRunning (.train t.set))
    a.request (.gone .powerWait (.train t.set))

/-! ## Matching and lateness (R63, R69, R70) -/

/-- The step a passage at `p` matches, with the run and its legs (R63). -/
def matchStep (s : State) (t : Train) (p : TpId) : Option (Nat × Run × List Leg) :=
  match t.run.bind (activeRun s) with
  | none => none
  | some (r, legs) => (findStep legs (t.step.getD 0) p).map fun k => (k, r, legs)

/-- What a matched step gives departure regulation. -/
def matchedTimes (m : Nat × Run × List Leg) : Matched :=
  { arrival := scheduledArrival m.2.1.origin m.2.2 m.1
    departure := scheduledDeparture m.2.1.origin m.2.2 m.1
    dwell := ((m.2.2[m.1]?).map (·.dwell)).getD 0 }

/-- A record after a match: the step index, and, for an arrival or pass, the deviation (R63). -/
def Train.matched (t : Train) (m : Option (Nat × Run × List Leg)) (time : Option Nat) : Train :=
  match m with
  | none => t
  | some m =>
    { t with
      step := some m.1
      dev := match time with
        | some a => saturateDev ((a : Int) - (matchedTimes m).arrival)
        | none => t.dev }

/-- The overdue countdown set on a DEPART or PASS (R69). -/
def overdueCount (s : State) (t : Train) : Nat :=
  match t.run.bind (activeRun s), t.step with
  | some (_, legs), some k =>
    match legs[k + 1]? with
    | some next => cycles s (next.runTime + (params s).stall) 4
    | none => cycles s s.tst.line.defaults.stall 4
  | _, _ => cycles s s.tst.line.defaults.stall 4

/-- The late-running test (R70). -/
def lateTest (i : TrainId) (a : Act) : Act :=
  match a.train i with
  | none => a
  | some t =>
    let p := params a.s
    if (p.late : Int) ≤ t.dev ∧ t.late = false then
      (a.putTrain i (some { t with late := true })).request (.raise .lateRunning (.train t.set) true)
    else if t.dev < (p.late : Int) - p.hysteresis ∧ t.late = true then
      (a.putTrain i (some { t with late := false })).request (.gone .lateRunning (.train t.set))
    else a

/-! ## Passages by event (R64–R67) -/

/-- What the event work of a passage tells the annex and the service announcement. -/
structure Heard where
  cap : Bool
  secs : Option Nat
  /-- The train stands at the step it was last matched to (R173). -/
  standing : Bool
  deriving DecidableEq, Repr

/-- An event that issued no HOLD_ORDER. -/
def Heard.nothing : Heard := { cap := false, secs := none, standing := false }

/-- A stop is ended as an unplanned departure (R66). -/
def endStop (i : TrainId) (a : Act) : Act :=
  match a.train i with
  | none => a
  | some t =>
    let a := { a with s.rrg.unplanned := bump a.s.rrg.unplanned }
    let a := (withdraw i a).onTrain i fun t => { t with state := .running, target := none, powerWait := none }
    a.request (.gone .powerWait (.train t.set))

/-- A stop, if the record is in one, is ended as an unplanned departure (R64–R66). -/
def endAnyStop (i : TrainId) (a : Act) : Act :=
  if ((a.train i).map (·.state.stopped)).getD false then endStop i a else a

/-- The TRAIN_STALLED cause of a train is reported gone (R69). -/
def stallGone (set : Nat) (a : Act) : Act := a.request (.gone .trainStalled (.train set))

/-- The inputs of the departure computation for an arrival at `p` at time `now` (R78). -/
def regulationInputs (s : State) (p : TpId) (now : Nat) (m : Option (Nat × Run × List Leg)) : Inputs :=
  let row := s.tst.line.points.get p
  let mem := s.rrg.memory.get p
  let q := params s
  { time := now, sched := m.map matchedTimes, minDwell := row.minDwell, defDwell := row.dwell,
    released := mem.released, releasedSched := mem.scheduled, w := q.w, hmin := q.hmin, hx := q.hx,
    hn := s.tst.line.defaults.hn }

/-- Stages 1 to 7 for the arrival of record `i` at `p` at time `now` (R79–R84). -/
def regulate (i : TrainId) (p : TpId) (now : Nat) (a : Act) : Act × Heard :=
  match a.train i with
  | none => (a, Heard.nothing)
  | some t =>
    let m := matchStep a.s t p
    let t := t.matched m (some now)
    let x := regulationInputs a.s p now m
    let r := x.target (underHold a.s p) (decide (mode a.s = .prepared))
      (decide (a.s.lck.lock = .unlocked) || underSuspend a.s p)
    match r.1 with
    | none =>
      ((a.putTrain i (some { t with target := none, state := .held })).hold p t.run 255 .incident,
        { cap := false, secs := some 255, standing := m.isSome })
    | some td =>
      let secs := holdSeconds (td - now)
      ((a.putTrain i (some { t with target := some td, state := .dwelling })).hold p t.run secs .regulation,
        { cap := r.2, secs := some secs, standing := m.isSome })

/-- Whether record `t`'s step index names timing point `p`. -/
def standsAt (s : State) (t : Train) (p : TpId) : Bool :=
  match t.run.bind (activeRun s), t.step with
  | some (_, legs), some k => decide ((legs[k]?).map (·.point) = some p)
  | _, _ => false

/-- An ARRIVE at a PLATFORM (R64, R74). R64 and R69 give no place for reporting the TRAIN_STALLED cause gone: the model
reports it when the overdue countdown is cancelled, before stages 1 to 7 (DESIGN CHOICE, log entry 37). R63 speaks of every
passage of a bound record while R64 names no match for a repeat ARRIVE: the model makes none, so a run that a repeat ARRIVE
newly binds has no step index (DESIGN CHOICE, log entry 56). -/
def arrive (i : TrainId) (p : TpId) (time : Option Nat) (a : Act) : Act × Heard :=
  match a.train i with
  | none => (a, Heard.nothing)
  | some t =>
    if t.state.stopped ∧ t.point = some p then (a, { Heard.nothing with standing := standsAt a.s t p })
    else
      let a := drain (releaseSlot i (endAnyStop i a))
      let a := a.onTrain i fun t => { t with overdue := none, point := some p, time := time }
      let a := stallGone t.set a
      match time with
      | some now => regulate i p now a
      | none => (a.onTrain i fun t => { t with state := .dwelling, target := none }, Heard.nothing)

/-- A PASS, or an ARRIVE at a PASS_POINT (R65, R74). -/
def passThrough (i : TrainId) (p : TpId) (time : Option Nat) (a : Act) : Act :=
  let a := drain (releaseSlot i (endAnyStop i a))
  match a.train i with
  | none => a
  | some t =>
    let t := { t with point := some p, time := time, target := none, state := .running }
    let t := if time.isSome then t.matched (matchStep a.s t p) time else t
    let t := if time.isSome then { t with overdue := some (overdueCount a.s t) } else t
    stallGone t.set (a.putTrain i (some t))

/-- A DEPART (R66, R74). -/
def departTrain (i : TrainId) (p : TpId) (time : Option Nat) (a : Act) : Act :=
  let a := endAnyStop i a
  match a.train i with
  | none => a
  | some t =>
    let t := { t with point := some p, time := time, target := none, state := .running }
    let t := if time.isSome then t.matched (matchStep a.s t p) none else t
    let t := if time.isSome then { t with overdue := some (overdueCount a.s t) } else t
    stallGone t.set (a.putTrain i (some t))

/-- Whether a passage removes its train: an ARRIVE or PASS at a LINE_EXIT (R68). -/
def removes (s : State) (p : Passage) : Bool :=
  decide ((s.tst.line.points.get p.point).kind = .lineExit ∧ (p.event = .arrive ∨ p.event = .pass))

/-- The work of a passage's event (step 3 of R60). -/
def eventWork (i : TrainId) (p : Passage) (time : Option Nat) (a : Act) : Act × Heard :=
  match p.event with
  | .arrive =>
    if (a.s.tst.line.points.get p.point).kind = .platform then arrive i p.point time a
    else (passThrough i p.point time a, Heard.nothing)
  | .pass => (passThrough i p.point time a, Heard.nothing)
  | .depart => (departTrain i p.point time a, Heard.nothing)
  | .approach => (giveCredit p.point a, Heard.nothing)

/-! ## The service announcement (R172–R177) -/

/-- The minutes announced for a remaining time (R174). -/
def minutesOf (remaining : Nat) : Nat := clamp 1 99 ((remaining + 599) / 600)

/-- The delay minutes of a deviation (R175). -/
def delayMinutes (d : Int) : Nat := clamp 1 99 ((d + 300) / 600).toNat

/-- The entry a trigger makes for a train, if the run serves the target from here (R173–R176). -/
def serviceEntry (s : State) (row : Point) (t : Train) (now : Nat) (standing : Bool) : Option NewEntry :=
  match t.run, t.run.bind (activeRun s), t.step with
  | some n, some (r, legs), some k =>
    (findStep legs (if standing then k else k + 1) row.trigTarget).map fun j =>
      let q := max ((scheduledArrival r.origin legs j : Int) + t.dev) now
      let remaining := (q - now).toNat
      let delayed := decide (((params s).delay : Int) ≤ t.dev)
      let m := if delayed then row.trigDelayed else row.trigNext
      { template := m, source := .run n
        params := [r.destination, row.trigTarget.val, minutesOf remaining]
          ++ (if delayed then [delayMinutes t.dev] else [])
        repeats := (s.tst.line.templates.get m).repeats, interval := none
        expiry := some (cycles s remaining 1) }
  | _, _, _ => none

/-- The service announcement a passage may make (step 5 of R60, R172). -/
def serviceAnnouncement (i : TrainId) (p : TpId) (time : Option Nat) (standing : Bool) (a : Act) : Act :=
  let row := a.s.tst.line.points.get p
  match time, a.train i with
  | some now, some t =>
    if row.hasTrigger then
      match serviceEntry a.s row t now standing with
      | some e => (placeEntry row.trigZone e a).1
      | none => a
    else a
  | _, _ => a

/-! ## The passage as a whole (R60) -/

/-- The seven bytes of an annex (Table 1-10). -/
def annexBytes (state run : Nat) (dev : Int) (unsure cap : Bool) (secs : Option Nat) : List Byte :=
  num1 state ++ num2 run ++ int2 dev ++ num1 (unsure.toNat + 2 * cap.toNat + 4 * secs.isSome.toNat)
    ++ num1 (secs.getD 0)

/-- The annex of a record as it stands (step 6 of R60), with the cap and the hold seconds that regulation supplied. Where the
late test or another consequence has changed the state since stage 7, R85 gives the state that stage 7 left and R60 the one
that now stands: the model takes R60's (DESIGN CHOICE, log entry 52). -/
def annexOf (s : State) (i : TrainId) (h : Heard) : List Byte :=
  match s.rrg.trains.get i with
  | some t => annexBytes t.state.code (t.run.getD 0) t.dev (uncertain s) h.cap h.secs
  | none => annexBytes 6 0 0 (uncertain s) h.cap h.secs

/-- The handling of a passage for the record `i` (steps 2 to 6 of R60). -/
def passageFor (i : TrainId) (p : Passage) (a : Act) : Act × List Byte :=
  let time := passageTime a.s p.offset
  let a := applyRun i p.run a
  if removes a.s p then
    let t := (a.train i).getD (newTrain p.set)
    (removeTrain i a, annexBytes 6 (t.run.getD 0) t.dev (uncertain a.s) false none)
  else
    let before := (a.train i).map (·.dev)
    let a := a.onTrain i fun t => { t with silence := 480 }
    let (a, h) := eventWork i p time a
    let a := if (a.train i).map (·.dev) = before then a else lateTest i a
    let a := serviceAnnouncement i p.point time h.standing a
    (a, annexOf a.s i h)

/-- A PASSAGE handled by the RRG, with the annex it supplies, if any (R60, R61, R68). Of an APPROACH refused for a full table
R61 does not say whether the report or the credit comes first: the model makes the TRAIN_TABLE_FULL report before it gives the
credit, and so before the reports that the credit causes (DESIGN CHOICE, log entry 51). -/
def handlePassage (p : Passage) (a : Act) : Act × Option (List Byte) :=
  match findTrain a.s p.set with
  | some i =>
    let (a, annex) := passageFor i p a
    (a, some annex)
  | none =>
    if removes a.s p then (a, some (annexBytes 6 0 0 (uncertain a.s) false none))
    else
      match freeTrain a.s with
      | some i =>
        let (a, annex) := passageFor i p (a.putTrain i (some (newTrain p.set)))
        (a, some annex)
      | none =>
        let a := refuseCreation p.set p.point a
        (if p.event = .approach then giveCredit p.point a else a, none)

/-! ## Countdowns and the boundary (R68, R69, R86, R120) -/

/-- The overdue countdown of a record has run out (R69). -/
def overdueOut (i : TrainId) (a : Act) : Act :=
  match a.train i with
  | none => a
  | some t => (a.putTrain i (some { t with overdue := none })).request (.raise .trainStalled (.train t.set) true)

/-- The power-wait countdown of a record has run out (R120). -/
def powerWaitOut (i : TrainId) (a : Act) : Act :=
  match a.train i with
  | none => a
  | some t => (a.putTrain i (some { t with powerWait := none })).request (.raise .powerWait (.train t.set) true)

/-- The expiries of a record at a boundary, once the countdowns have fallen: silence before overdue before power-wait
(R68). A waiting train whose silence has reached 0 keeps its place until its own record is taken, so a grant that earlier work of
the boundary causes can still reach it (DESIGN CHOICE, log entry 57). -/
def trainBoundary (i : TrainId) (a : Act) : Act :=
  match a.train i with
  | none => a
  | some t =>
    if t.silence = 0 then removeTrain i a
    else
      let a := if (a.train i).bind (·.overdue) = some 0 then overdueOut i a else a
      if (a.train i).bind (·.powerWait) = some 0 then powerWaitOut i a else a

/-- The request of a record that is due: DWELLING with a Td not later than B, at a timing point with a departure section
(R86, R87). -/
def dueRequest (s : State) (b : Nat) (i : TrainId) : Option Wait :=
  match s.rrg.trains.get i with
  | none => none
  | some t =>
    match t.target, t.point with
    | some td, some p =>
      if t.state = .dwelling ∧ td ≤ b then
        (s.tst.line.points.get p).depart.map fun x => { train := i, target := td, point := p, sec := x }
      else none
    | _, _ => none

/-- The hand-over of a boundary (R86). -/
def handOverDue (a : Act) : Act :=
  match boundaryTime a.s with
  | none => a
  | some b =>
    match sortWaits ((indices 48).filterMap (dueRequest a.s b)) with
    | [] => a
    | ws => drain (placeHandOver ws a)

/-- Every passage memory is emptied (R73). -/
def Act.emptyMemories (a : Act) : Act := { a with s.rrg.memory := Table.fill 64 Memory.empty }

/-- A record's times at a day roll: a departure target becomes B, and the last passage time is none (R73). -/
def rollTrain (b : Nat) (i : TrainId) (a : Act) : Act :=
  a.onTrain i fun t => { t with target := t.target.map fun _ => b, time := none }

/-- The waiting trains carry B as their target, and each list is put in order again (R73, R121). -/
def Act.rollWaits (b : Nat) (a : Act) : Act :=
  let retime (ws : List Wait) : List Wait := ws.map fun w => { w with target := b }
  { a with
    s.psv.subs := a.s.psv.subs.map (fun v => { v with waits := sortWaits (retime v.waits) })
    s.psv.deadWaits := retime a.s.psv.deadWaits }

/-- The day-roll work of the RRG and the PSV (R73, R121). The LATE_RUNNING causes of the records made unscheduled are
handed to the INC, in record order, once every target and waiting list stands as the roll leaves it (DESIGN CHOICE, log
entry 37). -/
def dayRoll (a : Act) : Act :=
  let b := (boundaryTime a.s).getD 0
  drain ((forAll 48 (rollTrain b) (forAll 48 unbind a.emptyMemories)).rollWaits b)

end Sys2Proof.Machine
end

