-- ==== Sys2Proof/Machine/Tables.lean ====
section
/-! DEFINITION. The Table Store: replies, loads, edits and edit groups, and profile activation (R35–R58). -/

namespace Sys2Proof.Machine

/-! ## Replies (R180) -/

/-- The results of a REPLY (Table 1-8). -/
inductive ReplyResult where
  | done
  | doneClamped
  | refused
  deriving DecidableEq, Repr

/-- Table 1-8. -/
def ReplyResult.code : ReplyResult → Nat
  | .done => 0
  | .doneClamped => 1
  | .refused => 2

/-- The reasons of a REPLY (Table 12-1). -/
inductive Reason where
  | none
  | unknownCommand
  | badIndex
  | state
  | mode
  | busy
  | sequence
  | check
  | content
  | full
  | causePresent
  deriving DecidableEq, Repr

/-- Table 12-1. -/
def Reason.code : Reason → Nat
  | .none => 0
  | .unknownCommand => 1
  | .badIndex => 2
  | .state => 3
  | .mode => 4
  | .busy => 5
  | .sequence => 6
  | .check => 7
  | .content => 8
  | .full => 9
  | .causePresent => 10

/-- A REPLY without the console tag. -/
structure Reply where
  result : ReplyResult
  reason : Reason
  data : List Byte
  deriving DecidableEq, Repr

/-- The command was carried out as sent. -/
def Reply.ok (data : List Byte) : Reply := { result := .done, reason := .none, data := data }

/-- The command was carried out, after clamping where `clamped` is set. -/
def Reply.okClamped (clamped : Bool) (data : List Byte) : Reply :=
  { result := if clamped then .doneClamped else .done, reason := .none, data := data }

/-- The command was refused. -/
def Reply.no (reason : Reason) : Reply := { result := .refused, reason := reason, data := [] }

/-! ## The target of a load (R44–R48) -/

/-- The TST with the state of a load's target set; a slot's contents are discarded. -/
def Tst.mark (t : Tst) (target : LoadTarget) (line : LineState) (slot : SlotState) : Tst :=
  match target with
  | .line => { t with lineState := line }
  | .slot i => { t with slots := t.slots.set i { state := slot, profile := none } }

/-- A load that has failed: its target FAILED, the load closed and the buffer emptied (R45, R46). -/
def Tst.failLoad (t : Tst) (target : LoadTarget) : Tst := { t.mark target .failed .failed with load := none }

/-- A load that is abandoned: its slot EMPTY or the line tables INVALID (R48). -/
def Tst.abandonLoad (t : Tst) : Tst :=
  match t.load with
  | none => t
  | some l => { t.mark l.target .invalid .empty with load := none }

/-- The target a LOAD_OPEN names (Table 12-2). -/
def loadTarget? (n : Nat) : Option LoadTarget := if n = 255 then some .line else (index? 3 n).map .slot

/-- Whether the mode admits a load of a target (R44). -/
def loadMode (m : Mode) : LoadTarget → Bool
  | .line => decide (m = .bare)
  | .slot _ => decide (m ≠ .bare)

/-- Whether a load target is a slot that is ACTIVE or pending (R44). -/
def Tst.guarded (t : Tst) : LoadTarget → Bool
  | .line => false
  | .slot i => decide ((t.slots.get i).state = .active ∨ t.pendingSlot = some i)

/-- LOAD_OPEN (R44). -/
def loadOpen (target count check : Nat) (a : Act) : Act × Reply :=
  match loadTarget? target with
  | none => (a, .no .badIndex)
  | some t =>
    if loadMode (mode a.s) t = false then (a, .no .mode)
    else if a.s.tst.load.isSome then (a, .no .busy)
    else if a.s.tst.guarded t then (a, .no .state)
    else if count = 0 ∨ 1024 < count then (a, .no .badIndex)
    else
      let l : Load := { target := t, remaining := count, expected := 0, check := BitVec.ofNat 16 check, image := [] }
      ({ a with s.tst := { a.s.tst.mark t .loading .loading with load := some l } }, .ok [])

/-- LOAD_ABORT (R48). -/
def loadAbort (a : Act) : Act × Reply :=
  match a.s.tst.load with
  | none => (a, .no .state)
  | some _ => ({ a with s.tst := a.s.tst.abandonLoad }, .ok [])

/-! ## Completion of an image (R46, R47) -/

/-- CLOCK_LOSS is raised for a clock that is UNLOCKED (R28). -/
def raiseIfUnlocked (a : Act) : Act :=
  if a.s.lck.lock = .unlocked then a.request (.raise .clockLoss (.line 0) true) else a

/-- A valid LINE image is put in force: the tables VALID, the zones in their initial states, the edge memory UNKNOWN, the
supply started, and CLOCK_LOSS requested of an UNLOCKED clock (R47, R96, R142). -/
def lineInForce (l : LineTables) (a : Act) : Act :=
  let a := { a with s.tst := { a.s.tst with lineState := .valid, line := l, load := none } }
  let a := { a with
    s.asc.zones := l.zones.map fun z => Zone.start (if z.opens then .opened else .off)
    s.inc.edges := Table.fill 64 .unknown }
  raiseIfUnlocked (supplyValidated a)

/-- A valid profile image fills its slot (R47). -/
def profileInForce (i : SlotId) (p : Profile) (a : Act) : Act :=
  { a with s.tst := { a.s.tst with slots := a.s.tst.slots.set i { state := .ready, profile := some p }, load := none } }

/-- The refusal of an image with a content fault: the ordinal and the byte offset of the first offending record; where no
record offends, a free value (R46, log entry 1). -/
def contentFault (l : Load) (position : Option (Nat × Nat)) (a : Act) : Act × Reply :=
  let a := { a with s.tst := a.s.tst.failLoad l.target }
  let reply (x : Nat × Nat) : Reply := { result := .refused, reason := .content, data := num4 x.1 ++ num4 x.2 }
  match position with
  | some x => (a, reply x)
  | none => ({ a with s.freeCount := a.s.freeCount + 1 }, reply (Config.freePosition a.s.freeCount))

/-- The REPLY to a last block whose image is in force (R47). -/
def clampReply (clamps : Nat) : Reply := .okClamped (decide (clamps ≠ 0)) (if clamps = 0 then [] else num2 clamps)

/-- The completion of an image whose check matches (R46, R47). -/
def validate (l : Load) (a : Act) : Act × Reply :=
  match l.target with
  | .line =>
    match validateLine l.image with
    | .fault x => contentFault l x a
    | .valid tables n => (lineInForce tables a, clampReply n)
  | .slot i =>
    match validateProfile l.check l.image with
    | .fault x => contentFault l x a
    | .valid p n => (profileInForce i p a, clampReply n)

/-- The completion of an image (R46, R47). -/
def complete (l : Load) (a : Act) : Act × Reply :=
  let check := crc16 l.image
  if check ≠ l.check then
    ({ a with s.tst := a.s.tst.failLoad l.target },
      { result := .refused, reason := .check, data := num2 check.toNat })
  else validate l a

/-- LOAD_BLOCK (R45). -/
def loadBlock (index : Nat) (bytes : List Byte) (a : Act) : Act × Reply :=
  match a.s.tst.load with
  | none => (a, .no .state)
  | some l =>
    if index ≠ l.expected then
      ({ a with s.tst := a.s.tst.failLoad l.target },
        { result := .refused, reason := .sequence, data := num2 l.expected })
    else
      let l : Load :=
        { l with remaining := l.remaining - 1, expected := l.expected + 1, image := l.image ++ bytes }
      if l.remaining = 0 then complete l a
      else ({ a with s.tst := { a.s.tst with load := some l } }, .ok (num2 l.remaining))

/-! ## Profile activation (R50, R51) -/

/-- The content of a PROFILE report (R51). -/
def profileContent (i : SlotId) (previous : Option SlotId) (p : Option Profile) : List Byte :=
  num1 i.val ++ opt1 (previous.map (·.val)) ++ ((p.map (·.name)).getD (List.replicate 16 0))
    ++ num2 ((p.map (·.check.toNat)).getD 0) ++ num2 ((p.map (·.runs.length)).getD 0)

/-- The TST after an activation: the slot ACTIVE, the former ACTIVE one READY, and none pending (R51). -/
def Tst.makeActive (t : Tst) (i : SlotId) : Tst :=
  let slots := t.slots.map fun x => if x.state = .active then { x with state := .ready } else x
  { t with slots := slots.set i { slots.get i with state := .active }, pendingSlot := none }

/-- An activation is applied (R51). -/
def activate (i : SlotId) (a : Act) : Act :=
  let tst := a.s.tst.makeActive i
  (rebind { a with s.tst := tst }).report 3 (profileContent i (activeSlot a.s) (tst.slots.get i).profile)

/-- The pending activation is applied, if there is one (R51). -/
def activatePending (a : Act) : Act :=
  match a.s.tst.pendingSlot with
  | none => a
  | some i => activate i a

/-- PROFILE_ACTIVATE (R50); R50 states no order, so the mode test is first (R181). -/
def profileActivate (slot : Nat) (a : Act) : Act × Reply :=
  if mode a.s = .bare then (a, .no .mode)
  else
    match index? 3 slot with
    | none => (a, .no .badIndex)
    | some i =>
      if (a.s.tst.slots.get i).state ≠ .ready then (a, .no .state)
      else
        let a := { a with s.tst.pendingSlot := some i }
        (if clockSet a.s then a else activatePending a, .ok [])

/-! ## The fields an EDIT may name (R52, Table 3-9) -/

/-- The table a code names (R52). -/
def EditTable.ofCode : Nat → Option EditTable
  | 0x01 => some .defaults
  | 0x02 => some .point
  | 0x03 => some .sec
  | 0x04 => some .sub
  | 0x05 => some .zone
  | 0x07 => some .input
  | 0x08 => some .incClass
  | 0x09 => some .template
  | 0x21 => some .profile
  | _ => none

/-- How many indices a table has (Table 1-5); the index is 0 for DEFAULTS and PROFILE. -/
def EditTable.count : EditTable → Nat
  | .defaults => 1
  | .point => 64
  | .sec => 32
  | .sub => 8
  | .zone => 24
  | .input => 16
  | .incClass => 11
  | .template => 128
  | .profile => 1

/-- What a field holds: a quantity with its range; a reference or code below a bound, which may have a value for "none"; a
code of Table 3-9 for an input class's incident class; a number that must fit its bytes; or a used section or
substation. -/
inductive FieldKind where
  | quantity (lo hi : Nat)
  | below (n : Nat)
  | belowOrNone (n : Nat)
  | inputIncident
  | usedSecOrNone
  | usedSub
  | usedSubOrNone
  deriving DecidableEq, Repr

/-- The kind of an editable field; none for a field that does not exist or is not editable (R52). Fields are numbered by
the body fields of Table 3-9 after the index. -/
def fieldKind : EditTable → Nat → Option FieldKind
  | .defaults, 0 => some (.quantity 100 500)
  | .defaults, 1 => some (.quantity 16 56)
  | .defaults, 2 => some (.quantity 300 6000)
  | .defaults, 3 => some (.quantity 300 3000)
  | .point, 1 => some (.below 16)
  | .point, 2 => some (.below 256)
  | .point, 3 => some (.quantity 0 600)
  | .point, 4 => some (.quantity 0 1200)
  | .point, 5 => some .usedSecOrNone
  | .point, 6 => some (.quantity 0 1200)
  | .point, 7 => some (.below 2)
  | .point, 8 => some (.below 24)
  | .point, 9 => some (.below 64)
  | .point, 10 => some (.below 128)
  | .point, 11 => some (.below 128)
  | .sec, 0 => some (.below 16)
  | .sec, 1 => some .usedSub
  | .sec, 2 => some (.below 8)
  | .sec, 3 => some .usedSubOrNone
  | .sec, 4 => some (.below 8)
  | .sub, 0 => some (.below 256)
  | .sub, 1 => some (.quantity 1 6)
  | .sub, 2 => some (.quantity 50 200)
  | .sub, 3 => some (.quantity 50 255)
  | .sub, 4 => some (.quantity 0 600)
  | .sub, 5 => some (.quantity 0 600)
  | .zone, 0 => some (.below 256)
  | .zone, 1 => some (.below 65536)
  | .zone, 2 => some (.quantity 0 600)
  | .input, 0 => some (.below 4)
  | .input, 1 => some .inputIncident
  | .incClass, 0 => some (.below 8)
  | .incClass, 1 => some (.quantity 1 63)
  | .incClass, 2 => some (.below 2)
  | .incClass, 3 => some (.quantity 0 36000)
  | .incClass, 4 => some (.belowOrNone 128)
  | .incClass, 5 => some (.belowOrNone 128)
  | .incClass, 6 => some (.belowOrNone 128)
  | .incClass, 7 => some (.belowOrNone 128)
  | .incClass, 8 => some (.quantity 1 8)
  | .template, 0 => some (.below 4)
  | .template, 1 => some (.quantity 0 1200)
  | .template, 2 => some (.quantity 0 4)
  | .template, 3 => some (.quantity 1 8)
  | .template, 4 => some (.quantity 0 6000)
  | .profile, 1 => some (.quantity 0 16)
  | .profile, 2 => some (.quantity 300 3000)
  | .profile, 3 => some (.quantity 0 1800)
  | .profile, 4 => some (.quantity 300 6000)
  | .profile, 5 => some (.quantity 0 1200)
  | .profile, 6 => some (.quantity 300 6000)
  | .profile, 7 => some (.quantity 0 6000)
  | .profile, 8 => some (.quantity 0 6000)
  | .profile, 9 => some (.quantity 0 6000)
  | _, _ => none

/-- Whether a number names a used section. -/
def isUsedSec (l : LineTables) (v : Nat) : Bool := ((index? 32 v).map fun x => (l.secs.get x).used).getD false

/-- Whether a number names a used substation. -/
def isUsedSub (l : LineTables) (v : Nat) : Bool := ((index? 8 v).map fun b => (l.subs.get b).used).getD false

/-- The value that an EDIT of a field will write, or none where the value is faulty (R52, R43). -/
def editValue (l : LineTables) (v : Nat) : FieldKind → Option Nat
  | .quantity lo hi => some (clamp lo hi v)
  | .below n => if v < n then some v else none
  | .belowOrNone n => if v < n ∨ v = 255 then some v else none
  | .inputIncident => if (IncClass.ofInputCode v).isSome then some v else none
  | .usedSecOrNone => if isUsedSec l v ∨ v = 255 then some v else none
  | .usedSub => if isUsedSub l v then some v else none
  | .usedSubOrNone => if isUsedSub l v ∨ v = 255 then some v else none

/-! ## Writing edits (R52, R54) -/

/-- A field of the line defaults is written. -/
def Defaults.edit (d : Defaults) (v : Nat) : Nat → Defaults
  | 0 => { d with tc := v }
  | 1 => { d with w := v }
  | 2 => { d with stall := v }
  | _ => { d with hn := v }

/-- A field of a timing point is written. -/
def Point.edit (p : Point) (v : Nat) : Nat → Point
  | 1 => { p with area := (index? 16 v).getD p.area }
  | 2 => { p with controller := BitVec.ofNat 8 v }
  | 3 => { p with minDwell := v }
  | 4 => { p with dwell := v }
  | 5 => { p with depart := index? 32 v }
  | 6 => { p with accel := v }
  | 7 => { p with hasTrigger := decide (v = 1) }
  | 8 => { p with trigZone := (index? 24 v).getD p.trigZone }
  | 9 => { p with trigTarget := (index? 64 v).getD p.trigTarget }
  | 10 => { p with trigNext := (index? 128 v).getD p.trigNext }
  | _ => { p with trigDelayed := (index? 128 v).getD p.trigDelayed }

/-- A field of a section is written. -/
def Sec.edit (x : Sec) (v : Nat) : Nat → Sec
  | 0 => { x with area := (index? 16 v).getD x.area }
  | 1 => { x with subA := (index? 8 v).getD x.subA }
  | 2 => { x with feederA := (index? 8 v).getD x.feederA }
  | 3 => { x with subB := index? 8 v }
  | _ => { x with feederB := (index? 8 v).getD x.feederB }

/-- A field of a substation is written. -/
def Sub.edit (b : Sub) (v : Nat) : Nat → Sub
  | 0 => { b with unit := BitVec.ofNat 8 v }
  | 1 => { b with cap := v }
  | 2 => { b with l1 := v }
  | 3 => { b with l2 := v }
  | 4 => { b with telemetry := v }
  | _ => { b with window := v }

/-- A field of a zone is written. -/
def ZoneRow.edit (z : ZoneRow) (v : Nat) : Nat → ZoneRow
  | 0 => { z with controller := BitVec.ofNat 8 v }
  | 1 => { z with areas := BitVec.ofNat 16 v }
  | _ => { z with guard := v }

/-- A field of an input class is written. -/
def InputRow.edit (r : InputRow) (v : Nat) : Nat → InputRow
  | 0 => { r with sensitivity := (Sensitivity.ofCode v).getD r.sensitivity }
  | _ => { r with incClass := (IncClass.ofInputCode v).getD r.incClass }

/-- A field of an incident class is written. -/
def ClassRow.edit (c : ClassRow) (v : Nat) : Nat → ClassRow
  | 0 => { c with effects := Effects.ofCode v }
  | 1 => { c with reload := v }
  | 2 => { c with mandatory := decide (v = 1) }
  | 3 => { c with retention := v }
  | 4 => { c with template0 := index? 128 v }
  | 5 => { c with template1 := index? 128 v }
  | 6 => { c with template2 := index? 128 v }
  | 7 => { c with template3 := index? 128 v }
  | _ => { c with repeats := v }

/-- A field of a template is written. -/
def TmplRow.edit (t : TmplRow) (v : Nat) : Nat → TmplRow
  | 0 => { t with priority := (Priority.ofCode v).getD t.priority }
  | 1 => { t with duration := v }
  | 2 => { t with params := v }
  | 3 => { t with repeats := v }
  | _ => { t with interval := v }

/-- A regulation parameter is written. -/
def Params.edit (q : Params) (v : Nat) : Nat → Params
  | 1 => { q with w := v }
  | 2 => { q with hmin := v }
  | 3 => { q with hx := v }
  | 4 => { q with late := v }
  | 5 => { q with hysteresis := v }
  | 6 => { q with delay := v }
  | 7 => { q with stall := v }
  | 8 => { q with powerLimit := v }
  | _ => { q with tick := v }

/-- A row of a table is changed, where the index is in range. -/
def editRow {α : Type} {n : Nat} (t : Table α n) (k : Nat) (f : α → α) : Table α n :=
  match index? n k with
  | some i => t.set i (f (t.get i))
  | none => t

/-- An edit to the line tables is written; one to a profile leaves them alone. -/
def LineTables.edit (l : LineTables) (e : HeldEdit) : LineTables :=
  match e.table with
  | .defaults => { l with defaults := l.defaults.edit e.value e.field }
  | .point => { l with points := editRow l.points e.index fun p => p.edit e.value e.field }
  | .sec => { l with secs := editRow l.secs e.index fun x => x.edit e.value e.field }
  | .sub => { l with subs := editRow l.subs e.index fun b => b.edit e.value e.field }
  | .zone => { l with zones := editRow l.zones e.index fun z => z.edit e.value e.field }
  | .input => { l with inputs := editRow l.inputs e.index fun r => r.edit e.value e.field }
  | .incClass => { l with classes := editRow l.classes e.index fun c => c.edit e.value e.field }
  | .template => { l with templates := editRow l.templates e.index fun t => t.edit e.value e.field }
  | .profile => l

/-- A profile slot after an edit to its PROFILE table; an edit whose slot is no longer ACTIVE is dropped (R54). -/
def ProfileSlot.edit (x : ProfileSlot) (e : HeldEdit) : ProfileSlot :=
  if x.state = .active then
    { x with profile := x.profile.map fun p => { p with params := p.params.edit e.value e.field } }
  else x

/-- One edit of a group is written (R54). -/
def Tst.write (t : Tst) (e : HeldEdit) : Tst :=
  match e.table, e.slot with
  | .profile, some i => { t with slots := t.slots.set i ((t.slots.get i).edit e) }
  | .profile, none => t
  | _, _ => { t with line := t.line.edit e }

/-- An L2 below its L1 is raised to L1 (R54). -/
def Sub.settle (b : Sub) : Sub := { b with l2 := max b.l2 b.l1 }

/-- A used section's feed B that equals its feed A is made none (R54). What becomes of its feeder R54 does not say: the model
keeps the number, so that a later EDIT of feed B's substation alone makes a feed B on that feeder (DESIGN CHOICE, log entry
46). -/
def Sec.settle (x : Sec) : Sec :=
  if x.used ∧ x.subB = some x.subA ∧ x.feederB = x.feederA then { x with subB := none } else x

/-- Whether a group brings some L2 below its L1, so that its writing raises it, which counts as a clamp (R37). -/
def Tst.raisesL2 (t : Tst) (g : List HeldEdit) : Bool :=
  (g.foldl Tst.write t).line.subs.items.any fun b => decide (b.l2 < b.l1)

/-- A group is written: its edits in the order taken, then the completions of R54. -/
def Tst.writeGroup (t : Tst) (g : List HeldEdit) : Tst :=
  let t := g.foldl Tst.write t
  { t with line := { t.line with subs := t.line.subs.map Sub.settle, secs := t.line.secs.map Sec.settle } }

/-! ## The consequences of a group (R54, R104, R118, R125, R129) -/

/-- Whether a group has changed the sensitivity or the incident class of an input class (R129). -/
def inputChanged (old new : LineTables) (i : InputId) : Bool := decide (old.inputs.get i ≠ new.inputs.get i)

/-- The keys of the input-map entries of an input class that changed, before and after the group (R129). -/
def changedKeys (old new : LineTables) : List (IncClass × IncObject) :=
  (new.inputMap.items.filterMap id).flatMap fun m =>
    if inputChanged old new m.inputClass then
      [((old.inputs.get m.inputClass).incClass, m.incObject), ((new.inputs.get m.inputClass).incClass, m.incObject)]
    else []

/-- The consequence of changed input classes: edge memories UNKNOWN, and the causes of their keys taken as gone (R129). R129
sets no order among the records: they are taken in ascending record number (DESIGN CHOICE, log entry 43). -/
def inputConsequence (old : LineTables) (a : Act) : Act :=
  let new := a.s.tst.line
  let keys := changedKeys old new
  let edges := Table.build 64 fun k =>
    match new.inputMap.get k with
    | some m => if inputChanged old new m.inputClass then .unknown else a.s.inc.edges.get k
    | none => a.s.inc.edges.get k
  let gone := (incidents a.s).filter fun r => decide (r.cause = .present ∧ (r.cls, r.object) ∈ keys)
  let a := { a with s.inc.edges := edges }
  gone.foldl (fun a r => a.ask (.gone r.cls r.object)) a

/-- Whether a group has changed the departure section of a timing point (R118). -/
def departChanged (old new : LineTables) (p : TpId) : Bool :=
  decide ((old.points.get p).depart ≠ (new.points.get p).depart)

/-- What of a section and of a substation the supply picture reads (R104). -/
def Sec.feedsOf (x : Sec) : SubId × FeederId × Option SubId × FeederId := (x.subA, x.feederA, x.subB, x.feederB)

/-- Whether a group has changed what the PSV derives afresh from (R104, R118). -/
def supplyChanged (old new : LineTables) : Bool :=
  (indices 64).any (departChanged old new)
    || (indices 32).any (fun x => decide ((old.secs.get x).feedsOf ≠ (new.secs.get x).feedsOf))
    || (indices 8).any fun b =>
      decide (((old.subs.get b).cap, (old.subs.get b).l1, (old.subs.get b).l2)
        ≠ ((new.subs.get b).cap, (new.subs.get b).l1, (new.subs.get b).l2))

/-- The consequence for the supply: waiting trains take changed departure sections, and the picture is derived afresh
(R104, R118). -/
def supplyConsequence (old : LineTables) (a : Act) : Act :=
  let new := a.s.tst.line
  if supplyChanged old new then deriveSupply [] [] (resectionWaits (departChanged old new) a) else a

/-- A record whose area set the group concerns has it derived afresh (R125). An EQUIPMENT record takes its areas from the
input map, which no edit changes. -/
def Incident.reArea (old new : State) (r : Incident) : Incident :=
  match r.object with
  | .equipment _ => r
  | _ =>
    if areasOf old r.cls r.object r.areas = areasOf new r.cls r.object r.areas then r
    else { r with areas := areasOf new r.cls r.object r.areas }

/-- The consequence for incidents: the area sets of all records derived afresh, and then the coverage under HOLD reckoned
once, so that a timing point covered before and after the group keeps its trains (R125, R149). -/
def areaConsequence (old : LineTables) (a : Act) : Act :=
  let before := { a.s with tst.line := old }
  let records := a.s.inc.records.map fun r => r.map (Incident.reArea before a.s)
  reckonHolds id { a with s.inc.records := records }

/-- A group is applied whole, and its consequences follow (R54). R54 sets no order among them: the model derives the areas
first, so that every later reckoning of HOLD sees the new sets, then the supply, then takes the causes of changed input
classes as gone; the trains of the hold ends are handed over after the derivation (DESIGN CHOICE, log entry 43). -/
def applyGroup (g : List HeldEdit) (a : Act) : Act :=
  let old := a.s.tst.line
  let a := { a with s.tst := a.s.tst.writeGroup g }
  drain (inputConsequence old (supplyConsequence old (areaConsequence old a)))

/-- The TST's work at a boundary: every waiting group, oldest first, then a pending activation (R51, R54). -/
def tstBoundary (a : Act) : Act :=
  let groups := a.s.tst.waiting
  let a := groups.foldl (fun a g => applyGroup g a) a
  activatePending { a with s.tst.waiting := [] }

/-! ## The edit commands (R52, R53) -/

/-- A group that closes joins the waiting ones; while the clock is UNSET it is applied at once (R53), and the answer is
whether that raised an L2 (R37, log entry 36). -/
def closeGroup (g : List HeldEdit) (a : Act) : Act × Bool :=
  if clockSet a.s then ({ a with s.tst.waiting := a.s.tst.waiting ++ [g] }, false)
  else (applyGroup g a, a.s.tst.raisesL2 g)

/-- EDIT_HOLD (R53). -/
def editHold (a : Act) : Act × Reply :=
  if mode a.s = .bare then (a, .no .mode)
  else if a.s.tst.openGroup.isSome then (a, .no .busy)
  else ({ a with s.tst.openGroup := some [] }, .ok [])

/-- EDIT_RELEASE (R53). R53 says both that it is refused with FULL when 4 groups wait and that the release of an empty
group is DONE: the model answers DONE to an empty group however many wait (DESIGN CHOICE, log entry 36). -/
def editRelease (a : Act) : Act × Reply :=
  if mode a.s = .bare then (a, .no .mode)
  else
    match a.s.tst.openGroup with
    | none => (a, .no .state)
    | some g =>
      if g = [] then ({ a with s.tst.openGroup := none }, .ok [])
      else if 4 ≤ a.s.tst.waiting.length then (a, .no .full)
      else
        let (a, raised) := closeGroup g { a with s.tst.openGroup := none }
        (a, .okClamped raised [])

/-- An accepted EDIT joins the open group, or is a group of one; FULL where there is no room (R53). R52 has the value written
exactly as the REPLY stated it but gives that REPLY no data: the model's DONE and DONE_CLAMPED carry none, and state the value
by saying whether it was clamped (DESIGN CHOICE, log entry 47). -/
def joinGroup (e : HeldEdit) (clamped : Bool) (a : Act) : Act × Reply :=
  match a.s.tst.openGroup with
  | some g =>
    if g.length < 32 then ({ a with s.tst.openGroup := some (g ++ [e]) }, .okClamped clamped [])
    else (a, .no .full)
  | none =>
    if a.s.tst.waiting.length < 4 then
      let (a, raised) := closeGroup [e] a
      (a, .okClamped (clamped || raised) [])
    else (a, .no .full)

/-- EDIT (R52). -/
def edit (table index field value : Nat) (a : Act) : Act × Reply :=
  if mode a.s = .bare then (a, .no .mode)
  else
    match EditTable.ofCode table with
    | none => (a, .no .badIndex)
    | some t =>
      match if index < t.count then fieldKind t field else none with
      | none => (a, .no .badIndex)
      | some k =>
        if t = .profile ∧ activeSlot a.s = none then (a, .no .state)
        else
          match editValue a.s.tst.line value k with
          | none => (a, .no .badIndex)
          | some v =>
            let slot := if t = .profile then activeSlot a.s else none
            joinGroup { table := t, index := index, field := field, value := v, slot := slot } (decide (v ≠ value)) a

end Sys2Proof.Machine
end

