-- ==== Sys2Proof/Machine/Clock.lean ====
section
/-! DEFINITION. The Line Clock and the boundary: markers, the marker timeout, the fall of every countdown and the work of
each block at a boundary (R17–R29). -/

namespace Sys2Proof.Machine

/-! ## The fall of the countdowns (R29)

A countdown set at a boundary is set after this fall, so it reaches 0 at the n-th boundary after the one that set it. The
countdowns of zone entries, which the issue test and the return of an entry read, fall in the ASC's own turn, after the TST
has taken the boundary (R54, R165); none that falls here is read before its block's turn (log entry 10). -/

/-- A train record's countdowns after a boundary (R68, R69, R112, R120). -/
def Train.fall (t : Train) : Train :=
  { t with
    silence := t.silence - 1
    overdue := Machine.fall t.overdue
    powerWait := Machine.fall t.powerWait
    slot := t.slot.map fun h => { h with left := h.left - 1 } }

/-- A substation's countdowns after a boundary (R96, R99). -/
def Supply.fall (v : Supply) : Supply :=
  { v with telemetry := Machine.fall v.telemetry, credit := Machine.fall v.credit }

/-- An incident record's retention countdown after a boundary (R138). -/
def Incident.fall (r : Incident) : Incident := { r with retention := Machine.fall r.retention }

/-- Every countdown of the part but those of zone entries falls by one (R29). -/
def fallAll (s : State) : State :=
  { s with
    rrg.trains := s.rrg.trains.map fun t => t.map Train.fall
    rrg.holdOff := s.rrg.holdOff - 1
    psv.subs := s.psv.subs.map Supply.fall
    inc.records := s.inc.records.map fun r => r.map Incident.fall
    inc.prescaler := s.inc.prescaler - 1
    asc.zones := s.asc.zones.map Zone.fall }

/-! ## The boundary (R29, R54, R86, R103, R143, R165) -/

/-- A RESOLVED record whose retention has run out is freed (R138). -/
def retentionOut (i : IncId) (a : Act) : Act :=
  match a.incident i with
  | some r => if r.retention = some 0 then freeResolved i r a else a
  | none => a

/-- The INC's own work at a boundary: retention, then a tick when the prescaler has reached 0 (R138, R143). Records whose
retention runs out at one boundary are freed and reported in ascending record number, which no rule says (DESIGN CHOICE, log
entry 44). -/
def incBoundary (a : Act) : Act :=
  let a := forAll 32 retentionOut a
  if a.s.inc.prescaler = 0 then tick a else a

/-- A boundary as the blocks take it: the TST before every other block (R54), then the ASC, the RRG's and PSV's day-roll
work, the RRG's expiries, the PSV's derivation, the hand-over of due trains, and the INC (log entry 10). -/
def blocksTake (roll : Bool) (a : Act) : Act :=
  let a := tstBoundary { a with s := fallAll a.s }
  let a := forAll 24 zoneBoundary a
  let a := if roll then dayRoll a else a
  let a := handOverDue (supplyBoundary (forAll 48 trainBoundary a))
  incBoundary a

/-! ## Reports and the marker timeout (R19, R27) -/

/-- The events of a CLOCK report (R27). -/
inductive ClockEvent where
  | set
  | loss
  | relock
  | dayRoll
  deriving DecidableEq, Repr

/-- R27. -/
def ClockEvent.code : ClockEvent → Nat
  | .set => 0
  | .loss => 1
  | .relock => 2
  | .dayRoll => 3

/-- The content of a CLOCK report (R27). -/
def clockContent (e : ClockEvent) (c : Lck) : List Byte :=
  num1 e.code ++ num1 c.lock.code ++ num2 c.cycle ++ num4 c.dayTime ++ num2 c.missed

/-- How long after a boundary the marker timeout expires, in ms (R19). -/
def timeoutLength (lock : Lock) (tc : Nat) : Nat := if lock = .unlocked then tc else 3 * tc / 2

/-- The LCK after a boundary, with its timeout restarted at the cycle length in force (R19). -/
def Lck.restart (c : Lck) (tc : Nat) : Lck := { c with deadline := some (c.timeBase + timeoutLength c.lock tc) }

/-- A CLOCK_LOSS request, which the LCK makes in no mode but PREPARED and SERVICE (R28). -/
def clockRequest (r : Request) (a : Act) : Act := if mode a.s = .bare then a else a.request r

/-- A boundary whose LCK values are `c`: the timeout is restarted, the CLOCK report made, and the blocks take it. A change
into or out of UNLOCKED makes the request of R28 (log entry 10). -/
def makeBoundary (c : Lck) (event : Option ClockEvent) (roll : Bool) (a : Act) : Act :=
  let before := a.s.lck.lock
  let c := c.restart (cycleLength a.s)
  let a := { a with s.lck := c }
  let a := match event with
    | some e => a.report 2 (clockContent e c)
    | none => a
  let a := blocksTake roll a
  if c.lock = .unlocked ∧ before ≠ .unlocked then clockRequest (.raise .clockLoss (.line 0) true) a
  else if before = .unlocked ∧ c.lock ≠ .unlocked then clockRequest (.gone .clockLoss (.line 0)) a
  else a

/-! ## Misses and artificial boundaries (R22–R24) -/

/-- The LCK's values at an artificial boundary (R22). -/
def Lck.advance (c : Lck) (tc : Nat) : Lck :=
  { c with
    cycle := (c.cycle + 1) % 65536
    dayTime := min (c.dayTime + tc) 107999999
    missed := bump c.missed }

/-- The lock state a miss leads to (R23); an UNLOCKED clock stays so (R24). -/
def Lock.missed : Lock → Lock
  | .unset => .unset
  | .locked => .coasting
  | .coasting => .unlocked
  | .unlocked => .unlocked

/-- An artificial boundary for a miss, or for an expiry in UNLOCKED (R22–R24). -/
def missBoundary (a : Act) : Act :=
  let c := a.s.lck.advance (cycleLength a.s)
  let event := if a.s.lck.lock = .coasting then some .loss else none
  makeBoundary { c with lock := a.s.lck.lock.missed } event false a

/-- The expiry of the marker timeout: it acts where the deadline has passed (R19, R23, R24). -/
def timeoutExpiry (a : Act) : Act :=
  match a.s.lck.deadline with
  | some d => if d ≤ a.s.lck.timeBase ∧ clockSet a.s then missBoundary a else a
  | none => a

/-! ## Markers (R18–R25) -/

/-- The LCK with a marker's number and day time loaded, LOCKED. -/
def Lck.take (c : Lck) (number dayTime : Nat) : Lck := { c with lock := .locked, cycle := number, dayTime := dayTime }

/-- Whether a marker's day time makes it a day roll (R25). -/
def isDayRoll (c : Lck) (dayTime : Nat) : Bool := decide (c.lock ≠ .unset ∧ dayTime + 36000000 < c.dayTime)

/-- A CYCLE_MARKER as the LCK takes it, and whether the TIU is to forward it (R18–R25, Table 2-2). -/
def takeMarker (number dayTime : Nat) (a : Act) : Act × Bool :=
  let c := a.s.lck
  let taken := c.take number dayTime
  if isDayRoll c dayTime then (makeBoundary taken (some .dayRoll) true a, true)
  else
    match c.lock with
    | .unset => (makeBoundary taken (some .set) false a, true)
    | .unlocked => if number = c.cycle then (a, false) else (makeBoundary taken (some .relock) false a, true)
    | .locked =>
      if number = (c.cycle + 1) % 65536 then (makeBoundary taken none false a, true)
      else if number = c.cycle then (a, false)
      else (missBoundary a, false)
    | .coasting =>
      if number = (c.cycle + 1) % 65536 then (makeBoundary taken none false a, true)
      else if number = c.cycle then ({ a with s.lck := { c with lock := .locked, dayTime := dayTime } }, true)
      else (missBoundary a, false)

end Sys2Proof.Machine
end

