-- ==== Sys2Proof/Machine/Receive.lean ====
section
/-! DEFINITION. The receive path of the TIU: the checks, the duplicate memory, dispatch and forwarding (R3–R8, R10,
R13). -/

namespace Sys2Proof.Machine

/-! ## Counting (R15) -/

/-- A telegram that fails the CRC check. -/
def Counters.check (c : Counters) : Port → Counters
  | .fieldA => { c with checkA := bump c.checkA }
  | .fieldB => { c with checkB := bump c.checkB }
  | .room => { c with checkRoom := bump c.checkRoom }

/-- A telegram that fails the length check or the form check. -/
def Counters.length (c : Counters) : Port → Counters
  | .fieldA => { c with lengthA := bump c.lengthA }
  | .fieldB => { c with lengthB := bump c.lengthB }
  | .room => { c with lengthRoom := bump c.lengthRoom }

/-- A telegram that is a duplicate. -/
def Counters.duplicate (c : Counters) : FieldPort → Counters
  | .a => { c with duplicateA := bump c.duplicateA }
  | .b => { c with duplicateB := bump c.duplicateB }

/-- A telegram that fails the direction check. -/
def Counters.misdirected (c : Counters) : Port → Counters
  | .fieldA => { c with misdirectedA := bump c.misdirectedA }
  | .fieldB => { c with misdirectedB := bump c.misdirectedB }
  | .room => { c with misdirectedRoom := bump c.misdirectedRoom }

/-- The state with its counters changed by `f`. -/
def count (f : Counters → Counters) (s : State) : State := { s with tiu.counters := f s.tiu.counters }

/-! ## The duplicate memory (R6) -/

/-- The duplicate memory entry for an alternation bit. -/
def DupEntry.ofBit (b : Bool) : DupEntry := if b then .one else .zero

/-- Whether a telegram is a duplicate. -/
def isDuplicate (s : State) (t : Telegram) : Bool :=
  decide (s.tiu.duplicates.get t.src.toFin = DupEntry.ofBit (telegramBit t))

/-- The duplicate memory after a telegram is accepted. -/
def remember (t : Telegram) (s : State) : State :=
  { s with tiu.duplicates := s.tiu.duplicates.set t.src.toFin (DupEntry.ofBit (telegramBit t)) }

/-! ## Dispatch and forwarding (R7, R8) -/

/-- A PASSAGE with its annex appended and the annex-present flag set (R8). Bits 1 to 6 of the flags go out as they came:
R8 lists the changes to the telegram and none to them, Table 1-7 has them sent as 0 (DESIGN CHOICE, log entry 42). -/
def withAnnex (t : Telegram) (annex : List Byte) : Telegram :=
  { t with flags := t.flags ||| 0x80, payload := t.payload ++ annex }

/-- The contents of an accepted field telegram are handed to their owner; the answer is the telegram to forward, if it is
forwarded (R7, R8). -/
def dispatch (t : Telegram) (c : Contents) (a : Act) : Act × Option Telegram :=
  match c with
  | .marker number dayTime =>
    let (a, taken) := takeMarker number dayTime a
    (a, if taken then some t else none)
  | .passage p =>
    if mode a.s = .bare then (a, some t)
    else
      let (a, annex) := handlePassage p a
      (a, some ((annex.map (withAnnex t)).getD t))
  | .status closed load feeders =>
    (if mode a.s = .bare then a else statusReport t.src closed load feeders a, some t)
  | .equipment inputs => (if mode a.s = .bare then a else equipmentReport t.src inputs a, some t)
  | .done zone tag => (if mode a.s = .bare then a else paDone t.src zone tag a, some t)
  | .other => (a, some t)

/-- A telegram is forwarded, and then what its handling made enters the queues (R7). -/
def forwardThenFinish (x : Act × Option Telegram) : State :=
  match x.2 with
  | some t => enterMade (forwardToRoom t x.1.s) x.1.out
  | none => x.1.finish

/-- An accepted field telegram is dispatched and forwarded (R7, R8). -/
def acceptField (t : Telegram) (c : Contents) (s : State) : State := forwardThenFinish (dispatch t c (Act.start s))

/-! ## The receive checks (R4) -/

/-- Checks 3 to 6 of R4 on a field telegram that is sound, and what follows. -/
def receiveField (p : FieldPort) (t : Telegram) (s : State) : State :=
  if t.src = s.address then s
  else if t.kind = kindManage then count (·.misdirected p.port) s
  else
    match contents? t with
    | none => count (·.length p.port) s
    | some c =>
      if t.kind = kindMarker then acceptField t c s
      else if isDuplicate s t then count (·.duplicate p) s
      else acceptField t c (remember t s)

/-- A MANAGE to the part joins the management input queue, or is lost (R10). -/
def queueManage (t : Telegram) (s : State) : State :=
  if s.tiu.manage.length < 8 then { s with tiu.manage := s.tiu.manage ++ [t] }
  else count (fun c => { c with manageLost := bump c.manageLost }) s

/-- A room telegram for another station joins the field forward queue, or is refused (R13). -/
def queueForward (t : Telegram) (s : State) : State :=
  if s.tiu.forward.length < 32 then { s with tiu.forward := s.tiu.forward ++ [t] }
  else count (fun c => { c with forwardRefused := bump c.forwardRefused }) s

/-- Checks 4 and 5 of R4 on a room telegram that is sound, and what follows. -/
def receiveRoom (t : Telegram) (s : State) : State :=
  if t.dest = s.address then
    if t.kind ≠ kindManage then count (·.misdirected .room) s
    else if t.payload.length < 3 then count (·.length .room) s
    else queueManage t s
  else queueForward t s

/-- Whether a port's link is up. -/
def Links.up (l : Links) : Port → Bool
  | .fieldA => l.a
  | .fieldB => l.b
  | .room => l.room

/-- A sound telegram on a port. -/
def receiveSound (p : Port) (t : Telegram) (s : State) : State :=
  match p with
  | .fieldA => receiveField .a t s
  | .fieldB => receiveField .b t s
  | .room => receiveRoom t s

/-- A frame payload on a port: nothing is received while the link is down (R1); the checks of R4 otherwise. -/
def receiveFrame (p : Port) (frame : List Byte) (s : State) : State :=
  if s.links.up p then
    match readFrame frame with
    | .lengthFault => count (·.length p) s
    | .checkFault => count (·.check p) s
    | .sound t => receiveSound p t s
  else s

/-- A telegram that arrives in a frame of its own size with a right check; one with a payload above 240 bytes fails the
length check (R4). -/
def receiveTelegram (p : Port) (t : Telegram) (s : State) : State :=
  if s.links.up p then
    if 240 < t.payload.length then count (·.length p) s else receiveSound p t s
  else s

end Sys2Proof.Machine
end

