-- ==== Sys2Proof/Machine/Query.lean ====
section
/-! DEFINITION. The data of the QUERY replies, field by field (R34, R57, R76, R105, R140, R170, R180, R183, R184). -/

namespace Sys2Proof.Machine

/-! ## Lists (R183) -/

/-- The bytes of the leading elements that fit whole in `room` bytes. -/
def fitWhole (room : Nat) : List (List Byte) → List Byte
  | [] => []
  | e :: rest => if e.length ≤ room then e ++ fitWhole (room - e.length) rest else []

/-- Reply data with one list: what stands before it, its total count, the elements after the skip that fit within the
236 bytes of REPLY data, and what stands after it. -/
def withList (before : List Byte) (elements : List (List Byte)) (skip : Nat) (after : List Byte) : List Byte :=
  before ++ num2 elements.length ++ fitWhole (236 - (before.length + 2 + after.length)) (elements.drop skip) ++ after

/-! ## Subjects -/

/-- QUERY CLOCK (R34). -/
def clockData (s : State) : List Byte :=
  num1 s.lck.lock.code ++ num2 s.lck.cycle ++ num4 s.lck.dayTime ++ num2 s.lck.missed

/-- A profile slot in QUERY PROFILE: its fields after the state are 0 for a slot that holds no profile (R57). -/
def slotData (x : ProfileSlot) : List Byte :=
  num1 x.state.code ++
    match x.profile with
    | some p => p.name ++ num2 p.check.toNat ++ num2 p.runs.length
    | none => List.replicate 20 0

/-- The target of a load. R180 names no table that codes it: the model takes the codes of Table 12-2, so that LINE is 255,
the byte of no load too, which its remaining blocks of 0 tell apart (DESIGN CHOICE, log entry 21). -/
def LoadTarget.code : LoadTarget → Nat
  | .line => 255
  | .slot i => i.val

/-- QUERY PROFILE (R57). -/
def profileData (s : State) : List Byte :=
  s.tst.slots.items.flatMap slotData ++ num1 s.tst.lineState.code
    ++ opt1 (s.tst.load.map (·.target.code)) ++ opt2 (s.tst.load.map (·.remaining))
    ++ opt2 (s.tst.load.map (·.expected)) ++ opt1 (s.tst.pendingSlot.map (·.val))
    ++ opt1 (s.tst.openGroup.map (·.length)) ++ num1 s.tst.waiting.length

/-- The counters in the order of Table 1-11 (R15). -/
def Counters.values (c : Counters) : List Nat :=
  [c.checkA, c.checkB, c.checkRoom, c.lengthA, c.lengthB, c.lengthRoom, c.duplicateA, c.duplicateB, c.misdirectedA,
    c.misdirectedB, c.misdirectedRoom, c.statusRefused, c.serviceRefused, c.partRefused, c.forwardRefused, c.manageLost]

/-- QUERY COUNTERS (R184). -/
def countersData (s : State) : List Byte := s.tiu.counters.values.flatMap num2

/-- QUERY IDENTITY (R184). -/
def identityData (s : State) : List Byte :=
  num1 64 ++ num1 32 ++ num1 8 ++ num1 24 ++ num1 48 ++ num1 32
    ++ num1 8 ++ num1 8 ++ num1 64 ++ num1 128 ++ num1 32
    ++ num1 3 ++ num2 512 ++ num1 16 ++ num2 0x0103 ++ [s.straps, s.address]

/-- QUERY MODE (R183). -/
def modeData (s : State) : List Byte :=
  num1 (mode s).code ++ num1 s.tst.lineState.code ++ opt1 ((activeSlot s).map (·.val)) ++ num1 s.lck.lock.code
    ++ [s.address]

/-- A train record with its record number (R76, Table 4-1). R180 does not say whether an absent field of several items is none
as a whole or item by item: a held slot of none is given item by item (DESIGN CHOICE, log entry 21). -/
def trainData (i : TrainId) (t : Train) : List Byte :=
  num1 i.val ++ num2 t.set ++ opt2 t.run ++ opt1 t.step ++ num1 t.state.code ++ opt1 (t.point.map (·.val))
    ++ opt4 t.time ++ int2 t.dev ++ opt4 t.target ++ opt2 t.overdue ++ opt2 t.powerWait
    ++ opt1 (t.slot.map (·.sub.val)) ++ opt2 (t.slot.map (·.left)) ++ flag1 t.late ++ num2 t.silence

/-- The train records in use, in record order. -/
def trainsInUse (s : State) : List Train := s.rrg.trains.items.filterMap id

/-- QUERY TRAIN for the table (R76). -/
def trainTableData (s : State) (skip : Nat) : List Byte :=
  withList (num1 (trainsInUse s).length) ((trainsInUse s).map fun t => num2 t.set) skip
    (num2 s.rrg.refused ++ num2 s.rrg.unplanned)

/-- QUERY TRAIN (R76). -/
def queryTrainReply (s : State) (index skip : Nat) : Reply :=
  if index = 0 then .ok (trainTableData s skip)
  else
    match (findTrain s index).bind fun i => (s.rrg.trains.get i).map (trainData i) with
    | some d => .ok d
    | none => .no .badIndex

/-- The fields of a timing point (Table 3-2). Those of an absent trigger are given as none, item by item, where R180 does not
say whether the whole field or each item counts (DESIGN CHOICE, log entry 21). -/
def pointData (p : Point) : List Byte :=
  num1 p.kind.code ++ num1 p.area.val ++ [p.controller] ++ num2 p.minDwell ++ num2 p.dwell
    ++ opt1 (p.depart.map (·.val)) ++ num2 p.accel
    ++ (if p.hasTrigger then num1 p.trigZone.val ++ num1 p.trigTarget.val ++ num1 p.trigNext.val ++ num1 p.trigDelayed.val
        else [255, 255, 255, 255])

/-- A passage memory (R75). -/
def memoryData (m : Memory) : List Byte := opt4 m.released ++ opt2 m.run ++ opt4 m.scheduled

/-- The records in a stop state at a timing point, each as train set, state and Td. Table 12-4 gives the list no order: the
model gives it in ascending record number (DESIGN CHOICE, log entry 21). -/
def stoppedAt (s : State) (p : TpId) : List (List Byte) :=
  ((trainsInUse s).filter fun t => t.state.stopped && decide (t.point = some p)).map fun t =>
    num2 t.set ++ num1 t.state.code ++ opt4 t.target

/-- QUERY TIMING_POINT (R183). -/
def queryPointReply (s : State) (index skip : Nat) : Reply :=
  match index? 64 index with
  | none => .no .badIndex
  | some p =>
    .ok (withList (pointData (s.tst.line.points.get p) ++ memoryData (s.rrg.memory.get p) ++ flag1 (underHold s p)
      ++ flag1 (underSuspend s p)) (stoppedAt s p) skip [])

/-- The state items of QUERY SECTION for a used section: the judgement of each feed, the state, and the slot source with
its effective capacity and held count (R105). A section without feed B still has its judgement byte, given as 255 (DESIGN
CHOICE, log entry 21). -/
def sectionState (s : State) (x : Sec) (v : Picture) : List Byte :=
  num1 (feedOf s.psv x.subA x.feederA).code ++ opt1 (x.subB.map fun b => (feedOf s.psv b x.feederB).code)
    ++ opt1 (v.state.map (·.code)) ++ opt1 (v.source.map (·.1.val)) ++ opt1 (v.source.map (·.2.code))
    ++ opt1 (v.source.map fun f => (s.psv.subs.get f.1).capacity) ++ opt1 (v.source.map fun f => (s.psv.subs.get f.1).held)

/-- QUERY SECTION (R105). -/
def querySectionReply (s : State) (index : Nat) : Reply :=
  match index? 32 index with
  | none => .no .badIndex
  | some i =>
    let x := s.tst.line.secs.get i
    .ok (flag1 x.used ++ num1 x.area.val ++ num1 x.subA.val ++ num1 x.feederA.val ++ opt1 (x.subB.map (·.val))
      ++ opt1 (x.subB.map fun _ => x.feederB.val)
      ++ if x.used then sectionState s x (s.psv.secs.get i) else List.replicate 7 255)

/-- The waiting list of a substation, each train as train set and Td in list order (R105). -/
def waitingData (s : State) (v : Supply) : List (List Byte) :=
  v.waits.map fun w => opt2 ((s.rrg.trains.get w.train).map (·.set)) ++ num4 w.target

/-- The state items of QUERY SUBSTATION for a used substation, before its list (R105). The base is that of R98, which an
ONLINE substation alone has. -/
def substationState (row : Sub) (v : Supply) : List Byte :=
  num1 v.state.code ++ opt1 (v.incomer.map Bool.toNat) ++ opt1 v.load
    ++ v.feeders.items.flatMap (fun f => num1 f.code) ++ opt2 v.telemetry ++ opt2 v.credit
    ++ opt1 (if v.state = .online then some (baseCapacity row (v.load.getD 0)) else none)
    ++ num1 (creditOf v) ++ num1 v.capacity ++ flag1 v.trip ++ num1 v.held

/-- The state items of an unused substation: none or 0 (R105). -/
def noSubstationState : List Byte := List.replicate 11 255 ++ List.replicate 4 0 ++ [255] ++ List.replicate 4 0

/-- QUERY SUBSTATION (R105). -/
def querySubstationReply (s : State) (index skip : Nat) : Reply :=
  match index? 8 index with
  | none => .no .badIndex
  | some b =>
    let row := s.tst.line.subs.get b
    let v := s.psv.subs.get b
    .ok (withList
      (flag1 row.used ++ [row.unit] ++ num1 row.cap ++ num1 row.l1 ++ num1 row.l2 ++ num2 row.telemetry ++ num2 row.window
        ++ if row.used then substationState row v else noSubstationState)
      (if row.used then waitingData s v else []) skip [])

/-- An incident record with its record number (R140, Table 8-2). A cause of none is given by its code 0 of R139, as an
enumeration and not an absent field, where R140 gives absent one-byte fields as 255 (DESIGN CHOICE, log entry 21). -/
def incidentData (i : IncId) (r : Incident) : List Byte :=
  num1 i.val ++ num2 r.number ++ num1 r.cls.code.val ++ num1 r.object.kindCode ++ num2 r.object.ident
    ++ num2 r.areas.toNat ++ num1 r.effects.code ++ flag1 r.mandatory ++ opt1 (r.template.map (·.val))
    ++ num1 r.state.code ++ num1 r.cause.code ++ num1 r.level ++ opt1 r.countdown ++ num1 r.recurrences
    ++ flag1 r.recurred ++ opt4 r.opened ++ opt2 r.ackTag ++ opt2 r.retention

/-- The incident records in use with their record numbers. -/
def incidentsInUse (s : State) : List (IncId × Incident) :=
  (indices 32).filterMap fun i => (s.inc.records.get i).map fun r => (i, r)

/-- QUERY INCIDENT for the table; both lists together always fit (R140, R183). The number of records in use stands in one
byte of its own before the list's two-byte count, which R140 and R183 do not tell apart (DESIGN CHOICE, log entry 21). -/
def incidentTableData (s : State) (skip : Nat) : List Byte :=
  let elements := (incidentsInUse s).map fun x =>
    num1 x.1.val ++ num2 x.2.number ++ num1 x.2.cls.code.val ++ num1 x.2.state.code ++ num1 x.2.level
  withList (num1 elements.length) elements skip
    (num2 s.inc.resolved.length ++ s.inc.resolved.flatMap (fun i => num1 i.val) ++ num2 s.inc.nextNumber
      ++ num2 s.inc.refused)

/-- QUERY INCIDENT (R140). -/
def queryIncidentReply (s : State) (index skip : Nat) : Reply :=
  if index = 0 then .ok (incidentTableData s skip)
  else
    match (findNumber s index).bind fun i => (s.inc.records.get i).map (incidentData i) with
    | some d => .ok d
    | none => .no .badIndex

/-- An entry (R170). -/
def entryData (e : Entry) : List Byte :=
  num1 e.template.val ++ num1 e.priority.code ++ num1 (sourceKindCode e.source) ++ num2 (sourceIdent e.source)
    ++ num1 e.params.length ++ e.params.flatMap num2 ++ num1 e.repeats ++ num2 e.eligible ++ opt2 e.expiry ++ num2 e.seq

/-- The fields of an absent current entry: each as none. -/
def noEntryData : List Byte := [255, 255, 255, 0, 0, 0, 255, 0, 0, 0, 0, 0, 0]

/-- The data of a zone: its row, its state, its current entry, its queue and its counts (R170). -/
def zoneData (row : ZoneRow) (q : Zone) (skip : Nat) : List Byte :=
  withList
    ([row.controller] ++ num2 row.areas.toNat ++ num2 row.guard ++ flag1 row.opens ++ num1 q.state.code ++ opt1 q.tag
      ++ num1 q.nextTag ++ opt2 q.play ++ opt2 q.guard ++ (q.current.map entryData).getD noEntryData)
    (q.queue.map entryData) skip (num2 q.missing ++ num2 q.refused)

/-- The data of a zone in BARE mode: the state as none and every other field as 0 (R170). -/
def bareZoneData : List Byte := List.replicate 6 0 ++ [255] ++ List.replicate 25 0

/-- QUERY ZONE (R170). -/
def queryZoneReply (s : State) (index skip : Nat) : Reply :=
  match index? 24 index with
  | none => .no .badIndex
  | some z =>
    .ok (if mode s = .bare then bareZoneData else zoneData (s.tst.line.zones.get z) (s.asc.zones.get z) skip)

/-! ## The subjects by code (Table 12-4) -/

/-- The subjects of QUERY (Table 12-4). -/
inductive Subject where
  | train
  | point
  | sec
  | substation
  | incident
  | zone
  | clock
  | profile
  | counters
  | identity
  | mode
  deriving DecidableEq, Repr

/-- Table 12-4. -/
def Subject.ofCode : Nat → Option Subject
  | 0 => some .train
  | 1 => some .point
  | 2 => some .sec
  | 3 => some .substation
  | 4 => some .incident
  | 5 => some .zone
  | 6 => some .clock
  | 7 => some .profile
  | 8 => some .counters
  | 9 => some .identity
  | 10 => some .mode
  | _ => none

/-- The REPLY to a QUERY of a subject (Table 12-4). -/
def queryReply (s : State) (subject : Subject) (index skip : Nat) : Reply :=
  match subject with
  | .train => queryTrainReply s index skip
  | .point => queryPointReply s index skip
  | .sec => querySectionReply s index
  | .substation => querySubstationReply s index skip
  | .incident => queryIncidentReply s index skip
  | .zone => queryZoneReply s index skip
  | .clock => .ok (clockData s)
  | .profile => .ok (profileData s)
  | .counters => .ok (countersData s)
  | .identity => .ok (identityData s)
  | .mode => .ok (modeData s)

end Sys2Proof.Machine
end

