-- ==== Sys2Proof/Machine/Manage.lean ====
section
/-! DEFINITION. Management telegrams: decoding, the REPLY, the commands against the RRG, the INC and the ASC, and the
restarts (R10, R76, R135–R137, R166, R178–R187). -/

namespace Sys2Proof.Machine

/-! ## The head of the management input queue (R10, R181) -/

/-- The command code of a MANAGE. -/
def commandOf (t : Telegram) : Nat := field t.payload 0 1

/-- The console tag of a MANAGE. -/
def tagOf (t : Telegram) : Nat := field t.payload 1 2

/-- The arguments of a MANAGE. -/
def argsOf (t : Telegram) : List Byte := t.payload.drop 3

/-- The REPLY to a MANAGE (R9, R180). -/
def replyTelegram (s : State) (t : Telegram) (r : Reply) : Telegram :=
  { kind := kindReply, dest := t.src, src := s.address, flags := 0,
    payload := num2 (tagOf t) ++ num1 r.result.code ++ num1 r.reason.code ++ r.data }

/-- The REPLY to a MANAGE is appended to the room-bound queue (R10). -/
def answer (t : Telegram) (r : Reply) (s : State) : State :=
  { s with tiu.room := s.tiu.room ++ [{ kind := .reply, telegram := replyTelegram s t r }] }

/-- The TIU takes the head of the management input queue when it is a telegram of the row and the room-bound queue has a
place for its REPLY; `run` executes it. Otherwise the row's step does not occur (R10, log entry 12). -/
def takeHead (belongs : Telegram → Bool) (run : Telegram → State → State) (s : State) : State :=
  match s.tiu.manage with
  | [] => s
  | t :: rest =>
    if belongs t ∧ s.tiu.room.length < 64 then run t { s with tiu.manage := rest } else s

/-- A command is executed as one action: its effect, its REPLY, then what it made (R10). -/
def execute (f : Telegram → Act → Act × Reply) (t : Telegram) (s : State) : State :=
  let x := f t (Act.start s)
  enterMade (answer t x.2 x.1.s) x.1.out

/-- A command whose arguments must have a length (R181). -/
def sized (n : Nat) (f : List Byte → Act → Act × Reply) (t : Telegram) (a : Act) : Act × Reply :=
  if (argsOf t).length = n then f (argsOf t) a else (a, .no .badIndex)

/-- The step of a row with a command code (R10, R181). -/
def command (code : Nat) (f : Telegram → Act → Act × Reply) (s : State) : State :=
  takeHead (fun t => decide (commandOf t = code)) (execute f) s

/-! ## Trains (R76) -/

/-- TRAIN_BIND. -/
def bindCommand (set run : Nat) (a : Act) : Act × Reply :=
  if mode a.s = .bare then (a, .no .mode)
  else
    match findTrain a.s set with
    | none => (a, .no .badIndex)
    | some i =>
      if run = 0 then (unschedule i a, .ok [])
      else if mode a.s = .prepared then (a, .no .state)
      else if (activeRun a.s run).isNone then (a, .no .badIndex)
      else if (a.train i).bind (·.run) = some run then (a, .ok [])
      else (bindRun i run a, .ok [])

/-- TRAIN_REMOVE. -/
def removeCommand (set : Nat) (a : Act) : Act × Reply :=
  if mode a.s = .bare then (a, .no .mode)
  else
    match findTrain a.s set with
    | none => (a, .no .badIndex)
    | some i => (removeTrain i a, .ok [])

/-! ## Incidents (R135–R137) -/

/-- The countdown an acknowledgement sets, none for idle, and whether the reload was clamped (R135). -/
def ackCountdown (mandatory : Bool) (reload : Nat) : Option Nat × Bool :=
  if 63 < reload then (some 63, true)
  else if reload = 0 then (if mandatory then (some 1, true) else (none, false))
  else (some reload, false)

/-- INCIDENT_RAISE (R137). -/
def raiseCommand (areas effects reload template mandatory : Nat) (a : Act) : Act × Reply :=
  if mode a.s = .bare then (a, .no .mode)
  else
    match optIndex? 128 template, bool? mandatory with
    | some tmpl, some m =>
      if 8 ≤ effects then (a, .no .badIndex)
      else
        match takeRecord a with
        | none => ({ a with s.inc.refused := bump a.s.inc.refused }, .no .full)
        | some (i, b) =>
          let c := ackCountdown m reload
          let o : Opening :=
            { cls := .operator, object := none, areas := some (BitVec.ofNat 16 areas), effects := Effects.ofCode effects,
              mandatory := m, template := tmpl, cause := .absent, countdown := c.1 }
          (drain (openRecord o i b), .okClamped c.2 (num2 b.s.inc.nextNumber))
    | _, _ => (a, .no .badIndex)

/-- The record an acknowledgement leaves, before any resolution (R135). -/
def Incident.acked (r : Incident) (tag : Nat) (countdown : Option Nat) : Incident :=
  { r with state := .acknowledged, recurred := false, ackTag := some tag, countdown := countdown }

/-- INCIDENT_ACK (R135). -/
def ackCommand (tag number reload : Nat) (a : Act) : Act × Reply :=
  if mode a.s = .bare then (a, .no .mode)
  else
    match (findNumber a.s number).bind fun i => (a.incident i).map fun r => (i, r) with
    | none => (a, .no .badIndex)
    | some (i, r) =>
      if r.state = .resolved then (a, .no .state)
      else
        let c := ackCountdown r.mandatory reload
        let r' := r.acked tag c.1
        let reply (st : IncState) : Reply := .okClamped c.2 (num2 number ++ num1 st.code ++ num1 (c.1.getD 0))
        if r.cause = .gone then (drain (resolve i r' a), reply .resolved)
        else (a.record .acknowledged i r', reply .acknowledged)

/-- INCIDENT_RESOLVE (R136). R136 gives a RAISED record resolved without being acknowledged no console tag. A record that was
acknowledged and that an escalation has taken back to RAISED keeps its tag (R145); R136 does not speak of it, and the model
keeps the tag (DESIGN CHOICE, log entry 50). -/
def resolveCommand (number : Nat) (a : Act) : Act × Reply :=
  if mode a.s = .bare then (a, .no .mode)
  else
    match (findNumber a.s number).bind fun i => (a.incident i).map fun r => (i, r) with
    | none => (a, .no .badIndex)
    | some (i, r) =>
      if r.state = .resolved then (a, .no .state)
      else if r.cause = .present then (a, .no .causePresent)
      else (drain (resolve i r a), .ok (num2 number))

/-! ## Zones (R166, R178, R179) -/

/-- ZONE_SET (R166). -/
def zoneCommand (zone st : Nat) (a : Act) : Act × Reply :=
  if mode a.s = .bare then (a, .no .mode)
  else
    match index? 24 zone with
    | none => (a, .no .badIndex)
    | some z =>
      if 2 < st then (a, .no .badIndex)
      else
        let b := if st = 0 then zoneOff z a else if st = 1 then
          (if (a.zone z).state = .barred then a else zoneBar z a) else zoneOpen z a
        (b, .ok (num1 (a.zone z).state.code ++ num1 (b.zone z).state.code))

/-- The zones of a zone set, ascending. -/
def zonesOf (set : Nat) : List ZoneId := (indices 24).filter fun z => set.testBit z.val

/-- An operator entry is handed to each zone in turn; the outcomes are gathered (R179). -/
def placeAll (e : NewEntry) : List ZoneId → Act → Act × List (List Byte)
  | [], a => (a, [])
  | z :: rest, a =>
    let (a, p) := placeEntry z e a
    let (a, l) := placeAll e rest a
    (a, (num1 z.val ++ num1 p.code) :: l)

/-- ANNOUNCE, its list's count agreeing with its length (R178, R179). -/
def announceArgs (x : List Byte) (a : Act) : Act × Reply :=
  if mode a.s = .bare then (a, .no .mode)
  else
    let set := field x 0 4
    match index? 128 (field x 4 1) with
    | none => (a, .no .badIndex)
    | some m =>
      if set = 0 ∨ 2 ^ 24 ≤ set ∨ 4 < field x 12 1 then (a, .no .badIndex)
      else
        let repeats := clampField 1 8 (field x 7 1)
        let interval := if field x 8 2 = 65535 then (none, 0) else
          let c := clampField 0 6000 (field x 8 2)
          (some c.1, c.2)
        let expiry := clampField 0 36000 (field x 10 2)
        let e : NewEntry :=
          { template := m, source := .console (field x 5 2), params := pairs (x.drop 13), repeats := repeats.1,
            interval := interval.1
            expiry := if expiry.1 = 0 then none else some (cycles a.s expiry.1 1) }
        let (b, l) := placeAll e (zonesOf set) a
        (b, .okClamped (decide (repeats.2 + interval.2 + expiry.2 ≠ 0)) (num2 l.length ++ l.flatten))

/-- ANNOUNCE (R178): the length is the one its list's count gives (R181). -/
def announceCommand (t : Telegram) (a : Act) : Act × Reply :=
  let x := argsOf t
  if 13 ≤ x.length ∧ x.length = 13 + 2 * field x 12 1 then announceArgs x a else (a, .no .badIndex)

/-! ## Loads, queries and counters -/

/-- LOAD_BLOCK: an index and 0 to 232 bytes (R45, R181). -/
def blockCommand (t : Telegram) (a : Act) : Act × Reply :=
  let x := argsOf t
  if 2 ≤ x.length ∧ x.length ≤ 234 then loadBlock (field x 0 2) (x.drop 2) a else (a, .no .badIndex)

/-- The subject of a QUERY; none for arguments of the wrong length or a code not in Table 12-4. -/
def subjectOf (t : Telegram) : Option Subject :=
  if (argsOf t).length = 4 then Subject.ofCode (field (argsOf t) 0 1) else none

/-- QUERY (R183). -/
def queryCommand (t : Telegram) (a : Act) : Act × Reply :=
  match subjectOf t with
  | none => (a, .no .badIndex)
  | some q => (a, queryReply a.s q (field (argsOf t) 1 2) (field (argsOf t) 3 1))

/-- The step of the QUERY row of a subject. A QUERY whose subject cannot be read belongs to every QUERY row (log entry
12). -/
def query (q : Subject) (s : State) : State :=
  takeHead (fun t => decide (commandOf t = 0x0F ∧ (subjectOf t = some q ∨ subjectOf t = none))) (execute queryCommand) s

/-- COUNTERS_CLEAR (R184). -/
def clearCounters (s : State) : State :=
  { s with
    tiu.counters := Counters.zero
    rrg.refused := 0
    rrg.unplanned := 0
    inc.refused := 0
    asc.zones := s.asc.zones.map fun q => { q with missing := 0, refused := 0 } }

/-! ## Restarts (R185, R186) -/

/-- A zone over a WARM restart (R171). -/
def Zone.warm (q : Zone) : Zone :=
  { q with
    state := match q.state with
      | .playing | .guarding => .opened
      | .off => .off
      | .barred => .barred
      | .opened => .opened
    queue := []
    current := none
    tag := none
    play := none
    guard := none }

/-- The TST over a WARM restart (R58). -/
def Tst.warm (t : Tst) : Tst := { t.abandonLoad with openGroup := none, waiting := [], pendingSlot := none }

/-- The prescaler as every start loads it (R143). -/
def freshPrescaler (s : State) : Nat := cycles s (params s).tick 4

/-- Every block in its state for a WARM restart (R185). -/
def warmState (s : State) : State :=
  let s := { s with tst := s.tst.warm }
  { s with
    tiu.duplicates := Table.fill 256 .unknown
    rrg := { Rrg.start with refused := s.rrg.refused, unplanned := s.rrg.unplanned }
    psv := supplyWarm s
    inc := { Inc.start with nextNumber := s.inc.nextNumber, refused := s.inc.refused, prescaler := freshPrescaler s }
    asc := if tablesValid s then { zones := s.asc.zones.map Zone.warm } else Asc.start }

/-- The raises that the standing conditions call for after a WARM restart (R28, R106, R185). R185 lets either block's be
taken first: the model takes the LCK's (DESIGN CHOICE, log entry 39). -/
def standing (a : Act) : Act :=
  if mode a.s = .bare then a
  else (standingRaises a.s).foldl (fun a r => a.request r) (raiseIfUnlocked a)

/-- RESTART WARM once its REPLY is appended (R185). -/
def restartWarmly (s : State) : State := (standing (Act.start (warmState s))).finish

/-- The TIU over a FULL restart: the REPLY telegrams, the management input queue and the sending in progress are kept
(R16). -/
def Tiu.full (t : Tiu) : Tiu :=
  { Tiu.start with
    room := t.room.filter fun x => decide (x.kind = .reply)
    manage := t.manage
    roomSending := t.roomSending
    fieldSending := t.fieldSending }

/-- RESTART FULL once its REPLY is appended (R186): power-on, but for what the TIU keeps and the station address. -/
def restartFully (s : State) : State :=
  { s with
    tiu := s.tiu.full
    lck := { Lck.start with timeBase := s.lck.timeBase }
    tst := Tst.start
    rrg := Rrg.start
    psv := Psv.start
    inc := Inc.start
    asc := Asc.start }

/-- The kind of a RESTART, true for FULL; none for arguments of the wrong length or another kind (Table 12-2). -/
def restartKind (t : Telegram) : Option Bool := if (argsOf t).length = 1 then bool? (field (argsOf t) 0 1) else none

/-- The step of a RESTART row: the REPLY, then the restart; a RESTART whose kind cannot be read is refused, and belongs
to both rows (log entry 12). -/
def restart (full : Bool) (s : State) : State :=
  takeHead (fun t => decide (commandOf t = 0x11 ∧ (restartKind t = some full ∨ restartKind t = none)))
    (fun t s =>
      match restartKind t with
      | none => answer t (.no .badIndex) s
      | some false => restartWarmly (answer t (.ok []) s)
      | some true => restartFully (answer t (.ok []) s)) s

/-! ## Power-on (R187) -/

/-- The station address a strap value gives (R187). -/
def addressOf (straps : Byte) : Byte := if straps = 0 ∨ straps = 255 then 1 else straps

/-- The part at power-on, with the straps as sampled. The links and the waiting commands are not the part's (R187). -/
def powerOnState (straps : Byte) (s : State) : State :=
  { State.reset with
    links := s.links, straps := straps, address := addressOf straps, freeCount := s.freeCount, pending := s.pending }

end Sys2Proof.Machine
end

