-- ==== Sys2Proof/Machine/Events.lean ====
section
/-! DEFINITION. The meanings of the events at the pins and ports: power-on, links, ends of transmission, and received
telegrams (R1, R4–R14, R187). -/

namespace Sys2Proof.Machine

/-- What a command answers: always a next state. -/
abbrev Answer := Host.Outcome State Fault Refusal

/-! ## Pins -/

/-- The link inputs with one port's set. -/
def Links.set (l : Links) (up : Bool) : Port → Links
  | .fieldA => { l with a := up }
  | .fieldB => { l with b := up }
  | .room => { l with room := up }

/-- A field sending that has lost a port: it goes on while the other port still sends. -/
def FieldSending.lose (f : FieldSending) : FieldPort → Option FieldSending
  | .a => if f.onB then some { f with onA := false } else none
  | .b => if f.onA then some { f with onB := false } else none

/-- What a port was sending is lost when its link goes down (log entry 13). -/
def Tiu.loseLink (t : Tiu) : Port → Tiu
  | .fieldA => { t with fieldSending := t.fieldSending.bind (·.lose .a) }
  | .fieldB => { t with fieldSending := t.fieldSending.bind (·.lose .b) }
  | .room => { t with roomSending := none }

/-- A link comes up. -/
def raiseLink (p : Port) (s : State) : State := { s with links := s.links.set true p }

/-- A link goes down. -/
def dropLink (p : Port) (s : State) : State := { s with links := s.links.set false p, tiu := s.tiu.loseLink p }

/-- The transmitters look for work, unless the part is in reset. -/
def settleAwake (s : State) : State := if s.inReset then s else settle s

/-- POWER_ON (R187). -/
def execPowerOn (straps : Byte) (s : State) : Answer := .next (powerOnState straps s)

/-- RESET_ASSERTION: the part is in reset until the release that POWER_ON models (R187, Table 12-5). -/
def execResetAssertion (s : State) : Answer := .next { s with inReset := true }

/-- LINK_UP (R1, R9, R14). -/
def execLinkUp (p : Port) (s : State) : Answer := .next (settleAwake (raiseLink p s))

/-- LINK_DOWN (R1, R9, R14). -/
def execLinkDown (p : Port) (s : State) : Answer := .next (settleAwake (dropLink p s))

/-- ROOM_TRANSMISSION_END (R9). -/
def execRoomTransmissionEnd (s : State) : Answer := .next (whenAwake (fun s => { s with tiu.roomSending := none }) s)

/-- FIELD_TRANSMISSION_END (R14). -/
def execFieldTransmissionEnd (s : State) : Answer := .next (whenAwake (fun s => { s with tiu.fieldSending := none }) s)

/-! ## Telegrams -/

/-- CYCLE_MARKER (R18–R25). -/
def execCycleMarker (p : FieldPort) (h : Header) (number : BitVec 16) (dayTime : BitVec 32) (s : State) : Answer :=
  .next (whenAwake (receiveTelegram p.port (markerTelegram h number dayTime)) s)

/-- PASSAGE (R60). -/
def execPassage (p : FieldPort) (h : Header) (trainSet run : BitVec 16) (point event : Byte) (offset : BitVec 16)
    (s : State) : Answer :=
  .next (whenAwake (receiveTelegram p.port (passageTelegram h trainSet run point event offset)) s)

/-- SUBSTATION_STATUS (R95). -/
def execSubstationStatus (p : FieldPort) (h : Header) (incomer load : Byte) (feeders : List Byte) (s : State) : Answer :=
  .next (whenAwake (receiveTelegram p.port (statusTelegram h incomer load feeders)) s)

/-- EQUIPMENT_STATUS (R126). -/
def execEquipmentStatus (p : FieldPort) (h : Header) (inputs : List Byte) (s : State) : Answer :=
  .next (whenAwake (receiveTelegram p.port (equipmentTelegram h inputs)) s)

/-- PA_DONE (R162). -/
def execPaDone (p : FieldPort) (h : Header) (zone tag : Byte) (s : State) : Answer :=
  .next (whenAwake (receiveTelegram p.port (doneTelegram h zone tag)) s)

/-- OTHER_FIELD_TELEGRAM (R7). -/
def execOtherFieldTelegram (p : FieldPort) (t : Telegram) (s : State) : Answer :=
  .next (whenAwake (receiveTelegram p.port t) s)

/-- ROOM_TELEGRAM_FORWARD (R13). -/
def execRoomTelegramForward (t : Telegram) (s : State) : Answer := .next (whenAwake (receiveTelegram .room t) s)

/-- MANAGE (R10). -/
def execManage (h : Header) (code : Byte) (tag : BitVec 16) (args : List Byte) (s : State) : Answer :=
  .next (whenAwake (receiveTelegram .room (manageTelegram h code tag args)) s)

/-- TELEGRAM_DISCARDED: the frame payload is put through the receive checks, which discard it where R4 says so. -/
def execTelegramDiscarded (p : Port) (frame : List Byte) (s : State) : Answer :=
  .next (whenAwake (receiveFrame p frame) s)

end Sys2Proof.Machine
end

