-- ==== Sys2Proof/Machine/Expiries.lean ====
section
/-! DEFINITION. The meanings of the expiries. A boundary makes every countdown fall and acts on those that reach 0
(Clock.lean). A row that is the expiry of one countdown is that countdown's last fall taken as a step of its own: it
occurs where the clock is set and the countdown stands at its last count, and the part then does what it does at the
boundary; elsewhere the step does not occur and nothing changes (log entry 11). -/

namespace Sys2Proof.Machine

/-- Whether an optional countdown runs and stands at its last count. -/
def atLast (o : Option Nat) : Bool := (o.map fun n => decide (n ≤ 1)).getD false

/-- An expiry: where it is due and the clock is set, its work is done as one action. -/
def expire (due : State → Bool) (work : Act → Act) (s : State) : Answer :=
  .next (whenAwake (fun s => if clockSet s ∧ due s then (work (Act.start s)).finish else s) s)

/-- MARKER_TIMEOUT_EXPIRY (R23, R24). -/
def execMarkerTimeoutExpiry (s : State) : Answer := .next (whenAwake (fun s => (timeoutExpiry (Act.start s)).finish) s)

/-- What the part does while no command waits. In reset it stands still. Otherwise one millisecond of the LCK's own time
base passes; when the marker deadline has come, the expiry is taken instead (R19, log entry 15). -/
def idle (s : State) : Answer :=
  if s.inReset then .next s
  else if (s.lck.deadline.map fun d => decide (d ≤ s.lck.timeBase)).getD false then execMarkerTimeoutExpiry s
  else .next { s with lck.timeBase := s.lck.timeBase + 1 }

/-- SILENCE_EXPIRY (R68). -/
def execSilenceExpiry (i : TrainId) (s : State) : Answer :=
  expire (fun s => atLast ((s.rrg.trains.get i).map (·.silence))) (removeTrain i) s

/-- The work of another expiry of a train record. Where the record's silence countdown runs out at the same boundary it is
taken first: the record is removed and nothing is raised for it (R68, log entry 11). -/
def unlessSilent (i : TrainId) (work : Act → Act) (a : Act) : Act :=
  if atLast ((a.train i).map (·.silence)) then removeTrain i a else work a

/-- OVERDUE_EXPIRY (R69, R68). -/
def execOverdueExpiry (i : TrainId) (s : State) : Answer :=
  expire (fun s => atLast ((s.rrg.trains.get i).bind (·.overdue))) (unlessSilent i (overdueOut i)) s

/-- POWER_WAIT_EXPIRY (R120, R68). -/
def execPowerWaitExpiry (i : TrainId) (s : State) : Answer :=
  expire (fun s => atLast ((s.rrg.trains.get i).bind (·.powerWait))) (unlessSilent i (powerWaitOut i)) s

/-- REPORT_HOLD_OFF_EXPIRY (R61). -/
def execReportHoldOffExpiry (s : State) : Answer :=
  expire (fun s => decide (s.rrg.holdOff = 1)) (fun a => { a with s.rrg.holdOff := 0 }) s

/-- TELEMETRY_TIMEOUT_EXPIRY (R96). -/
def execTelemetryTimeoutExpiry (b : SubId) (s : State) : Answer :=
  expire (fun s => atLast (s.psv.subs.get b).telemetry)
    (fun a => deriveSupply (telemetryOut [b] a).1 [] (telemetryOut [b] a).2) s

/-- CREDIT_EXPIRY (R99). -/
def execCreditExpiry (b : SubId) (s : State) : Answer :=
  expire (fun s => atLast (s.psv.subs.get b).credit) (fun a => deriveSupply [] [] (creditOut [b] a)) s

/-- SLOT_EXPIRY (R112). -/
def execSlotExpiry (i : TrainId) (s : State) : Answer :=
  expire (fun s => atLast (((s.rrg.trains.get i).bind (·.slot)).map (·.left)))
    (fun a => deriveSupply [] [] (dropSlot i a)) s

/-- ESCALATION_TICK (R143, R144). -/
def execEscalationTick (s : State) : Answer := expire (fun s => decide (s.inc.prescaler ≤ 1)) tick s

/-- A record that is open with its countdown at the last tick (R144). -/
def escalationDue (i : IncId) (s : State) : Bool :=
  match s.inc.records.get i with
  | some r => r.live && atLast r.countdown
  | none => false

/-- An escalation of the record in `i`. -/
def escalateAt (i : IncId) (a : Act) : Act :=
  match a.incident i with
  | some r => escalate i r a
  | none => a

/-- ESCALATION (R145). -/
def execEscalation (i : IncId) (s : State) : Answer := expire (escalationDue i) (escalateAt i) s

/-- The record in `i` is freed. -/
def freeAt (i : IncId) (a : Act) : Act :=
  match a.incident i with
  | some r => freeResolved i r a
  | none => a

/-- RETENTION_EXPIRY (R138). -/
def execRetentionExpiry (i : IncId) (s : State) : Answer :=
  expire (fun s => atLast ((s.inc.records.get i).bind (·.retention))) (freeAt i) s

/-- The queued entry of a zone with a key. -/
def queuedEntry (s : State) (z : ZoneId) (k : EntryKey) : Option Entry :=
  (s.asc.zones.get z).queue.find? fun e => decide (e.key = k)

/-- The queued entry of a zone with a key leaves the queue, uncounted, if its expiry countdown stands at its last count
(R165). -/
def dropSpent (z : ZoneId) (k : EntryKey) (a : Act) : Act :=
  let q := a.zone z
  a.putZone z { q with queue := q.queue.filter fun e => decide (¬(e.key = k ∧ atLast e.expiry)) }

/-- Whether the entry of a zone with a key, queued or current, stands at its last count of expiry. -/
def entryDue (z : ZoneId) (k : EntryKey) (s : State) : Bool :=
  atLast ((queuedEntry s z k).bind (·.expiry))
    || (decide ((s.asc.zones.get z).current.map Entry.key = some k)
        && decide ((s.asc.zones.get z).current.bind (·.expiry) = some 1))

/-- The expiry of an entry: a queued one is dropped without being counted; a current one plays on and will not return
(R159, R165). -/
def expireEntry (z : ZoneId) (k : EntryKey) (a : Act) : Act :=
  let a := dropSpent z k a
  let q := a.zone z
  a.putZone z
    { q with
      current := q.current.map fun e => if e.key = k ∧ e.expiry = some 1 then { e with expiry := some 0 } else e }

/-- ENTRY_EXPIRY (R165). -/
def execEntryExpiry (z : ZoneId) (k : EntryKey) (s : State) : Answer := expire (entryDue z k) (expireEntry z k) s

/-- An entry of whose countdowns those that stand at their last count have run out (R165, step 1). -/
def Entry.runOut (e : Entry) : Entry :=
  { e with eligible := if e.eligible ≤ 1 then 0 else e.eligible, expiry := if atLast e.expiry then some 0 else e.expiry }

/-- A zone that has come to steps 3 to 5 of R165: what of its entries' countdowns runs out at the same boundary has done so
first, and queued entries that have expired have left (steps 1 and 2; log entry 11). -/
def entriesRunOut (z : ZoneId) (a : Act) : Act :=
  let q := a.zone z
  a.putZone z (Zone.dropExpired
    { q with
      queue := q.queue.map Entry.runOut
      current := q.current.map fun e => { e with expiry := e.runOut.expiry } })

/-- ELIGIBLE_COUNTDOWN_EXPIRY (R165): the issue test is made over every entry that is eligible from this boundary on, in
queue order; an entry whose expiry countdown reaches 0 with it is removed and is not issued. -/
def execEligibleCountdownExpiry (z : ZoneId) (k : EntryKey) (s : State) : Answer :=
  expire (fun s => decide ((queuedEntry s z k).map (·.eligible) = some 1)) (fun a => issueTest z (entriesRunOut z a)) s

/-- PLAY_TIMEOUT_EXPIRY (R163, R165): a current entry whose expiry countdown reaches 0 at the same boundary does not
return. -/
def execPlayTimeoutExpiry (z : ZoneId) (s : State) : Answer :=
  expire (fun s => decide ((s.asc.zones.get z).state = .playing) && atLast (s.asc.zones.get z).play)
    (fun a => playTimeout z (entriesRunOut z a)) s

/-- GUARD_EXPIRY (R164, R165): an entry whose expiry countdown reaches 0 at the same boundary is removed and is not
issued. -/
def execGuardExpiry (z : ZoneId) (s : State) : Answer :=
  expire (fun s => decide ((s.asc.zones.get z).state = .guarding) && atLast (s.asc.zones.get z).guard)
    (fun a => guardEnd z (entriesRunOut z a)) s

end Sys2Proof.Machine
end

