-- ==== Sys2Proof/Machine/Commands.lean ====
section
/-! DEFINITION. The meanings of the rows by which the TIU takes a MANAGE from its input queue (R10, R181): each takes the
queue's head where that is a telegram of the row (log entry 12). -/

namespace Sys2Proof.Machine

/-- MANAGE_UNKNOWN_COMMAND (R181). -/
def execManageUnknownCommand (s : State) : Answer :=
  .next (whenAwake (takeHead (fun t => decide (commandOf t = 0 ∨ 0x11 < commandOf t))
    fun t s => answer t (.no .unknownCommand) s) s)

/-- LOAD_OPEN (R44). -/
def execLoadOpen (s : State) : Answer :=
  .next (whenAwake (command 0x01 (sized 5 fun x => loadOpen (field x 0 1) (field x 1 2) (field x 3 2))) s)

/-- LOAD_BLOCK (R45–R47). -/
def execLoadBlock (s : State) : Answer := .next (whenAwake (command 0x02 blockCommand) s)

/-- LOAD_ABORT (R48). -/
def execLoadAbort (s : State) : Answer := .next (whenAwake (command 0x03 (sized 0 fun _ => loadAbort)) s)

/-- PROFILE_ACTIVATE (R50). -/
def execProfileActivate (s : State) : Answer :=
  .next (whenAwake (command 0x04 (sized 1 fun x => profileActivate (field x 0 1))) s)

/-- EDIT_HOLD (R53). -/
def execEditHold (s : State) : Answer := .next (whenAwake (command 0x05 (sized 0 fun _ => editHold)) s)

/-- EDIT (R52). -/
def execEdit (s : State) : Answer :=
  .next (whenAwake (command 0x06
    (sized 7 fun x => edit (field x 0 1) (field x 1 1) (field x 2 1) (field x 3 4))) s)

/-- EDIT_RELEASE (R53). -/
def execEditRelease (s : State) : Answer := .next (whenAwake (command 0x07 (sized 0 fun _ => editRelease)) s)

/-- INCIDENT_RAISE (R137). -/
def execIncidentRaise (s : State) : Answer :=
  .next (whenAwake (command 0x08
    (sized 6 fun x => raiseCommand (field x 0 2) (field x 2 1) (field x 3 1) (field x 4 1) (field x 5 1))) s)

/-- INCIDENT_ACK (R135). -/
def execIncidentAck (s : State) : Answer :=
  .next (whenAwake (command 0x09 fun t => sized 3 (fun x => ackCommand (tagOf t) (field x 0 2) (field x 2 1)) t) s)

/-- INCIDENT_RESOLVE (R136). -/
def execIncidentResolve (s : State) : Answer :=
  .next (whenAwake (command 0x0A (sized 2 fun x => resolveCommand (field x 0 2))) s)

/-- ZONE_SET (R166). -/
def execZoneSet (s : State) : Answer :=
  .next (whenAwake (command 0x0B (sized 2 fun x => zoneCommand (field x 0 1) (field x 1 1))) s)

/-- ANNOUNCE (R178, R179). -/
def execAnnounce (s : State) : Answer := .next (whenAwake (command 0x0C announceCommand) s)

/-- TRAIN_BIND (R76). -/
def execTrainBind (s : State) : Answer :=
  .next (whenAwake (command 0x0D (sized 4 fun x => bindCommand (field x 0 2) (field x 2 2))) s)

/-- TRAIN_REMOVE (R76). -/
def execTrainRemove (s : State) : Answer :=
  .next (whenAwake (command 0x0E (sized 2 fun x => removeCommand (field x 0 2))) s)

/-- QUERY with subject TRAIN (R76). -/
def execQueryTrain (s : State) : Answer := .next (whenAwake (query .train) s)

/-- QUERY with subject TIMING_POINT (R183). -/
def execQueryTimingPoint (s : State) : Answer := .next (whenAwake (query .point) s)

/-- QUERY with subject SECTION (R105). -/
def execQuerySection (s : State) : Answer := .next (whenAwake (query .sec) s)

/-- QUERY with subject SUBSTATION (R105). -/
def execQuerySubstation (s : State) : Answer := .next (whenAwake (query .substation) s)

/-- QUERY with subject INCIDENT (R140). -/
def execQueryIncident (s : State) : Answer := .next (whenAwake (query .incident) s)

/-- QUERY with subject ZONE (R170). -/
def execQueryZone (s : State) : Answer := .next (whenAwake (query .zone) s)

/-- QUERY with subject CLOCK (R34). -/
def execQueryClock (s : State) : Answer := .next (whenAwake (query .clock) s)

/-- QUERY with subject PROFILE (R57). -/
def execQueryProfile (s : State) : Answer := .next (whenAwake (query .profile) s)

/-- QUERY with subject COUNTERS (R184). -/
def execQueryCounters (s : State) : Answer := .next (whenAwake (query .counters) s)

/-- QUERY with subject IDENTITY (R184). -/
def execQueryIdentity (s : State) : Answer := .next (whenAwake (query .identity) s)

/-- QUERY with subject MODE (R183). -/
def execQueryMode (s : State) : Answer := .next (whenAwake (query .mode) s)

/-- COUNTERS_CLEAR (R184). -/
def execCountersClear (s : State) : Answer :=
  .next (whenAwake (command 0x10 (sized 0 fun _ a => ({ a with s := clearCounters a.s }, .ok []))) s)

/-- RESTART of kind WARM (R185). -/
def execRestartWarm (s : State) : Answer := .next (whenAwake (restart false) s)

/-- RESTART of kind FULL (R186). -/
def execRestartFull (s : State) : Answer := .next (whenAwake (restart true) s)

end Sys2Proof.Machine
end

