-- ==== Sys2Proof/Machine/Dispatch.lean ====
section
/-! DEFINITION. The dispatch: one arm per command, each one call of its meaning. -/

namespace Sys2Proof.Machine

def exec (i : Instr) (s : State) : Host.Outcome State Fault Refusal :=
  match i with
  | .powerOn straps => Sys2Proof.Machine.execPowerOn straps s
  | .linkUp port => Sys2Proof.Machine.execLinkUp port s
  | .linkDown port => Sys2Proof.Machine.execLinkDown port s
  | .roomTransmissionEnd => Sys2Proof.Machine.execRoomTransmissionEnd s
  | .fieldTransmissionEnd => Sys2Proof.Machine.execFieldTransmissionEnd s
  | .cycleMarker port header number dayTime => Sys2Proof.Machine.execCycleMarker port header number dayTime s
  | .markerTimeoutExpiry => Sys2Proof.Machine.execMarkerTimeoutExpiry s
  | .silenceExpiry record => Sys2Proof.Machine.execSilenceExpiry record s
  | .overdueExpiry record => Sys2Proof.Machine.execOverdueExpiry record s
  | .powerWaitExpiry record => Sys2Proof.Machine.execPowerWaitExpiry record s
  | .reportHoldOffExpiry => Sys2Proof.Machine.execReportHoldOffExpiry s
  | .telemetryTimeoutExpiry substation => Sys2Proof.Machine.execTelemetryTimeoutExpiry substation s
  | .creditExpiry substation => Sys2Proof.Machine.execCreditExpiry substation s
  | .slotExpiry record => Sys2Proof.Machine.execSlotExpiry record s
  | .escalationTick => Sys2Proof.Machine.execEscalationTick s
  | .escalation record => Sys2Proof.Machine.execEscalation record s
  | .retentionExpiry record => Sys2Proof.Machine.execRetentionExpiry record s
  | .eligibleCountdownExpiry zone key => Sys2Proof.Machine.execEligibleCountdownExpiry zone key s
  | .entryExpiry zone key => Sys2Proof.Machine.execEntryExpiry zone key s
  | .playTimeoutExpiry zone => Sys2Proof.Machine.execPlayTimeoutExpiry zone s
  | .guardExpiry zone => Sys2Proof.Machine.execGuardExpiry zone s
  | .passage port header trainSet run point event offset => Sys2Proof.Machine.execPassage port header trainSet run point event offset s
  | .substationStatus port header incomer load feeders => Sys2Proof.Machine.execSubstationStatus port header incomer load feeders s
  | .equipmentStatus port header inputs => Sys2Proof.Machine.execEquipmentStatus port header inputs s
  | .paDone port header zone tag => Sys2Proof.Machine.execPaDone port header zone tag s
  | .otherFieldTelegram port telegram => Sys2Proof.Machine.execOtherFieldTelegram port telegram s
  | .roomTelegramForward telegram => Sys2Proof.Machine.execRoomTelegramForward telegram s
  | .manage header command tag args => Sys2Proof.Machine.execManage header command tag args s
  | .manageUnknownCommand => Sys2Proof.Machine.execManageUnknownCommand s
  | .loadOpen => Sys2Proof.Machine.execLoadOpen s
  | .loadBlock => Sys2Proof.Machine.execLoadBlock s
  | .loadAbort => Sys2Proof.Machine.execLoadAbort s
  | .profileActivate => Sys2Proof.Machine.execProfileActivate s
  | .editHold => Sys2Proof.Machine.execEditHold s
  | .edit => Sys2Proof.Machine.execEdit s
  | .editRelease => Sys2Proof.Machine.execEditRelease s
  | .incidentRaise => Sys2Proof.Machine.execIncidentRaise s
  | .incidentAck => Sys2Proof.Machine.execIncidentAck s
  | .incidentResolve => Sys2Proof.Machine.execIncidentResolve s
  | .zoneSet => Sys2Proof.Machine.execZoneSet s
  | .announce => Sys2Proof.Machine.execAnnounce s
  | .trainBind => Sys2Proof.Machine.execTrainBind s
  | .trainRemove => Sys2Proof.Machine.execTrainRemove s
  | .queryTrain => Sys2Proof.Machine.execQueryTrain s
  | .queryTimingPoint => Sys2Proof.Machine.execQueryTimingPoint s
  | .querySection => Sys2Proof.Machine.execQuerySection s
  | .querySubstation => Sys2Proof.Machine.execQuerySubstation s
  | .queryIncident => Sys2Proof.Machine.execQueryIncident s
  | .queryZone => Sys2Proof.Machine.execQueryZone s
  | .queryClock => Sys2Proof.Machine.execQueryClock s
  | .queryProfile => Sys2Proof.Machine.execQueryProfile s
  | .queryCounters => Sys2Proof.Machine.execQueryCounters s
  | .queryIdentity => Sys2Proof.Machine.execQueryIdentity s
  | .queryMode => Sys2Proof.Machine.execQueryMode s
  | .countersClear => Sys2Proof.Machine.execCountersClear s
  | .restartWarm => Sys2Proof.Machine.execRestartWarm s
  | .restartFull => Sys2Proof.Machine.execRestartFull s
  | .telegramDiscarded port frame => Sys2Proof.Machine.execTelegramDiscarded port frame s
  | .resetAssertion => Sys2Proof.Machine.execResetAssertion s

end Sys2Proof.Machine
end

