-- ==== Sys2Proof/Safety.lean ====
section
/-! DEFINITION. The laws of the part's state, block by block, that every step is to keep, and the words in which the
statements about commands are said. -/

namespace Sys2Proof.Machine

/-! ## Laws of the state -/

/-- The law of the TIU's queues and counters: the room-bound queue holds up to 64 telegrams, the management input queue up
to 8 and the field forward queue up to 32; no two unsent orders compete for one place; and counters stand within 0–65535
(R9, R10, R11, R13, R15). -/
structure TiuLaw (t : Tiu) : Prop where
  room : t.room.length ≤ 64
  manage : t.manage.length ≤ 8
  forward : t.forward.length ≤ 32
  orders : t.orders.Pairwise fun o p => o.rivals p = false
  counters : ∀ n ∈ t.counters.values, n ≤ 65535

/-- The law of the Line Clock: its numbers stay in range; while it is UNSET they stand at 0 and no timeout runs, and at any
other time a timeout runs (R17–R19, R22). -/
structure LckLaw (c : Lck) : Prop where
  cycle : c.cycle ≤ 65535
  dayTime : c.dayTime ≤ 107999999
  missed : c.missed ≤ 65535
  unset : c.lock = .unset → c.cycle = 0 ∧ c.dayTime = 0 ∧ c.missed = 0 ∧ c.deadline = none
  running : c.lock ≠ .unset → c.deadline.isSome

/-- The law of the Table Store: at most one slot is ACTIVE; a slot holds a profile just when it is READY or ACTIVE; a
pending slot is READY; a LOADING target is that of the one open load; groups stay within their numbers; and while the line
tables are not VALID every slot is EMPTY, no group is held and every record stands at its default (R35, R44, R49, R50,
R53, R56). -/
structure TstLaw (t : Tst) : Prop where
  oneActive : ∀ i j, (t.slots.get i).state = .active → (t.slots.get j).state = .active → i = j
  holds : ∀ i, (t.slots.get i).profile.isSome = true ↔
    (t.slots.get i).state = .ready ∨ (t.slots.get i).state = .active
  pending : ∀ i, t.pendingSlot = some i → (t.slots.get i).state = .ready
  lineLoading : t.lineState = .loading ↔ ∃ l, t.load = some l ∧ l.target = .line
  slotLoading : ∀ i, (t.slots.get i).state = .loading ↔ ∃ l, t.load = some l ∧ l.target = .slot i
  blocks : ∀ l, t.load = some l → 1 ≤ l.remaining ∧ l.remaining + l.expected ≤ 1024
  openGroup : ∀ g, t.openGroup = some g → g.length ≤ 32
  waiting : t.waiting.length ≤ 4
  groups : ∀ g ∈ t.waiting, g ≠ [] ∧ g.length ≤ 32
  bare : t.lineState ≠ .valid → (∀ i, (t.slots.get i).state = .empty) ∧ t.openGroup = none ∧ t.waiting = []
    ∧ t.line = LineTables.standard

/-- The law of the train table: no two records in use share a train set number, no two are bound to the same run, numbers and
deviations stay in range, and no record stays whose silence has run out (R59, R61, R62, R63, R68). -/
structure RrgLaw (r : Rrg) : Prop where
  sets : ∀ i j t u, r.trains.get i = some t → r.trains.get j = some u → t.set = u.set → i = j
  runs : ∀ i j t u n, r.trains.get i = some t → r.trains.get j = some u → t.run = some n → u.run = some n → i = j
  setRange : ∀ i t, r.trains.get i = some t → 1 ≤ t.set ∧ t.set ≤ 999
  runRange : ∀ i t n, r.trains.get i = some t → t.run = some n → n ≠ 0
  devRange : ∀ i t, r.trains.get i = some t → -32767 ≤ t.dev ∧ t.dev ≤ 32767
  silence : ∀ i t, r.trains.get i = some t → 1 ≤ t.silence ∧ t.silence ≤ 480
  counts : r.refused ≤ 65535 ∧ r.unplanned ≤ 65535 ∧ r.holdOff ≤ 60

/-- The trains that hold a slot of a substation. -/
def slotHolders (s : State) (b : SubId) : List TrainId :=
  (indices 48).filter fun i => decide (((s.rrg.trains.get i).bind (·.slot)).map (·.sub) = some b)

/-- A place in a waiting list or in the dead-wait set is that of a record in a state: the record stands at the timing point
and has the Td of the place (R107, R109). -/
def Placed (s : State) (st : TrainState) (w : Wait) : Prop :=
  ∃ t, s.rrg.trains.get w.train = some t ∧ t.state = st ∧ t.point = some w.point ∧ t.target = some w.target

/-- The law of the slot pools: a held count is the number of records that hold a slot there, and a stopped train holds none;
the places of a waiting list are those of trains in WAIT_POWER, in list order and with join numbers of their own, and those
of the dead-wait set of trains in WAIT_DEAD, a train standing in one place at most; no train waits while its substation has
a slot free; and while the line tables are not VALID there is no train (R94, R107, R110, R112, R113). -/
structure PoolLaw (s : State) : Prop where
  held : ∀ b, (s.psv.subs.get b).held = (slotHolders s b).length
  stopped : ∀ i t, s.rrg.trains.get i = some t → t.state.stopped = true → t.slot = none
  lists : ∀ b, ∀ w ∈ (s.psv.subs.get b).waits, Placed s .waitPower w
  dead : ∀ w ∈ s.psv.deadWaits, Placed s .waitDead w
  once : ((allWaits s.psv).map Wait.train).Nodup
  order : ∀ b, (s.psv.subs.get b).waits.Pairwise fun x y => x.before y = true
  joins : ∀ b, ((s.psv.subs.get b).waits.map Wait.joined).Nodup
  full : ∀ b, (s.psv.subs.get b).waits ≠ [] → (s.psv.subs.get b).capacity ≤ (s.psv.subs.get b).held
  bare : tablesValid s = false → ∀ i, s.rrg.trains.get i = none

/-- The law of the supply: capacities and sections are those derived from the state of the substations and the line tables
(R103), and the slot pools keep theirs. -/
structure SupplyLaw (s : State) : Prop where
  picture : s.psv = derived s
  pool : PoolLaw s

/-- The law of the incident table: numbers are in range and held once, no two records share a key, an OPERATOR record of
object LINE has its own number there, the next number is held by no record in use, the resolved order lists the RESOLVED
records once each, only they have a retention countdown, and levels and counts stay in range (R124, R131, R133, R138, R145). -/
structure IncLaw (u : Inc) : Prop where
  numbers : ∀ i j r q, u.records.get i = some r → u.records.get j = some q → r.number = q.number → i = j
  keys : ∀ i j r q, u.records.get i = some r → u.records.get j = some q → r.cls = q.cls → r.object = q.object → i = j
  own : ∀ i r n, u.records.get i = some r → r.cls = .operator → r.object = .line n → n = r.number
  numberRange : ∀ i r, u.records.get i = some r → 1 ≤ r.number ∧ r.number ≤ 65535
  next : 1 ≤ u.nextNumber ∧ u.nextNumber ≤ 65535 ∧ ∀ i r, u.records.get i = some r → r.number ≠ u.nextNumber
  resolvedOnce : u.resolved.Nodup
  resolved : ∀ i, i ∈ u.resolved ↔ ∃ r, u.records.get i = some r ∧ r.state = .resolved
  retention : ∀ i r, u.records.get i = some r → r.retention.isSome → r.state = .resolved
  level : ∀ i r, u.records.get i = some r → r.level ≤ 3 ∧ r.recurrences ≤ 255
  refused : u.refused ≤ 65535

/-- A timing point is covered by a HOLD: a record that is not RESOLVED has HOLD among its effects, and its area set contains
the area of the timing point (R148). -/
def HoldCovers (s : State) (p : TpId) : Prop :=
  ∃ i r, s.inc.records.get i = some r ∧ r.state ≠ .resolved ∧ r.effects.hold = true
    ∧ r.areas.getLsbD (s.tst.line.points.get p).area.val = true

/-- The law of the holds: the INC has a timing point under HOLD just when a HOLD covers it; and while the line tables are not
VALID no incident record is in use and no telemetry countdown runs that could make one (R106, R148, R149). -/
structure HoldLaw (s : State) : Prop where
  held : ∀ p, s.inc.underHold.get p = true ↔ HoldCovers s p
  bare : tablesValid s = false →
    (∀ i, s.inc.records.get i = none) ∧ ∀ b, (s.psv.subs.get b).telemetry = none

/-- The law of a zone: its queue holds up to 8 entries in queue order; no two of its entries, the current one among them,
share a key or an arrival sequence; a current entry, a current tag and a play countdown stand just in PLAYING, and a guard
countdown just in GUARD; and an OFF zone holds no entry (R156–R160, R163–R166). -/
structure ZoneLaw (q : Zone) : Prop where
  size : q.queue.length ≤ 8
  order : q.queue.Pairwise fun e f => e.before f = true
  keys : ((q.queue ++ q.current.toList).map Entry.key).Nodup
  seqs : ((q.queue ++ q.current.toList).map Entry.seq).Nodup
  below : ∀ e ∈ q.queue ++ q.current.toList, e.seq < q.arrivals
  arrivals : q.arrivals ≤ 65535
  current : q.current.isSome = true ↔ q.state = .playing
  tag : q.tag.isSome = true ↔ q.state = .playing
  play : q.play.isSome = true ↔ q.state = .playing
  guard : q.guard.isSome = true ↔ q.state = .guarding
  off : q.state = .off → q.queue = []
  nextTag : q.nextTag ≤ 255
  counts : q.missing ≤ 65535 ∧ q.refused ≤ 65535

/-- The law of the Announcement Scheduler: the law of a zone for every zone. -/
def AscLaw (c : Asc) : Prop := ∀ z, ZoneLaw (c.zones.get z)

/-! ## Words of the statements -/

/-- A field telegram with contents `c` is on port `p` and passes every receive check (R1, R4). -/
structure Accepted (s : State) (p : FieldPort) (t : Telegram) (c : Contents) : Prop where
  awake : s.inReset = false
  link : s.links.up p.port = true
  size : t.payload.length ≤ 240
  foreign : t.src ≠ s.address
  direct : t.kind ≠ kindManage
  form : contents? t = some c
  fresh : t.kind = kindMarker ∨ isDuplicate s t = false

/-- The MANAGE `t` heads the management input queue, `rest` waits behind it, and the room-bound queue has a place for its
REPLY, so that the TIU can take it (R10). -/
structure Taken (s : State) (t : Telegram) (rest : List Telegram) : Prop where
  awake : s.inReset = false
  queue : s.tiu.manage = t :: rest
  place : s.tiu.room.length < 64

/-- The same for a MANAGE with a command code and arguments. -/
structure TakenAs (s : State) (t : Telegram) (rest : List Telegram) (code : Nat) (args : List Byte) : Prop extends
    Taken s t rest where
  code : commandOf t = code
  args : argsOf t = args

/-- The REPLY telegram to `t`: to its source, from the station address, with its console tag, the result, the reason and
the data (R9, R180). -/
def replyTo (address : Byte) (t : Telegram) (r : Reply) : Telegram :=
  { kind := 0x22, dest := t.src, src := address, flags := 0,
    payload := num2 (field t.payload 1 2) ++ num1 r.result.code ++ num1 r.reason.code ++ r.data }

/-- A state in which the head `t` has left the management input queue and its REPLY stands in the room-bound queue. -/
def replied (t : Telegram) (rest : List Telegram) (r : Reply) (s : State) : State :=
  { s with tiu.manage := rest, tiu.room := s.tiu.room ++ [{ kind := .reply, telegram := replyTo s.address t r }] }

/-- The room-bound queue of `u` is that of `s`, then the forwarded telegram `t` where the occupancy is below `limit`, then
reports (R7, R8, R9). -/
def Forwarded (s u : State) (limit : Nat) (t : Telegram) : Prop :=
  ∃ reports : List RoomItem, (∀ x ∈ reports, x.kind = .report) ∧
    u.tiu.room =
      s.tiu.room ++ (if s.tiu.room.length < limit then [{ kind := .forwarded, telegram := t }] else []) ++ reports

/-- The room-bound queue of `u` is that of `s`, then the REPLY `r` to `t`, then reports (R10). -/
def Answered (s u : State) (t : Telegram) (r : Reply) : Prop :=
  ∃ reports : List RoomItem, (∀ x ∈ reports, x.kind = .report) ∧
    u.tiu.room = s.tiu.room ++ [{ kind := .reply, telegram := replyTo s.address t r }] ++ reports

/-- What of a train record the RRG alone writes from passages: set, run, step, position, time, deviation, overdue and
silence. -/
def Train.told (t : Train) : Nat × Option Nat × Option Nat × Option TpId × Option Nat × Int × Option Nat × Nat :=
  (t.set, t.run, t.step, t.point, t.time, t.dev, t.overdue, t.silence)

/-- A record to which the run `n` of a passage has been applied (R62). -/
def Train.withRun (s : State) (n : Nat) (t : Train) : Train :=
  if n = 0 ∨ t.run = some n then t
  else if (activeRun s n).isSome then { t with run := some n, step := none }
  else if t.run.isSome then { t with run := none, step := none }
  else t

/-- A record that has left `p` or passed it; a DEPART does not measure D (R65, R66, R69, R74). -/
def Train.left (s : State) (p : TpId) (time : Option Nat) (measured : Bool) (t : Train) : Train :=
  let t := { t with point := some p, time := time }
  match time with
  | none => t
  | some _ =>
    let t := t.matched (matchStep s t p) (if measured then time else none)
    { t with overdue := some (overdueCount s t) }

/-- A record that has arrived at the platform `p` (R64, R74, R79). -/
def Train.arrived (s : State) (p : TpId) (time : Option Nat) (t : Train) : Train :=
  let t := { t with point := some p, time := time, overdue := none }
  match time with
  | none => t
  | some _ => t.matched (matchStep s t p) time

/-- A record after a passage that removes no train, but for what the PSV and regulation write (R60, R62–R67). -/
def Train.heard (s : State) (x : Passage) (t : Train) : Train :=
  let time := passageTime s x.offset
  let t := { t.withRun s x.run with silence := 480 }
  match x.event with
  | .approach => t
  | .depart => t.left s x.point time false
  | .pass => t.left s x.point time true
  | .arrive =>
    if (s.tst.line.points.get x.point).kind = .platform then
      if t.state.stopped ∧ t.point = some x.point then t else t.arrived s x.point time
    else t.left s x.point time true

/-- The run of a passage makes no train unscheduled: it is none or the bound one, or a run of the profile that no other
record is bound to, or one that is not found while the record has no late spell to end (R62, R71). -/
def bindsQuietly (s : State) (i : TrainId) (n : Nat) (t : Train) : Prop :=
  n = 0 ∨ t.run = some n ∨ (if (activeRun s n).isSome then boundElsewhere s i n = none else t.late = false)

/-- The record a passage is applied to: the one that holds the train set, or the lowest-numbered free one with the values
of a new train (R60, R61). -/
def passageRecord (s : State) (set : Nat) (i : TrainId) (t : Train) : Prop :=
  (findTrain s set = some i ∧ s.rrg.trains.get i = some t)
    ∨ (findTrain s set = none ∧ freeTrain s = some i ∧ t = newTrain set)

/-- The deadline of a marker timeout started now (R19). -/
def timeoutAt (s : State) (lock : Lock) : Option Nat :=
  some (s.lck.timeBase + if lock = .unlocked then cycleLength s else 3 * cycleLength s / 2)

/-- The LCK with a marker's number and day time loaded by a boundary (R18, R20, R24, R25). -/
def loadedBy (s : State) (number dayTime : Nat) : Lck :=
  { s.lck with lock := .locked, cycle := number, dayTime := dayTime, deadline := timeoutAt s .locked }

/-- The LCK after an artificial boundary (R22–R24). -/
def afterMiss (s : State) : Lck :=
  let lock := if s.lck.lock = .locked then Lock.coasting else .unlocked
  { s.lck with
    lock := lock
    cycle := (s.lck.cycle + 1) % 65536
    dayTime := min (s.lck.dayTime + cycleLength s) 107999999
    missed := min (s.lck.missed + 1) 65535
    deadline := timeoutAt s lock }

/-- What a marker with a number and a day time makes of the LCK, and whether it is forwarded (R18, R20, R21, R23–R25,
Table 2-2). -/
def markerOutcome (s : State) (number dayTime : Nat) : Lck × Bool :=
  let c := s.lck
  if c.lock = .unset then (loadedBy s number dayTime, true)
  else if dayTime + 36000000 < c.dayTime then (loadedBy s number dayTime, true)
  else if number = c.cycle then
    if c.lock = .coasting then ({ c with lock := .locked, dayTime := dayTime }, true) else (c, false)
  else if c.lock = .unlocked ∨ number = (c.cycle + 1) % 65536 then (loadedBy s number dayTime, true)
  else (afterMiss s, false)

/-- The event of the CLOCK report that a marker with a number and a day time makes: SET 0, LOSS 1, RELOCK 2, DAY_ROLL 3, or
none (R18, R20, R23–R25, R27). -/
def markerEvent (s : State) (number dayTime : Nat) : Option Nat :=
  let c := s.lck
  if c.lock = .unset then some 0
  else if dayTime + 36000000 < c.dayTime then some 3
  else if number = c.cycle then none
  else if c.lock = .unlocked then some 2
  else if c.lock = .coasting ∧ number ≠ (c.cycle + 1) % 65536 then some 1
  else none

/-- An open incident record at a tick (R144, R145). -/
def Incident.ticked (reload : Nat) (r : Incident) : Incident :=
  match r.countdown with
  | none => r
  | some n =>
    if r.state = .resolved then r
    else if n ≤ 1 then { r with level := min (r.level + 1) 3, countdown := some reload, state := .raised }
    else { r with countdown := some (n - 1) }

/-- A queue in which the countdowns that stand at their last count have run out: an entry so expired has left, one so
eligible stays (R165, steps 1 and 2). -/
def lastCounts (q : List Entry) : List Entry :=
  (q.filter fun e => decide (e.expiry ≠ some 0 ∧ e.expiry ≠ some 1)).map fun e =>
    if e.eligible = 1 then { e with eligible := 0 } else e

/-- A zone after its current entry `e` has ended playing: what is left of its repeats returns to the queue (R163). -/
def Zone.ended (q : Zone) (e : Entry) (guard : Nat) : Zone :=
  let left := e.repeats - 1
  let q' := if left = 0 then q else returnEntry { e with repeats := left, eligible := e.interval } q
  { q' with state := .guarding, current := none, tag := none, play := none, guard := some guard }

/-- A zone that has issued entry `e` (R160). -/
def Zone.issued (q : Zone) (e : Entry) (play : Nat) : Zone :=
  { q with
    state := .playing
    queue := q.queue.erase e
    current := some e
    tag := some q.nextTag
    nextTag := (q.nextTag + 1) % 256
    play := some play
    guard := none }

/-- The ANNOUNCE a zone offers for entry `e` (R160, R39). -/
def announceOrder (s : State) (z : ZoneId) (q : Zone) (preempt : Bool) (e : Entry) : Order :=
  let n := (s.tst.line.templates.get e.template).params
  .announce (s.tst.line.zones.get z).controller z q.nextTag e.template preempt
    (e.params.take n ++ List.replicate (n - e.params.length) 0) none

/-- A zone that is OPEN, with the issue test made: the first entry of the queue whose eligible countdown is 0 is issued,
and its ANNOUNCE offered (R160). -/
def openAndTest (z : ZoneId) (q : Zone) (s : State) : State :=
  let put (q : Zone) : State := { s with asc.zones := s.asc.zones.set z q }
  match q.queue.find? fun e => decide (e.eligible = 0) with
  | none => put q
  | some e =>
    let s' := put (q.issued e (cyclesAt (cycleLength s) ((s.tst.line.templates.get e.template).duration + 20) 2))
    { s' with tiu.orders := offerOrder (announceOrder s z q false e) s.tiu.orders }

/-- The test that follows a placing in zone `z`, which then stands as `q`, of an entry with a priority and an eligible
countdown: an OPEN zone issues its first eligible entry, a zone in GUARD or playing a lesser entry is preempted by an
EMERGENCY entry that is eligible, and every other zone stands. An entry cut returns to the queue, eligible and with its
repeats, unless it has expired (R158–R161). -/
def testFollows (z : ZoneId) (q : Zone) (p : Priority) (eligible : Nat) (a u : Act) : Prop :=
  let next := q.queue.find? fun e => decide (e.eligible = 0)
  let stands := u.zone z = q ∧ u.out = a.out
  let urgent := p = .emergency ∧ eligible = 0
  let issued (e : Entry) : Zone :=
    q.issued e (cyclesAt (cycleLength a.s) ((a.s.tst.line.templates.get e.template).duration + 20) 2)
  let made (preempt : Bool) (e : Entry) (v : Zone) : Prop :=
    u.zone z = v ∧ u.out = a.out ++ [.order (announceOrder a.s z q preempt e)]
  ((next = none ∨ q.state = .barred ∨ (p = .emergency ∧ 0 < eligible)
      ∨ ((q.state = .playing ∨ q.state = .guarding) ∧ p ≠ .emergency)
      ∨ (q.state = .playing ∧ ∃ c, q.current = some c ∧ c.priority = .emergency)) → stands)
  ∧ ∀ e, next = some e →
    (q.state = .opened → (p ≠ .emergency ∨ eligible = 0) → made false e (issued e))
    ∧ (q.state = .guarding → urgent → made true e (issued e))
    ∧ ∀ c, q.state = .playing → q.current = some c → c.priority ≠ .emergency → urgent →
      (c.expiry = some 0 → made true e (issued e))
      ∧ (c.expiry ≠ some 0 → q.queue.length ≤ 8 →
          made true e { issued e with queue := insertEntry { c with eligible := 0 } (q.queue.erase e) })

/-- The room-bound queue of `u` is that of `s`, then reports. -/
def Reported (s u : State) : Prop :=
  ∃ reports : List RoomItem, (∀ x ∈ reports, x.kind = .report) ∧ u.tiu.room = s.tiu.room ++ reports

/-- A REPORT of the part with a payload, as it stands in the room-bound queue (R9). -/
def reportItem (address : Byte) (payload : List Byte) : RoomItem :=
  { kind := .report, telegram := { kind := 0x23, dest := 255, src := address, flags := 0, payload := payload } }

/-- One more LENGTH failure on a port (Table 1-11). -/
def lengthCounted (p : Port) (s : State) : State :=
  match p with
  | .fieldA => { s with tiu.counters.lengthA := min (s.tiu.counters.lengthA + 1) 65535 }
  | .fieldB => { s with tiu.counters.lengthB := min (s.tiu.counters.lengthB + 1) 65535 }
  | .room => { s with tiu.counters.lengthRoom := min (s.tiu.counters.lengthRoom + 1) 65535 }

/-- One more CHECK failure on a port (Table 1-11). -/
def checkCounted (p : Port) (s : State) : State :=
  match p with
  | .fieldA => { s with tiu.counters.checkA := min (s.tiu.counters.checkA + 1) 65535 }
  | .fieldB => { s with tiu.counters.checkB := min (s.tiu.counters.checkB + 1) 65535 }
  | .room => { s with tiu.counters.checkRoom := min (s.tiu.counters.checkRoom + 1) 65535 }

/-- One more misdirected telegram on a port (Table 1-11). -/
def misdirectedCounted (p : Port) (s : State) : State :=
  match p with
  | .fieldA => { s with tiu.counters.misdirectedA := min (s.tiu.counters.misdirectedA + 1) 65535 }
  | .fieldB => { s with tiu.counters.misdirectedB := min (s.tiu.counters.misdirectedB + 1) 65535 }
  | .room => { s with tiu.counters.misdirectedRoom := min (s.tiu.counters.misdirectedRoom + 1) 65535 }

/-- One more duplicate on a field port (Table 1-11). -/
def duplicateCounted (p : FieldPort) (s : State) : State :=
  match p with
  | .a => { s with tiu.counters.duplicateA := min (s.tiu.counters.duplicateA + 1) 65535 }
  | .b => { s with tiu.counters.duplicateB := min (s.tiu.counters.duplicateB + 1) 65535 }

/-- What of a substation the slot pool does not write: its state, its telemetry, its credit, its trip flag and its
capacity. -/
def Supply.told (v : Supply) :
    SubState × Option Bool × Option Nat × Table FeederMemory 8 × Option Nat × Option Nat × Bool × Nat :=
  (v.state, v.incomer, v.load, v.feeders, v.telemetry, v.credit, v.trip, v.capacity)

/-- The same without the capacity, which is derived from the rest and the line tables. -/
def Supply.heard (v : Supply) :
    SubState × Option Bool × Option Nat × Table FeederMemory 8 × Option Nat × Option Nat × Bool :=
  (v.state, v.incomer, v.load, v.feeders, v.telemetry, v.credit, v.trip)

/-- What passages write of every train record is the same in two states. -/
def sameTrains (s u : State) : Prop :=
  ∀ i, (u.rrg.trains.get i).map Train.told = (s.rrg.trains.get i).map Train.told

/-- The capacities and pictures of a state are those its substations and line tables give (R98, R101, R103). -/
def pictureStands (u : State) : Prop :=
  (∀ b, (u.psv.subs.get b).capacity = effectiveCapacity (u.tst.line.subs.get b) (u.psv.subs.get b))
    ∧ ∀ x, u.psv.secs.get x = pictureOf u.psv (u.tst.line.secs.get x)

/-- What an APPROACH to `p` gives the supply: where the clock is set and `p` is a PLATFORM whose departure section has a slot
source, the credit countdown of that substation is set to its window and the picture derived; elsewhere nothing (R99). -/
def approachCredits (s u : State) (p : TpId) : Prop :=
  let row := s.tst.line.points.get p
  let source := row.depart.bind fun x => (s.psv.secs.get x).source
  (∀ b f, s.lck.lock ≠ .unset → row.kind = .platform → source = some (b, f) →
    (u.psv.subs.get b).heard
      = { s.psv.subs.get b with
          credit := some (cyclesAt (cycleLength s) (s.tst.line.subs.get b).window 1) }.heard
    ∧ (∀ c, c ≠ b → (u.psv.subs.get c).heard = (s.psv.subs.get c).heard) ∧ pictureStands u)
  ∧ ((s.lck.lock = .unset ∨ row.kind ≠ .platform ∨ source = none) →
      ∀ c, (u.psv.subs.get c).heard = (s.psv.subs.get c).heard)

/-- An open record holds a key with cause PRESENT. -/
def CausePresent (s : State) (c : IncClass) (o : IncObject) : Prop :=
  ∃ i r, s.inc.records.get i = some r ∧ r.cls = c ∧ r.object = o ∧ r.state ≠ .resolved ∧ r.cause = .present

/-- The incident table keeps its law, and between two states no raise was refused. -/
def NoneRefused (s u : State) : Prop := IncLaw s.inc ∧ s.inc.refused < 65535 ∧ u.inc.refused = s.inc.refused

/-- A countdown after one boundary: one less, or none once it has run out (R29). -/
def countedDown (o : Option Nat) : Option Nat := o.bind fun n => if n ≤ 1 then none else some (n - 1)

/-- No record has a HOLD effect, in either state. -/
def NoHolds (s u : State) : Prop :=
  ∀ i r, s.inc.records.get i = some r ∨ u.inc.records.get i = some r → r.effects.hold = false

/-- What has become of a train `v` that was due at `p` with departure section `x`, in a state `u` after the boundary: granted
a slot, waiting in the list of a substation with none free, in the dead-wait set, or HELD under an incident; and an order for
`p` is on its way. A grant writes the passage memory, which the work of a day roll empties where it comes after the grant of a
hold end (R73, R86, R108, R110, R111). -/
def GivenPower (s u : State) (i : TrainId) (v : Train) (p : TpId) (x : SecId) : Prop :=
  let source := (u.psv.secs.get x).source.map (·.1)
  (v.state = .departing ∧ v.slot.isSome
      ∧ ((u.rrg.memory.get p).released = some (u.lck.dayTime / 100)
        ∨ u.lck.dayTime + 36000000 < s.lck.dayTime ∧ u.rrg.memory.get p = Memory.empty)
    ∨ v.state = .waitPower ∧ (∃ b, source = some b ∧ (u.psv.subs.get b).capacity ≤ (u.psv.subs.get b).held
        ∧ ∃ w ∈ (u.psv.subs.get b).waits, w.train = i)
    ∨ v.state = .waitDead ∧ source = none ∧ (∃ w ∈ u.psv.deadWaits, w.train = i)
    ∨ v.state = .held ∧ ¬NoHolds s u)
  ∧ ∃ o ∈ u.tiu.orders, (∃ d n, o = .release d p n) ∨ ∃ d n k why, o = .hold d p n k why

/-- The steps of R165 for a zone at a boundary: its countdowns fall, the expired leave, a playing or a guard that has run out
ends, and an OPEN zone issues its first eligible entry. -/
def Zone.afterBoundary (u : State) (z : ZoneId) (q : Zone) : Zone :=
  let q : Zone :=
    { q with
      queue := (q.queue.map fun e => { e with eligible := e.eligible - 1, expiry := e.expiry.map (· - 1) }).filter
        fun e => decide (e.expiry ≠ some 0)
      current := q.current.map fun e => { e with expiry := e.expiry.map (· - 1) }
      play := q.play.map (· - 1)
      guard := q.guard.map (· - 1) }
  let q : Zone :=
    match q.current with
    | some e =>
      if q.play = some 0 then
        Zone.ended { q with missing := min (q.missing + 1) 65535 } e
          (cyclesAt (cycleLength u) (u.tst.line.zones.get z).guard 1)
      else q
    | none => if q.guard = some 0 then { q with state := .opened, guard := none } else q
  match q.queue.find? fun e => decide (e.eligible = 0) with
  | some e =>
    if q.state = .opened then
      q.issued e (cyclesAt (cycleLength u) ((u.tst.line.templates.get e.template).duration + 20) 2)
    else q
  | none => q

/-- The content of a PROFILE report, with its kind: the slot activated, the ACTIVE slot before, and the name, the check and
the run count of the profile (R51). -/
def profileTold (s : State) (i : SlotId) (p : Profile) : List Byte :=
  [3] ++ num1 i.val ++ opt1 ((activeSlot s).map (·.val)) ++ p.name ++ num2 p.check.toNat ++ num2 p.runs.length

/-- What a boundary does to the Table Store, the mode, the countdowns and the trains that are due: the waiting groups are
written in order, then a pending activation is applied, with the runs rebound and a PROFILE report; every countdown falls by
one; every DWELLING train that is due and has a departure section is handed over; and CLOCK_LOSS is present or gone as the
clock enters or leaves UNLOCKED (R28, R29, R51, R54, R68, R69, R72, R86, R96, R99, R112, R120, R138, R143, R165). -/
structure BoundaryTaken (s u : State) : Prop where
  waiting : u.tst.waiting = []
  line : u.tst.line = (s.tst.waiting.foldl Tst.writeGroup s.tst).line
  profiles : ∀ j, (u.tst.slots.get j).profile = ((s.tst.waiting.foldl Tst.writeGroup s.tst).slots.get j).profile
  openGroup : u.tst.openGroup = s.tst.openGroup
  load : u.tst.load = s.tst.load
  activated : ∀ i, s.tst.pendingSlot = some i →
    (∀ j, (u.tst.slots.get j).state =
      if j = i then .active
      else if (s.tst.slots.get j).state = .active then .ready else (s.tst.slots.get j).state)
    ∧ mode u = .service
    ∧ (∀ j r, u.rrg.trains.get j = some r → r.run = none ∨ (r.step = none ∧ (r.run.bind (activeRun u)).isSome = true))
    ∧ ∀ p, (u.tst.slots.get i).profile = some p →
        reportItem s.address (profileTold s i p) ∈ u.tiu.room ∨ 64 ≤ u.tiu.room.length
  slots : s.tst.pendingSlot = none → ∀ j, (u.tst.slots.get j).state = (s.tst.slots.get j).state
  pending : u.tst.pendingSlot = none
  telemetry : ∀ b n, (s.psv.subs.get b).telemetry = some n →
    (u.psv.subs.get b).telemetry = if n ≤ 1 then none else some (n - 1)
  credit : ∀ b n, (s.psv.subs.get b).credit = some n → (u.psv.subs.get b).credit = if n ≤ 1 then none else some (n - 1)
  silence : ∀ i r, s.rrg.trains.get i = some r →
    (2 ≤ r.silence → (u.rrg.trains.get i).map Train.silence = some (r.silence - 1))
    ∧ (r.silence ≤ 1 → u.rrg.trains.get i = none)
  prescaler : u.inc.prescaler =
    if s.inc.prescaler ≤ 1 then cyclesAt (cycleLength u) (params u).tick 4 else s.inc.prescaler - 1
  overdue : ∀ i r, s.rrg.trains.get i = some r → 2 ≤ r.silence →
    (u.rrg.trains.get i).map Train.overdue = some (countedDown r.overdue)
  powerWait : PoolLaw s → NoHolds s u → (∀ g ∈ s.tst.waiting, ∀ e ∈ g, ¬(e.table = .point ∧ e.field = 5)) →
    ∀ i r v, s.rrg.trains.get i = some r → (r.state = .waitPower ∨ r.state = .waitDead) → 2 ≤ r.silence →
      u.rrg.trains.get i = some v → (v.state = .waitPower ∨ v.state = .waitDead) →
      v.powerWait = countedDown r.powerWait
  slot : PoolLaw s → ∀ i r h, s.rrg.trains.get i = some r → 2 ≤ r.silence → r.slot = some h →
    (u.rrg.trains.get i).map Train.slot = some (if h.left ≤ 1 then none else some { h with left := h.left - 1 })
  holdOff : u.rrg.holdOff = s.rrg.holdOff - 1
  retention : ∀ i r n, s.inc.records.get i = some r → r.state = .resolved → r.retention = some n →
    (∀ v, u.inc.records.get i = some v → v.state = .raised
      ∨ (2 ≤ n ∧ v.number = r.number ∧ v.state = .resolved ∧ v.retention = some (n - 1)))
    ∧ (2 ≤ n → (u.inc.records.get i).isSome)
  zones : (∀ i, (u.inc.records.get i).map Incident.state = (s.inc.records.get i).map Incident.state) →
    (2 ≤ s.inc.prescaler ∨ ∀ i r, u.inc.records.get i = some r → r.effects.announce = false) →
    ∀ z, ZoneLaw (s.asc.zones.get z) → u.asc.zones.get z = (s.asc.zones.get z).afterBoundary u z
  due : PoolLaw s → ∀ i r p x td, s.rrg.trains.get i = some r → r.state = .dwelling → 2 ≤ r.silence →
    r.point = some p → r.target = some td → td ≤ u.lck.dayTime / 100 → (u.tst.line.points.get p).depart = some x →
    ∃ v, u.rrg.trains.get i = some v ∧ v.point = some p ∧ GivenPower s u i v p x
  noneDue : ∀ i v p td, u.rrg.trains.get i = some v → v.state = .dwelling → v.point = some p → v.target = some td →
    (u.tst.line.points.get p).depart.isSome → u.lck.dayTime / 100 < td
  lost : s.lck.lock ≠ .unlocked → u.lck.lock = .unlocked → NoneRefused s u → CausePresent u .clockLoss (.line 0)
  regained : s.lck.lock = .unlocked → u.lck.lock ≠ .unlocked → IncLaw s.inc → ¬CausePresent u .clockLoss (.line 0)

/-- The room-bound queue of `u` is that of `s`, then `forwarded`, then the CLOCK report of an event where there is one and it
finds a place, with the clock's values as `u` has them, then other reports (R7, R8, R9, R27). -/
def ClockTold (s u : State) (forwarded : List RoomItem) (event : Option Nat) : Prop :=
  let c := u.lck
  let lock := match c.lock with
    | .unset => 0
    | .locked => 1
    | .coasting => 2
    | .unlocked => 3
  let before := s.tiu.room ++ forwarded
  ∃ more : List RoomItem, (∀ x ∈ more, x.kind = .report ∧ x.telegram.payload.head? ≠ some 2)
    ∧ u.tiu.room = before
      ++ (match event with
        | some e =>
          if before.length < 64 then
            [reportItem s.address ([2] ++ num1 e ++ num1 lock ++ num2 c.cycle ++ num4 c.dayTime ++ num2 c.missed)]
          else []
        | none => [])
      ++ more

/-- The service entry that a passage at `p` at time `now` makes for a record, by its trigger: the run's next step at the
target, counted from the step the train stands at or else from the one after it; the minutes to the predicted arrival; and,
where the deviation reaches the threshold, the delayed template with the delay (R172–R176). -/
def ServiceCall (s : State) (p : TpId) (docks : Bool) (r : Train) (now : Nat) (e : NewEntry) : Prop :=
  let row := s.tst.line.points.get p
  ∃ n run legs k j, r.run = some n ∧ activeRun s n = some (run, legs) ∧ r.step = some k
    ∧ (let first := if docks = true ∧ (legs[k]?).map Leg.point = some p then k else k + 1
       first ≤ j ∧ (legs[j]?).map Leg.point = some row.trigTarget
       ∧ ∀ i, first ≤ i → i < j → (legs[i]?).map Leg.point ≠ some row.trigTarget)
    ∧ (let left := (max ((scheduledArrival run.origin legs j : Int) + r.dev) now - now).toNat
       let minutes := max 1 (min 99 ((left + 599) / 600))
       let delayed := ((params s).delay : Int) ≤ r.dev
       e.template = (if delayed then row.trigDelayed else row.trigNext)
       ∧ e.source = .run n
       ∧ e.params = [run.destination, row.trigTarget.val, minutes]
          ++ (if delayed then [max 1 (min 99 ((r.dev + 300) / 600).toNat)] else [])
       ∧ e.repeats = (s.tst.line.templates.get e.template).repeats ∧ e.interval = none
       ∧ e.expiry = some (cyclesAt (cycleLength s) left 1))

/-- The causes of the substations and sections that differ between two states have been told to the INC (R97, R102). -/
structure CausesFollow (s u : State) : Prop where
  trip : ∀ b, (s.psv.subs.get b).state ≠ .tripped → (s.psv.subs.get b).trip = false →
    (u.psv.subs.get b).state = .tripped → CausePresent u .substationTrip (.substation b)
  restored : ∀ b, (s.psv.subs.get b).state ≠ .online → (s.psv.subs.get b).trip = true →
    (u.psv.subs.get b).state = .online → ¬CausePresent u .substationTrip (.substation b)
  silent : ∀ b, (s.psv.subs.get b).state ≠ .stale → (u.psv.subs.get b).state = .stale →
    CausePresent u .telemetryLoss (.substation b)
  heard : ∀ b, (s.psv.subs.get b).state = .stale → (u.psv.subs.get b).state ≠ .stale →
    ¬CausePresent u .telemetryLoss (.substation b)
  dead : ∀ x, (s.psv.secs.get x).state ≠ some .dead → (u.psv.secs.get x).state = some .dead →
    CausePresent u .powerLoss (.sec x)
  alive : ∀ x, (s.psv.secs.get x).state = some .dead → (u.psv.secs.get x).state ≠ some .dead →
    ¬CausePresent u .powerLoss (.sec x)

/-- What an EDIT may write into a field of a kind: any value into a quantity, which is clamped; a code, index or address of
its set; or, where a field may be none, 255 (R52, R43, Table 3-9). -/
def FieldKind.admits (l : LineTables) (v : Nat) : FieldKind → Prop
  | .quantity _ _ => True
  | .below n => v < n
  | .belowOrNone n => v < n ∨ v = 255
  | .inputIncident => v = 1 ∨ v = 2 ∨ v = 10
  | .usedSecOrNone => v = 255 ∨ ∃ x : SecId, x.val = v ∧ (l.secs.get x).used = true
  | .usedSub => ∃ b : SubId, b.val = v ∧ (l.subs.get b).used = true
  | .usedSubOrNone => v = 255 ∨ ∃ b : SubId, b.val = v ∧ (l.subs.get b).used = true

/-- The value an EDIT writes that it admits: a quantity brought into its range, any other value as sent (R52, R43). -/
def FieldKind.written (v : Nat) : FieldKind → Nat
  | .quantity lo hi => if v < lo then lo else if hi < v then hi else v
  | _ => v

/-- The countdown an acknowledgement or an operator's raise sets, and whether the reload was clamped (the table of R135). -/
def reloadTable (mandatory : Bool) (reload : Nat) : Option Nat × Bool :=
  if reload = 0 then (if mandatory then (some 1, true) else (none, false))
  else if reload ≤ 63 then (some reload, false)
  else (some 63, true)

/-- The management commands, by the rows that take them from the management input queue. -/
def managementRows : List Instr :=
  [.manageUnknownCommand, .loadOpen, .loadBlock, .loadAbort, .profileActivate, .editHold, .edit, .editRelease,
    .incidentRaise, .incidentAck, .incidentResolve, .zoneSet, .announce, .trainBind, .trainRemove, .queryTrain,
    .queryTimingPoint, .querySection, .querySubstation, .queryIncident, .queryZone, .queryClock, .queryProfile,
    .queryCounters, .queryIdentity, .queryMode, .countersClear, .restartWarm, .restartFull]

/-- The rows of one command code each, with their codes (Table 12-2). -/
def commandRows : List (Instr × Nat) :=
  [(.loadOpen, 0x01), (.loadBlock, 0x02), (.loadAbort, 0x03), (.profileActivate, 0x04), (.editHold, 0x05), (.edit, 0x06),
    (.editRelease, 0x07), (.incidentRaise, 0x08), (.incidentAck, 0x09), (.incidentResolve, 0x0A), (.zoneSet, 0x0B),
    (.announce, 0x0C), (.trainBind, 0x0D), (.trainRemove, 0x0E), (.countersClear, 0x10)]

/-- The commands that BARE mode does not admit, with their codes and argument lengths (Tables 12-2 and 12-3); LOAD_OPEN
and ANNOUNCE, whose refusals need more than a length, stand apart. -/
def notInBare : List (Instr × Nat × Nat) :=
  [(.profileActivate, 0x04, 1), (.editHold, 0x05, 0), (.edit, 0x06, 7), (.editRelease, 0x07, 0), (.incidentRaise, 0x08, 6),
    (.incidentAck, 0x09, 3), (.incidentResolve, 0x0A, 2), (.zoneSet, 0x0B, 2), (.trainBind, 0x0D, 4), (.trainRemove, 0x0E, 2)]

/-- The QUERY rows with their subject codes (Table 12-4). -/
def queryRows : List (Instr × Nat × Subject) :=
  [(.queryTrain, 0, .train), (.queryTimingPoint, 1, .point), (.querySection, 2, .sec), (.querySubstation, 3, .substation),
    (.queryIncident, 4, .incident), (.queryZone, 5, .zone), (.queryClock, 6, .clock), (.queryProfile, 7, .profile),
    (.queryCounters, 8, .counters), (.queryIdentity, 9, .identity), (.queryMode, 10, .mode)]

end Sys2Proof.Machine
end

