-- ==== Sys2Proof/Certificates/Slice0/Obligations.lean ====
section
/-! DEFINITION. The statements about the model, for the provers. -/

section

open Sys2Proof Sys2Proof.Machine

/-! ## The queue of commands, power-on, reset and links -/

/-- The step of a state with a command at the front of its queue is that command's execution on the state with the
queue's rest: each row of the table is one step. That commands wait in a queue, and are taken first in, first out, is the
model's choice: log entry 14. -/
def Obligations.StepRunsFrontCommand : Prop :=
  ∀ (c : Instr) (s : State), step { s with pending := c :: s.pending } = exec c s

/-- With no command waiting the part in reset stands still; otherwise one millisecond of the time base passes, or, where the
marker deadline has come, the marker timeout expires. The model's choice: log entry 15. -/
def Obligations.EmptyQueueLetsTimePass : Prop :=
  ∀ s : State, s.pending = [] →
    (s.inReset = true → step s = .next s)
    ∧ (s.inReset = false → (∀ d, s.lck.deadline = some d → s.lck.timeBase < d) →
        step s = .next { s with lck.timeBase := s.lck.timeBase + 1 })
    ∧ (∀ d, s.inReset = false → s.lck.deadline = some d → d ≤ s.lck.timeBase → step s = exec .markerTimeoutExpiry s)

/-- POWER_ON samples the straps and puts every block into its power-on state, in BARE mode with the clock UNSET; the links,
which are inputs (log entry 2), and the model's own two fields stand, and the time base starts at 0 (log entry 29).
RESET_ASSERTION puts the part in reset, and in reset no command but the release, a change of a link input or another
assertion does anything, as the model reads it (log entry 28). -/
def Obligations.PowerOnAndReset : Prop :=
  (∀ (straps : Byte) (s : State),
    exec (.powerOn straps) s
      = .next { s with inReset := false, straps := straps, address := if straps = 0 ∨ straps = 255 then 1 else straps,
                       tiu := State.reset.tiu, lck := State.reset.lck, tst := State.reset.tst, rrg := State.reset.rrg,
                       psv := State.reset.psv, inc := State.reset.inc, asc := State.reset.asc })
  ∧ (mode State.reset = .bare ∧ State.reset.lck.lock = .unset ∧ State.reset.lck.deadline = none
    ∧ State.reset.tst.lineState = .invalid
    ∧ (∀ a, State.reset.tiu.duplicates.get a = .unknown)
    ∧ (∀ i, (State.reset.tst.slots.get i).state = .empty)
    ∧ (∀ i, State.reset.rrg.trains.get i = none) ∧ (∀ p, State.reset.rrg.memory.get p = Memory.empty)
    ∧ (∀ i, State.reset.inc.records.get i = none) ∧ State.reset.inc.nextNumber = 1 ∧ State.reset.inc.prescaler = 60
    ∧ (∀ k, State.reset.inc.edges.get k = .unknown)
    ∧ (∀ b, (State.reset.psv.subs.get b).state = .unknown ∧ (State.reset.psv.subs.get b).held = 0))
  ∧ (∀ s : State, exec .resetAssertion s = .next { s with inReset := true })
  ∧ (∀ (p : Port) (s : State), s.inReset = true →
      (∃ l : Links, exec (.linkUp p) s = .next { s with links := l } ∧ l.up p = true ∧ ∀ q, q ≠ p → l.up q = s.links.up q)
      ∧ ∃ (l : Links) (room : Option Telegram) (field : Option FieldSending),
        exec (.linkDown p) s = .next { s with links := l, tiu.roomSending := room, tiu.fieldSending := field }
        ∧ l.up p = false ∧ ∀ q, q ≠ p → l.up q = s.links.up q)
  ∧ ∀ (c : Instr) (s : State), s.inReset = true → (∀ x, c ≠ .powerOn x) → (∀ p, c ≠ .linkUp p) →
      (∀ p, c ≠ .linkDown p) → c ≠ .resetAssertion → exec c s = .next s

/-- LINK_UP sets the port's link and lets the transmitters resume; LINK_DOWN clears it, and what the port was sending is
lost (log entry 13). The other links stand. No other command changes a link input; none but POWER_ON changes the straps or
the address, none but POWER_ON and RESET_ASSERTION the reset; and none changes the model's own queue of commands. -/
def Obligations.LinksUpAndDown : Prop :=
  (∀ (c : Instr) (s u : State), exec c s = .next u →
    u.pending = s.pending
    ∧ ((∀ x, c ≠ .powerOn x) → u.straps = s.straps ∧ u.address = s.address
      ∧ (c ≠ .resetAssertion → u.inReset = s.inReset))
    ∧ ((∀ p, c ≠ .linkUp p) → (∀ p, c ≠ .linkDown p) → u.links = s.links))
  ∧ ∀ (p : Port) (s : State), s.inReset = false →
    (∃ l : Links, exec (.linkUp p) s = .next (settle { s with links := l })
      ∧ l.up p = true ∧ ∀ q, q ≠ p → l.up q = s.links.up q)
    ∧ (∃ (l : Links) (room : Option Telegram) (field : Option FieldSending),
        exec (.linkDown p) s
          = .next (settle { s with links := l, tiu.roomSending := room, tiu.fieldSending := field })
        ∧ l.up p = false ∧ (∀ q, q ≠ p → l.up q = s.links.up q)
        ∧ room = (if p = .room then none else s.tiu.roomSending)
        ∧ (∀ f, field = some f → ∃ g, s.tiu.fieldSending = some g ∧ f.telegram = g.telegram
            ∧ f.onA = (g.onA && decide (p ≠ .fieldA)) ∧ f.onB = (g.onB && decide (p ≠ .fieldB)))
        ∧ (∀ g, s.tiu.fieldSending = some g → field = none →
            (g.onA && decide (p ≠ .fieldA)) = false ∧ (g.onB && decide (p ≠ .fieldB)) = false))

/-! ## The transmitters -/

/-- When the room port has finished sending, the head of the room-bound queue leaves it and is sent if the room link is up;
a telegram the part built is sent with the room-side alternation bit, which is then inverted. When the field ports have
finished sending, the head of the field order queue is taken with the field-side bit, which is then inverted; the head of
the field forward queue only when no order waits; and nothing while neither field link is up. A HOLD_ORDER, RELEASE_ORDER,
ANNOUNCE or CUT goes from the station address to its controller with the bit as its flags, its fields in the order of their
kind. That the other transmitter also looks for work at the end of a transmission is the model's choice: log entry 5. -/
def Obligations.TransmissionEndsTakeHeads : Prop :=
  (∀ s : State, s.inReset = false →
    ((s.links.room = false ∨ s.tiu.room = []) →
      exec .roomTransmissionEnd s = .next (startField { s with tiu.roomSending := none }))
    ∧ (∀ (x : RoomItem) (rest : List RoomItem), s.links.room = true → s.tiu.room = x :: rest →
        (x.kind = .forwarded →
          exec .roomTransmissionEnd s
            = .next (startField { s with tiu.room := rest, tiu.roomSending := some x.telegram }))
        ∧ (x.kind ≠ .forwarded →
          exec .roomTransmissionEnd s
            = .next (startField
                { s with
                  tiu.room := rest
                  tiu.roomSending := some { x.telegram with flags := if s.tiu.roomBit then 1 else 0 }
                  tiu.roomBit := !s.tiu.roomBit })))
    ∧ (((s.links.a = false ∧ s.links.b = false) ∨ (s.tiu.orders = [] ∧ s.tiu.forward = [])) →
        exec .fieldTransmissionEnd s = .next (startRoom { s with tiu.fieldSending := none }))
    ∧ (∀ (o : Order) (rest : List Order), (s.links.a = true ∨ s.links.b = true) → s.tiu.orders = o :: rest →
        exec .fieldTransmissionEnd s
          = .next (startRoom { s with
              tiu.orders := rest
              tiu.fieldSending :=
                some { telegram := orderTelegram s.address s.tiu.fieldBit o, onA := s.links.a, onB := s.links.b }
              tiu.fieldBit := !s.tiu.fieldBit }))
    ∧ (∀ (t : Telegram) (rest : List Telegram), (s.links.a = true ∨ s.links.b = true) → s.tiu.orders = [] →
        s.tiu.forward = t :: rest →
        exec .fieldTransmissionEnd s
          = .next (startRoom { s with
              tiu.forward := rest
              tiu.fieldSending := some { telegram := t, onA := s.links.a, onB := s.links.b } })))
  ∧ ∀ (address d : Byte) (bit pre : Bool) (p : TpId) (z : ZoneId) (m : TmplId) (run n : Nat) (ps : List Nat)
      (held : Option AbsorbedCut) (why : HoldReason),
    let flags : Byte := if bit then 1 else 0
    orderTelegram address bit (.hold d p run n why)
      = { kind := 0x11, dest := d, src := address, flags := flags
          payload := num1 p.val ++ num2 run ++ num1 n ++ (match why with
            | .regulation => [0]
            | .incident => [1]
            | .power => [2]
            | .noPower => [3]) }
    ∧ orderTelegram address bit (.release d p run)
      = { kind := 0x12, dest := d, src := address, flags := flags, payload := num1 p.val ++ num2 run }
    ∧ orderTelegram address bit (.announce d z n m pre ps held)
      = { kind := 0x13, dest := d, src := address, flags := flags
          payload := num1 z.val ++ num1 n ++ num1 m.val ++ [if pre then 1 else 0] ++ num1 ps.length ++ ps.flatMap num2 }
    ∧ orderTelegram address bit (.cut d z n)
      = { kind := 0x14, dest := d, src := address, flags := flags, payload := num1 z.val ++ num1 n }

/-- The transmitters change nothing outside the TIU, lose nothing and reorder nothing: what they take from a queue is its
head, which is then what they send, a built telegram with its side's alternation bit, which inverts; a busy or linkless
transmitter takes nothing, and a busy one goes on sending what it sent. An idle one with a link up and a telegram waiting takes
the head, on the field side an order before a forward telegram. Having looked for work once, they find none. When an idle
transmitter looks for work is the model's choice: log entry 5. -/
def Obligations.TransmittersLoseNothing : Prop :=
  ∀ s : State,
    (∃ t : Tiu, settle s = { s with tiu := t } ∧ t.duplicates = s.tiu.duplicates ∧ t.manage = s.tiu.manage
      ∧ t.counters = s.tiu.counters
      ∧ ((t.room = s.tiu.room ∧ t.roomSending = s.tiu.roomSending ∧ t.roomBit = s.tiu.roomBit)
        ∨ (∃ x, s.tiu.room = x :: t.room ∧ s.tiu.roomSending = none ∧ s.links.room = true
          ∧ ((x.kind = .forwarded ∧ t.roomSending = some x.telegram ∧ t.roomBit = s.tiu.roomBit)
            ∨ (x.kind ≠ .forwarded
              ∧ t.roomSending = some { x.telegram with flags := if s.tiu.roomBit then 1 else 0 }
              ∧ t.roomBit = !s.tiu.roomBit))))
      ∧ ((t.orders = s.tiu.orders ∧ t.forward = s.tiu.forward ∧ t.fieldSending = s.tiu.fieldSending
          ∧ t.fieldBit = s.tiu.fieldBit)
        ∨ ((s.links.a = true ∨ s.links.b = true) ∧ s.tiu.fieldSending = none
          ∧ ((∃ o, s.tiu.orders = o :: t.orders ∧ t.forward = s.tiu.forward
              ∧ t.fieldSending = some { telegram := orderTelegram s.address s.tiu.fieldBit o
                                        onA := s.links.a, onB := s.links.b }
              ∧ t.fieldBit = !s.tiu.fieldBit)
            ∨ (∃ m, s.tiu.orders = [] ∧ t.orders = [] ∧ s.tiu.forward = m :: t.forward
              ∧ t.fieldSending = some { telegram := m, onA := s.links.a, onB := s.links.b }
              ∧ t.fieldBit = s.tiu.fieldBit))))
      ∧ (∀ x rest, s.tiu.roomSending = none → s.links.room = true → s.tiu.room = x :: rest → t.room = rest)
      ∧ (s.tiu.fieldSending = none → (s.links.a = true ∨ s.links.b = true) →
          (∀ o rest, s.tiu.orders = o :: rest → t.orders = rest ∧ t.forward = s.tiu.forward)
          ∧ ∀ m rest, s.tiu.orders = [] → s.tiu.forward = m :: rest → t.forward = rest))
    ∧ settle (settle s) = settle s

/-! ## Telegrams received -/

/-- A telegram of up to 240 payload bytes, sent in a frame with its check and padding, is read back as it was sent. That the
padding is of bytes 0 is the model's choice: log entry 35. -/
def Obligations.FrameRoundTrip : Prop :=
  ∀ t : Telegram, t.payload.length ≤ 240 → readFrame (telegramFrame t) = .sound t

/-- The form check of the five kinds of field telegram the part reads: which fields pass, and what they mean. A source of
255 fails for each (R5); that it fails for kinds without a form too is the model's choice, log entry 3, and not claimed here. -/
def Obligations.FormCheckReadsFields : Prop :=
  ∀ h : Header,
    (∀ (n : BitVec 16) (d : BitVec 32), contents? (markerTelegram h n d)
      = if h.src ≠ 255 ∧ d.toNat ≤ 107999999 then some (.marker n.toNat d.toNat) else none)
    ∧ (∀ (set run : BitVec 16) (pt ev : Byte) (off : BitVec 16) (x : Passage),
        contents? (passageTelegram h set run pt ev off) = some (.passage x) ↔
          h.src ≠ 255 ∧ 1 ≤ set.toNat ∧ set.toNat ≤ 999 ∧ run.toNat ≤ 9999 ∧ x.set = set.toNat ∧ x.run = run.toNat
            ∧ x.point.val = pt.toNat ∧ PassageEvent.ofCode ev.toNat = some x.event ∧ x.offset = off.toNat)
    ∧ (∀ (incomer load : Byte) (feeders : List Byte), contents? (statusTelegram h incomer load feeders)
      = if h.src ≠ 255 ∧ incomer.toNat ≤ 1 ∧ 1 ≤ feeders.length ∧ feeders.length ≤ 8 ∧ (∀ b ∈ feeders, b.toNat ≤ 1) then
          some (.status (decide (incomer = 1)) load.toNat (feeders.map fun b => decide (b = 1)))
        else none)
    ∧ (∀ inputs : List Byte, contents? (equipmentTelegram h inputs)
      = if h.src ≠ 255 ∧ 1 ≤ inputs.length ∧ inputs.length ≤ 16 ∧ (∀ b ∈ inputs, b.toNat ≤ 1) then
          some (.equipment (inputs.map fun b => decide (b = 1)))
        else none)
    ∧ (∀ (zone tag : Byte) (z : ZoneId) (k : Nat), contents? (doneTelegram h zone tag) = some (.done z k) ↔
        h.src ≠ 255 ∧ z.val = zone.toNat ∧ k = tag.toNat)

/-- A frame fails the length check by its length field and size, and the check by its CRC over the bytes from the kind to the
last payload byte. That a frame payload of up to 46 bytes passes the length check whatever follows its check, while a longer
one must end with it, is the model's choice between R1 and R4: log entry 35. A frame that fails a receive check is discarded and counted in the class of the first that fails: LENGTH, CHECK,
nothing for the part's own telegram on a field port, MISDIRECTED, LENGTH again for the form, and DUPLICATE. Nothing else
changes, and on a port whose link is down nothing is received. -/
def Obligations.DiscardsAreCounted : Prop :=
  (∀ f : List Byte,
    let n := (f.getD 4 0).toNat
    let long := 240 < n ∨ f.length < 7 + n ∨ (7 + n < f.length ∧ 46 < f.length)
    (readFrame f = .lengthFault ↔ long)
    ∧ (readFrame f = .checkFault ↔ ¬long ∧ numOf ((f.drop (5 + n)).take 2) ≠ (crc16 (f.take (5 + n))).toNat)
    ∧ ∀ t, readFrame f = .sound t →
        t.payload.length = n ∧ f.take (5 + n) = [t.kind, t.dest, t.src, t.flags, BitVec.ofNat 8 n] ++ t.payload)
  ∧ ∀ (s : State) (f : List Byte), s.inReset = false →
    (∀ p : Port,
      (s.links.up p = false → exec (.telegramDiscarded p f) s = .next (settle s))
      ∧ (s.links.up p = true → readFrame f = .lengthFault →
          exec (.telegramDiscarded p f) s = .next (settle (lengthCounted p s)))
      ∧ (s.links.up p = true → readFrame f = .checkFault →
          exec (.telegramDiscarded p f) s = .next (settle (checkCounted p s))))
    ∧ (∀ t, s.links.room = true → readFrame f = .sound t → t.dest = s.address →
        (t.kind ≠ kindManage → exec (.telegramDiscarded .room f) s = .next (settle (misdirectedCounted .room s)))
        ∧ (t.kind = kindManage → t.payload.length < 3 →
            exec (.telegramDiscarded .room f) s = .next (settle (lengthCounted .room s))))
    ∧ ∀ (p : FieldPort) (t : Telegram), s.links.up p.port = true → readFrame f = .sound t →
        (t.src = s.address → exec (.telegramDiscarded p.port f) s = .next (settle s))
        ∧ (t.src ≠ s.address → t.kind = kindManage →
            exec (.telegramDiscarded p.port f) s = .next (settle (misdirectedCounted p.port s)))
        ∧ (t.src ≠ s.address → t.kind ≠ kindManage → contents? t = none →
            exec (.telegramDiscarded p.port f) s = .next (settle (lengthCounted p.port s)))
        ∧ (t.src ≠ s.address → t.kind ≠ kindManage → contents? t ≠ none → t.kind ≠ kindMarker → isDuplicate s t = true →
            exec (.telegramDiscarded p.port f) s = .next (settle (duplicateCounted p s)))

/-- Once a field telegram that is not a marker has been received on one field port, the same telegram received next on
either field port is a duplicate: the entry of its source holds its alternation bit, no other entry has changed, and
receiving the copy counts one duplicate against its port and changes nothing else. -/
def Obligations.SecondCopyIsDuplicate : Prop :=
  ∀ (s : State) (p q : FieldPort) (t : Telegram) (c : Contents), t.kind ≠ kindMarker → Accepted s p t c →
    s.links.up q.port = true →
    ∃ u, receiveTelegram p.port t s = u ∧ isDuplicate u t = true
      ∧ (∀ a, a ≠ t.src.toFin → u.tiu.duplicates.get a = s.tiu.duplicates.get a)
      ∧ receiveTelegram q.port t u
          = { u with
              tiu.counters.duplicateA :=
                if q = .a then min (u.tiu.counters.duplicateA + 1) 65535 else u.tiu.counters.duplicateA
              tiu.counters.duplicateB :=
                if q = .b then min (u.tiu.counters.duplicateB + 1) 65535 else u.tiu.counters.duplicateB }

/-- A telegram that no block is to have, which is one of a kind the part does not read, and in BARE mode every one but a
marker, is forwarded unchanged: a PASSAGE below 60 telegrams in the room-bound queue, any other below W and 64 (log entry 34), and it
is counted as refused otherwise. -/
def Obligations.OtherTelegramsOnlyForwarded : Prop :=
  ∀ (s : State) (p : FieldPort) (t : Telegram) (c : Contents), Accepted s p t c → t.kind ≠ kindMarker →
    (c = .other ∨ mode s = .bare) →
    let d := s.tiu.duplicates.set t.src.toFin (if t.flags.getLsbD 0 then .one else .zero)
    (s.tiu.room.length < (if t.kind = kindPassage then 60 else min (warnLevel s) 64) →
      exec (.otherFieldTelegram p t) s
        = .next (settle { s with
            tiu.duplicates := d
            tiu.room := s.tiu.room ++ [{ kind := .forwarded, telegram := t }] }))
    ∧ (t.kind = kindPassage → 60 ≤ s.tiu.room.length →
      exec (.otherFieldTelegram p t) s
        = .next (settle { s with
            tiu.duplicates := d
            tiu.counters.serviceRefused := min (s.tiu.counters.serviceRefused + 1) 65535 }))
    ∧ (t.kind ≠ kindPassage → min (warnLevel s) 64 ≤ s.tiu.room.length →
      exec (.otherFieldTelegram p t) s
        = .next (settle { s with
            tiu.duplicates := d
            tiu.counters.statusRefused := min (s.tiu.counters.statusRefused + 1) 65535 }))

/-- A room telegram for another station joins the field forward queue unchanged, or is counted as refused when that queue
holds 32; from its head it is sent as it came. A MANAGE to the part joins the management input queue with the command, console tag and arguments sent, or is
counted as lost when that queue holds 8. -/
def Obligations.RoomTelegramsQueued : Prop :=
  ∀ s : State, s.inReset = false → s.links.room = true →
    (∀ t : Telegram, t.payload.length ≤ 240 → t.dest ≠ s.address →
      (s.tiu.forward.length < 32 →
        exec (.roomTelegramForward t) s = .next (settle { s with tiu.forward := s.tiu.forward ++ [t] }))
      ∧ (32 ≤ s.tiu.forward.length →
        exec (.roomTelegramForward t) s
          = .next (settle { s with tiu.counters.forwardRefused := min (s.tiu.counters.forwardRefused + 1) 65535 })))
    ∧ (∀ (t : Telegram) (rest : List Telegram), s.tiu.forward = t :: rest → s.tiu.orders = [] →
        (s.links.a = true ∨ s.links.b = true) →
        ∃ u, exec .fieldTransmissionEnd s = .next u ∧ u.tiu.forward = rest
          ∧ u.tiu.fieldSending = some { telegram := t, onA := s.links.a, onB := s.links.b })
    ∧ ∀ (h : Header) (code : Byte) (tag : BitVec 16) (args : List Byte), h.dest = s.address → args.length ≤ 237 →
      (s.tiu.manage.length < 8 →
        ∃ t, exec (.manage h code tag args) s = .next (settle { s with tiu.manage := s.tiu.manage ++ [t] })
          ∧ t.src = h.src ∧ t.dest = h.dest ∧ t.flags = h.flags ∧ t.kind = 0x21
          ∧ commandOf t = code.toNat ∧ tagOf t = tag.toNat ∧ argsOf t = args)
      ∧ (8 ≤ s.tiu.manage.length →
        exec (.manage h code tag args) s
          = .next (settle { s with tiu.counters.manageLost := min (s.tiu.counters.manageLost + 1) 65535 }))

/-! ## The order queue -/

/-- An order offered to the field order queue keeps its law: no two unsent orders for one timing point or one zone. A queue
that keeps the law never holds more than 88 orders. -/
def Obligations.OrderQueueLawKept : Prop :=
  (∀ (o : Order) (q : List Order), (q.Pairwise fun x y => x.rivals y = false) →
    (offerOrder o q).Pairwise fun x y => x.rivals y = false)
  ∧ ∀ q : List Order, (q.Pairwise fun x y => x.rivals y = false) → q.length ≤ 88

/-- The outcome of an order offered to the field order queue: a HOLD_ORDER or RELEASE_ORDER replaces the unsent one for its
timing point in its place; ANNOUNCE and CUT meet the unsent one for their zone as the table of R12 says, in its place; and
an order with no rival joins at the tail. That a CUT sent in an ANNOUNCE's place goes to the station it was first addressed
to is read from R12: log entry 31. -/
def Obligations.SupersessionTable : Prop :=
  (∀ (new : Order) (q : List Order), (∀ o ∈ q, o.rivals new = false) → offerOrder new q = q ++ [new])
  ∧ (∀ (p : TpId) (old new : Order) (before after : List Order), (∀ o ∈ before, o.point? ≠ some p) →
      old.point? = some p → new.point? = some p → offerOrder new (before ++ old :: after) = before ++ new :: after)
  ∧ ∀ (before after : List Order) (z : ZoneId), (∀ o ∈ before, o.zone? ≠ some z) →
    (∀ (d d' : Byte) (t : Nat) (m : TmplId) (p : Bool) (ps : List Nat),
      offerOrder (.cut d' z t) (before ++ .announce d z t m p ps none :: after) = before ++ after)
    ∧ (∀ (d d' : Byte) (t : Nat) (m : TmplId) (p : Bool) (ps : List Nat) (c : AbsorbedCut),
      offerOrder (.cut d' z t) (before ++ .announce d z t m p ps (some c) :: after)
        = before ++ .cut c.dest z c.tag :: after)
    ∧ (∀ (d d' : Byte) (t u : Nat) (m : TmplId) (p : Bool) (ps : List Nat) (c : Option AbsorbedCut), t ≠ u →
      offerOrder (.cut d' z u) (before ++ .announce d z t m p ps c :: after)
        = before ++ .announce d z t m true ps (some (c.getD { dest := d', tag := u })) :: after)
    ∧ (∀ (d d' : Byte) (t u : Nat) (m n : TmplId) (p q : Bool) (ps qs : List Nat) (c : Option AbsorbedCut),
      offerOrder (.announce d' z u n q qs none) (before ++ .announce d z t m p ps c :: after)
        = before ++ .announce d' z u n (p || q) qs c :: after)
    ∧ (∀ (d d' : Byte) (t u : Nat),
      offerOrder (.cut d' z u) (before ++ .cut d z t :: after) = before ++ .cut d' z u :: after)
    ∧ (∀ (d d' : Byte) (t u : Nat) (n : TmplId) (q : Bool) (qs : List Nat),
      offerOrder (.announce d' z u n q qs none) (before ++ .cut d z t :: after)
        = before ++ .announce d' z u n true qs (some { dest := d, tag := t }) :: after)

/-! ## The Line Clock -/

/-- A marker that passes the receive checks makes of the clock what its number and day time say, and is forwarded just when
the clock took it or corrected its day time from it. No duplicate memory entry changes. At a day roll with valid tables every
passage memory is emptied (a grant of that boundary writes B); every record that stays becomes unscheduled and not late, a Td
it has becomes B and its last passage time none; and every waiting train's Td becomes B, each list in order by timing point
and then as its trains joined. A marker makes a boundary unless it repeats the cycle number of a set clock; with valid tables
the boundary writes the waiting groups, applies a pending activation with its PROFILE report, lowers every countdown, hands
over the DWELLING trains that are due, and raises CLOCK_LOSS, or reports its cause gone, where the clock enters or leaves
UNLOCKED; in BARE mode no incident comes of it. A marker that makes none changes nothing in the other blocks. SET, LOSS,
RELOCK and DAY_ROLL make a CLOCK report with the clock's new values. That it stands before the boundary's other reports is the
model's reading: log entry 10. When the LATE_RUNNING causes are worked off is the model's choice: log entry 37. -/
def Obligations.MarkerOutcome : Prop :=
  ∀ (s : State) (p : FieldPort) (h : Header) (n : BitVec 16) (d : BitVec 32),
    Accepted s p (markerTelegram h n d) (.marker n.toNat d.toNat) →
    ∃ u, exec (.cycleMarker p h n d) s = .next (settle u)
      ∧ u.lck = (markerOutcome s n.toNat d.toNat).1
      ∧ ClockTold s u
          (if (markerOutcome s n.toNat d.toNat).2 ∧ s.tiu.room.length < min (warnLevel u) 64 then
            [{ kind := .forwarded, telegram := markerTelegram h n d }] else [])
          (markerEvent s n.toNat d.toNat)
      ∧ u.tiu.duplicates = s.tiu.duplicates ∧ u.tiu.manage = s.tiu.manage ∧ u.tiu.forward = s.tiu.forward
      ∧ (let boundary := s.lck.lock = .unset ∨ d.toNat + 36000000 < s.lck.dayTime ∨ n.toNat ≠ s.lck.cycle
         (mode s ≠ .bare → boundary → BoundaryTaken s u)
         ∧ (mode s = .bare → TstLaw s.tst → SupplyLaw s → HoldLaw s → ∀ i, u.inc.records.get i = none)
         ∧ (¬boundary → u.tst = s.tst ∧ u.rrg = s.rrg ∧ u.psv = s.psv ∧ u.inc = s.inc ∧ u.asc = s.asc
            ∧ u.tiu.orders = s.tiu.orders))
      ∧ (mode s ≠ .bare → s.lck.lock ≠ .unset → d.toNat + 36000000 < s.lck.dayTime →
        let b := d.toNat / 100
        (∀ q, u.rrg.memory.get q = Memory.empty
          ∨ u.rrg.memory.get q = { released := some b, run := none, scheduled := none })
        ∧ (∀ i r, s.rrg.trains.get i = some r → 2 ≤ r.silence →
          ∃ v, u.rrg.trains.get i = some v ∧ v.set = r.set ∧ v.run = none ∧ v.step = none ∧ v.late = false
            ∧ v.time = none ∧ v.dev = r.dev ∧ v.point = r.point
            ∧ (r.target.isSome → v.target = some b) ∧ (r.target = none → v.target = none ∨ v.target = some b))
        ∧ (∀ w ∈ allWaits u.psv, w.target = b)
        ∧ ∀ k, (u.psv.subs.get k).waits.Pairwise fun x y => x.point.val < y.point.val
            ∨ (x.point = y.point ∧ x.joined ≤ y.joined))

/-- Where its deadline has passed, the marker timeout makes an artificial boundary and forwards nothing. With valid line tables
the waiting edit groups are written in order, then a pending activation makes its slot ACTIVE, the former ACTIVE one READY and
the mode SERVICE, rebinds the runs and makes a PROFILE report; every countdown falls by one, a record whose silence countdown
runs out is freed, and the DWELLING trains that are due are handed over. From COASTING it makes a CLOCK report with event LOSS
and raises CLOCK_LOSS; in BARE mode no incident comes of it. That the CLOCK report stands before the boundary's other reports
is the model's reading: log entry 10. In every other case the row's command changes nothing. -/
def Obligations.MarkerTimeoutMisses : Prop :=
  ∀ s : State, s.inReset = false →
    (∀ d, s.lck.deadline = some d → d ≤ s.lck.timeBase → s.lck.lock ≠ .unset →
      ∃ u, exec .markerTimeoutExpiry s = .next (settle u) ∧ u.lck = afterMiss s
        ∧ ClockTold s u [] (if s.lck.lock = .coasting then some 1 else none)
        ∧ u.tiu.duplicates = s.tiu.duplicates ∧ u.tiu.manage = s.tiu.manage ∧ u.tiu.forward = s.tiu.forward
        ∧ (mode s ≠ .bare → BoundaryTaken s u)
        ∧ (mode s = .bare → TstLaw s.tst → SupplyLaw s → HoldLaw s → ∀ i, u.inc.records.get i = none))
    ∧ ((s.lck.deadline = none ∨ s.lck.lock = .unset ∨ ∃ d, s.lck.deadline = some d ∧ s.lck.timeBase < d) →
      exec .markerTimeoutExpiry s = .next (settle s))

/-- The duration rule: the count is the larger of the floor and the least number of cycles that covers the duration,
saturating at 65535. The passage time is the day time of the last boundary plus the offset, clamped to Tc − 1, in ds and
within the day; there is none while the clock is UNSET, and the boundary time is the day time in ds. -/
def Obligations.LineTimeArithmetic : Prop :=
  (∀ (tc t f : Nat), 0 < tc → f ≤ 65535 →
    f ≤ cyclesAt tc t f ∧ cyclesAt tc t f ≤ 65535
    ∧ (t * 100 ≤ cyclesAt tc t f * tc ∨ cyclesAt tc t f = 65535)
    ∧ (cyclesAt tc t f = f ∨ (cyclesAt tc t f - 1) * tc < t * 100))
  ∧ ∀ (s : State) (offset : Nat),
    (s.lck.lock = .unset → passageTime s offset = none ∧ boundaryTime s = none)
    ∧ (s.lck.lock ≠ .unset →
        boundaryTime s = some (s.lck.dayTime / 100)
        ∧ ∃ a, passageTime s offset = some a ∧ a ≤ 1079999
          ∧ (s.lck.dayTime ≤ 107999999 → s.lck.dayTime / 100 ≤ a)
          ∧ (offset < cycleLength s → s.lck.dayTime + offset ≤ 107999999 → a = (s.lck.dayTime + offset) / 100)
          ∧ (cycleLength s ≤ offset → s.lck.dayTime + (cycleLength s - 1) ≤ 107999999 →
              a = (s.lck.dayTime + (cycleLength s - 1)) / 100)
          ∧ (107999999 < s.lck.dayTime + min offset (cycleLength s - 1) → a = 1079999))

/-! ## Trains -/

/-- A PASSAGE that removes no train writes the record of its train set, created first where none holds it, as its run, event
and time say; every record but that one, and one that was bound to its run, keeps what passages write. A PASS, and an ARRIVE
at a PASS_POINT, leave the record RUNNING without a Td and without a slot; a DEPART leaves it RUNNING without a Td, with the
slot it has; and an event that finds the train stopped elsewhere, or carries it off, counts one unplanned departure. The
last holds of a state that keeps the law of the supply, for a passage whose run ends no late spell. The late flag follows the
deviation against the threshold and hysteresis each time it changes, and is lost with the run; LATE_RUNNING is present or gone
as the flag changes, where no raise is refused. An APPROACH gives a credit where the departure section has a source, and no
other event touches the credits. A passage at a trigger hands the trigger's zone one entry where the run serves the target
from here; what the ASC then holds is said where the law of the supply is kept, no record's cause is PRESENT and the train is
not newly late, so that no incident reaches the zones too. That a repeat ARRIVE counts as standing at its step there is the
model's reading: log entry 22. That a repeat ARRIVE is not
matched afresh, so that step and deviation stand, is the model's choice: log entry 56. -/
def Obligations.PassageWritesRecord : Prop :=
  ∀ (s : State) (q : FieldPort) (h : Header) (set run : BitVec 16) (pt ev : Byte) (off : BitVec 16) (x : Passage)
    (i : TrainId) (t : Train),
    Accepted s q (passageTelegram h set run pt ev off) (.passage x) → mode s ≠ .bare →
    ¬((s.tst.line.points.get x.point).kind = .lineExit ∧ (x.event = .arrive ∨ x.event = .pass)) →
    passageRecord s x.set i t →
    ((x.event = .arrive ∧ (s.tst.line.points.get x.point).kind = .platform ∧ t.point = some x.point) →
      bindsQuietly s i x.run t) →
    ∃ u r, exec (.passage q h set run pt ev off) s = .next (settle u) ∧ u.rrg.trains.get i = some r
      ∧ r.told = (t.heard s x).told
      ∧ (∀ j, j ≠ i → ¬(x.run ≠ 0 ∧ (s.rrg.trains.get j).bind (·.run) = some x.run) →
          (u.rrg.trains.get j).map Train.told = (s.rrg.trains.get j).map Train.told)
      ∧ u.lck = s.lck ∧ u.tst = s.tst
      ∧ (SupplyLaw s → bindsQuietly s i x.run t →
        let docks := x.event = .arrive ∧ (s.tst.line.points.get x.point).kind = .platform
        (x.event ≠ .approach → ¬docks → r.state = .running ∧ r.target = none
          ∧ (x.event = .depart → r.slot = t.slot) ∧ (x.event ≠ .depart → r.slot = none))
        ∧ u.rrg.unplanned =
            if t.state.stopped = true ∧ x.event ≠ .approach ∧ ¬(docks ∧ t.point = some x.point) then
              min (s.rrg.unplanned + 1) 65535
            else s.rrg.unplanned)
      ∧ (let kept := t.late = true ∧ ¬(t.run ≠ none ∧ (t.withRun s x.run).run = none)
         let limit : Int := (params s).late
         (r.late = true ↔
            if r.dev = t.dev then kept else limit ≤ r.dev ∨ (limit - (params s).hysteresis ≤ r.dev ∧ kept))
         ∧ (¬kept → r.late = true → NoneRefused s u → CausePresent u .lateRunning (.train t.set))
         ∧ (t.late = true → r.late = false → NoneRefused s u → ¬CausePresent u .lateRunning (.train t.set)))
      ∧ (x.event = .approach → approachCredits s u x.point)
      ∧ (x.event ≠ .approach → ∀ b, (u.psv.subs.get b).heard = (s.psv.subs.get b).heard)
      ∧ (SupplyLaw s → (∀ j c, s.inc.records.get j = some c → c.cause ≠ .present) → (r.late = true → t.late = true) →
        let row := s.tst.line.points.get x.point
        let docks := decide (x.event = .arrive ∧ row.kind = .platform)
        (∀ now e, passageTime s x.offset = some now → row.hasTrigger = true → ServiceCall s x.point docks r now e →
          u.asc = (placeEntry row.trigZone e (Act.start s)).1.s.asc)
        ∧ ((row.hasTrigger = false ∨ ∀ now e, passageTime s x.offset = some now → ¬ServiceCall s x.point docks r now e) →
          u.asc = s.asc))

/-- A PASSAGE for which the RRG has a record is forwarded with an annex of seven bytes and its flag: the record's state, run
and deviation as they then stand, and a flags byte of the uncertain indication, cap exceeded and hold seconds present. Cap
exceeded and hold seconds come from the computation of an arrival at a platform, and are none for every other passage. What
they are is said for a train that runs without a slot and is not reported stalled, from the state it arrives in. That bits 1
to 6 of the telegram's flags go out as they came is the model's choice: log entry 42. That the state in the annex is the one
that stands at the end, also where the late test has changed it after the computation whose hold seconds stand beside it, is
the model's choice: log entry 52. -/
def Obligations.PassageForwardedWithAnnex : Prop :=
  ∀ (s : State) (q : FieldPort) (h : Header) (set run : BitVec 16) (pt ev : Byte) (off : BitVec 16) (x : Passage)
    (i : TrainId) (t : Train),
    Accepted s q (passageTelegram h set run pt ev off) (.passage x) → mode s ≠ .bare →
    ¬((s.tst.line.points.get x.point).kind = .lineExit ∧ (x.event = .arrive ∨ x.event = .pass)) →
    passageRecord s x.set i t →
    let docks := x.event = .arrive ∧ (s.tst.line.points.get x.point).kind = .platform
    let here := t.state.stopped = true ∧ t.point = some x.point
    ∃ u r cap, ∃ secs : Option Nat, exec (.passage q h set run pt ev off) s = .next (settle u)
      ∧ u.rrg.trains.get i = some r
      ∧ (¬docks ∨ s.lck.lock = .unset → cap = false ∧ secs = none)
      ∧ (docks → here → bindsQuietly s i x.run t → cap = false ∧ secs = none)
      ∧ (∀ now, docks → passageTime s x.offset = some now → t.state.stopped = false → t.slot = none →
          findKey s .trainStalled (.train t.set) = none → bindsQuietly s i x.run t →
          let y := (regulationInputs s x.point now (matchStep s (t.withRun s x.run) x.point)).target
            (underHold s x.point) (decide (mode s = .prepared)) (decide (s.lck.lock = .unlocked) || underSuspend s x.point)
          cap = y.2
          ∧ secs = some (match y.1 with
            | none => 255
            | some td => min ((td - now + 9) / 10) 254))
      ∧ Forwarded s u 60
          { passageTelegram h set run pt ev off with
            flags := h.flags ||| 0x80
            payload := (passageTelegram h set run pt ev off).payload
              ++ num1 r.state.code ++ num2 (r.run.getD 0) ++ int2 r.dev
              ++ num1 ((if s.lck.lock = .coasting ∨ s.lck.lock = .unlocked then 1 else 0) + (if cap = true then 2 else 0)
                + (if secs.isSome then 4 else 0))
              ++ num1 (secs.getD 0) }

/-- An ARRIVE or PASS at a LINE_EXIT frees the record of its train, and where no record holds the train set it changes
neither the RRG nor the PSV, the INC or the ASC. It is forwarded with an annex of state REMOVED, the run and deviation the
record held (0 where there is none), the uncertain indication, and no hold; bits 1 to 6 of its flags go out as they came, which is
the model's choice: log entry 42. A PASSAGE for an unknown train that finds the
train table full is not applied: it is forwarded unchanged, the refusal is counted, and a TRAIN_TABLE_FULL report is made
unless the hold-off runs. Nothing else changes, but that an APPROACH so refused still gives its credit. That its
TRAIN_TABLE_FULL report stands before the reports its credit causes is the model's choice: log entry 51. That a refusal while
the hold-off runs leaves it running is the model's choice: log entry 55. -/
def Obligations.PassagesWithoutRecord : Prop :=
  ∀ (s : State) (q : FieldPort) (h : Header) (set run : BitVec 16) (pt ev : Byte) (off : BitVec 16) (x : Passage),
    Accepted s q (passageTelegram h set run pt ev off) (.passage x) → mode s ≠ .bare →
    (((s.tst.line.points.get x.point).kind = .lineExit ∧ (x.event = .arrive ∨ x.event = .pass)) →
      ∃ u, exec (.passage q h set run pt ev off) s = .next (settle u)
        ∧ (∀ i, findTrain s x.set = some i → u.rrg.trains.get i = none)
        ∧ (findTrain s x.set = none → u.rrg = s.rrg ∧ u.psv = s.psv ∧ u.inc = s.inc ∧ u.asc = s.asc)
        ∧ u.lck = s.lck ∧ u.tst = s.tst
        ∧ (let r := ((findTrain s x.set).bind fun i => s.rrg.trains.get i).map (Train.withRun s x.run)
           Forwarded s u 60
            { passageTelegram h set run pt ev off with
              flags := h.flags ||| 0x80
              payload := (passageTelegram h set run pt ev off).payload
                ++ num1 6 ++ num2 ((r.bind Train.run).getD 0) ++ int2 ((r.map Train.dev).getD 0)
                ++ num1 (if s.lck.lock = .coasting ∨ s.lck.lock = .unlocked then 1 else 0) ++ num1 0 }))
    ∧ (¬((s.tst.line.points.get x.point).kind = .lineExit ∧ (x.event = .arrive ∨ x.event = .pass)) →
        findTrain s x.set = none → freeTrain s = none →
      ∃ u, exec (.passage q h set run pt ev off) s = .next (settle u)
        ∧ u.rrg.refused = min (s.rrg.refused + 1) 65535
        ∧ u.rrg.holdOff = (if s.rrg.holdOff = 0 then 60 else s.rrg.holdOff)
        ∧ u.rrg.unplanned = s.rrg.unplanned ∧ sameTrains s u ∧ u.tst = s.tst ∧ u.lck = s.lck
        ∧ (∃ reports : List RoomItem, (∀ y ∈ reports, y.kind = .report) ∧ u.tiu.room = s.tiu.room
            ++ (if s.tiu.room.length < 60 then
                  [{ kind := .forwarded, telegram := passageTelegram h set run pt ev off }] else [])
            ++ (if s.rrg.holdOff = 0 ∧ s.tiu.room.length < 64 then
                  [reportItem s.address
                    ([5] ++ num2 x.set ++ num1 x.point.val ++ num2 (min (s.rrg.refused + 1) 65535))]
                else []) ++ reports
            ∧ (x.event ≠ .approach → reports = []))
        ∧ (x.event = .approach → approachCredits s u x.point)
        ∧ (x.event ≠ .approach →
            u.rrg = { s.rrg with refused := u.rrg.refused, holdOff := u.rrg.holdOff } ∧ u.psv = s.psv ∧ u.inc = s.inc
            ∧ u.asc = s.asc ∧ u.tiu.orders = s.tiu.orders))

/-- Departure regulation: the timetable target is the scheduled departure of a matched arrival; the headway target follows the
last release, unless it lies later than the arrival, by Sd − Sp where that is above 0 and by Hn otherwise. The blend is the timetable target, the headway target, their weighted mean rounded with a half
upward, or the arrival plus the default dwell, with the weight of the parameters in force. The target lies between its bounds when they do not conflict and is the lower bound when they do;
a blend within the bounds is the target itself; and no target is earlier than the minimum dwell after the arrival, nor
than the minimum headway after a release that is not later than it. -/
def Obligations.DepartureTargetKeepsBounds : Prop :=
  ∀ x : Inputs,
    let lo := match x.released with
      | some p => if p ≤ x.time then max (x.time + x.minDwell) (p + x.hmin) else x.time + x.minDwell
      | none => x.time + x.minDwell
    let up := x.time + (match x.sched with
      | some m => m.dwell
      | none => x.defDwell) + x.hx
    (x.timetable = x.sched.map fun m => (m.departure : Int))
    ∧ ((x.released = none ∨ ∃ p, x.released = some p ∧ x.time < p) → x.spacing = none)
    ∧ (∀ p, x.released = some p → p ≤ x.time →
        (∀ m sp, x.sched = some m → x.releasedSched = some sp → sp < m.departure →
          x.spacing = some ((p : Int) + ((m.departure : Int) - sp)))
        ∧ ((x.sched = none ∨ x.releasedSched = none
            ∨ ∃ m sp, x.sched = some m ∧ x.releasedSched = some sp ∧ m.departure ≤ sp) →
          x.spacing = some ((p : Int) + x.hn)))
    ∧ (∀ tt th, x.timetable = some tt → x.spacing = some th → x.blend = tt + Int.fdiv ((th - tt) * x.w + 8) 16)
    ∧ (∀ tt, x.timetable = some tt → x.spacing = none → x.blend = tt)
    ∧ (∀ th, x.timetable = none → x.spacing = some th → x.blend = th)
    ∧ (x.timetable = none → x.spacing = none → x.blend = x.time + x.defDwell)
    ∧ (∀ s p now m, (regulationInputs s p now m).w = (params s).w)
    ∧ (x.target false false false).1 = some x.bounded
    ∧ (up < lo → x.bounded = lo ∧ (x.target false false false).2 = true)
    ∧ (lo ≤ up → (lo ≤ x.bounded ∧ x.bounded ≤ up) ∧ (x.target false false false).2 = false
        ∧ ((lo : Int) ≤ x.blend → x.blend ≤ up → (x.bounded : Int) = x.blend))
    ∧ x.time + x.minDwell ≤ x.bounded
    ∧ ∀ p, x.released = some p → p ≤ x.time → p + x.hmin ≤ x.bounded

/-- What an arrival at a platform gives its train: HELD without a target under HOLD, with an indefinite hold for INCIDENT;
otherwise DWELLING with the target of the first override that applies, and a REGULATION hold of the seconds to it, rounded
up and at most 254. -/
def Obligations.ArrivalGivesTarget : Prop :=
  ∀ (i : TrainId) (p : TpId) (now : Nat) (a : Act) (t : Train), a.train i = some t →
    let m := matchStep a.s t p
    let x := regulationInputs a.s p now m
    let u := t.matched m (some now)
    let row := a.s.tst.line.points.get p
    (underHold a.s p = true →
      (regulate i p now a).1
        = ((a.putTrain i (some { u with target := none, state := .held })).order
            (.hold row.controller p (t.run.getD 0) 255 .incident)))
    ∧ (underHold a.s p = false →
      ∃ td, (regulate i p now a).1
          = ((a.putTrain i (some { u with target := some td, state := .dwelling })).order
              (.hold row.controller p (t.run.getD 0) (min ((td - now + 9) / 10) 254) .regulation))
        ∧ (mode a.s = .prepared → td = now + max row.dwell row.minDwell)
        ∧ (mode a.s ≠ .prepared → (a.s.lck.lock = .unlocked ∨ underSuspend a.s p = true) →
            td = now + max x.dwell row.minDwell)
        ∧ (mode a.s ≠ .prepared → a.s.lck.lock ≠ .unlocked → underSuspend a.s p = false → td = x.bounded))

/-- The countdown of a train that has left a timing point and not reached the next runs out: it becomes none and the
TRAIN_STALLED raise goes to the INC. A power-wait countdown runs out likewise with POWER_WAIT, a slot is released and the
supply derived, and the hold-off of the train-table report ends. Where the record's silence countdown is at its last count
too, it is taken first: the record is removed and neither is raised. Where a countdown is not at its last count, or the clock
is UNSET, the command changes nothing (log entry 11). -/
def Obligations.TrainCountdownsExpire : Prop :=
  ∀ (s : State) (i : TrainId), s.inReset = false →
    (∀ t, s.lck.lock ≠ .unset → s.rrg.trains.get i = some t →
      (t.overdue = some 1 → 2 ≤ t.silence →
        exec (.overdueExpiry i) s
          = .next (settle (Act.request (.raise .trainStalled (.train t.set) true)
              (Act.start { s with rrg.trains := s.rrg.trains.set i (some { t with overdue := none }) })).finish))
      ∧ (t.powerWait = some 1 → 2 ≤ t.silence →
        exec (.powerWaitExpiry i) s
          = .next (settle (Act.request (.raise .powerWait (.train t.set) true)
              (Act.start { s with rrg.trains := s.rrg.trains.set i (some { t with powerWait := none }) })).finish))
      ∧ (t.overdue = some 1 → t.silence ≤ 1 → exec (.overdueExpiry i) s = exec (.silenceExpiry i) s)
      ∧ (t.powerWait = some 1 → t.silence ≤ 1 → exec (.powerWaitExpiry i) s = exec (.silenceExpiry i) s)
      ∧ (∀ b, t.slot = some { sub := b, left := 1 } →
        exec (.slotExpiry i) s
          = .next (settle (deriveSupply [] []
              (Act.start { s with
                rrg.trains := s.rrg.trains.set i (some { t with slot := none })
                psv.subs := s.psv.subs.set b
                  { s.psv.subs.get b with held := (s.psv.subs.get b).held - 1 } })).finish)))
    ∧ (s.lck.lock ≠ .unset → s.rrg.holdOff = 1 → exec .reportHoldOffExpiry s = .next (settle { s with rrg.holdOff := 0 }))
    ∧ ((s.lck.lock = .unset ∨ (∀ t, s.rrg.trains.get i = some t →
          (∀ n, t.overdue = some n → 2 ≤ n) ∧ (∀ n, t.powerWait = some n → 2 ≤ n) ∧ (∀ h, t.slot = some h → 2 ≤ h.left))) →
        exec (.overdueExpiry i) s = .next (settle s) ∧ exec (.powerWaitExpiry i) s = .next (settle s)
        ∧ exec (.slotExpiry i) s = .next (settle s))

/-- A record whose silence countdown runs out is freed; every other record keeps what passages write, and the clock, the
tables and the supply picture are untouched. The order of freeing and reporting is the model's: log entry 7. That the row is the
one expiry alone is the model's choice: log entry 11. -/
def Obligations.SilenceFreesRecord : Prop :=
  ∀ (s : State) (i : TrainId) (t : Train), s.inReset = false → s.lck.lock ≠ .unset → s.rrg.trains.get i = some t →
    t.silence = 1 →
    ∃ u, exec (.silenceExpiry i) s = .next (settle u) ∧ u.rrg.trains.get i = none
      ∧ (∀ j, j ≠ i → (u.rrg.trains.get j).map Train.told = (s.rrg.trains.get j).map Train.told)
      ∧ u.lck = s.lck ∧ u.tst = s.tst ∧ u.psv.secs = s.psv.secs
      ∧ ∀ b, (u.psv.subs.get b).told = (s.psv.subs.get b).told

/-- TRAIN_BIND binds a record to a run of the ACTIVE profile with no step index, and makes any other record that was bound to
it unscheduled; with run 0 it makes the record unscheduled; TRAIN_REMOVE frees the record. All are answered DONE, and the
other records keep what passages write. A train set that no record holds is refused with BAD_INDEX; a run is refused with
STATE in PREPARED mode and with BAD_INDEX where the ACTIVE profile lacks it, and then nothing changes. -/
def Obligations.TrainCommandsBindAndRemove : Prop :=
  ∀ (s : State) (t : Telegram) (rest : List Telegram) (x y z w : Byte), mode s ≠ .bare →
    (findTrain s (numOf [x, y]) = none →
      (TakenAs s t rest 0x0D [x, y, z, w] → exec .trainBind s = .next (settle (replied t rest (.no .badIndex) s)))
      ∧ (TakenAs s t rest 0x0E [x, y] → exec .trainRemove s = .next (settle (replied t rest (.no .badIndex) s))))
    ∧ ∀ (i : TrainId) (r : Train), findTrain s (numOf [x, y]) = some i → s.rrg.trains.get i = some r →
      (TakenAs s t rest 0x0D [x, y, z, w] →
        (numOf [z, w] = 0 →
          ∃ u v, exec .trainBind s = .next (settle u) ∧ Answered s u t (.ok []) ∧ u.tiu.manage = rest
            ∧ u.rrg.trains.get i = some v ∧ v.told = { r with run := none, step := none }.told ∧ v.late = false
            ∧ ∀ j, j ≠ i → (u.rrg.trains.get j).map Train.told = (s.rrg.trains.get j).map Train.told)
        ∧ (numOf [z, w] ≠ 0 → mode s = .prepared →
            exec .trainBind s = .next (settle (replied t rest (.no .state) s)))
        ∧ (numOf [z, w] ≠ 0 → mode s = .service → activeRun s (numOf [z, w]) = none →
            exec .trainBind s = .next (settle (replied t rest (.no .badIndex) s)))
        ∧ (numOf [z, w] ≠ 0 → mode s = .service → activeRun s (numOf [z, w]) ≠ none → r.run = some (numOf [z, w]) →
            exec .trainBind s = .next (settle (replied t rest (.ok []) s)))
        ∧ (numOf [z, w] ≠ 0 → mode s = .service → activeRun s (numOf [z, w]) ≠ none → r.run ≠ some (numOf [z, w]) →
          ∃ u v, exec .trainBind s = .next (settle u) ∧ Answered s u t (.ok []) ∧ u.tiu.manage = rest
            ∧ u.rrg.trains.get i = some v ∧ v.told = { r with run := some (numOf [z, w]), step := none }.told
            ∧ (∀ j, j ≠ i → (s.rrg.trains.get j).bind (·.run) ≠ some (numOf [z, w]) →
                (u.rrg.trains.get j).map Train.told = (s.rrg.trains.get j).map Train.told)
            ∧ ∀ j, boundElsewhere s i (numOf [z, w]) = some j → (u.rrg.trains.get j).bind (·.run) = none))
      ∧ (TakenAs s t rest 0x0E [x, y] →
        ∃ u, exec .trainRemove s = .next (settle u) ∧ Answered s u t (.ok []) ∧ u.tiu.manage = rest
          ∧ u.rrg.trains.get i = none
          ∧ ∀ j, j ≠ i → (u.rrg.trains.get j).map Train.told = (s.rrg.trains.get j).map Train.told)

/-! ## Supply -/

/-- The table of feeds, and the state and slot source of a section from its feeds: the first available feed, A before B, or
else the first uncertain one; a DEAD section and an unused one have none, and no departure section is unused. A feeder a
status does not report keeps its memory. Right after validation every substation is UNKNOWN, every feeder NEVER_REPORTED
and every used section UNCERTAIN with feed A's substation as its source. -/
def Obligations.SectionPictureFromFeeds : Prop :=
  (judgeFeed .online .closed = .available ∧ judgeFeed .online .opened = .unavailable
    ∧ judgeFeed .online .neverReported = .unavailable
    ∧ (∀ st, st = .unknown ∨ st = .stale → judgeFeed st .closed = .uncertain ∧ judgeFeed st .neverReported = .uncertain
        ∧ judgeFeed st .opened = .unavailable)
    ∧ ∀ m, judgeFeed .tripped m = .unavailable)
  ∧ (∀ (psv : Psv) (b : SubId) (f : FeederId),
      feedOf psv b f = judgeFeed (psv.subs.get b).state ((psv.subs.get b).feeders.get f))
  ∧ (∀ (v : Supply) (closed : Bool) (load : Nat) (feeders : List Bool) (n : Nat) (f : FeederId), feeders.length ≤ f.val →
      (v.report closed load feeders n).feeders.get f = v.feeders.get f)
  ∧ (∀ (psv : Psv) (x : Sec), x.used = false → pictureOf psv x = { state := none, source := none })
  ∧ (∀ (psv : Psv) (x : Sec), x.used = true →
      let a := feedOf psv x.subA x.feederA
      let p := pictureOf psv x
      (p.state = some .energized ↔
        a = .available ∧ ∀ b, x.subB = some b → feedOf psv b x.feederB = .available)
      ∧ (p.state = some .singleFed ↔
        ∃ b, x.subB = some b ∧ ((a = .available ∧ feedOf psv b x.feederB ≠ .available)
          ∨ (a ≠ .available ∧ feedOf psv b x.feederB = .available)))
      ∧ (p.state = some .uncertain ↔
        a ≠ .available ∧ (∀ b, x.subB = some b → feedOf psv b x.feederB ≠ .available)
          ∧ (a = .uncertain ∨ ∃ b, x.subB = some b ∧ feedOf psv b x.feederB = .uncertain))
      ∧ (p.state = some .dead ↔
        a = .unavailable ∧ ∀ b, x.subB = some b → feedOf psv b x.feederB = .unavailable)
      ∧ (a = .available → p.source = some (x.subA, .a))
      ∧ (∀ b, x.subB = some b → a ≠ .available → feedOf psv b x.feederB = .available → p.source = some (b, .b))
      ∧ (p.state = some .uncertain → a = .uncertain → p.source = some (x.subA, .a))
      ∧ (∀ b, p.state = some .uncertain → a = .unavailable → x.subB = some b → p.source = some (b, .b))
      ∧ (p.state = some .dead → p.source = none))
  ∧ (∀ (image : List Byte) (l : LineTables) (n : Nat), validateLine image = .valid l n → ∀ p x,
      (l.points.get p).depart = some x → (l.secs.get x).used = true)
  ∧ ∀ a : Act,
      (∀ b, ((supplyValidated a).supply b).state = .unknown
        ∧ ∀ f, ((supplyValidated a).supply b).feeders.get f = .neverReported)
      ∧ ∀ i : SecId, (a.s.tst.line.secs.get i).used = true →
        (supplyValidated a).s.psv.secs.get i
          = { state := some .uncertain, source := some ((a.s.tst.line.secs.get i).subA, .a) }

/-- A SUBSTATION_STATUS sets, for each used substation whose telemetry unit is its source, incomer, load, feeders, telemetry
countdown, state and trip flag, and leaves every other substation's telemetry alone; the capacities and sections are then
those the substations and tables give. From a station that is no such unit it changes nothing in the PSV. It is
forwarded, and what passages write of every train stands. Where no raise is refused, the causes SUBSTATION_TRIP,
TELEMETRY_LOSS and POWER_LOSS of substations and sections that changed are present or gone as they changed. -/
def Obligations.StatusTakesEffect : Prop :=
  ∀ (s : State) (q : FieldPort) (h : Header) (incomer load : Byte) (feeders : List Byte) (closed : Bool) (k : Nat)
    (fs : List Bool),
    Accepted s q (statusTelegram h incomer load feeders) (.status closed k fs) → mode s ≠ .bare →
    ∃ u, exec (.substationStatus q h incomer load feeders) s = .next (settle u)
      ∧ (∀ b, (s.tst.line.subs.get b).used = true → (s.tst.line.subs.get b).unit = h.src →
          let v := u.psv.subs.get b
          v.incomer = some closed ∧ v.load = some k ∧ v.state = (if closed then .online else .tripped)
          ∧ v.telemetry = some (cyclesAt (cycleLength s) (s.tst.line.subs.get b).telemetry 3)
          ∧ v.trip = !closed ∧ v.credit = (s.psv.subs.get b).credit
          ∧ ∀ f : FeederId, v.feeders.get f = match fs[f.val]? with
            | some true => .closed
            | some false => .opened
            | none => (s.psv.subs.get b).feeders.get f)
      ∧ (∀ b, ¬((s.tst.line.subs.get b).used = true ∧ (s.tst.line.subs.get b).unit = h.src) →
          (u.psv.subs.get b).heard = (s.psv.subs.get b).heard)
      ∧ ((∃ b, (s.tst.line.subs.get b).used = true ∧ (s.tst.line.subs.get b).unit = h.src) → pictureStands u)
      ∧ ((∀ b, ¬((s.tst.line.subs.get b).used = true ∧ (s.tst.line.subs.get b).unit = h.src)) →
          u.psv = s.psv ∧ u.rrg = s.rrg ∧ u.inc = s.inc ∧ u.asc = s.asc)
      ∧ sameTrains s u ∧ u.lck = s.lck ∧ u.tst = s.tst ∧ (NoneRefused s u → CausesFollow s u)
      ∧ Forwarded s u (min (warnLevel s) 64) (statusTelegram h incomer load feeders)

/-- A telemetry countdown that runs out makes its substation STALE, with its last reports kept and a capacity of 1; a credit
countdown that runs out ends the credit, and a used ONLINE substation is back at its base, by its load, L1, L2 and C. In
both the supply picture is derived afresh, and the other substations and what passages write of trains stand. Where no raise
is refused, TELEMETRY_LOSS is present, and the causes of what else changed are present or gone as it changed. That the row is
the one expiry alone, with a derivation of its own, is the model's choice: log entry 11. -/
def Obligations.SupplyCountdownsExpire : Prop :=
  ∀ (s : State) (b : SubId), s.inReset = false → s.lck.lock ≠ .unset →
    ((s.psv.subs.get b).telemetry = some 1 →
      ∃ u, exec (.telemetryTimeoutExpiry b) s = .next (settle u)
        ∧ (u.psv.subs.get b).heard = { s.psv.subs.get b with telemetry := none, state := .stale }.heard
        ∧ ((s.tst.line.subs.get b).used = true → (u.psv.subs.get b).capacity = 1)
        ∧ (∀ c, c ≠ b → (u.psv.subs.get c).heard = (s.psv.subs.get c).heard)
        ∧ pictureStands u ∧ sameTrains s u ∧ u.lck = s.lck ∧ u.tst = s.tst ∧ Reported s u
        ∧ (NoneRefused s u → CausesFollow s u))
    ∧ ((s.psv.subs.get b).credit = some 1 →
      ∃ u, exec (.creditExpiry b) s = .next (settle u)
        ∧ (u.psv.subs.get b).heard = { s.psv.subs.get b with credit := none }.heard
        ∧ (∀ k, (s.tst.line.subs.get b).used = true → (s.psv.subs.get b).state = .online →
            (s.psv.subs.get b).load = some k →
            (u.psv.subs.get b).capacity =
              if (s.tst.line.subs.get b).l2 ≤ k then 1
              else if (s.tst.line.subs.get b).l1 ≤ k then max ((s.tst.line.subs.get b).cap - 1) 1
              else (s.tst.line.subs.get b).cap)
        ∧ (∀ c, c ≠ b → (u.psv.subs.get c).heard = (s.psv.subs.get c).heard)
        ∧ pictureStands u ∧ sameTrains s u ∧ u.lck = s.lck ∧ u.tst = s.tst ∧ Reported s u
        ∧ (NoneRefused s u → CausesFollow s u))

/-- A train joins a waiting list behind every train whose target is earlier, or equal at a timing point of lower index, and
behind those of its own timing point and target, with a join number above theirs; a list in order stays in order, and no
train is lost or doubled. -/
def Obligations.WaitingListOrder : Prop :=
  ∀ (w : Wait) (q : List Wait), (q.Pairwise fun x y => x.before y = true) →
    let v : Wait := { w with joined := nextJoin q }
    ((waitsWith w q).Pairwise fun x y => x.before y = true)
    ∧ (waitsWith w q).Perm (v :: q)
    ∧ (∀ x ∈ q, x.joined < v.joined)
    ∧ (∃ front back, waitsWith w q = front ++ v :: back ∧ q = front ++ back
      ∧ (∀ x ∈ front, x.target < w.target ∨ (x.target = w.target ∧ x.point.val ≤ w.point.val))
      ∧ ∀ x ∈ back, w.target < x.target ∨ (w.target = x.target ∧ w.point.val < x.point.val))
    ∧ ∀ (b : SubId) (a : Act),
      ((joinList b w a).supply b).waits = waitsWith w (a.supply b).waits
      ∧ ∀ c, c ≠ b → (joinList b w a).supply c = a.supply c

/-- A power request handed over alone, of a train that still stands as it says, with every waiting list empty, ends in one
of three outcomes. With a slot free at the
source it is granted: slot, DEPARTING, RELEASE_ORDER and passage memory. Without one it waits: WAIT_POWER, the power-wait
countdown, and a POWER hold. In a DEAD section it is WAIT_DEAD with a NO_POWER hold. No other train record changes. -/
def Obligations.PowerRequestOutcomes : Prop :=
  ∀ (w : Wait) (a : Act) (t : Train), a.train w.train = some t → (∀ b, (a.supply b).waits = []) →
    underHold a.s w.point = false → t.point = some w.point → t.target = some w.target →
    (t.state = .dwelling ∨ t.state = .held) →
    let u := placeHandOver [w] a
    let place : Wait := { w with joined := 0 }
    let c := (a.s.tst.line.points.get w.point).controller
    let limit := cyclesAt (cycleLength a.s) (params a.s).powerLimit 4
    (∀ j, j ≠ w.train → u.train j = a.train j)
    ∧ (∀ b, sourceOf a.s w.sec = some b → (a.supply b).held < (a.supply b).capacity →
        u.train w.train
          = some { t with
              slot := some { sub := b
                             left := cyclesAt (cycleLength a.s) (a.s.tst.line.points.get w.point).accel 2 }
              state := .departing
              powerWait := none }
        ∧ (u.supply b).held = (a.supply b).held + 1 ∧ (∀ x, (u.supply x).waits = [])
        ∧ u.s.rrg.memory.get w.point
          = { released := boundaryTime a.s, run := t.run, scheduled := matchedDeparture a.s t }
        ∧ (∀ p, p ≠ w.point → u.s.rrg.memory.get p = a.s.rrg.memory.get p)
        ∧ u.out = a.out ++ [.order (.release c w.point (t.run.getD 0))])
    ∧ (∀ b, sourceOf a.s w.sec = some b → (a.supply b).capacity ≤ (a.supply b).held →
        u.train w.train = some { t with state := .waitPower, powerWait := some limit }
        ∧ (u.supply b).waits = [place] ∧ (u.supply b).held = (a.supply b).held
        ∧ u.s.rrg.memory = a.s.rrg.memory
        ∧ u.out = a.out ++ [.order (.hold c w.point (t.run.getD 0) 255 .power)])
    ∧ (sourceOf a.s w.sec = none →
        u.train w.train = some { t with state := .waitDead, powerWait := some limit }
        ∧ (∀ x, (u.supply x).waits = []) ∧ u.s.psv.deadWaits = a.s.psv.deadWaits ++ [place]
        ∧ u.s.rrg.memory = a.s.rrg.memory
        ∧ u.out = a.out ++ [.order (.hold c w.point (t.run.getD 0) 255 .noPower)])

/-! ## Incidents -/

/-- What a raise does, by what the INC holds for its key: it opens a record with the next number, RAISED at level 0; a live
record it counts as a recurrence; a RESOLVED one it reopens with its number and level; with the table full it takes the record longest RESOLVED, whose incident
is reported FREED; and with nothing resolved it is refused and counted. Each but the last is reported first, and no other
record changes. A hold start takes each DWELLING or waiting train of its timing point to HELD, out of its list or set, with
its Td kept and no power-wait countdown, and one INCIDENT hold for the lowest record's run; with the clock UNSET it changes
nothing. -/
def Obligations.RaiseByRecordState : Prop :=
  (∀ (a : Act) (cls : IncClass) (o : IncObject) (present : Bool),
    let u := handleRaise cls o present a
    let row := classRow a.s cls
    let r : Incident :=
      { number := a.s.inc.nextNumber, cls := cls, object := o, areas := areasOf a.s cls o 0, effects := row.effects,
        mandatory := row.mandatory, template := none, state := .raised,
        cause := if present then .present else .absent, level := 0, countdown := some row.reload, recurrences := 0,
        recurred := false, opened := boundaryTime a.s, ackTag := none, retention := none }
    (∀ i old rest, findKey a.s cls o = none → freeIncident a.s = none → a.s.inc.resolved = i :: rest →
      a.incident i = some old →
      u.incident i = some r ∧ (∀ j, j ≠ i → u.incident j = a.incident j) ∧ u.s.inc.resolved = rest
      ∧ u.s.inc.refused = a.s.inc.refused ∧ u.s.inc.edges = a.s.inc.edges
      ∧ ∃ more, u.out = a.out ++ [.report ([0] ++ incidentContent .freed old)]
          ++ [.report ([0] ++ incidentContent .opened r)] ++ more)
    ∧ (∀ i, findKey a.s cls o = none → freeIncident a.s = some i →
      u.incident i = some r ∧ (∀ j, j ≠ i → u.incident j = a.incident j) ∧ u.s.inc.resolved = a.s.inc.resolved
      ∧ u.s.inc.refused = a.s.inc.refused ∧ u.s.inc.edges = a.s.inc.edges
      ∧ ∃ rest, u.out = a.out ++ [.report ([0] ++ incidentContent .opened r)] ++ rest)
    ∧ (∀ i r, findKey a.s cls o = some i → a.incident i = some r → r.state ≠ .resolved →
      let r' : Incident :=
        { r with
          recurrences := min (r.recurrences + 1) 255
          cause := if present then .present else r.cause
          recurred := if r.state = .acknowledged then true else r.recurred
          areas := areasOf a.s r.cls r.object r.areas }
      u.incident i = some r' ∧ (∀ j, j ≠ i → u.incident j = a.incident j) ∧ u.s.inc.resolved = a.s.inc.resolved
      ∧ u.s.inc.nextNumber = a.s.inc.nextNumber ∧ u.s.asc = a.s.asc
      ∧ ∃ rest, u.out = a.out ++ [.report ([0] ++ incidentContent .recurred r')] ++ rest)
    ∧ (∀ i r, findKey a.s cls o = some i → a.incident i = some r → r.state = .resolved →
      let r' : Incident :=
        { r with
          state := .raised, countdown := some (classRow a.s r.cls).reload, recurrences := min (r.recurrences + 1) 255
          recurred := false, ackTag := none, retention := none, cause := if present then .present else .absent
          effects := (classRow a.s r.cls).effects, mandatory := (classRow a.s r.cls).mandatory
          areas := areasOf a.s r.cls r.object r.areas }
      u.incident i = some r' ∧ (∀ j, j ≠ i → u.incident j = a.incident j)
      ∧ u.s.inc.resolved = a.s.inc.resolved.filter (fun j => decide (j ≠ i))
      ∧ u.s.inc.nextNumber = a.s.inc.nextNumber
      ∧ ∃ rest, u.out = a.out ++ [.report ([0] ++ incidentContent .reopened r')] ++ rest)
    ∧ (findKey a.s cls o = none → freeIncident a.s = none → a.s.inc.resolved = [] →
      u.s = { a.s with inc.refused := min (a.s.inc.refused + 1) 65535, inc.holdOff := true }
      ∧ u.out = a.out ++ (if a.s.inc.holdOff then [] else
          [.report ([4] ++ num1 cls.code.val ++ num1 o.kindCode ++ num2 o.ident
            ++ num2 (min (a.s.inc.refused + 1) 65535))])))
  ∧ ∀ (p : TpId) (a : Act),
    let u := holdStart p a
    let taken (t : Train) : Prop :=
      t.point = some p ∧ (t.state = .dwelling ∨ t.state = .waitPower ∨ t.state = .waitDead)
    (clockSet a.s = false → u = a)
    ∧ (clockSet a.s = true →
      (∀ j t, a.train j = some t → taken t →
        u.train j = some { t with state := .held, powerWait := none } ∧ (∀ w ∈ allWaits u.s.psv, w.train ≠ j))
      ∧ (∀ j t, a.train j = some t → ¬taken t → u.train j = some t)
      ∧ (∀ j, a.train j = none → u.train j = none)
      ∧ (∀ w, (∀ t, a.train w.train = some t → ¬taken t) → (w ∈ allWaits a.s.psv ↔ w ∈ allWaits u.s.psv))
      ∧ ((∀ j t, a.train j = some t → ¬taken t) → u.out = a.out)
      ∧ ∀ i t, a.train i = some t → taken t → (∀ j v, j < i → a.train j = some v → ¬taken v) →
        u.out = a.out
          ++ [.order (.hold (a.s.tst.line.points.get p).controller p (t.run.getD 0) 255 .incident)])

/-- What a cause-gone request does, by the table of R134: only a record whose cause is PRESENT takes it. RAISED, its cause
becomes GONE and it stays open; ACKNOWLEDGED, it enters RESOLVED with its retention running, at the tail of the resolved
order. In every other case nothing changes, and no other record ever does. A hold end at a timing point keeps a HELD train's
Td, or gives one held since arrival B raised to its last passage time plus the minimum dwell; a train that is due and has a
departure section is handed over, still HELD, unless its silence countdown has reached 0; any other is DWELLING again, with a REGULATION hold where it stands alone. That an
ACKNOWLEDGED record enters RESOLVED also after a refused INCIDENT_RESOLVE, where R141 says that it stays in its state, is the
model's reading: log entry 54. That a train which arrived while the clock was UNSET is given its Td so is the model's choice:
log entry 41. -/
def Obligations.CauseGoneByRecordState : Prop :=
  (∀ (a : Act) (cls : IncClass) (o : IncObject),
    (findKey a.s cls o = none → handleGone cls o a = a)
    ∧ ∀ i r, findKey a.s cls o = some i → a.incident i = some r →
      (r.cause ≠ .present ∨ r.state = .resolved → handleGone cls o a = a)
      ∧ (r.cause = .present → r.state = .raised →
        (handleGone cls o a).s = { a.s with inc.records := a.s.inc.records.set i (some { r with cause := .gone }) }
        ∧ (handleGone cls o a).out
          = a.out ++ [.report ([0] ++ incidentContent .causeGone { r with cause := .gone })])
      ∧ (r.cause = .present → r.state = .acknowledged →
        let u := handleGone cls o a
        let r' : Incident :=
          { r with
            cause := .gone, state := .resolved
            retention := some (cyclesAt (cycleLength a.s) (classRow a.s r.cls).retention 1) }
        u.incident i = some r' ∧ (∀ j, j ≠ i → u.incident j = a.incident j)
        ∧ u.s.inc.resolved = a.s.inc.resolved ++ [i]
        ∧ (∀ z, ∀ e ∈ (u.zone z).queue ++ (u.zone z).current.toList, e.source ≠ .incident r.number)
        ∧ ∃ rest, u.out = a.out ++ [.report ([0] ++ incidentContent .resolved r')] ++ rest))
  ∧ ∀ (p : TpId) (a : Act),
    let u := holdEnds [p] a
    let row := a.s.tst.line.points.get p
    let held (t : Train) : Prop := t.state = .held ∧ t.point = some p
    let td (b : Nat) (t : Train) : Option Nat :=
      match t.target, t.time with
      | some x, _ => some x
      | none, some last => some (max b (last + row.minDwell))
      | none, none => none
    (boundaryTime a.s = none → u = a)
    ∧ ∀ b, boundaryTime a.s = some b →
      u.s.psv = a.s.psv ∧ u.s.rrg.memory = a.s.rrg.memory ∧ u.requests = a.requests
      ∧ (∀ j t, a.train j = some t → ¬held t → u.train j = some t)
      ∧ (∀ j t x, a.train j = some t → held t → td b t = some x →
        (x ≤ b → row.depart.isSome → u.train j = some { t with target := some x })
        ∧ (b < x ∨ row.depart = none → u.train j = some { t with target := some x, state := .dwelling })
        ∧ (∀ sec, x ≤ b → row.depart = some sec → t.silence ≠ 0 →
            ∃ ws, u.handOvers = a.handOvers ++ [ws]
              ∧ ({ train := j, target := x, point := p, sec := sec } : Wait) ∈ ws)
        ∧ (b < x ∨ row.depart = none → (∀ i v, a.train i = some v → held v → i = j) →
            u.handOvers = a.handOvers
            ∧ u.out = a.out
              ++ [.order (.hold row.controller p (t.run.getD 0) (min ((x - b + 9) / 10) 254) .regulation)]))
      ∧ (∀ j t ws, a.train j = some t → t.silence = 0 → u.handOvers = a.handOvers ++ ws →
          ∀ v ∈ ws, ∀ w ∈ v, w.train ≠ j)
      ∧ ((∀ j t, a.train j = some t → ¬held t) → u = a)
      ∧ ∀ ws, u.handOvers = a.handOvers ++ [ws] → (ws.Pairwise fun x y => y.before x = false)

/-- An EQUIPMENT_STATUS writes the edge memory of every input-map entry of its station that its list reaches, and of no
other. It is forwarded, and what passages write of trains, the supply picture, the clock and the tables stand. Of the entries
it reaches, in their order, one of sensitivity RISE, FALL or BOTH raises its key without cause at an edge of that sense, and
none from UNKNOWN; one of sensitivity LEVEL raises it with cause PRESENT when asserted, unless it was asserted before and a
record holds the key, and reports the cause gone when it is released from ASSERTED with no other asserted LEVEL entry of the
key. -/
def Obligations.EdgeMemoryWritten : Prop :=
  (∀ (old : Table Edge 64) (src : Byte) (l : List Bool) (k : MapId) (a : Act),
    let v := actOnInput old src l k a
    ((∀ m, a.s.tst.line.inputMap.get k = some m → m.equipment = src → l[m.input.val]? = none) → v = a)
    ∧ ∀ (m : MapRow) (b : Bool), a.s.tst.line.inputMap.get k = some m → m.equipment = src → l[m.input.val]? = some b →
      let row := a.s.tst.line.inputs.get m.inputClass
      let o : IncObject := match m.object with
        | .platform p => .platform p
        | .equipment => .equipment src
      let rises := old.get k = .released ∧ b = true ∧ (row.sensitivity = .rise ∨ row.sensitivity = .both)
      let falls := old.get k = .asserted ∧ b = false ∧ (row.sensitivity = .fall ∨ row.sensitivity = .both)
      (row.sensitivity ≠ .level →
        (rises ∨ falls → v = a.request (.raise row.incClass o false)) ∧ (¬(rises ∨ falls) → v = a))
      ∧ (row.sensitivity = .level → b = true →
        (old.get k ≠ .asserted ∨ findKey a.s row.incClass o = none → v = a.request (.raise row.incClass o true))
        ∧ (old.get k = .asserted → findKey a.s row.incClass o ≠ none → v = a))
      ∧ (row.sensitivity = .level → b = false →
        let other := ∃ j n, j ≠ k ∧ a.s.inc.edges.get j = .asserted ∧ a.s.tst.line.inputMap.get j = some n
          ∧ (a.s.tst.line.inputs.get n.inputClass).sensitivity = .level
          ∧ (a.s.tst.line.inputs.get n.inputClass).incClass = row.incClass
          ∧ (match n.object with
            | .platform p => IncObject.platform p
            | .equipment => .equipment n.equipment) = o
        (old.get k = .asserted → ¬other → v = a.request (.gone row.incClass o))
        ∧ (old.get k ≠ .asserted ∨ other → v = a)))
  ∧ ∀ (s : State) (q : FieldPort) (h : Header) (inputs : List Byte) (l : List Bool),
    Accepted s q (equipmentTelegram h inputs) (.equipment l) → mode s ≠ .bare →
    ∃ u, exec (.equipmentStatus q h inputs) s = .next (settle u)
      ∧ u.inc = ((indices 64).foldl (fun a k => actOnInput s.inc.edges h.src l k a)
          (Act.start { remember (equipmentTelegram h inputs) s with inc.edges := u.inc.edges })).s.inc
      ∧ (∀ k m b, s.tst.line.inputMap.get k = some m → m.equipment = h.src → l[m.input.val]? = some b →
          u.inc.edges.get k = if b then .asserted else .released)
      ∧ (∀ k, (∀ m, s.tst.line.inputMap.get k = some m → m.equipment = h.src → l[m.input.val]? = none) →
          u.inc.edges.get k = s.inc.edges.get k)
      ∧ ((∀ k m, s.tst.line.inputMap.get k = some m → m.equipment ≠ h.src) → u.inc = s.inc ∧ u.asc = s.asc)
      ∧ sameTrains s u ∧ (∀ b, (u.psv.subs.get b).told = (s.psv.subs.get b).told) ∧ u.psv.secs = s.psv.secs
      ∧ u.lck = s.lck ∧ u.tst = s.tst
      ∧ Forwarded s u (min (warnLevel s) 64) (equipmentTelegram h inputs)

/-- INCIDENT_RAISE opens an OPERATOR incident of object LINE with its own number, at level 0, without cause, with the areas,
effects, flag and template of the command and the countdown of the reload table, and is answered with the number. It takes
the lowest free record, or with none free the one longest RESOLVED. A bad template, effects byte or flag is refused with
BAD_INDEX; with no record to take it is refused with FULL and counted. -/
def Obligations.OperatorIncidentOpened : Prop :=
  ∀ (s : State) (t : Telegram) (rest : List Telegram) (x y e n m f : Byte),
    TakenAs s t rest 0x08 [x, y, e, n, m, f] → mode s ≠ .bare →
    (((127 < m.toNat ∧ m.toNat ≠ 255) ∨ 7 < e.toNat ∨ 1 < f.toNat) →
      exec .incidentRaise s = .next (settle (replied t rest (.no .badIndex) s)))
    ∧ (¬((127 < m.toNat ∧ m.toNat ≠ 255) ∨ 7 < e.toNat ∨ 1 < f.toNat) → freeIncident s = none → s.inc.resolved = [] →
      exec .incidentRaise s
        = .next (settle (replied t rest (.no .full) { s with inc.refused := min (s.inc.refused + 1) 65535 })))
    ∧ ∀ i, ¬((127 < m.toNat ∧ m.toNat ≠ 255) ∨ 7 < e.toNat ∨ 1 < f.toNat) →
      (freeIncident s = some i ∨ (freeIncident s = none ∧ ∃ rest, s.inc.resolved = i :: rest)) →
      ∃ u r, exec .incidentRaise s = .next (settle u)
        ∧ Answered s u t (.okClamped (reloadTable (decide (f = 1)) n.toNat).2 (num2 s.inc.nextNumber))
        ∧ u.tiu.manage = rest ∧ u.inc.records.get i = some r
        ∧ r.number = s.inc.nextNumber ∧ r.cls = .operator ∧ r.object = .line s.inc.nextNumber
        ∧ r.areas.toNat = numOf [x, y]
        ∧ r.effects = { suspend := e.getLsbD 0, hold := e.getLsbD 1, announce := e.getLsbD 2 }
        ∧ r.mandatory = decide (f = 1) ∧ r.template.map (·.val) = (if m = 255 then none else some m.toNat)
        ∧ r.state = .raised ∧ r.cause = .absent ∧ r.level = 0
        ∧ r.countdown = (reloadTable (decide (f = 1)) n.toNat).1
        ∧ r.opened = boundaryTime s ∧ sameTrains s u ∧ u.lck = s.lck ∧ u.tst = s.tst

/-- INCIDENT_ACK and INCIDENT_RESOLVE: an unknown number is refused with BAD_INDEX, a RESOLVED record with STATE, and a
resolution while the cause is PRESENT with CAUSE_PRESENT. An acknowledgement sets the state, the tag and the countdown of
the reload table and clears the recurred flag, and resolves at once a record whose cause is GONE; a resolution takes the
record to RESOLVED and keeps its other fields. That it so keeps the acknowledging tag of a RAISED record that an escalation took
back from ACKNOWLEDGED, where R136 can be read to make the tag none, is the model's choice: log entry 50. -/
def Obligations.AcknowledgeAndResolve : Prop :=
  ∀ (s : State) (t : Telegram) (rest : List Telegram) (x y n : Byte), mode s ≠ .bare →
    (findNumber s (numOf [x, y]) = none →
      (TakenAs s t rest 0x09 [x, y, n] → exec .incidentAck s = .next (settle (replied t rest (.no .badIndex) s)))
      ∧ (TakenAs s t rest 0x0A [x, y] → exec .incidentResolve s = .next (settle (replied t rest (.no .badIndex) s))))
    ∧ ∀ i r, findNumber s (numOf [x, y]) = some i → s.inc.records.get i = some r →
      let c := reloadTable r.mandatory n.toNat
      let r' : Incident :=
        { r with state := .acknowledged, recurred := false, ackTag := some (tagOf t), countdown := c.1 }
      let kept := some (cyclesAt (cycleLength s) (classRow s r.cls).retention 1)
      (r.state = .resolved →
        (TakenAs s t rest 0x09 [x, y, n] → exec .incidentAck s = .next (settle (replied t rest (.no .state) s)))
        ∧ (TakenAs s t rest 0x0A [x, y] → exec .incidentResolve s = .next (settle (replied t rest (.no .state) s))))
      ∧ (TakenAs s t rest 0x09 [x, y, n] → r.state ≠ .resolved → r.cause ≠ .gone →
        exec .incidentAck s
          = .next (settle (enterMade
              (replied t rest (.okClamped c.2 (num2 (numOf [x, y]) ++ [1] ++ num1 (c.1.getD 0)))
                { s with inc.records := s.inc.records.set i (some r') })
              [.report ([0] ++ incidentContent .acknowledged r')])))
      ∧ (TakenAs s t rest 0x09 [x, y, n] → r.state ≠ .resolved → r.cause = .gone →
        ∃ u, exec .incidentAck s = .next (settle u)
          ∧ Answered s u t (.okClamped c.2 (num2 (numOf [x, y]) ++ [2] ++ num1 (c.1.getD 0))) ∧ u.tiu.manage = rest
          ∧ u.inc.records.get i = some { r' with state := .resolved, retention := kept } ∧ i ∈ u.inc.resolved
          ∧ sameTrains s u ∧ u.lck = s.lck ∧ u.tst = s.tst)
      ∧ (TakenAs s t rest 0x0A [x, y] → r.state ≠ .resolved → r.cause = .present →
        exec .incidentResolve s = .next (settle (replied t rest (.no .causePresent) s)))
      ∧ (TakenAs s t rest 0x0A [x, y] → r.state ≠ .resolved → r.cause ≠ .present →
        ∃ u, exec .incidentResolve s = .next (settle u) ∧ Answered s u t (.ok (num2 (numOf [x, y])))
          ∧ u.tiu.manage = rest
          ∧ u.inc.records.get i = some { r with state := .resolved, retention := kept } ∧ i ∈ u.inc.resolved
          ∧ sameTrains s u ∧ u.lck = s.lck ∧ u.tst = s.tst)

/-- An escalation tick reloads the prescaler, clears the table-full hold-off and lowers by one the countdown of every open
record that has one; a countdown that reaches 0 escalates its record: level up by one and at most 3, countdown reloaded
from its class, RAISED again. Trains, supply, clock and tables stand. That the row is the tick alone, and not its whole
boundary, is the model's choice: log entry 11. -/
def Obligations.TickReachesEveryRecord : Prop :=
  ∀ s : State, s.inReset = false → s.lck.lock ≠ .unset → s.inc.prescaler = 1 →
    ∃ u, exec .escalationTick s = .next (settle u)
      ∧ u.inc.prescaler = cyclesAt (cycleLength s) (params s).tick 4 ∧ u.inc.holdOff = false
      ∧ (∀ i, u.inc.records.get i = (s.inc.records.get i).map fun r => r.ticked (classRow s r.cls).reload)
      ∧ u.inc.resolved = s.inc.resolved ∧ u.inc.nextNumber = s.inc.nextNumber ∧ u.inc.refused = s.inc.refused
      ∧ u.inc.edges = s.inc.edges ∧ u.inc.underHold = s.inc.underHold
      ∧ u.rrg = s.rrg ∧ u.psv = s.psv ∧ u.lck = s.lck ∧ u.tst = s.tst ∧ Reported s u

/-- The escalation of one open record: level, countdown and state as at a tick, and an ESCALATION report with the record's
new values, its state before, and the template and number of zones of its announcement. A retention countdown that runs
out frees its record, and FREED is reported. That each row is the one expiry alone is the model's choice: log entry 11. -/
def Obligations.IncidentCountdownsExpire : Prop :=
  ∀ (s : State) (i : IncId) (r : Incident), s.inReset = false → s.lck.lock ≠ .unset → s.inc.records.get i = some r →
    (r.state ≠ .resolved → r.countdown = some 1 →
      let r' : Incident :=
        { r with level := min (r.level + 1) 3, countdown := some (classRow s r.cls).reload, state := .raised }
      ∃ u, exec (.escalation i) s = .next (settle u)
        ∧ u.inc = { s.inc with records := s.inc.records.set i (some r') }
        ∧ u.rrg = s.rrg ∧ u.psv = s.psv ∧ u.lck = s.lck ∧ u.tst = s.tst
        ∧ u.tiu.room = s.tiu.room ++ if s.tiu.room.length < 64 then
            [reportItem s.address ([1] ++ num2 r.number ++ num1 r.cls.code.val ++ num1 r.object.kindCode
              ++ num2 r.object.ident ++ num2 r.areas.toNat ++ [0] ++ num1 r'.level ++ num1 r.state.code
              ++ num1 (classRow s r.cls).reload
              ++ (match (if r.effects.announce then chosenTemplate s r' else none) with
                | some m => num1 m.val ++ num1 (reachedZones s r').length
                | none => [255, 0]))]
          else [])
    ∧ (r.retention = some 1 →
      exec (.retentionExpiry i) s
        = .next (settle (enterMade
            { s with
              inc.records := s.inc.records.set i none
              inc.resolved := s.inc.resolved.filter fun j => decide (j ≠ i) }
            [.report ([0] ++ incidentContent .freed r)])))

/-! ## Announcements -/

/-- Where an entry handed to a zone goes, by the first case that applies: discarded by an OFF zone; renewed in place where its
key is current or queued, with the new parameters, repeats and expiry and all else kept; joined below 8 entries, with the
priority and interval of its template; and in a full queue refused, unless its priority is strictly higher than the last
entry's, which it then evicts. After a joining, or the renewal of a queued entry, an OPEN zone issues its first eligible entry;
an EMERGENCY entry that is eligible preempts a zone in GUARD, or one that plays a lesser entry: the first eligible entry is
issued, its ANNOUNCE says preempt and no CUT is sent, and the entry cut returns eligible with its repeats, unless expired. In
every other case the zone stands. Other zones and everything outside the ASC stand. -/
def Obligations.PlacingByFirstCase : Prop :=
  ∀ (z : ZoneId) (n : NewEntry) (a : Act),
    let q := a.zone z
    let u := placeEntry z n a
    let row := a.s.tst.line.templates.get n.template
    let e : Entry :=
      { template := n.template, priority := row.priority, source := n.source, params := n.params, repeats := n.repeats
        interval := cyclesAt (cycleLength a.s) (n.interval.getD row.interval) 4, eligible := 0, expiry := n.expiry
        seq := q.arrivals }
    (∀ y, y ≠ z → u.1.zone y = a.zone y)
    ∧ { u.1.s with asc := a.s.asc } = a.s
    ∧ (q.state = .off → u.2 = .discarded ∧ u.1.zone z = { q with refused := min (q.refused + 1) 65535 } ∧ u.1.out = a.out)
    ∧ (q.state ≠ .off →
      (∀ c, q.current = some c → c.key = n.key →
        u.2 = .renewed ∧ u.1.out = a.out
        ∧ u.1.zone z = { q with
            current := some { c with params := n.params, repeats := n.repeats, expiry := n.expiry } })
      ∧ ((∀ c, q.current = some c → c.key ≠ n.key) →
        (∀ x, q.queue.find? (fun y => decide (y.key = n.key)) = some x → u.2 = .renewed
          ∧ testFollows z
              { q with
                queue := q.queue.map fun y =>
                  if y.key = n.key then { y with params := n.params, repeats := n.repeats, expiry := n.expiry } else y }
              x.priority x.eligible a u.1)
        ∧ ((∀ x ∈ q.queue, x.key ≠ n.key) → q.queue.length < 8 →
            u.2 = .joined
            ∧ testFollows z (countArrival { q with queue := insertEntry e q.queue }) e.priority 0 a u.1)
        ∧ (∀ front x, (∀ x ∈ q.queue, x.key ≠ n.key) → 8 ≤ q.queue.length → q.queue = front ++ [x] →
            (e.priority.code < x.priority.code →
              u.2 = .evicted
              ∧ testFollows z (countArrival { q with queue := insertEntry e front, refused := min (q.refused + 1) 65535 })
                  e.priority 0 a u.1)
            ∧ (x.priority.code ≤ e.priority.code →
              u.2 = .refused ∧ u.1.zone z = { q with refused := min (q.refused + 1) 65535 } ∧ u.1.out = a.out))))

/-- ANNOUNCE hands one entry to every zone of its set, with the template, the console source, the parameters, and the
repeats, interval and expiry clamped, and lists the outcomes; a set that is empty or names a zone above 23, a template
above 127 or more than 4 parameters is refused with BAD_INDEX, and BARE mode with MODE. -/
def Obligations.AnnounceHandsEntries : Prop :=
  ∀ (s : State) (t : Telegram) (rest : List Telegram) (z3 z2 z1 z0 m i1 i0 r v1 v0 e1 e0 c : Byte) (ps : List Byte),
    TakenAs s t rest 0x0C ([z3, z2, z1, z0, m, i1, i0, r, v1, v0, e1, e0, c] ++ ps) → ps.length = 2 * c.toNat →
    let set := numOf [z3, z2, z1, z0]
    let bad := 127 < m.toNat ∨ set = 0 ∨ 2 ^ 24 ≤ set ∨ 4 < c.toNat
    (mode s = .bare → exec .announce s = .next (settle (replied t rest (.no .mode) s)))
    ∧ (mode s ≠ .bare → bad → exec .announce s = .next (settle (replied t rest (.no .badIndex) s)))
    ∧ (∀ tmpl : TmplId, mode s ≠ .bare → ¬bad → tmpl.val = m.toNat →
      let interval := numOf [v1, v0]
      let expiry := min (numOf [e1, e0]) 36000
      let e : NewEntry :=
        { template := tmpl, source := .console (numOf [i1, i0]), params := pairs ps
          repeats := max 1 (min 8 r.toNat)
          interval := if interval = 65535 then none else some (min interval 6000)
          expiry := if expiry = 0 then none else some (cyclesAt (cycleLength s) expiry 1) }
      let clamped := decide (r.toNat = 0 ∨ 8 < r.toNat ∨ (6000 < interval ∧ interval ≠ 65535) ∨ 36000 < numOf [e1, e0])
      let x := placeAll e ((indices 24).filter fun z => set.testBit z.val) (Act.start { s with tiu.manage := rest })
      exec .announce s
        = .next (settle (enterMade
            (replied t rest (.okClamped clamped (num2 x.2.length ++ x.2.flatten)) x.1.s) x.1.out)))

/-- The current entry ends playing on a PA_DONE from its zone's controller with the current tag, and on the play timeout,
which counts a missing completion: a repeat that is left returns to the queue with its interval to wait, unless the entry has
expired, and the zone enters GUARD with a fresh countdown. Entry countdowns that run out at the timeout's boundary do so first,
and a queued entry that expires then leaves: what the single row takes with it is the model's choice, log entry 11. Any other
PA_DONE changes no zone. Nothing outside the zone changes but what
receiving changes. -/
def Obligations.PlayingEnds : Prop :=
  ∀ (s : State) (z : ZoneId),
    let q := s.asc.zones.get z
    let guard := cyclesAt (cycleLength s) (s.tst.line.zones.get z).guard 1
    (∀ (p : FieldPort) (h : Header) (zone tag : Byte) (k : Nat),
      Accepted s p (doneTelegram h zone tag) (.done z k) → mode s ≠ .bare →
      ∃ u, exec (.paDone p h zone tag) s = .next (settle u)
        ∧ (∀ e, h.src = (s.tst.line.zones.get z).controller → q.state = .playing → q.tag = some k → q.current = some e →
            u.asc.zones = s.asc.zones.set z (q.ended e guard))
        ∧ (¬(h.src = (s.tst.line.zones.get z).controller ∧ q.state = .playing ∧ q.tag = some k) → u.asc = s.asc)
        ∧ u.rrg = s.rrg ∧ u.psv = s.psv ∧ u.inc = s.inc ∧ u.lck = s.lck ∧ u.tst = s.tst ∧ u.tiu.orders = s.tiu.orders
        ∧ Forwarded s u (min (warnLevel s) 64) (doneTelegram h zone tag))
    ∧ ∀ e, s.inReset = false → s.lck.lock ≠ .unset → q.state = .playing → q.play = some 1 → q.current = some e →
        exec (.playTimeoutExpiry z) s
          = .next (settle { s with
              asc.zones := s.asc.zones.set z
                (Zone.ended { q with queue := lastCounts q.queue, missing := min (q.missing + 1) 65535 }
                  { e with expiry := if e.expiry = some 1 then some 0 else e.expiry } guard) })

/-- A guard countdown that runs out opens its zone; an eligible countdown that runs out makes its entry eligible; and the issue
test follows in an OPEN zone. The entry countdowns that run out with either do so first, so that every entry eligible from then
on is tested, in queue order, and one that expires then is removed and not issued: what the single row takes with it is the
model's choice, log entry 11. An entry whose expiry runs out leaves the queue uncounted, or,
playing, plays on and will not return. -/
def Obligations.ZoneCountdownsExpire : Prop :=
  ∀ (s : State) (z : ZoneId) (k : EntryKey), s.inReset = false → s.lck.lock ≠ .unset →
    let q := s.asc.zones.get z
    let q' : Zone :=
      { q with
        queue := lastCounts q.queue
        current := q.current.map fun e => { e with expiry := if e.expiry = some 1 then some 0 else e.expiry } }
    (q.state = .guarding → q.guard = some 1 →
      exec (.guardExpiry z) s = .next (settle (openAndTest z { q' with state := .opened, guard := none } s)))
    ∧ (∀ e ∈ q.queue, ZoneLaw q → e.key = k → e.eligible = 1 →
      (q.state = .opened → exec (.eligibleCountdownExpiry z k) s = .next (settle (openAndTest z q' s)))
      ∧ (q.state ≠ .opened →
          exec (.eligibleCountdownExpiry z k) s = .next (settle { s with asc.zones := s.asc.zones.set z q' })))
    ∧ (∀ e ∈ q.queue, ZoneLaw q → e.key = k → e.expiry = some 1 →
      exec (.entryExpiry z k) s
        = .next (settle { s with
            asc.zones := s.asc.zones.set z { q with queue := q.queue.filter fun e => decide (e.key ≠ k) } }))
    ∧ (∀ e, q.current = some e → ZoneLaw q → e.key = k → e.expiry = some 1 →
      exec (.entryExpiry z k) s
        = .next (settle { s with
            asc.zones := s.asc.zones.set z { q with current := some { e with expiry := some 0 } } }))

/-- ZONE_SET by the state found: to OFF the zone is emptied, to BARRED a current entry returns, with a CUT for what was
playing; to OPEN an OFF or BARRED zone opens and makes the issue test, and any other stands. The reply gives the states
before and after. A zone above 23 or another state is refused with BAD_INDEX, and in BARE mode with MODE. A CUT that meets
the unsent ANNOUNCE it answers leaves neither. An OFF zone holds no entry and discards every one handed to it; a BARRED zone
collects, and at a boundary its entries' countdowns fall and the expired are dropped, but it issues nothing. -/
def Obligations.ZoneSetByState : Prop :=
  (∀ (s : State) (t : Telegram) (rest : List Telegram) (x y : Byte), TakenAs s t rest 0x0B [x, y] →
    (mode s = .bare → exec .zoneSet s = .next (settle (replied t rest (.no .mode) s)))
    ∧ (mode s ≠ .bare → (23 < x.toNat ∨ 2 < y.toNat) →
        exec .zoneSet s = .next (settle (replied t rest (.no .badIndex) s)))
    ∧ ∀ z : ZoneId, mode s ≠ .bare → z.val = x.toNat →
      let q := s.asc.zones.get z
      let orders := match q.tag with
        | some k => if q.state = .playing then
            offerOrder (.cut (s.tst.line.zones.get z).controller z k) s.tiu.orders else s.tiu.orders
        | none => s.tiu.orders
      let still (q : Zone) : Zone := { q with current := none, tag := none, play := none, guard := none }
      (y = 0 →
        exec .zoneSet s
          = .next (settle (replied t rest (.ok (num1 q.state.code ++ [0]))
              { s with asc.zones := s.asc.zones.set z (still { q with state := .off, queue := [] })
                       tiu.orders := orders })))
      ∧ (y = 1 → q.state ≠ .barred →
        exec .zoneSet s
          = .next (settle (replied t rest (.ok (num1 q.state.code ++ [1]))
              { s with
                asc.zones := s.asc.zones.set z
                  { still (match q.current with
                      | some e => returnEntry { e with eligible := 0 } q
                      | none => q) with state := .barred }
                tiu.orders := orders })))
      ∧ (y = 1 → q.state = .barred → exec .zoneSet s = .next (settle (replied t rest (.ok [1, 1]) s)))
      ∧ (y = 2 → (q.state = .off ∨ q.state = .barred) →
        let u := openAndTest z { q with state := .opened } s
        exec .zoneSet s
          = .next (settle (replied t rest (.ok (num1 q.state.code ++ num1 (u.asc.zones.get z).state.code)) u)))
      ∧ (y = 2 → q.state ≠ .off → q.state ≠ .barred →
        exec .zoneSet s
          = .next (settle (replied t rest (.ok (num1 q.state.code ++ num1 q.state.code)) s))))
  ∧ (∀ (before after : List Order) (d d' : Byte) (z : ZoneId) (k : Nat) (m : TmplId) (p : Bool) (ps : List Nat),
      (∀ o ∈ before, o.zone? ≠ some z) →
      offerOrder (.cut d' z k) (before ++ .announce d z k m p ps none :: after) = before ++ after)
  ∧ (∀ q : Zone, ZoneLaw q → q.state = .off → q.queue = [] ∧ q.current = none)
  ∧ ∀ (z : ZoneId) (n : NewEntry) (a : Act),
    let q := a.zone z
    let u := placeEntry z n a
    (q.state = .off → u.2 = .discarded ∧ (u.1.zone z).queue = q.queue ∧ u.1.out = a.out)
    ∧ (q.state = .barred →
      u.1.out = a.out ∧ (u.1.zone z).state = .barred
      ∧ (q.current.map Entry.key ≠ some n.key → (∀ x ∈ q.queue, x.key ≠ n.key) → q.queue.length < 8 →
          u.2 = .joined ∧ u.1.zone z = countArrival { q with queue := insertEntry (makeEntry a.s n q.arrivals) q.queue })
      ∧ (zoneBoundary z a).out = a.out
      ∧ (zoneBoundary z a).zone z = { q with
          queue := (q.queue.map fun e => { e with eligible := e.eligible - 1, expiry := e.expiry.map (· - 1) }).filter
            fun e => decide (e.expiry ≠ some 0)
          current := q.current.map fun e => { e with expiry := e.expiry.map (· - 1) } })

/-! ## Loads, profiles and edits -/

/-- LOAD_OPEN by the tests of R44 in their order, and what it opens; LOAD_BLOCK without a load, out of order, in the middle
of a load and with a wrong check at its end; and LOAD_ABORT. -/
def Obligations.LoadsOpenAndClose : Prop :=
  ∀ (s : State) (t : Telegram) (rest : List Telegram),
    (∀ x c1 c0 k1 k0 : Byte, TakenAs s t rest 0x01 [x, c1, c0, k1, k0] →
      let count := numOf [c1, c0]
      let load (target : LoadTarget) : Load :=
        { target := target, remaining := count, expected := 0, check := BitVec.ofNat 16 (numOf [k1, k0]), image := [] }
      (2 < x.toNat → x ≠ 255 → exec .loadOpen s = .next (settle (replied t rest (.no .badIndex) s)))
      ∧ (x = 255 →
        (mode s ≠ .bare → exec .loadOpen s = .next (settle (replied t rest (.no .mode) s)))
        ∧ (mode s = .bare → s.tst.load ≠ none → exec .loadOpen s = .next (settle (replied t rest (.no .busy) s)))
        ∧ (mode s = .bare → s.tst.load = none → (count = 0 ∨ 1024 < count) →
            exec .loadOpen s = .next (settle (replied t rest (.no .badIndex) s)))
        ∧ (mode s = .bare → s.tst.load = none → 1 ≤ count → count ≤ 1024 →
            exec .loadOpen s
              = .next (settle (replied t rest (.ok [])
                  { s with tst.lineState := .loading, tst.load := some (load .line) }))))
      ∧ ∀ i : SlotId, i.val = x.toNat →
        (mode s = .bare → exec .loadOpen s = .next (settle (replied t rest (.no .mode) s)))
        ∧ (mode s ≠ .bare → s.tst.load ≠ none → exec .loadOpen s = .next (settle (replied t rest (.no .busy) s)))
        ∧ (mode s ≠ .bare → s.tst.load = none → ((s.tst.slots.get i).state = .active ∨ s.tst.pendingSlot = some i) →
            exec .loadOpen s = .next (settle (replied t rest (.no .state) s)))
        ∧ (mode s ≠ .bare → s.tst.load = none → ¬((s.tst.slots.get i).state = .active ∨ s.tst.pendingSlot = some i) →
            (count = 0 ∨ 1024 < count) → exec .loadOpen s = .next (settle (replied t rest (.no .badIndex) s)))
        ∧ (mode s ≠ .bare → s.tst.load = none → ¬((s.tst.slots.get i).state = .active ∨ s.tst.pendingSlot = some i) →
            1 ≤ count → count ≤ 1024 →
            exec .loadOpen s
              = .next (settle (replied t rest (.ok [])
                  { s with
                    tst.slots := s.tst.slots.set i { state := .loading, profile := none }
                    tst.load := some (load (.slot i)) }))))
    ∧ (∀ (x y : Byte) (bytes : List Byte), TakenAs s t rest 0x02 ([x, y] ++ bytes) → bytes.length ≤ 232 →
      (s.tst.load = none → exec .loadBlock s = .next (settle (replied t rest (.no .state) s)))
      ∧ ∀ l, s.tst.load = some l →
        let failed : State := match l.target with
          | .line => { s with tst.lineState := .failed, tst.load := none }
          | .slot i => { s with tst.slots := s.tst.slots.set i { state := .failed, profile := none }, tst.load := none }
        let taken : Load :=
          { l with remaining := l.remaining - 1, expected := l.expected + 1, image := l.image ++ bytes }
        (numOf [x, y] ≠ l.expected →
          exec .loadBlock s
            = .next (settle (replied t rest { result := .refused, reason := .sequence, data := num2 l.expected } failed)))
        ∧ (numOf [x, y] = l.expected → 2 ≤ l.remaining →
          exec .loadBlock s
            = .next (settle (replied t rest (.ok (num2 (l.remaining - 1)))
                { s with tst.load := some taken })))
        ∧ (numOf [x, y] = l.expected → l.remaining = 1 → crc16 (l.image ++ bytes) ≠ l.check →
          exec .loadBlock s
            = .next (settle (replied t rest
                { result := .refused, reason := .check, data := num2 (crc16 (l.image ++ bytes)).toNat } failed))))
    ∧ (TakenAs s t rest 0x03 [] →
      (s.tst.load = none → exec .loadAbort s = .next (settle (replied t rest (.no .state) s)))
      ∧ ∀ l, s.tst.load = some l →
        exec .loadAbort s
          = .next (settle (replied t rest (.ok []) (match l.target with
            | .line => { s with tst.lineState := .invalid, tst.load := none }
            | .slot i =>
              { s with tst.slots := s.tst.slots.set i { state := .empty, profile := none }, tst.load := none }))))

/-- The last block of an image whose check matches and whose content is valid puts it in force: a LINE image replaces the
tables and takes the part from BARE to PREPARED, each zone in its initial state, and CLOCK_LOSS is raised of a clock that is
UNLOCKED; a profile image makes its slot READY. The reply counts the clamps. A content fault of either image fails the load
and gives the first offending record, or, where no record offends, a free value (log entry 1). The sizes of the ordinal, the
offset and the clamp count are the model's choice: log entry 21. That an L2 below 50 beside an L1 above 50
counts two clamps is the model's choice: log entry 58. That a first run time above its range counts one is its reading: log
entry 25. -/
def Obligations.ImagesPutInForce : Prop :=
  ∀ (s : State) (t : Telegram) (rest : List Telegram) (x y : Byte) (bytes : List Byte) (l : Load),
    TakenAs s t rest 0x02 ([x, y] ++ bytes) → bytes.length ≤ 232 → s.tst.load = some l → numOf [x, y] = l.expected →
    l.remaining = 1 → crc16 (l.image ++ bytes) = l.check →
    let clampReply (n : Nat) : Reply := .okClamped (decide (n ≠ 0)) (if n = 0 then [] else num2 n)
    (∀ tables n, l.target = .line → validateLine (l.image ++ bytes) = .valid tables n → activeSlot s = none →
      ∃ u, exec .loadBlock s = .next (settle u) ∧ Answered s u t (clampReply n) ∧ u.tiu.manage = rest
        ∧ u.tst = { s.tst with lineState := .valid, line := tables, load := none } ∧ mode u = .prepared
        ∧ (s.lck.lock ≠ .unlocked → ∀ z, u.asc.zones.get z
            = Zone.start (if (tables.zones.get z).opens then .opened else .off))
        ∧ (∀ k, u.inc.edges.get k = .unknown) ∧ pictureStands u
        ∧ (∀ b, (u.psv.subs.get b).state = .unknown) ∧ u.lck = s.lck
        ∧ (s.lck.lock = .unlocked → NoneRefused s u → CausePresent u .clockLoss (.line 0))
        ∧ (s.lck.lock ≠ .unlocked → u.inc.records = s.inc.records))
    ∧ (∀ p n i, l.target = .slot i → validateProfile l.check (l.image ++ bytes) = .valid p n →
      exec .loadBlock s
        = .next (settle (replied t rest (clampReply n)
            { s with tst.slots := s.tst.slots.set i { state := .ready, profile := some p }, tst.load := none })))
    ∧ (∀ ordinal offset, l.target = .line → validateLine (l.image ++ bytes) = .fault (some (ordinal, offset)) →
      exec .loadBlock s
        = .next (settle (replied t rest
            { result := .refused, reason := .content, data := num4 ordinal ++ num4 offset }
            { s with tst.lineState := .failed, tst.load := none })))
    ∧ ∀ i : SlotId, l.target = .slot i →
      let failed : State :=
        { s with tst.slots := s.tst.slots.set i { state := .failed, profile := none }, tst.load := none }
      (∀ ordinal offset, validateProfile l.check (l.image ++ bytes) = .fault (some (ordinal, offset)) →
        exec .loadBlock s
          = .next (settle (replied t rest
              { result := .refused, reason := .content, data := num4 ordinal ++ num4 offset } failed)))
      ∧ (validateProfile l.check (l.image ++ bytes) = .fault none →
        exec .loadBlock s
          = .next (settle (replied t rest
              { result := .refused, reason := .content
                data := num4 (Config.freePosition s.freeCount).1 ++ num4 (Config.freePosition s.freeCount).2 }
              { failed with freeCount := s.freeCount + 1 })))

/-- Every valid LINE image gives tables each of whose quantities stands in its range, whose substations have L2 at or above L1,
whose used sections are fed by used substations with feed B other than feed A, and whose departure sections are used. -/
def Obligations.ValidImagesKeepRanges : Prop :=
  ∀ (image : List Byte) (l : LineTables) (n : Nat), validateLine image = .valid l n →
    (100 ≤ l.defaults.tc ∧ l.defaults.tc ≤ 500 ∧ 16 ≤ l.defaults.w ∧ l.defaults.w ≤ 56
      ∧ 300 ≤ l.defaults.stall ∧ l.defaults.stall ≤ 6000 ∧ 300 ≤ l.defaults.hn ∧ l.defaults.hn ≤ 3000)
    ∧ (∀ p, (l.points.get p).minDwell ≤ 600 ∧ (l.points.get p).dwell ≤ 1200 ∧ (l.points.get p).accel ≤ 1200
        ∧ ∀ x, (l.points.get p).depart = some x → (l.secs.get x).used = true)
    ∧ (∀ b, 1 ≤ (l.subs.get b).cap ∧ (l.subs.get b).cap ≤ 6 ∧ 50 ≤ (l.subs.get b).l1 ∧ (l.subs.get b).l1 ≤ 200
        ∧ (l.subs.get b).l1 ≤ (l.subs.get b).l2 ∧ (l.subs.get b).l2 ≤ 255
        ∧ (l.subs.get b).telemetry ≤ 600 ∧ (l.subs.get b).window ≤ 600)
    ∧ (∀ z, (l.zones.get z).guard ≤ 600)
    ∧ (∀ x, (l.secs.get x).used = true →
        (l.subs.get (l.secs.get x).subA).used = true
        ∧ (∀ b, (l.secs.get x).subB = some b → (l.subs.get b).used = true)
        ∧ ¬((l.secs.get x).subB = some (l.secs.get x).subA ∧ (l.secs.get x).feederB = (l.secs.get x).feederA))
    ∧ (∀ c, 1 ≤ (l.classes.get c).reload ∧ (l.classes.get c).reload ≤ 63
        ∧ (l.classes.get c).retention ≤ 36000 ∧ 1 ≤ (l.classes.get c).repeats ∧ (l.classes.get c).repeats ≤ 8)
    ∧ ∀ m, (l.templates.get m).params ≤ 4 ∧ (l.templates.get m).duration ≤ 1200 ∧ (l.templates.get m).interval ≤ 6000
      ∧ 1 ≤ (l.templates.get m).repeats ∧ (l.templates.get m).repeats ≤ 8

/-- PROFILE_ACTIVATE makes a READY slot pending; while the clock is UNSET it makes it ACTIVE at once, the former ACTIVE slot
READY, and the mode SERVICE; the PROFILE report with the slot, the former one, the profile's name, check and run count then
ends the queue, behind the INCIDENT reports of the rebinding. A slot above 2 is refused with BAD_INDEX, one that is not READY with STATE. -/
def Obligations.ProfileActivated : Prop :=
  ∀ (s : State) (t : Telegram) (rest : List Telegram) (x : Byte), TakenAs s t rest 0x04 [x] → mode s ≠ .bare →
    (2 < x.toNat → exec .profileActivate s = .next (settle (replied t rest (.no .badIndex) s)))
    ∧ ∀ i : SlotId, i.val = x.toNat →
      ((s.tst.slots.get i).state ≠ .ready → exec .profileActivate s = .next (settle (replied t rest (.no .state) s)))
      ∧ ((s.tst.slots.get i).state = .ready → s.lck.lock ≠ .unset →
        exec .profileActivate s = .next (settle (replied t rest (.ok []) { s with tst.pendingSlot := some i })))
      ∧ ((s.tst.slots.get i).state = .ready → s.lck.lock = .unset →
        ∃ u, exec .profileActivate s = .next (settle u) ∧ Answered s u t (.ok []) ∧ u.tiu.manage = rest
          ∧ u.tst.pendingSlot = none ∧ u.tst.slots.get i = { s.tst.slots.get i with state := .active }
          ∧ (∀ j, j ≠ i → u.tst.slots.get j
              = { s.tst.slots.get j with
                  state := if (s.tst.slots.get j).state = .active then .ready else (s.tst.slots.get j).state })
          ∧ mode u = .service
          ∧ (∀ j r, u.rrg.trains.get j = some r → r.step = none ∨ r.run = none)
          ∧ ∀ p, (s.tst.slots.get i).profile = some p →
            ∃ more : List RoomItem, (∀ x ∈ more, x.kind = .report ∧ x.telegram.payload.head? = some 0) ∧
              let before := s.tiu.room ++ [{ kind := .reply, telegram := replyTo s.address t (.ok []) }] ++ more
              u.tiu.room = before
                ++ if before.length < 64 then [reportItem s.address (profileTold s i p)] else [])

/-- EDIT_HOLD, EDIT_RELEASE and EDIT: a group opens, gathers up to 32 edits and, while the clock is not UNSET, closes to the
tail of up to 4 waiting ones; an edit without an open group then waits as a group of one. A quantity is clamped and so
answered; a code, a reference, an address or an area set that is none of its field's is refused with BAD_INDEX, and joins as
sent otherwise. That an address above 255, an area set above 65535 and a feeder above 7 are refused so, where R52 speaks of
references and enumerations, is the model's choice: log entry 19, and for the feeder log entry 40. That the release of an empty
group is answered DONE however many groups wait, also 4, where R53 answers FULL too, is the model's choice: log entry 36. That
the answer carries no data is the model's choice: log entry 47. Which field has which number is read from Table 3-9: log entry
20. -/
def Obligations.EditsGatherInGroups : Prop :=
  ∀ (s : State) (t : Telegram) (rest : List Telegram), mode s ≠ .bare →
    (TakenAs s t rest 0x05 [] →
      (s.tst.openGroup ≠ none → exec .editHold s = .next (settle (replied t rest (.no .busy) s)))
      ∧ (s.tst.openGroup = none →
          exec .editHold s = .next (settle (replied t rest (.ok []) { s with tst.openGroup := some [] }))))
    ∧ (TakenAs s t rest 0x07 [] →
      (s.tst.openGroup = none → exec .editRelease s = .next (settle (replied t rest (.no .state) s)))
      ∧ (s.tst.openGroup = some [] →
          exec .editRelease s = .next (settle (replied t rest (.ok []) { s with tst.openGroup := none })))
      ∧ ∀ g, s.tst.openGroup = some g → g ≠ [] →
        (4 ≤ s.tst.waiting.length → exec .editRelease s = .next (settle (replied t rest (.no .full) s)))
        ∧ (s.tst.waiting.length < 4 → s.lck.lock ≠ .unset →
            exec .editRelease s
              = .next (settle (replied t rest (.ok [])
                  { s with tst.openGroup := none, tst.waiting := s.tst.waiting ++ [g] }))))
    ∧ ∀ (a b c v3 v2 v1 v0 : Byte), TakenAs s t rest 0x06 [a, b, c, v3, v2, v1, v0] →
      (EditTable.ofCode a.toNat = none → exec .edit s = .next (settle (replied t rest (.no .badIndex) s)))
      ∧ ∀ tab, EditTable.ofCode a.toNat = some tab →
        ((tab.count ≤ b.toNat ∨ fieldKind tab c.toNat = none) →
          exec .edit s = .next (settle (replied t rest (.no .badIndex) s)))
        ∧ ∀ kind, b.toNat < tab.count → fieldKind tab c.toNat = some kind →
          let value := numOf [v3, v2, v1, v0]
          (tab = .profile → mode s = .prepared → exec .edit s = .next (settle (replied t rest (.no .state) s)))
          ∧ (¬(tab = .profile ∧ mode s = .prepared) → ¬kind.admits s.tst.line value →
              exec .edit s = .next (settle (replied t rest (.no .badIndex) s)))
          ∧ (¬(tab = .profile ∧ mode s = .prepared) → kind.admits s.tst.line value →
            let e : HeldEdit :=
              { table := tab, index := b.toNat, field := c.toNat, value := kind.written value
                slot := if tab = .profile then activeSlot s else none }
            let done : Reply := .okClamped (decide (kind.written value ≠ value)) []
            (∀ g, s.tst.openGroup = some g → g.length < 32 →
              exec .edit s = .next (settle (replied t rest done { s with tst.openGroup := some (g ++ [e]) })))
            ∧ (∀ g, s.tst.openGroup = some g → 32 ≤ g.length →
              exec .edit s = .next (settle (replied t rest (.no .full) s)))
            ∧ (s.tst.openGroup = none → s.tst.waiting.length < 4 → s.lck.lock ≠ .unset →
              exec .edit s = .next (settle (replied t rest done { s with tst.waiting := s.tst.waiting ++ [[e]] })))
            ∧ (s.tst.openGroup = none → 4 ≤ s.tst.waiting.length →
              exec .edit s = .next (settle (replied t rest (.no .full) s))))

/-- A group that has been written leaves every substation with L2 at or above L1 and every used section with feed B other
than feed A; it makes no slot another state, no record used or unused and no load. Of two edits to one field that it admits,
the later stands. While the clock is UNSET a group released, and an edit of any field without an open group, is written at
once; an L2 that it raises to its L1 is then answered as a clamp (log entry 36). A group applied sets the edge memory of every
input-map entry whose input class it changed to UNKNOWN and keeps the others; no record with the key of such an entry, before or
after the group, stays PRESENT; and a record whose area set it concerns has the set derived afresh, every other one keeps its
set or has it derived again by a raise. The set an object gives is that of R125's table. The model's choices in this: that no
reply to EDIT_RELEASE or EDIT carries data is log entry 47; that an input class counts as changed where it differs after the
whole group from before it, so that one written back keeps its edges, is log entry 18; and that a record is concerned where the
derivation of its set differs so, and an EQUIPMENT object's set is kept, is log entry 26. -/
def Obligations.WrittenGroupsAreWhole : Prop :=
  (∀ (s : State) (t : Telegram) (rest : List Telegram) (g : List HeldEdit), TakenAs s t rest 0x07 [] → mode s ≠ .bare →
    s.lck.lock = .unset → s.tst.openGroup = some g → g ≠ [] → s.tst.waiting.length < 4 →
    let base : Tst := { s.tst with openGroup := none }
    ∃ u, ∃ raised : Bool, exec .editRelease s = .next (settle u) ∧ Answered s u t (.okClamped raised []) ∧ u.tiu.manage = rest
      ∧ u.tst = base.writeGroup g
      ∧ (raised = true ↔ ∃ b, ((g.foldl Tst.write base).line.subs.get b).l2 < ((g.foldl Tst.write base).line.subs.get b).l1))
  ∧ (∀ (s : State) (t : Telegram) (rest : List Telegram) (a b c v3 v2 v1 v0 : Byte) (tab : EditTable) (kind : FieldKind),
      TakenAs s t rest 0x06 [a, b, c, v3, v2, v1, v0] → mode s ≠ .bare → s.lck.lock = .unset → s.tst.openGroup = none →
      s.tst.waiting.length < 4 → EditTable.ofCode a.toNat = some tab → b.toNat < tab.count →
      fieldKind tab c.toNat = some kind → ¬(tab = .profile ∧ mode s = .prepared) →
      let value := numOf [v3, v2, v1, v0]
      kind.admits s.tst.line value →
      let v := kind.written value
      let e : HeldEdit :=
        { table := tab, index := b.toNat, field := c.toNat, value := v
          slot := if tab = .profile then activeSlot s else none }
      ∃ u, ∃ raised : Bool, exec .edit s = .next (settle u) ∧ u.tst = s.tst.writeGroup [e] ∧ u.tiu.manage = rest
        ∧ Answered s u t (.okClamped (decide (v ≠ value) || raised) [])
        ∧ (raised = true ↔ ∃ k, ((s.tst.write e).line.subs.get k).l2 < ((s.tst.write e).line.subs.get k).l1)
        ∧ ∀ i : SubId, tab = .sub → c.toNat = 3 → i.val = b.toNat →
            (u.tst.line.subs.get i).l2 = max v (s.tst.line.subs.get i).l1)
  ∧ (∀ (s : State) (g : List HeldEdit),
      let u := (applyGroup g (Act.start s)).s
      let changed (m : MapRow) : Prop := s.tst.line.inputs.get m.inputClass ≠ u.tst.line.inputs.get m.inputClass
      let object (m : MapRow) : IncObject :=
        match m.object with
        | .platform p => .platform p
        | .equipment => .equipment m.equipment
      u.tst = s.tst.writeGroup g
      ∧ (∀ k m, s.tst.line.inputMap.get k = some m →
          (changed m → u.inc.edges.get k = .unknown)
          ∧ (¬changed m → u.inc.edges.get k = s.inc.edges.get k)
          ∧ (changed m → IncLaw s.inc →
              ¬CausePresent u (s.tst.line.inputs.get m.inputClass).incClass (object m)
              ∧ ¬CausePresent u (u.tst.line.inputs.get m.inputClass).incClass (object m)))
      ∧ (∀ k, s.tst.line.inputMap.get k = none → u.inc.edges.get k = s.inc.edges.get k)
      ∧ (IncLaw s.inc → ∀ i r v, s.inc.records.get i = some r → u.inc.records.get i = some v → v.number = r.number →
          let before := areasOf s r.cls r.object r.areas
          let after := areasOf u r.cls r.object r.areas
          (v.areas = r.areas ∨ v.areas = after)
          ∧ (before ≠ after → (∀ x, r.object ≠ .equipment x) → v.areas = after)))
  ∧ (∀ (s : State) (cls : IncClass) (kept : AreaSet),
      (∀ p (n : Nat), (areasOf s cls (.platform p) kept).getLsbD n = true ↔ n = (s.tst.line.points.get p).area.val)
      ∧ (∀ x (n : Nat), (areasOf s cls (.sec x) kept).getLsbD n = true ↔ n = (s.tst.line.secs.get x).area.val)
      ∧ (∀ b (n : Nat), (areasOf s cls (.substation b) kept).getLsbD n = true ↔
          ∃ x, (s.tst.line.secs.get x).used = true
            ∧ ((s.tst.line.secs.get x).subA = b ∨ (s.tst.line.secs.get x).subB = some b)
            ∧ n = (s.tst.line.secs.get x).area.val)
      ∧ (∀ st (n : Nat), (areasOf s cls (.equipment st) kept).getLsbD n = true ↔
          ∃ k m, s.tst.line.inputMap.get k = some m ∧ m.equipment = st ∧ m.object = .equipment
            ∧ (s.tst.line.inputs.get m.inputClass).incClass = cls ∧ n = m.area.val)
      ∧ (∀ set i t, findTrain s set = some i → s.rrg.trains.get i = some t →
          (∀ p (n : Nat), t.point = some p →
            ((areasOf s cls (.train set) kept).getLsbD n = true ↔ n = (s.tst.line.points.get p).area.val))
          ∧ (t.point = none → areasOf s cls (.train set) kept = 0))
      ∧ (∀ set, findTrain s set = none → areasOf s cls (.train set) kept = kept)
      ∧ ∀ n, areasOf s cls (.line n) kept = if cls = .clockLoss then 0xFFFF else kept)
  ∧ ∀ (t : Tst) (g : List HeldEdit),
    (∀ b, ((t.writeGroup g).line.subs.get b).l1 ≤ ((t.writeGroup g).line.subs.get b).l2)
    ∧ (∀ x, ((t.writeGroup g).line.secs.get x).used = true →
        ¬(((t.writeGroup g).line.secs.get x).subB = some ((t.writeGroup g).line.secs.get x).subA
          ∧ ((t.writeGroup g).line.secs.get x).feederB = ((t.writeGroup g).line.secs.get x).feederA))
    ∧ (∀ i, ((t.writeGroup g).slots.get i).state = (t.slots.get i).state)
    ∧ (∀ b, ((t.writeGroup g).line.subs.get b).used = (t.line.subs.get b).used)
    ∧ (∀ x, ((t.writeGroup g).line.secs.get x).used = (t.line.secs.get x).used)
    ∧ (t.writeGroup g).line.inputMap = t.line.inputMap ∧ (t.writeGroup g).load = t.load
    ∧ (t.writeGroup g).lineState = t.lineState
    ∧ (∀ e v kind, fieldKind e.table e.field = some kind → kind.admits t.line e.value →
        t.writeGroup (g ++ [{ e with value := v }, e]) = t.writeGroup (g ++ [e]))
    ∧ ∀ e, (t.writeGroup (g ++ [{ table := .defaults, index := 0, field := 0, value := e, slot := none }])).line.defaults.tc
        = e

/-! ## Management as a whole -/

/-- While the room-bound queue holds 64 telegrams, or no MANAGE waits, no management row does anything: the head waits. A
command that BARE mode does not admit is refused there with MODE, arguments of the wrong length, for every command, with BAD_INDEX in every
mode, and a code that no command has with UNKNOWN_COMMAND; and then nothing changes. That a row finding another row's
MANAGE at the head does nothing is the model's choice: log entry 12. -/
def Obligations.ManagementWaitsAndRefuses : Prop :=
  (∀ (s : State) (c : Instr), c ∈ managementRows → s.inReset = false →
    (s.tiu.manage = [] ∨ 64 ≤ s.tiu.room.length) → exec c s = .next (settle s))
  ∧ (∀ (s : State) (t : Telegram) (rest : List Telegram), Taken s t rest →
      (commandOf t = 0 ∨ 0x11 < commandOf t) →
      exec .manageUnknownCommand s = .next (settle (replied t rest (.no .unknownCommand) s)))
  ∧ (∀ (s : State) (t : Telegram) (rest : List Telegram) (c : Instr) (code n : Nat) (args : List Byte),
      (c, code, n) ∈ notInBare → TakenAs s t rest code args →
      (args.length ≠ n → exec c s = .next (settle (replied t rest (.no .badIndex) s)))
      ∧ (args.length = n → mode s = .bare → exec c s = .next (settle (replied t rest (.no .mode) s))))
  ∧ (∀ (s : State) (t : Telegram) (rest : List Telegram), Taken s t rest →
      let idle (c : Instr) : Prop := exec c s = .next (settle s)
      (∀ c code, (c, code) ∈ commandRows → commandOf t ≠ code → idle c)
      ∧ (1 ≤ commandOf t → commandOf t ≤ 0x11 → idle .manageUnknownCommand)
      ∧ (∀ c code q, (c, code, q) ∈ queryRows →
          (commandOf t ≠ 0x0F ∨ ∃ x i1 i0 k : Byte, argsOf t = [x, i1, i0, k] ∧ x.toNat ≤ 10 ∧ x.toNat ≠ code) → idle c)
      ∧ ((commandOf t ≠ 0x11 ∨ argsOf t = [1]) → idle .restartWarm)
      ∧ ((commandOf t ≠ 0x11 ∨ argsOf t = [0]) → idle .restartFull))
  ∧ ∀ (s : State) (t : Telegram) (rest : List Telegram) (args : List Byte),
    let bad (c : Instr) : Prop := exec c s = .next (settle (replied t rest (.no .badIndex) s))
    (TakenAs s t rest 0x01 args → args.length ≠ 5 → bad .loadOpen)
    ∧ (TakenAs s t rest 0x02 args → (args.length < 2 ∨ 234 < args.length) → bad .loadBlock)
    ∧ (TakenAs s t rest 0x03 args → args ≠ [] → bad .loadAbort)
    ∧ (TakenAs s t rest 0x0C args →
        (args.length < 13 ∨ ∃ c, args[12]? = some c ∧ args.length ≠ 13 + 2 * c.toNat) → bad .announce)
    ∧ (∀ c code q, (c, code, q) ∈ queryRows → TakenAs s t rest 0x0F args →
        (args.length ≠ 4 ∨ ∃ x, args[0]? = some x ∧ 10 < x.toNat) → bad c)
    ∧ (TakenAs s t rest 0x10 args → args ≠ [] → bad .countersClear)
    ∧ (TakenAs s t rest 0x11 args → (args.length ≠ 1 ∨ ∃ x, args[0]? = some x ∧ 1 < x.toNat) →
        bad .restartWarm ∧ bad .restartFull)

/-- A QUERY is answered in every mode and lock state and changes nothing: the reply to each subject, by its index and skip,
with every item as it stands, field by field; an index that names no record is refused with BAD_INDEX. A list is given as its
total count and then, from the skip on, as many elements, whole, as fit beside the rest of the reply in 236 bytes. The sizes
of the fields the rules leave open, the bytes of absent records, and an absent field of several items given as none item by
item, are the model's choice: log entry 21. -/
def Obligations.QueriesAnswered : Prop :=
  (∀ (s : State) (t : Telegram) (rest : List Telegram) (c : Instr) (code : Nat) (q : Subject) (x i1 i0 k : Byte),
    (c, code, q) ∈ queryRows → TakenAs s t rest 0x0F [x, i1, i0, k] → x.toNat = code →
    exec c s = .next (settle (replied t rest (queryReply s q (numOf [i1, i0]) k.toNat) s)))
  ∧ (∀ (before after : List Byte) (elements : List (List Byte)) (skip : Nat),
    let left := 236 - (before.length + 2 + after.length)
    let shown (n : Nat) := ((elements.drop skip).take n).flatten
    ∃ n, withList before elements skip after = before ++ num2 elements.length ++ shown n ++ after
      ∧ (shown n).length ≤ left
      ∧ (elements.length ≤ skip + n ∨ left < (shown (n + 1)).length))
  ∧ ∀ (s : State) (i k : Nat),
    queryReply s .clock i k
      = .ok (num1 s.lck.lock.code ++ num2 s.lck.cycle ++ num4 s.lck.dayTime ++ num2 s.lck.missed)
    ∧ queryReply s .identity i k
      = .ok ([64, 32, 8, 24, 48, 32, 8, 8, 64, 128, 32, 3, 2, 0, 16, 0x01, 0x03] ++ [s.straps, s.address])
    ∧ queryReply s .mode i k
      = .ok (num1 (mode s).code ++ num1 s.tst.lineState.code ++ num1 (((activeSlot s).map (·.val)).getD 255)
          ++ num1 s.lck.lock.code ++ [s.address])
    ∧ (let c := s.tiu.counters
       queryReply s .counters i k
        = .ok (num2 c.checkA ++ num2 c.checkB ++ num2 c.checkRoom ++ num2 c.lengthA ++ num2 c.lengthB ++ num2 c.lengthRoom
          ++ num2 c.duplicateA ++ num2 c.duplicateB ++ num2 c.misdirectedA ++ num2 c.misdirectedB ++ num2 c.misdirectedRoom
          ++ num2 c.statusRefused ++ num2 c.serviceRefused ++ num2 c.partRefused ++ num2 c.forwardRefused
          ++ num2 c.manageLost))
    ∧ (queryReply s .counters i k).data.length = 32
    ∧ queryReply s .profile i k
      = .ok ((indices 3).flatMap (fun j =>
            num1 (s.tst.slots.get j).state.code ++ (match (s.tst.slots.get j).profile with
              | some p => p.name ++ num2 p.check.toNat ++ num2 p.runs.length
              | none => List.replicate 20 0))
          ++ num1 s.tst.lineState.code
          ++ (match s.tst.load with
            | some l => (match l.target with
                | .line => [255]
                | .slot j => num1 j.val) ++ num2 l.remaining ++ num2 l.expected
            | none => [255, 0, 0, 0, 0])
          ++ num1 ((s.tst.pendingSlot.map (·.val)).getD 255) ++ num1 ((s.tst.openGroup.map (·.length)).getD 255)
          ++ num1 s.tst.waiting.length)
    ∧ queryReply s .train 0 k
      = (let sets := (s.rrg.trains.items.filterMap id).map fun t => num2 t.set
         .ok (withList (num1 sets.length) sets k (num2 s.rrg.refused ++ num2 s.rrg.unplanned)))
    ∧ (∀ j t, i ≠ 0 → findTrain s i = some j → s.rrg.trains.get j = some t →
        queryReply s .train i k
          = .ok (num1 j.val ++ num2 t.set ++ opt2 t.run ++ opt1 t.step ++ num1 t.state.code ++ opt1 (t.point.map (·.val))
            ++ opt4 t.time ++ int2 t.dev ++ opt4 t.target ++ opt2 t.overdue ++ opt2 t.powerWait
            ++ opt1 (t.slot.map (·.sub.val)) ++ opt2 (t.slot.map (·.left)) ++ flag1 t.late ++ num2 t.silence))
    ∧ (i ≠ 0 → findTrain s i = none → queryReply s .train i k = .no .badIndex)
    ∧ (∀ p : TpId, p.val = i →
        let row := s.tst.line.points.get p
        let m := s.rrg.memory.get p
        queryReply s .point i k
          = .ok (withList
              (num1 row.kind.code ++ num1 row.area.val ++ [row.controller] ++ num2 row.minDwell ++ num2 row.dwell
                ++ opt1 (row.depart.map (·.val)) ++ num2 row.accel
                ++ (if row.hasTrigger then
                    num1 row.trigZone.val ++ num1 row.trigTarget.val ++ num1 row.trigNext.val ++ num1 row.trigDelayed.val
                  else [255, 255, 255, 255])
                ++ (opt4 m.released ++ opt2 m.run ++ opt4 m.scheduled) ++ flag1 (underHold s p) ++ flag1 (underSuspend s p))
              (((s.rrg.trains.items.filterMap id).filter fun t => t.state.stopped && decide (t.point = some p)).map fun t =>
                num2 t.set ++ num1 t.state.code ++ opt4 t.target) k []))
    ∧ (64 ≤ i → queryReply s .point i k = .no .badIndex)
    ∧ (∀ x : SecId, x.val = i →
        let row := s.tst.line.secs.get x
        let v := s.psv.secs.get x
        queryReply s .sec i k
          = .ok (flag1 row.used ++ num1 row.area.val ++ num1 row.subA.val ++ num1 row.feederA.val
            ++ (match row.subB with
              | some b => num1 b.val ++ num1 row.feederB.val
              | none => [255, 255])
            ++ (if row.used then
                num1 (feedOf s.psv row.subA row.feederA).code
                  ++ opt1 (row.subB.map fun b => (feedOf s.psv b row.feederB).code) ++ opt1 (v.state.map (·.code))
                  ++ (match v.source with
                    | some (b, f) => num1 b.val ++ num1 f.code ++ num1 (s.psv.subs.get b).capacity
                        ++ num1 (s.psv.subs.get b).held
                    | none => [255, 255, 255, 255])
              else List.replicate 7 255)))
    ∧ (32 ≤ i → queryReply s .sec i k = .no .badIndex)
    ∧ (∀ b : SubId, b.val = i →
        let row := s.tst.line.subs.get b
        let v := s.psv.subs.get b
        let head := flag1 row.used ++ [row.unit] ++ num1 row.cap ++ num1 row.l1 ++ num1 row.l2 ++ num2 row.telemetry
          ++ num2 row.window
        (row.used = true →
          queryReply s .substation i k
            = .ok (withList
                (head ++ (num1 v.state.code ++ opt1 (v.incomer.map Bool.toNat) ++ opt1 v.load
                  ++ v.feeders.items.flatMap (fun f => num1 f.code) ++ opt2 v.telemetry ++ opt2 v.credit
                  ++ opt1 (if v.state = .online then some (baseCapacity row (v.load.getD 0)) else none)
                  ++ num1 v.credit.isSome.toNat ++ num1 v.capacity ++ flag1 v.trip ++ num1 v.held))
                (v.waits.map fun w => opt2 ((s.rrg.trains.get w.train).map (·.set)) ++ num4 w.target) k []))
        ∧ (row.used = false →
          queryReply s .substation i k
            = .ok (withList (head ++ (List.replicate 11 255 ++ List.replicate 4 0 ++ [255] ++ List.replicate 4 0)) [] k [])))
    ∧ (8 ≤ i → queryReply s .substation i k = .no .badIndex)
    ∧ queryReply s .incident 0 k
      = (let rows := ((indices 32).filterMap fun j => (s.inc.records.get j).map fun r => (j, r)).map fun x =>
           num1 x.1.val ++ num2 x.2.number ++ num1 x.2.cls.code.val ++ num1 x.2.state.code ++ num1 x.2.level
         .ok (withList (num1 rows.length) rows k
           (num2 s.inc.resolved.length ++ s.inc.resolved.flatMap (fun j => num1 j.val) ++ num2 s.inc.nextNumber
             ++ num2 s.inc.refused)))
    ∧ (∀ j r, i ≠ 0 → findNumber s i = some j → s.inc.records.get j = some r →
        queryReply s .incident i k
          = .ok (num1 j.val ++ num2 r.number ++ num1 r.cls.code.val ++ num1 r.object.kindCode ++ num2 r.object.ident
            ++ num2 r.areas.toNat ++ num1 r.effects.code ++ flag1 r.mandatory ++ opt1 (r.template.map (·.val))
            ++ num1 r.state.code ++ num1 r.cause.code ++ num1 r.level ++ opt1 r.countdown ++ num1 r.recurrences
            ++ flag1 r.recurred ++ opt4 r.opened ++ opt2 r.ackTag ++ opt2 r.retention))
    ∧ (i ≠ 0 → findNumber s i = none → queryReply s .incident i k = .no .badIndex)
    ∧ (∀ z : ZoneId, z.val = i →
        let row := s.tst.line.zones.get z
        let q := s.asc.zones.get z
        let item (e : Entry) : List Byte :=
          num1 e.template.val ++ num1 e.priority.code ++ num1 (sourceKindCode e.source) ++ num2 (sourceIdent e.source)
            ++ num1 e.params.length ++ e.params.flatMap num2 ++ num1 e.repeats ++ num2 e.eligible ++ opt2 e.expiry
            ++ num2 e.seq
        (mode s = .bare → queryReply s .zone i k = .ok (List.replicate 6 0 ++ [255] ++ List.replicate 25 0))
        ∧ (mode s ≠ .bare →
          queryReply s .zone i k
            = .ok (withList
                ([row.controller] ++ num2 row.areas.toNat ++ num2 row.guard ++ flag1 row.opens ++ num1 q.state.code
                  ++ opt1 q.tag ++ num1 q.nextTag ++ opt2 q.play ++ opt2 q.guard
                  ++ (match q.current with
                    | some e => item e
                    | none => [255, 255, 255, 0, 0, 0, 255, 0, 0, 0, 0, 0, 0]))
                (q.queue.map item) k (num2 q.missing ++ num2 q.refused))))
    ∧ (24 ≤ i → queryReply s .zone i k = .no .badIndex)

/-- COUNTERS_CLEAR sets its counts to 0 before its reply is built and touches nothing else. RESTART FULL brings every block
to its power-on state but for the REPLY telegrams, the management input queue, the straps and the address in use; a
telegram already on a port is still being sent. What a FULL restart keeps is the model's reading: log entry 17. -/
def Obligations.ClearAndFullRestart : Prop :=
  ∀ (s : State) (t : Telegram) (rest : List Telegram),
    (TakenAs s t rest 0x10 [] →
      exec .countersClear s
        = .next (settle (replied t rest (.ok [])
            { s with
              tiu.counters := Counters.zero
              rrg.refused := 0
              rrg.unplanned := 0
              inc.refused := 0
              asc.zones := Table.build 24 fun z => { s.asc.zones.get z with missing := 0, refused := 0 } })))
    ∧ (TakenAs s t rest 0x11 [1] →
      let replies := s.tiu.room.filter fun x => decide (x.kind = .reply)
      let tiu : Tiu :=
        { Tiu.start with
          room := replies ++ [{ kind := .reply, telegram := replyTo s.address t (.ok []) }],
          manage := rest,
          roomSending := s.tiu.roomSending,
          fieldSending := s.tiu.fieldSending }
      exec .restartFull s
        = .next (settle
            { State.reset with
              inReset := s.inReset,
              links := s.links,
              straps := s.straps,
              address := s.address,
              tiu := tiu,
              lck := { Lck.start with timeBase := s.lck.timeBase },
              freeCount := s.freeCount,
              pending := s.pending }))

/-- RESTART WARM clears the part's work in flight and keeps what the part has been told: the clock, the valid tables, the
READY and ACTIVE slots, the forward queue, the TIU's counters (but for a REPORT refused), the substations' states and the
RRG's counts stand; trains, incidents, groups, duplicates and zone entries do not, and an open load is abandoned: its slot is
EMPTY, or the line tables INVALID and the supply as after power-on. The prescaler
restarts, a trip flag says TRIPPED, and entries and records then in the part come of causes that stand. Where no cause stands,
or in BARE mode, the order queue, the incident number counter and the refused count are kept too, and every zone keeps its
state, PLAYING and GUARD becoming OPEN, its tags and its counts. -/
def Obligations.WarmRestartKeepsWhatWasTold : Prop :=
  ∀ (s : State) (t : Telegram) (rest : List Telegram), TakenAs s t rest 0x11 [0] →
    ∃ u, exec .restartWarm s = .next (settle u) ∧ Answered s u t (.ok []) ∧ u.tiu.manage = rest
      ∧ (∀ a, u.tiu.duplicates.get a = .unknown) ∧ u.tiu.forward = s.tiu.forward ∧ u.tiu.roomBit = s.tiu.roomBit
      ∧ u.tiu.fieldBit = s.tiu.fieldBit ∧ u.lck = s.lck
      ∧ u.tst.load = none ∧ u.tst.openGroup = none ∧ u.tst.waiting = [] ∧ u.tst.pendingSlot = none
      ∧ u.tst.line = s.tst.line ∧ (s.tst.load = none → u.tst.slots = s.tst.slots ∧ u.tst.lineState = s.tst.lineState)
      ∧ (∀ l i, s.tst.load = some l → l.target = .slot i →
          u.tst.lineState = s.tst.lineState ∧ u.tst.slots.get i = { state := .empty, profile := none }
          ∧ ∀ j, j ≠ i → u.tst.slots.get j = s.tst.slots.get j)
      ∧ (∀ l, s.tst.load = some l → l.target = .line → u.tst.lineState = .invalid ∧ u.tst.slots = s.tst.slots)
      ∧ (tablesValid u = false → u.psv = State.reset.psv)
      ∧ (∀ i, u.rrg.trains.get i = none) ∧ (∀ p, u.rrg.memory.get p = Memory.empty) ∧ u.rrg.holdOff = 0
      ∧ u.rrg.refused = s.rrg.refused ∧ u.rrg.unplanned = s.rrg.unplanned
      ∧ (∀ i r, u.inc.records.get i = some r → r.level = 0 ∧ r.state = .raised ∧ r.cause = .present)
      ∧ u.inc.resolved = [] ∧ (∀ k, u.inc.edges.get k = .unknown)
      ∧ (tablesValid s = true → (∀ l, s.tst.load = some l → l.target ≠ .line) →
        pictureStands u
        ∧ ∀ b, (u.psv.subs.get b).state = (s.psv.subs.get b).state ∧ (u.psv.subs.get b).load = (s.psv.subs.get b).load
          ∧ (u.psv.subs.get b).feeders = (s.psv.subs.get b).feeders ∧ (u.psv.subs.get b).credit = none
          ∧ (u.psv.subs.get b).held = 0 ∧ (u.psv.subs.get b).waits = []
          ∧ (u.psv.subs.get b).trip = decide ((s.psv.subs.get b).state = .tripped))
      ∧ u.tiu.roomSending = s.tiu.roomSending ∧ u.tiu.fieldSending = s.tiu.fieldSending
      ∧ u.tiu.counters = { s.tiu.counters with partRefused := u.tiu.counters.partRefused }
      ∧ u.inc.prescaler = cyclesAt (cycleLength u) (params u).tick 4
      ∧ (∀ z, ∀ e ∈ (u.asc.zones.get z).queue ++ (u.asc.zones.get z).current.toList, ∃ n, e.source = .incident n)
      ∧ ((tablesValid u = true → s.lck.lock ≠ .unlocked
            ∧ (∀ b, (u.tst.line.subs.get b).used = true →
                (s.psv.subs.get b).state ≠ .tripped ∧ (s.psv.subs.get b).state ≠ .stale)
            ∧ ∀ x, (u.psv.secs.get x).state ≠ some .dead) →
        u.tiu.orders = s.tiu.orders ∧ u.tiu.counters = s.tiu.counters
        ∧ u.tiu.room = s.tiu.room ++ [{ kind := .reply, telegram := replyTo s.address t (.ok []) }]
        ∧ (∀ i, u.inc.records.get i = none) ∧ u.inc.nextNumber = s.inc.nextNumber ∧ u.inc.refused = s.inc.refused
        ∧ (tablesValid u = false → u.asc = State.reset.asc)
        ∧ (tablesValid u = true → ∀ z, u.asc.zones.get z =
            { s.asc.zones.get z with
              state := (match (s.asc.zones.get z).state with
                | .playing => .opened
                | .guarding => .opened
                | other => other)
              queue := [], current := none, tag := none, play := none, guard := none }))

/-! ## Laws that every step keeps -/

/-- The state after reset meets every law. -/
def Obligations.ResetMeetsLaws : Prop :=
  TiuLaw State.reset.tiu ∧ LckLaw State.reset.lck ∧ TstLaw State.reset.tst ∧ RrgLaw State.reset.rrg ∧ SupplyLaw State.reset
    ∧ HoldLaw State.reset ∧ IncLaw State.reset.inc ∧ AscLaw State.reset.asc

/-- Every step keeps the law of the TIU. -/
def Obligations.StepKeepsTiuLaw : Prop := ∀ s u : State, TiuLaw s.tiu → step s = .next u → TiuLaw u.tiu

/-- Every step keeps the law of the Line Clock. -/
def Obligations.StepKeepsLckLaw : Prop := ∀ s u : State, LckLaw s.lck → step s = .next u → LckLaw u.lck

/-- Every step keeps the law of the Table Store. -/
def Obligations.StepKeepsTstLaw : Prop := ∀ s u : State, TstLaw s.tst → step s = .next u → TstLaw u.tst

/-- Every step keeps the law of the train table. -/
def Obligations.StepKeepsRrgLaw : Prop := ∀ s u : State, RrgLaw s.rrg → step s = .next u → RrgLaw u.rrg

/-- Every step keeps the law of the supply, given the law of the Table Store: the picture is the one derived, held counts
are those of the trains with slots, and the waiting trains stand in their lists, in order, and only where no slot is free. -/
def Obligations.StepKeepsSupplyLaw : Prop :=
  ∀ s u : State, TstLaw s.tst → SupplyLaw s → step s = .next u → SupplyLaw u

/-- Every step keeps the law of the incident table: numbers and keys each held once, the resolved order, and
retention for RESOLVED records alone. A timing point is
under HOLD, or under SUSPEND, just when a record that is not RESOLVED has that effect and the area of the timing point in its
set; and every step keeps the law that the INC has just those points under HOLD that are, given the laws of the tables and of
the supply. -/
def Obligations.StepKeepsIncLaw : Prop :=
  (∀ s u : State, IncLaw s.inc → step s = .next u → IncLaw u.inc)
  ∧ (∀ (s : State) (p : TpId),
      (underHold s p = true ↔ HoldCovers s p)
      ∧ (underSuspend s p = true ↔
          ∃ i r, s.inc.records.get i = some r ∧ r.state ≠ .resolved ∧ r.effects.suspend = true
            ∧ r.areas.getLsbD (s.tst.line.points.get p).area.val = true))
  ∧ ∀ s u : State, TstLaw s.tst → SupplyLaw s → IncLaw s.inc → HoldLaw s → step s = .next u → HoldLaw u

/-- Every step keeps the law of every zone. -/
def Obligations.StepKeepsAscLaw : Prop := ∀ s u : State, AscLaw s.asc → step s = .next u → AscLaw u.asc

end
end

