-- ==== Sys2Proof/Laws/State.lean ====
section
/-! SUPPORT. The small lemmas of tables and of an action's updates, so that no later proof unfolds a record update. -/

namespace Sys2Proof

/-! ## Tables -/

theorem Table.ext_items {α : Type} {n : Nat} {t u : Table α n} (h : t.items = u.items) : t = u := by
  cases t; cases u; cases h; rfl

@[simp] theorem Table.get_set_eq {α : Type} {n : Nat} (t : Table α n) (i : Fin n) (a : α) : (t.set i a).get i = a := by
  simp [Table.get, Table.set]

@[simp] theorem Table.get_set_ne {α : Type} {n : Nat} (t : Table α n) {i j : Fin n} (a : α) (h : i ≠ j) :
    (t.set i a).get j = t.get j := by
  have : i.val ≠ j.val := fun e => h (Fin.ext e)
  simp [Table.get, Table.set, this]

theorem Table.get_set {α : Type} {n : Nat} (t : Table α n) (i j : Fin n) (a : α) :
    (t.set i a).get j = if i = j then a else t.get j := by
  by_cases h : i = j
  · subst h; simp
  · simp [h]

@[simp] theorem Table.get_map {α β : Type} {n : Nat} (t : Table α n) (f : α → β) (i : Fin n) :
    (t.map f).get i = f (t.get i) := by
  simp [Table.get, Table.map]

@[simp] theorem Table.get_build {α : Type} {n : Nat} (f : Fin n → α) (i : Fin n) : (Table.build n f).get i = f i := by
  simp [Table.get, Table.build]

@[simp] theorem Table.get_fill {α : Type} {n : Nat} (a : α) (i : Fin n) : (Table.fill n a).get i = a := by
  simp [Table.get, Table.fill]

theorem Table.ext_get {α : Type} {n : Nat} {t u : Table α n} (h : ∀ i, t.get i = u.get i) : t = u := by
  apply Table.ext_items
  apply List.ext_getElem (by rw [t.size, u.size])
  intro k h₁ _
  have := h ⟨k, t.size ▸ h₁⟩
  simpa [Table.get] using this

/-- Writing a row that a map sends where the old row went changes nothing of the mapped table. -/
theorem Table.map_set_of_eq {α β : Type} {n : Nat} (t : Table α n) (f : α → β) (i : Fin n) (a : α)
    (h : f a = f (t.get i)) : (t.set i a).map f = t.map f := by
  apply Table.ext_get
  intro j
  simp only [Table.get_map, Table.get_set]
  split
  · next e => subst e; exact h
  · rfl

@[simp] theorem Table.map_map {α β γ : Type} {n : Nat} (t : Table α n) (f : α → β) (g : β → γ) :
    (t.map f).map g = t.map fun a => g (f a) :=
  Table.ext_get fun i => by simp

theorem Table.map_congr {α β : Type} {n : Nat} (t : Table α n) {f g : α → β} (h : ∀ a, f a = g a) : t.map f = t.map g :=
  Table.ext_get fun i => by simp [h]

/-- A row of a table is one of its items. -/
theorem Table.get_mem {α : Type} {n : Nat} (t : Table α n) (i : Fin n) : t.get i ∈ t.items := by
  simp [Table.get]

/-- An item of a table stands at some index. -/
theorem Table.exists_get {α : Type} {n : Nat} {t : Table α n} {a : α} (h : a ∈ t.items) : ∃ i, t.get i = a := by
  obtain ⟨k, hk, rfl⟩ := List.getElem_of_mem h
  exact ⟨⟨k, t.size ▸ hk⟩, by simp [Table.get]⟩

@[simp] theorem mem_indices {n : Nat} (i : Fin n) : i ∈ indices n := List.mem_finRange i

namespace Machine

/-! ## Folds -/

/-- What every step of a fold keeps, the fold keeps. -/
theorem foldl_keeps {α β γ : Type} (F : α → γ) (f : α → β → α) (h : ∀ a b, F (f a b) = F a) (l : List β) (a : α) :
    F (l.foldl f a) = F a := by
  induction l generalizing a with
  | nil => rfl
  | cons b l ih => rw [List.foldl_cons, ih, h]

/-- What every step of `forAll` keeps, `forAll` keeps. -/
theorem forAll_keeps {γ : Type} (F : Act → γ) {n : Nat} (f : Fin n → Act → Act) (h : ∀ i a, F (f i a) = F a) (a : Act) :
    F (forAll n f a) = F a :=
  foldl_keeps F _ (fun a i => h i a) _ a

/-! ## An action's updates -/

@[simp] theorem Act.start_s (s : State) : (Act.start s).s = s := rfl
@[simp] theorem Act.start_out (s : State) : (Act.start s).out = [] := rfl
@[simp] theorem Act.start_requests (s : State) : (Act.start s).requests = [] := rfl
@[simp] theorem Act.start_handOvers (s : State) : (Act.start s).handOvers = [] := rfl

@[simp] theorem Act.order_s (o : Order) (a : Act) : (a.order o).s = a.s := rfl
@[simp] theorem Act.order_out (o : Order) (a : Act) : (a.order o).out = a.out ++ [.order o] := rfl
@[simp] theorem Act.order_requests (o : Order) (a : Act) : (a.order o).requests = a.requests := rfl
@[simp] theorem Act.order_handOvers (o : Order) (a : Act) : (a.order o).handOvers = a.handOvers := rfl

@[simp] theorem Act.report_s (k : Nat) (c : List Byte) (a : Act) : (a.report k c).s = a.s := rfl
@[simp] theorem Act.report_out (k : Nat) (c : List Byte) (a : Act) :
    (a.report k c).out = a.out ++ [.report (num1 k ++ c)] := rfl
@[simp] theorem Act.report_requests (k : Nat) (c : List Byte) (a : Act) : (a.report k c).requests = a.requests := rfl
@[simp] theorem Act.report_handOvers (k : Nat) (c : List Byte) (a : Act) : (a.report k c).handOvers = a.handOvers := rfl

@[simp] theorem Act.ask_s (r : Request) (a : Act) : (a.ask r).s = a.s := rfl
@[simp] theorem Act.ask_out (r : Request) (a : Act) : (a.ask r).out = a.out := rfl
@[simp] theorem Act.ask_requests (r : Request) (a : Act) : (a.ask r).requests = a.requests ++ [r] := rfl
@[simp] theorem Act.ask_handOvers (r : Request) (a : Act) : (a.ask r).handOvers = a.handOvers := rfl

@[simp] theorem Act.hold_s (p : TpId) (r : Option Nat) (k : Nat) (x : HoldReason) (a : Act) : (a.hold p r k x).s = a.s :=
  rfl
@[simp] theorem Act.release_s (p : TpId) (r : Option Nat) (a : Act) : (a.release p r).s = a.s := rfl

@[simp] theorem Act.putTrain_out (i : TrainId) (t : Option Train) (a : Act) : (a.putTrain i t).out = a.out := rfl
@[simp] theorem Act.putTrain_requests (i : TrainId) (t : Option Train) (a : Act) :
    (a.putTrain i t).requests = a.requests := rfl
@[simp] theorem Act.putTrain_train (i j : TrainId) (t : Option Train) (a : Act) :
    (a.putTrain i t).train j = if i = j then t else a.train j := by
  simp [Act.train, Act.putTrain, Table.get_set]
@[simp] theorem Act.onTrain_train (i j : TrainId) (f : Train → Train) (a : Act) :
    (a.onTrain i f).train j = if i = j then (a.train j).map f else a.train j := by
  simp only [Act.onTrain, Act.putTrain_train]
  split
  · next h => rw [h]
  · rfl

@[simp] theorem Act.onSupply_out (b : SubId) (f : Supply → Supply) (a : Act) : (a.onSupply b f).out = a.out := rfl
@[simp] theorem Act.onSupply_supply (b c : SubId) (f : Supply → Supply) (a : Act) :
    (a.onSupply b f).supply c = if b = c then f (a.supply c) else a.supply c := by
  simp only [Act.supply, Act.onSupply, Table.get_set]
  split
  · next h => rw [h]
  · rfl

@[simp] theorem Act.putIncident_out (i : IncId) (r : Option Incident) (a : Act) : (a.putIncident i r).out = a.out := rfl
@[simp] theorem Act.putIncident_incident (i j : IncId) (r : Option Incident) (a : Act) :
    (a.putIncident i r).incident j = if i = j then r else a.incident j := by
  simp [Act.incident, Act.putIncident, Table.get_set]

@[simp] theorem Act.putZone_out (z : ZoneId) (q : Zone) (a : Act) : (a.putZone z q).out = a.out := rfl
@[simp] theorem Act.putZone_requests (z : ZoneId) (q : Zone) (a : Act) : (a.putZone z q).requests = a.requests := rfl
@[simp] theorem Act.putZone_handOvers (z : ZoneId) (q : Zone) (a : Act) : (a.putZone z q).handOvers = a.handOvers := rfl
@[simp] theorem Act.putZone_zone (z y : ZoneId) (q : Zone) (a : Act) :
    (a.putZone z q).zone y = if z = y then q else a.zone y := by
  simp [Act.zone, Act.putZone, Table.get_set]

@[simp] theorem Act.order_zone (o : Order) (a : Act) (z : ZoneId) : (a.order o).zone z = a.zone z := rfl
@[simp] theorem Act.report_zone (k : Nat) (c : List Byte) (a : Act) (z : ZoneId) : (a.report k c).zone z = a.zone z := rfl
@[simp] theorem Act.order_train (o : Order) (a : Act) (i : TrainId) : (a.order o).train i = a.train i := rfl
@[simp] theorem Act.report_train (k : Nat) (c : List Byte) (a : Act) (i : TrainId) :
    (a.report k c).train i = a.train i := rfl
@[simp] theorem Act.hold_train (p : TpId) (r : Option Nat) (k : Nat) (x : HoldReason) (a : Act) (i : TrainId) :
    (a.hold p r k x).train i = a.train i := rfl
@[simp] theorem Act.report_incident (k : Nat) (c : List Byte) (a : Act) (i : IncId) :
    (a.report k c).incident i = a.incident i := rfl

end Machine

end Sys2Proof
end

