-- ==== Sys2Proof/Laws/Announcements.lean ====
section
/-! SUPPORT. What the Announcement Scheduler's operations leave alone: everything but the zones and the orders made. -/

namespace Sys2Proof.Machine

/-- An action without its zones and what it has made. -/
def Act.offAsc (a : Act) : State × List Request × List (List Wait) :=
  ({ a.s with asc := Asc.start }, a.requests, a.handOvers)

@[simp] theorem offAsc_order (o : Order) (a : Act) : (a.order o).offAsc = a.offAsc := rfl
@[simp] theorem offAsc_report (k : Nat) (c : List Byte) (a : Act) : (a.report k c).offAsc = a.offAsc := rfl
@[simp] theorem offAsc_putZone (z : ZoneId) (q : Zone) (a : Act) : (a.putZone z q).offAsc = a.offAsc := rfl

@[simp] theorem offAsc_issueEntry (z : ZoneId) (p : Bool) (e : Entry) (a : Act) :
    (issueEntry z p e a).offAsc = a.offAsc := rfl

@[simp] theorem offAsc_issueTest (z : ZoneId) (a : Act) : (issueTest z a).offAsc = a.offAsc := by
  unfold issueTest; repeat' split
  all_goals simp

@[simp] theorem offAsc_preemptTest (z : ZoneId) (a : Act) : (preemptTest z a).offAsc = a.offAsc := by
  unfold preemptTest; repeat' (first | split | simp)

@[simp] theorem offAsc_placedTest (z : ZoneId) (p : Priority) (e : Nat) (a : Act) :
    (placedTest z p e a).offAsc = a.offAsc := by
  unfold placedTest; repeat' split
  all_goals simp

@[simp] theorem offAsc_placeEntry (z : ZoneId) (n : NewEntry) (a : Act) : (placeEntry z n a).1.offAsc = a.offAsc := by
  unfold placeEntry; repeat' (first | split | simp)

@[simp] theorem offAsc_enterGuard (z : ZoneId) (q : Zone) (a : Act) : (enterGuard z q a).offAsc = a.offAsc := rfl

@[simp] theorem offAsc_endPlaying (z : ZoneId) (a : Act) : (endPlaying z a).offAsc = a.offAsc := by
  unfold endPlaying; repeat' (first | split | simp)

@[simp] theorem offAsc_playTimeout (z : ZoneId) (a : Act) : (playTimeout z a).offAsc = a.offAsc := by
  simp [playTimeout]

@[simp] theorem offAsc_guardEnd (z : ZoneId) (a : Act) : (guardEnd z a).offAsc = a.offAsc := by simp [guardEnd]

@[simp] theorem offAsc_paDone (src : Byte) (z : ZoneId) (t : Nat) (a : Act) : (paDone src z t a).offAsc = a.offAsc := by
  unfold paDone; repeat' (first | split | simp)

@[simp] theorem offAsc_zoneBoundary (z : ZoneId) (a : Act) : (zoneBoundary z a).offAsc = a.offAsc := by
  unfold zoneBoundary; repeat' (first | split | simp)

@[simp] theorem offAsc_cutCurrent (z : ZoneId) (a : Act) : (cutCurrent z a).offAsc = a.offAsc := by
  unfold cutCurrent; repeat' (first | split | simp)

@[simp] theorem offAsc_zoneOff (z : ZoneId) (a : Act) : (zoneOff z a).offAsc = a.offAsc := by
  unfold zoneOff; repeat' (first | split | simp)

@[simp] theorem offAsc_zoneBar (z : ZoneId) (a : Act) : (zoneBar z a).offAsc = a.offAsc := by
  unfold zoneBar; repeat' (first | split | simp)

@[simp] theorem offAsc_zoneOpen (z : ZoneId) (a : Act) : (zoneOpen z a).offAsc = a.offAsc := by
  unfold zoneOpen; repeat' (first | split | simp)

@[simp] theorem offAsc_zoneRemove (x : Source) (z : ZoneId) (a : Act) : (zoneRemove x z a).offAsc = a.offAsc := by
  unfold zoneRemove; repeat' (first | split | simp)

/-! What the fall of a zone's countdowns and the dropping of its expired entries write (R165). -/

@[simp] theorem Zone.fall_queue (q : Zone) : q.fall.queue = q.queue := rfl
@[simp] theorem Zone.fall_state (q : Zone) : q.fall.state = q.state := rfl
@[simp] theorem Zone.fallEntries_state (q : Zone) : q.fallEntries.state = q.state := rfl
@[simp] theorem Zone.fallEntries_play (q : Zone) : q.fallEntries.play = q.play := rfl
@[simp] theorem Zone.fallEntries_guard (q : Zone) : q.fallEntries.guard = q.guard := rfl
@[simp] theorem Zone.dropExpired_state (q : Zone) : q.dropExpired.state = q.state := rfl
@[simp] theorem Zone.dropExpired_current (q : Zone) : q.dropExpired.current = q.current := rfl

theorem Zone.mem_dropExpired {q : Zone} {e : Entry} :
    e ∈ q.dropExpired.queue ↔ e ∈ q.queue ∧ e.expiry ≠ some 0 := by simp [Zone.dropExpired]

/-- What an ASC operation leaves alone, field by field. -/
theorem Act.offAsc_fields {a b : Act} (h : a.offAsc = b.offAsc) :
    a.s.tiu = b.s.tiu ∧ a.s.lck = b.s.lck ∧ a.s.tst = b.s.tst ∧ a.s.rrg = b.s.rrg ∧ a.s.psv = b.s.psv ∧ a.s.inc = b.s.inc
      ∧ a.requests = b.requests ∧ a.handOvers = b.handOvers := by
  have f {γ : Type} (g : State × List Request × List (List Wait) → γ) : g a.offAsc = g b.offAsc := congrArg g h
  exact ⟨f (·.1.tiu), f (·.1.lck), f (·.1.tst), f (·.1.rrg), f (·.1.psv), f (·.1.inc), f (·.2.1), f (·.2.2)⟩

end Sys2Proof.Machine
end

