-- ==== Sys2Proof/Laws/HandOn.lean ====
section
/-! SUPPORT. What grants, hand-overs and incident work leave alone: of a train they write its state, target, power-wait
countdown and slot; of a substation its held count and waiting list; and the passage memory, the dead-wait set, the
incident unit and the zones. Everything else is the residue, which they keep. -/

namespace Sys2Proof.Machine

/-- What of a train record grants, hand-overs and incident work keep. -/
def Train.core (t : Train) : Train := { t with state := .running, target := none, powerWait := none, slot := none }

/-- What of a substation they keep. -/
def Supply.core (v : Supply) : Supply := { v with held := 0, waits := [] }

/-- What of a state they keep. -/
def State.residue (s : State) : State :=
  { s with
    rrg.trains := s.rrg.trains.map (Option.map Train.core)
    rrg.memory := Table.fill 64 Memory.empty
    psv.subs := s.psv.subs.map Supply.core
    psv.deadWaits := []
    inc := Inc.start
    asc := Asc.start }

/-- The residue of an action's state. -/
def Act.residue (a : Act) : State := a.s.residue

/-- What an ASC operation leaves alone includes the residue. -/
theorem residue_of_offAsc {a b : Act} (h : a.offAsc = b.offAsc) : a.residue = b.residue :=
  congrArg (fun x : State × List Request × List (List Wait) => x.1.residue) h

/-! ## Record writes -/

@[simp] theorem residue_order (o : Order) (a : Act) : (a.order o).residue = a.residue := rfl
@[simp] theorem residue_report (k : Nat) (c : List Byte) (a : Act) : (a.report k c).residue = a.residue := rfl
@[simp] theorem residue_ask (r : Request) (a : Act) : (a.ask r).residue = a.residue := rfl
@[simp] theorem residue_hold (p : TpId) (r : Option Nat) (k : Nat) (x : HoldReason) (a : Act) :
    (a.hold p r k x).residue = a.residue := rfl
@[simp] theorem residue_release (p : TpId) (r : Option Nat) (a : Act) : (a.release p r).residue = a.residue := rfl
@[simp] theorem residue_putIncident (i : IncId) (r : Option Incident) (a : Act) : (a.putIncident i r).residue = a.residue :=
  rfl
@[simp] theorem residue_putZone (z : ZoneId) (q : Zone) (a : Act) : (a.putZone z q).residue = a.residue := rfl

/-- A write of a train record that keeps its core. -/
theorem residue_putTrain (i : TrainId) (t : Option Train) (a : Act) (h : t.map Train.core = (a.train i).map Train.core) :
    (a.putTrain i t).residue = a.residue := by
  have : (a.s.rrg.trains.set i t).map (Option.map Train.core) = a.s.rrg.trains.map (Option.map Train.core) :=
    Table.map_set_of_eq _ _ _ _ h
  simp [Act.residue, State.residue, Act.putTrain, this]

/-- A change of a train record that keeps its core. -/
theorem residue_onTrain (i : TrainId) (f : Train → Train) (a : Act) (h : ∀ t, (f t).core = t.core) :
    (a.onTrain i f).residue = a.residue := by
  apply residue_putTrain
  cases a.train i <;> simp [h]

/-- A change of a substation that keeps its core. -/
theorem residue_onSupply (b : SubId) (f : Supply → Supply) (a : Act) (h : ∀ v, (f v).core = v.core) :
    (a.onSupply b f).residue = a.residue := by
  have : (a.s.psv.subs.set b (f (a.supply b))).map Supply.core = a.s.psv.subs.map Supply.core :=
    Table.map_set_of_eq _ _ _ _ (h _)
  simp [Act.residue, State.residue, Act.onSupply, this]

/-! ## Power -/

@[simp] theorem residue_withdraw (i : TrainId) (a : Act) : (withdraw i a).residue = a.residue := by
  have e (g : List Wait → List Wait) : (a.s.psv.subs.map fun v => { v with waits := g v.waits }).map Supply.core
      = a.s.psv.subs.map Supply.core := by
    rw [Table.map_map]; exact Table.map_congr _ fun _ => rfl
  simp only [withdraw, Act.residue, State.residue, e]

/-- A place in a list that has been joined is the joining train's, numbered, or was there before. -/
theorem mem_waitsWith {w x : Wait} {ws : List Wait} :
    x ∈ waitsWith w ws ↔ x = { w with joined := nextJoin ws } ∨ x ∈ ws := by
  have ins (v : Wait) (l : List Wait) : x ∈ insertWait v l ↔ x = v ∨ x ∈ l := by
    induction l with
    | nil => simp [insertWait]
    | cons y l ih =>
      unfold insertWait
      split
      · simp
      · simp only [List.mem_cons, ih]
        exact or_left_comm
  exact ins _ ws

@[simp] theorem residue_takeToHeld (w : Wait) (a : Act) : (takeToHeld w a).residue = a.residue := by
  simp only [takeToHeld, residue_hold]
  exact residue_onTrain _ _ _ (by intro _; rfl)

@[simp] theorem residue_putMemory (p : TpId) (m : Memory) (a : Act) : (a.putMemory p m).residue = a.residue := rfl

@[simp] theorem residue_addDead (w : Wait) (a : Act) : (a.addDead w).residue = a.residue := rfl

@[simp] theorem residue_grantSlot (b : SubId) (w : Wait) (a : Act) : (grantSlot b w a).residue = a.residue := by
  unfold grantSlot
  split
  · rfl
  · dsimp only
    rw [residue_ask]
    refine (residue_onTrain _ _ _ (by intro _; rfl)).trans ?_
    rw [residue_putMemory, residue_release]
    refine (residue_onTrain _ _ _ (by intro _; rfl)).trans ?_
    exact residue_onSupply _ _ _ (by intro _; rfl)

@[simp] theorem residue_grantFrom (b : SubId) (ws : List Wait) (a : Act) : (grantFrom b ws a).residue = a.residue := by
  induction ws generalizing a with
  | nil => exact residue_onSupply _ _ _ (by intro _; rfl)
  | cons w rest ih =>
    unfold grantFrom
    split
    · split <;> simp [ih]
    · exact residue_onSupply _ _ _ (by intro _; rfl)

@[simp] theorem residue_grants (b : SubId) (a : Act) : (grants b a).residue = a.residue := by simp [grants]

@[simp] theorem residue_grantAll (a : Act) : (grantAll a).residue = a.residue :=
  forAll_keeps Act.residue grants (fun b a => residue_grants b a) a

@[simp] theorem residue_joinList (b : SubId) (w : Wait) (a : Act) : (joinList b w a).residue = a.residue :=
  residue_onSupply _ _ _ (by intro _; rfl)

@[simp] theorem residue_dropSlot (i : TrainId) (a : Act) : (dropSlot i a).residue = a.residue := by
  unfold dropSlot
  split
  · rfl
  · refine (residue_onTrain _ _ _ (by intro _; rfl)).trans ?_
    exact residue_onSupply _ _ _ (by intro _; rfl)

@[simp] theorem residue_releaseSlot (i : TrainId) (a : Act) : (releaseSlot i a).residue = a.residue := by
  unfold releaseSlot; split <;> simp

@[simp] theorem residue_releaseTripped (b : SubId) (a : Act) : (releaseTripped b a).residue = a.residue := by
  unfold releaseTripped
  dsimp only
  refine (residue_onSupply _ _ _ (by intro _; rfl)).trans ?_
  apply forAll_keeps Act.residue
  intro i a
  split
  · exact residue_onTrain _ _ _ (by intro _; rfl)
  · rfl

@[simp] theorem residue_startPowerWait (i : TrainId) (st : TrainState) (a : Act) :
    (startPowerWait i st a).residue = a.residue :=
  residue_onTrain _ _ _ (by intro _; rfl)

@[simp] theorem residue_deadWaits (a : Act) (ws : List Wait) :
    Act.residue { a with s.psv.deadWaits := ws } = a.residue := rfl

@[simp] theorem residue_placeOne (w : Wait) (a : Act) : (placeOne w a).residue = a.residue := by
  unfold placeOne
  split
  · split <;> simp
  · rfl

@[simp] theorem residue_settleWait (w : Wait) (a : Act) : (settleWait w a).residue = a.residue := by
  unfold settleWait; split <;> simp

@[simp] theorem residue_placeHandOver (ws : List Wait) (a : Act) : (placeHandOver ws a).residue = a.residue := by
  unfold placeHandOver
  rw [foldl_keeps Act.residue _ (fun a w => residue_settleWait w a), residue_grantAll,
    foldl_keeps Act.residue _ (fun a w => residue_placeOne w a)]

@[simp] theorem residue_replaceOne (b : SubId) (w : Wait) (a : Act) : (replaceOne b w a).residue = a.residue := by
  unfold replaceOne
  split
  · rfl
  · dsimp only
    split
    · rw [residue_joinList]
      exact residue_onSupply _ _ _ (by intro _; rfl)
    · rw [residue_hold]
      refine (residue_onTrain _ _ _ (by intro _; rfl)).trans ?_
      rw [residue_addDead]
      exact residue_onSupply _ _ _ (by intro _; rfl)

@[simp] theorem residue_replaceList (b : SubId) (a : Act) : (replaceList b a).residue = a.residue :=
  foldl_keeps Act.residue _ (fun a w => residue_replaceOne b w a) _ a

@[simp] theorem residue_rejoinOne (w : Wait) (a : Act) : (rejoinOne w a).residue = a.residue := by
  unfold rejoinOne; split <;> simp

@[simp] theorem residue_settleRejoined (w : Wait) (a : Act) : (settleRejoined w a).residue = a.residue := by
  unfold settleRejoined
  split
  · rw [residue_hold]
    exact residue_onTrain _ _ _ (by intro _; rfl)
  · rfl

@[simp] theorem residue_replaceAndGrant (ts : List SubId) (a : Act) : (replaceAndGrant ts a).residue = a.residue := by
  unfold replaceAndGrant
  rw [foldl_keeps Act.residue _ (fun a w => residue_settleRejoined w a), residue_grantAll,
    foldl_keeps Act.residue _ (fun a w => residue_rejoinOne w a),
    forAll_keeps Act.residue _ (fun b a => residue_replaceList b a),
    foldl_keeps Act.residue _ (fun a b => residue_releaseTripped b a)]

/-! ## Incidents -/

/-- The incident unit is no part of the residue. -/
@[simp] theorem residue_inc (a : Act) (i : Inc) : Act.residue { a with s.inc := i } = a.residue := rfl

@[simp] theorem residue_holdTrain (i : TrainId) (a : Act) : (holdTrain i a).residue = a.residue := by
  unfold holdTrain
  refine (residue_onTrain _ _ _ (by intro _; rfl)).trans ?_
  exact residue_withdraw _ _

@[simp] theorem residue_holdStart (p : TpId) (a : Act) : (holdStart p a).residue = a.residue := by
  unfold holdStart
  split
  · split
    · rfl
    · rw [residue_hold, foldl_keeps Act.residue _ (fun a j => residue_holdTrain j a)]
  · rfl

theorem residue_unholdTrain (p : TpId) (b : Nat) (i : TrainId) (x : List Wait × Act) :
    (unholdTrain p b i x).2.residue = x.2.residue := by
  unfold unholdTrain
  split
  · rfl
  · next t h =>
    have e (u : Train) (hu : u.core = t.core) : (x.2.putTrain i (some u)).residue = x.2.residue := by
      apply residue_putTrain; rw [h]; simp [hu]
    split
    · dsimp only
      split
      · split
        · exact e _ rfl
        · rw [residue_hold]; exact e _ rfl
      · rw [residue_hold]; exact e _ rfl
    · rfl

@[simp] theorem residue_handOvers (a : Act) (h : List (List Wait)) : Act.residue { a with handOvers := h } = a.residue :=
  rfl

@[simp] theorem residue_requests (a : Act) (r : List Request) : Act.residue { a with requests := r } = a.residue := rfl

@[simp] theorem residue_holdEnds (ps : List TpId) (a : Act) : (holdEnds ps a).residue = a.residue := by
  unfold holdEnds
  split
  · rfl
  · next b _ =>
    have e : (ps.foldl (fun x p => (indices 48).foldl (fun x i => unholdTrain p b i x) x)
        (([] : List Wait), a)).2.residue = a.residue :=
      foldl_keeps (fun x : List Wait × Act => x.2.residue) _
        (fun x p => foldl_keeps (fun x : List Wait × Act => x.2.residue) _
          (fun x i => residue_unholdTrain p b i x) _ x) _ _
    dsimp only
    split <;> simpa using e

theorem residue_reckonHolds (m : Act → Act) (hm : ∀ a, (m a).residue = a.residue) (a : Act) :
    (reckonHolds m a).residue = a.residue := by
  unfold reckonHolds
  rw [residue_holdEnds, hm, foldl_keeps Act.residue _ (fun a p => residue_holdStart p a)]
  rfl

@[simp] theorem residue_reckonHolds_id (a : Act) : (reckonHolds id a).residue = a.residue :=
  residue_reckonHolds id (fun _ => rfl) a

@[simp] theorem residue_tell (e : IncEvent) (r : Incident) (a : Act) : (a.tell e r).residue = a.residue := rfl

@[simp] theorem residue_record (e : IncEvent) (i : IncId) (r : Incident) (a : Act) :
    (a.record e i r).residue = a.residue := rfl

@[simp] theorem residue_placeEntry (z : ZoneId) (n : NewEntry) (a : Act) : (placeEntry z n a).1.residue = a.residue :=
  residue_of_offAsc (offAsc_placeEntry z n a)

@[simp] theorem residue_announceIncident (r : Incident) (a : Act) : (announceIncident r a).residue = a.residue := by
  unfold announceIncident
  split
  · rfl
  · exact foldl_keeps Act.residue _ (fun a z => residue_placeEntry z _ a) _ _

theorem residue_takeRecord {a b : Act} {i : IncId} (h : takeRecord a = some (i, b)) : b.residue = a.residue := by
  unfold takeRecord at h
  split at h
  · cases h; rfl
  · split at h
    · cases h
    · dsimp only at h
      split at h <;> cases h <;> rfl

@[simp] theorem residue_openRecord (o : Opening) (i : IncId) (a : Act) : (openRecord o i a).residue = a.residue := by
  unfold openRecord
  dsimp only
  rw [residue_reckonHolds _ (residue_announceIncident _)]
  rfl

@[simp] theorem residue_refuseRaise (c : IncClass) (o : IncObject) (a : Act) : (refuseRaise c o a).residue = a.residue := by
  unfold refuseRaise
  dsimp only
  split <;> rfl

@[simp] theorem residue_recur (i : IncId) (r : Incident) (p : Bool) (a : Act) : (recur i r p a).residue = a.residue := by
  unfold recur; simp

@[simp] theorem residue_reopen (i : IncId) (r : Incident) (p : Bool) (a : Act) : (reopen i r p a).residue = a.residue := by
  unfold reopen
  dsimp only
  rw [residue_reckonHolds _ (residue_announceIncident _)]
  rfl

@[simp] theorem residue_handleRaise (c : IncClass) (o : IncObject) (p : Bool) (a : Act) :
    (handleRaise c o p a).residue = a.residue := by
  unfold handleRaise
  split
  · split
    · split <;> simp
    · rfl
  · split
    · next h => rw [residue_openRecord, residue_takeRecord h]
    · simp

@[simp] theorem residue_zoneRemove (x : Source) (z : ZoneId) (a : Act) : (zoneRemove x z a).residue = a.residue :=
  residue_of_offAsc (offAsc_zoneRemove x z a)

@[simp] theorem residue_resolve (i : IncId) (r : Incident) (a : Act) : (resolve i r a).residue = a.residue := by
  unfold resolve
  dsimp only
  rw [residue_reckonHolds _ fun a => forAll_keeps Act.residue _ (fun z a => residue_zoneRemove _ z a) a]
  rfl

@[simp] theorem residue_handleGone (c : IncClass) (o : IncObject) (a : Act) : (handleGone c o a).residue = a.residue := by
  unfold handleGone
  split
  · rfl
  · split
    · split <;> simp
    · rfl

@[simp] theorem residue_freeResolved (i : IncId) (r : Incident) (a : Act) : (freeResolved i r a).residue = a.residue := rfl

@[simp] theorem residue_handleRequest (r : Request) (a : Act) : (handleRequest r a).residue = a.residue := by
  cases r <;> simp [handleRequest]

@[simp] theorem residue_drainFor (k : Nat) (a : Act) : (drainFor k a).residue = a.residue := by
  induction k generalizing a with
  | zero => rfl
  | succ k ih => unfold drainFor; split <;> simp [ih]

/-- Working off what an action has handed on keeps the residue. -/
@[simp] theorem residue_drain (a : Act) : (drain a).residue = a.residue := residue_drainFor 1000 a

@[simp] theorem residue_request (r : Request) (a : Act) : (a.request r).residue = a.residue := by simp [Act.request]

@[simp] theorem residue_escalate (i : IncId) (r : Incident) (a : Act) : (escalate i r a).residue = a.residue := by
  simp [escalate]

@[simp] theorem residue_tickRecord (i : IncId) (a : Act) : (tickRecord i a).residue = a.residue := by
  unfold tickRecord; repeat' (first | split | simp)

@[simp] theorem residue_tick (a : Act) : (tick a).residue = a.residue := by
  unfold tick
  rw [forAll_keeps Act.residue _ (fun i a => residue_tickRecord i a)]
  rfl

@[simp] theorem residue_actOnInput (old : Table Edge 64) (src : Byte) (l : List Bool) (k : MapId) (a : Act) :
    (actOnInput old src l k a).residue = a.residue := by
  unfold actOnInput
  split
  · rfl
  · dsimp only
    split <;> repeat' (first | split | simp)

@[simp] theorem residue_equipmentReport (src : Byte) (l : List Bool) (a : Act) :
    (equipmentReport src l a).residue = a.residue := by
  unfold equipmentReport
  rw [forAll_keeps Act.residue _ (fun k a => residue_actOnInput _ _ _ k a)]
  rfl

/-! ## Reading the residue -/

/-- What equal residues agree on outside the RRG, PSV, INC and ASC. -/
theorem residue_outer {s t : State} (h : s.residue = t.residue) :
    s.inReset = t.inReset ∧ s.links = t.links ∧ s.straps = t.straps ∧ s.address = t.address ∧ s.tiu = t.tiu
      ∧ s.lck = t.lck ∧ s.tst = t.tst ∧ s.freeCount = t.freeCount ∧ s.pending = t.pending :=
  have f {γ : Type} (g : State → γ) : g s.residue = g t.residue := congrArg g h
  ⟨f (·.inReset), f (·.links), f (·.straps), f (·.address), f (·.tiu), f (·.lck), f (·.tst), f (·.freeCount), f (·.pending)⟩

/-- The core of every train record is the same in states of equal residue. -/
theorem residue_train {s t : State} (h : s.residue = t.residue) (i : TrainId) :
    (s.rrg.trains.get i).map Train.core = (t.rrg.trains.get i).map Train.core := by
  have := congrArg (fun u : State => u.rrg.trains.get i) h
  simpa [State.residue] using this

/-- The core of every substation is the same in states of equal residue. -/
theorem residue_supply {s t : State} (h : s.residue = t.residue) (b : SubId) :
    (s.psv.subs.get b).core = (t.psv.subs.get b).core := by
  have := congrArg (fun u : State => u.psv.subs.get b) h
  simpa [State.residue] using this

/-- The counts and hold-off of the RRG, and the pictures of the sections, are the same in states of equal residue. -/
theorem residue_rest {s t : State} (h : s.residue = t.residue) :
    s.rrg.holdOff = t.rrg.holdOff ∧ s.rrg.refused = t.rrg.refused ∧ s.rrg.unplanned = t.rrg.unplanned
      ∧ s.psv.secs = t.psv.secs :=
  have f {γ : Type} (g : State → γ) : g s.residue = g t.residue := congrArg g h
  ⟨f (·.rrg.holdOff), f (·.rrg.refused), f (·.rrg.unplanned), f (·.psv.secs)⟩

end Sys2Proof.Machine
end

