-- ==== Sys2Proof/Laws/Blocks.lean ====
section
/-! SUPPORT. What the work of the blocks leaves alone. The RRG, the PSV, the INC and the ASC write no state but their own
(`blank`); at a boundary the TST writes its own too (`still`); and a field telegram that is dispatched changes, beyond
these, only the LCK (`pins`). -/

namespace Sys2Proof.Machine

/-- A state without what the RRG, the PSV, the INC and the ASC hold. -/
def State.blank (s : State) : State := { s with rrg := Rrg.start, psv := Psv.start, inc := Inc.start, asc := Asc.start }

/-- The blank of an action's state. -/
def Act.blank (a : Act) : State := a.s.blank

theorem blank_of_residue {a b : Act} (h : a.residue = b.residue) : a.blank = b.blank :=
  show a.s.residue.blank = b.s.residue.blank from congrArg State.blank h

@[simp] theorem blank_order (o : Order) (a : Act) : (a.order o).blank = a.blank := rfl
@[simp] theorem blank_ask (r : Request) (a : Act) : (a.ask r).blank = a.blank := rfl
@[simp] theorem blank_report (k : Nat) (c : List Byte) (a : Act) : (a.report k c).blank = a.blank := rfl
@[simp] theorem blank_hold (p : TpId) (r : Option Nat) (k : Nat) (x : HoldReason) (a : Act) :
    (a.hold p r k x).blank = a.blank := rfl
@[simp] theorem blank_putTrain (i : TrainId) (t : Option Train) (a : Act) : (a.putTrain i t).blank = a.blank := rfl
@[simp] theorem blank_onTrain (i : TrainId) (f : Train → Train) (a : Act) : (a.onTrain i f).blank = a.blank := rfl
@[simp] theorem blank_onSupply (b : SubId) (f : Supply → Supply) (a : Act) : (a.onSupply b f).blank = a.blank := rfl
@[simp] theorem blank_withdraw (i : TrainId) (a : Act) : (withdraw i a).blank = a.blank := rfl
@[simp] theorem blank_request (r : Request) (a : Act) : (a.request r).blank = a.blank :=
  blank_of_residue (residue_request r a)
@[simp] theorem blank_drain (a : Act) : (drain a).blank = a.blank := blank_of_residue (residue_drain a)
@[simp] theorem blank_handleRequest (r : Request) (a : Act) : (handleRequest r a).blank = a.blank :=
  blank_of_residue (residue_handleRequest r a)
@[simp] theorem blank_replaceAndGrant (l : List SubId) (a : Act) : (replaceAndGrant l a).blank = a.blank :=
  blank_of_residue (residue_replaceAndGrant l a)
@[simp] theorem blank_releaseSlot (i : TrainId) (a : Act) : (releaseSlot i a).blank = a.blank :=
  blank_of_residue (residue_releaseSlot i a)
@[simp] theorem blank_dropSlot (i : TrainId) (a : Act) : (dropSlot i a).blank = a.blank :=
  blank_of_residue (residue_dropSlot i a)
@[simp] theorem blank_placeHandOver (ws : List Wait) (a : Act) : (placeHandOver ws a).blank = a.blank :=
  blank_of_residue (residue_placeHandOver ws a)
@[simp] theorem blank_placeEntry (z : ZoneId) (n : NewEntry) (a : Act) : (placeEntry z n a).1.blank = a.blank :=
  blank_of_residue (residue_placeEntry z n a)
@[simp] theorem blank_equipmentReport (src : Byte) (l : List Bool) (a : Act) : (equipmentReport src l a).blank = a.blank :=
  blank_of_residue (residue_equipmentReport src l a)
@[simp] theorem blank_paDone (src : Byte) (z : ZoneId) (t : Nat) (a : Act) : (paDone src z t a).blank = a.blank :=
  blank_of_residue (residue_of_offAsc (offAsc_paDone src z t a))
@[simp] theorem blank_zoneBoundary (z : ZoneId) (a : Act) : (zoneBoundary z a).blank = a.blank :=
  blank_of_residue (residue_of_offAsc (offAsc_zoneBoundary z a))
@[simp] theorem blank_tick (a : Act) : (tick a).blank = a.blank := blank_of_residue (residue_tick a)
@[simp] theorem blank_reckonHolds_id (a : Act) : (reckonHolds id a).blank = a.blank :=
  blank_of_residue (residue_reckonHolds_id a)

/-! ## Supply -/

@[simp] theorem blank_deriveSupply (r : List Request) (l : List SubId) (a : Act) : (deriveSupply r l a).blank = a.blank := by
  unfold deriveSupply
  dsimp only
  rw [blank_drain, blank_replaceAndGrant, foldl_keeps Act.blank _ (fun a r => blank_handleRequest r a)]
  rfl

@[simp] theorem blank_statusReport (src : Byte) (c : Bool) (k : Nat) (f : List Bool) (a : Act) :
    (statusReport src c k f a).blank = a.blank := by
  unfold statusReport
  split
  · rfl
  · dsimp only
    rw [blank_deriveSupply, foldl_keeps Act.blank]
    intro a b; rfl

@[simp] theorem blank_telemetryOut (l : List SubId) (a : Act) : (telemetryOut l a).2.blank = a.blank :=
  foldl_keeps Act.blank _ (fun a b => blank_onSupply b Supply.silent a) l a

@[simp] theorem blank_creditOut (l : List SubId) (a : Act) : (creditOut l a).blank = a.blank :=
  foldl_keeps Act.blank _ (fun a b => blank_onSupply b _ a) l a

@[simp] theorem blank_supplyBoundary (a : Act) : (supplyBoundary a).blank = a.blank := by
  unfold supplyBoundary
  dsimp only
  rw [blank_deriveSupply, foldl_keeps Act.blank _ (fun a i => blank_dropSlot i a), blank_creditOut, blank_telemetryOut]

@[simp] theorem blank_giveCredit (p : TpId) (a : Act) : (giveCredit p a).blank = a.blank := by
  unfold giveCredit; repeat' (first | split | simp)

@[simp] theorem blank_supplyValidated (a : Act) : (supplyValidated a).blank = a.blank := rfl

@[simp] theorem blank_unwait (w : Wait) (a : Act) : (unwait w a).blank = a.blank := by simp [unwait]

@[simp] theorem blank_resectionWaits (c : TpId → Bool) (a : Act) : (resectionWaits c a).blank = a.blank := by
  unfold resectionWaits
  dsimp only
  have := foldl_keeps Act.blank (fun a w => unwait w a) (fun a w => blank_unwait w a)
    ((allWaits a.s.psv).filter fun w => c w.point && ((a.s.tst.line.points.get w.point).depart).isNone) a
  exact this

/-! ## Trains -/

@[simp] theorem blank_unbind (i : TrainId) (a : Act) : (unbind i a).blank = a.blank := by
  unfold unbind
  split
  · rfl
  · dsimp only; split <;> rfl

@[simp] theorem blank_unschedule (i : TrainId) (a : Act) : (unschedule i a).blank = a.blank := by simp [unschedule]

@[simp] theorem blank_bindRun (i : TrainId) (n : Nat) (a : Act) : (bindRun i n a).blank = a.blank := by
  unfold bindRun; dsimp only; split <;> simp

@[simp] theorem blank_applyRun (i : TrainId) (n : Nat) (a : Act) : (applyRun i n a).blank = a.blank := by
  unfold applyRun; repeat' (first | split | simp)

@[simp] theorem blank_rebindOne (i : TrainId) (a : Act) : (rebindOne i a).blank = a.blank := by
  unfold rebindOne; repeat' (first | split | simp)

@[simp] theorem blank_rebind (a : Act) : (rebind a).blank = a.blank :=
  (blank_drain _).trans (forAll_keeps Act.blank _ (fun i a => blank_rebindOne i a) a)

@[simp] theorem blank_refuseCreation (n : Nat) (p : TpId) (a : Act) : (refuseCreation n p a).blank = a.blank := by
  unfold refuseCreation; dsimp only; split <;> rfl

@[simp] theorem blank_removeTrain (i : TrainId) (a : Act) : (removeTrain i a).blank = a.blank := by
  unfold removeTrain; split <;> simp

@[simp] theorem blank_lateTest (i : TrainId) (a : Act) : (lateTest i a).blank = a.blank := by
  unfold lateTest
  split
  · rfl
  · dsimp only; repeat' (first | split | simp)

@[simp] theorem blank_endStop (i : TrainId) (a : Act) : (endStop i a).blank = a.blank := by
  unfold endStop
  split
  · rfl
  · simp only [blank_request, blank_onTrain, blank_withdraw]; rfl

@[simp] theorem blank_endAnyStop (i : TrainId) (a : Act) : (endAnyStop i a).blank = a.blank := by
  unfold endAnyStop; split <;> simp

@[simp] theorem blank_stallGone (n : Nat) (a : Act) : (stallGone n a).blank = a.blank := by simp [stallGone]

@[simp] theorem blank_regulate (i : TrainId) (p : TpId) (n : Nat) (a : Act) : (regulate i p n a).1.blank = a.blank := by
  unfold regulate
  split
  · rfl
  · dsimp only; split <;> simp

@[simp] theorem blank_arrive (i : TrainId) (p : TpId) (time : Option Nat) (a : Act) :
    (arrive i p time a).1.blank = a.blank := by
  unfold arrive
  split
  · rfl
  · dsimp only
    split
    · rfl
    · split <;> simp

@[simp] theorem blank_passThrough (i : TrainId) (p : TpId) (time : Option Nat) (a : Act) :
    (passThrough i p time a).blank = a.blank := by
  unfold passThrough; dsimp only; split <;> simp

@[simp] theorem blank_departTrain (i : TrainId) (p : TpId) (time : Option Nat) (a : Act) :
    (departTrain i p time a).blank = a.blank := by
  unfold departTrain; dsimp only; split <;> simp

@[simp] theorem blank_eventWork (i : TrainId) (p : Passage) (time : Option Nat) (a : Act) :
    (eventWork i p time a).1.blank = a.blank := by
  unfold eventWork
  split
  · split <;> simp
  · simp
  · simp
  · simp

@[simp] theorem blank_serviceAnnouncement (i : TrainId) (p : TpId) (time : Option Nat) (b : Bool) (a : Act) :
    (serviceAnnouncement i p time b a).blank = a.blank := by
  unfold serviceAnnouncement; dsimp only; repeat' (first | split | simp)

@[simp] theorem blank_passageFor (i : TrainId) (p : Passage) (a : Act) : (passageFor i p a).1.blank = a.blank := by
  unfold passageFor
  dsimp only
  split
  · simp
  · rw [blank_serviceAnnouncement]
    split <;> simp

@[simp] theorem blank_handlePassage (p : Passage) (a : Act) : (handlePassage p a).1.blank = a.blank := by
  unfold handlePassage
  split
  · simp
  · split
    · rfl
    · split
      · simp
      · dsimp only; split <;> simp

@[simp] theorem blank_overdueOut (i : TrainId) (a : Act) : (overdueOut i a).blank = a.blank := by
  unfold overdueOut; split <;> simp

@[simp] theorem blank_powerWaitOut (i : TrainId) (a : Act) : (powerWaitOut i a).blank = a.blank := by
  unfold powerWaitOut; split <;> simp

@[simp] theorem blank_trainBoundary (i : TrainId) (a : Act) : (trainBoundary i a).blank = a.blank := by
  unfold trainBoundary
  split
  · rfl
  · split
    · simp
    · dsimp only; repeat' (first | split | simp)

@[simp] theorem blank_handOverDue (a : Act) : (handOverDue a).blank = a.blank := by
  unfold handOverDue; repeat' (first | split | simp)

@[simp] theorem blank_rollWaits (b : Nat) (a : Act) : (a.rollWaits b).blank = a.blank := rfl

@[simp] theorem blank_rollTrain (b : Nat) (i : TrainId) (a : Act) : (rollTrain b i a).blank = a.blank := rfl

@[simp] theorem blank_dayRoll (a : Act) : (dayRoll a).blank = a.blank := by
  unfold dayRoll
  dsimp only
  rw [blank_drain, blank_rollWaits, forAll_keeps Act.blank _ (fun i a => blank_rollTrain _ i a),
    forAll_keeps Act.blank _ (fun i a => blank_unbind i a)]
  rfl

/-! ## Boundaries -/

/-- A state without what the TST, the RRG, the PSV, the INC and the ASC hold. -/
def State.still (s : State) : State := { s.blank with tst := Tst.start }

/-- The still of an action's state. -/
def Act.still (a : Act) : State := a.s.still

theorem still_of_blank {a b : Act} (h : a.blank = b.blank) : a.still = b.still :=
  show { a.s.blank with tst := Tst.start } = { b.s.blank with tst := Tst.start } from
    congrArg (fun s : State => { s with tst := Tst.start }) h

@[simp] theorem still_report (k : Nat) (c : List Byte) (a : Act) : (a.report k c).still = a.still := rfl

/-- The TST is no part of the still. -/
theorem still_tst (a : Act) (t : Tst) : Act.still { a with s.tst := t } = a.still := rfl

@[simp] theorem still_inputConsequence (l : LineTables) (a : Act) : (inputConsequence l a).still = a.still := by
  unfold inputConsequence
  dsimp only
  rw [foldl_keeps Act.still _ (fun a r => still_of_blank (blank_ask _ a))]
  rfl

@[simp] theorem still_supplyConsequence (l : LineTables) (a : Act) : (supplyConsequence l a).still = a.still := by
  unfold supplyConsequence
  dsimp only
  split
  · exact still_of_blank (by simp)
  · rfl

@[simp] theorem still_areaConsequence (l : LineTables) (a : Act) : (areaConsequence l a).still = a.still := by
  unfold areaConsequence
  dsimp only
  exact (still_of_blank (blank_reckonHolds_id _)).trans rfl

@[simp] theorem still_applyGroup (g : List HeldEdit) (a : Act) : (applyGroup g a).still = a.still := by
  unfold applyGroup
  dsimp only
  rw [still_of_blank (blank_drain _), still_inputConsequence, still_supplyConsequence, still_areaConsequence]
  rfl

@[simp] theorem still_activate (i : SlotId) (a : Act) : (activate i a).still = a.still := by
  unfold activate
  dsimp only
  rw [still_report, still_of_blank (blank_rebind _), still_tst]

@[simp] theorem still_activatePending (a : Act) : (activatePending a).still = a.still := by
  unfold activatePending; split <;> simp

@[simp] theorem still_tstBoundary (a : Act) : (tstBoundary a).still = a.still := by
  unfold tstBoundary
  dsimp only
  rw [still_activatePending]
  exact foldl_keeps Act.still _ (fun a g => still_applyGroup g a) _ a

@[simp] theorem still_retentionOut (i : IncId) (a : Act) : (retentionOut i a).still = a.still := by
  unfold retentionOut; repeat' (first | split | rfl)

@[simp] theorem still_incBoundary (a : Act) : (incBoundary a).still = a.still := by
  unfold incBoundary
  dsimp only
  split
  · exact (still_of_blank (blank_tick _)).trans (forAll_keeps Act.still _ (fun i a => still_retentionOut i a) a)
  · exact forAll_keeps Act.still _ (fun i a => still_retentionOut i a) a

/-- The blocks' work at a boundary leaves the TIU, the LCK, the pins and the waiting commands alone. -/
@[simp] theorem still_blocksTake (roll : Bool) (a : Act) : (blocksTake roll a).still = a.still := by
  have h1 : (tstBoundary { a with s := fallAll a.s }).still = a.still := (still_tstBoundary _).trans rfl
  have h2 : (forAll 24 zoneBoundary (tstBoundary { a with s := fallAll a.s })).still = a.still :=
    (still_of_blank (forAll_keeps Act.blank _ (fun z a => blank_zoneBoundary z a) _)).trans h1
  unfold blocksTake
  dsimp only
  rw [still_incBoundary]
  refine (still_of_blank (blank_handOverDue _)).trans ((still_of_blank (blank_supplyBoundary _)).trans
    ((still_of_blank (forAll_keeps Act.blank _ (fun i a => blank_trainBoundary i a) _)).trans ?_))
  split
  · exact (still_of_blank (blank_dayRoll _)).trans h2
  · exact h2

@[simp] theorem still_clockRequest (r : Request) (a : Act) : (clockRequest r a).still = a.still := by
  unfold clockRequest
  split
  · rfl
  · exact still_of_blank (blank_request r a)

/-- A boundary leaves the LCK with the values it was made with, its timeout restarted at the cycle length then in
force, and the TIU, the pins and the waiting commands alone. -/
theorem still_makeBoundary (c : Lck) (e : Option ClockEvent) (roll : Bool) (a : Act) :
    (makeBoundary c e roll a).still = { a.s with lck := c.restart (cycleLength a.s) }.still := by
  have h : ∀ b : Act, b.still = { a.s with lck := c.restart (cycleLength a.s) }.still →
      (blocksTake roll b).still = { a.s with lck := c.restart (cycleLength a.s) }.still :=
    fun b hb => (still_blocksTake roll b).trans hb
  unfold makeBoundary
  dsimp only
  split
  · rw [still_clockRequest]; apply h; cases e <;> rfl
  · split
    · rw [still_clockRequest]; apply h; cases e <;> rfl
    · apply h; cases e <;> rfl

/-- The LCK after a boundary. -/
theorem lck_makeBoundary (c : Lck) (e : Option ClockEvent) (roll : Bool) (a : Act) :
    (makeBoundary c e roll a).s.lck = c.restart (cycleLength a.s) :=
  congrArg State.lck (still_makeBoundary c e roll a)

/-! ## Dispatch -/

/-- A state without what any block but the TIU holds. -/
def State.pins (s : State) : State := { s.still with lck := Lck.start }

/-- The pins of an action's state. -/
def Act.pins (a : Act) : State := a.s.pins

theorem pins_of_still {a b : Act} (h : a.still = b.still) : a.pins = b.pins :=
  show { a.s.still with lck := Lck.start } = { b.s.still with lck := Lck.start } from
    congrArg (fun s : State => { s with lck := Lck.start }) h

@[simp] theorem pins_makeBoundary (c : Lck) (e : Option ClockEvent) (roll : Bool) (a : Act) :
    (makeBoundary c e roll a).pins = a.pins :=
  congrArg (fun s : State => { s with lck := Lck.start }) (still_makeBoundary c e roll a)

@[simp] theorem pins_missBoundary (a : Act) : (missBoundary a).pins = a.pins := pins_makeBoundary _ _ _ a

@[simp] theorem pins_timeoutExpiry (a : Act) : (timeoutExpiry a).pins = a.pins := by
  unfold timeoutExpiry; repeat' (first | split | simp)

@[simp] theorem pins_takeMarker (n d : Nat) (a : Act) : (takeMarker n d a).1.pins = a.pins := by
  unfold takeMarker
  dsimp only
  split
  · simp
  · split
    · simp
    · split <;> simp
    · split
      · simp
      · split <;> simp
    · split
      · simp
      · split
        · rfl
        · simp

/-- The handling of an accepted field telegram leaves the TIU, the pins and the waiting commands alone: what it makes is
gathered until the telegram has been forwarded (R7). -/
@[simp] theorem pins_dispatch (t : Telegram) (c : Contents) (a : Act) : (dispatch t c a).1.pins = a.pins := by
  have b {x : Act} (h : x.blank = a.blank) : x.pins = a.pins := pins_of_still (still_of_blank h)
  unfold dispatch
  split
  · simp
  · split
    · rfl
    · exact b (blank_handlePassage _ a)
  · dsimp only; split
    · rfl
    · exact b (by simp)
  · dsimp only; split
    · rfl
    · exact b (by simp)
  · dsimp only; split
    · rfl
    · exact b (by simp)
  · rfl

/-- What states of equal pins agree on. -/
theorem pins_fields {s t : State} (h : s.pins = t.pins) :
    s.inReset = t.inReset ∧ s.links = t.links ∧ s.straps = t.straps ∧ s.address = t.address ∧ s.tiu = t.tiu
      ∧ s.freeCount = t.freeCount ∧ s.pending = t.pending :=
  have f {γ : Type} (g : State → γ) : g s.pins = g t.pins := congrArg g h
  ⟨f (·.inReset), f (·.links), f (·.straps), f (·.address), f (·.tiu), f (·.freeCount), f (·.pending)⟩

end Sys2Proof.Machine
end

