-- ==== Sys2Proof/WellFormed.lean ====
section
/-! DEFINITION. The well-formed commands: those that a port can carry. A telegram's payload has 0 to 240 bytes (Table
1-7); the row of the other field telegrams holds no CYCLE_MARKER, which has a row of its own. Values that the receive
checks judge are left to those checks. -/

namespace Sys2Proof

/-- Whether a telegram has a payload that its length field can give (Table 1-7). -/
def Telegram.fits (t : Telegram) : Bool := decide (t.payload.length ≤ 240)

/-- Whether a command is well formed. -/
def Instr.wellFormed : Instr → Bool
  | .substationStatus _ _ _ _ feeders => decide (feeders.length ≤ 237)
  | .equipmentStatus _ _ inputs => decide (inputs.length ≤ 239)
  | .otherFieldTelegram _ t => t.fits && decide (t.kind ≠ 0x01)
  | .roomTelegramForward t => t.fits
  | .manage _ _ _ args => decide (args.length ≤ 237)
  | .powerOn _ | .linkUp _ | .linkDown _ | .roomTransmissionEnd | .fieldTransmissionEnd | .cycleMarker _ _ _ _
  | .markerTimeoutExpiry | .silenceExpiry _ | .overdueExpiry _ | .powerWaitExpiry _ | .reportHoldOffExpiry
  | .telemetryTimeoutExpiry _ | .creditExpiry _ | .slotExpiry _ | .escalationTick | .escalation _ | .retentionExpiry _
  | .eligibleCountdownExpiry _ _ | .entryExpiry _ _ | .playTimeoutExpiry _ | .guardExpiry _ | .passage _ _ _ _ _ _ _
  | .paDone _ _ _ _ | .manageUnknownCommand | .loadOpen | .loadBlock | .loadAbort | .profileActivate | .editHold | .edit
  | .editRelease | .incidentRaise | .incidentAck | .incidentResolve | .zoneSet | .announce | .trainBind | .trainRemove
  | .queryTrain | .queryTimingPoint | .querySection | .querySubstation | .queryIncident | .queryZone | .queryClock
  | .queryProfile | .queryCounters | .queryIdentity | .queryMode | .countersClear | .restartWarm | .restartFull
  | .telegramDiscarded _ _ | .resetAssertion => true

end Sys2Proof
end

