-- ==== Sys2Proof/Tests/Slice0.lean ====
section
/-! SUPPORT. Our own tests: what WellFormed refuses, worked examples of the spec, one step each, and for every statement
with hypotheses a concrete state and operands that meet them, clause by clause. -/

namespace Sys2Proof.Tests

set_option Elab.async false

open Sys2Proof.Machine

/-! ## WellFormed refuses what no port can carry -/

/-- A header. -/
def head : Header := { dest := 255, src := 40, flags := 0 }

theorem test_wellFormed_feeders :
    (Instr.substationStatus .a head 1 0 (List.replicate 237 0)).wellFormed = true
    ∧ (Instr.substationStatus .a head 1 0 (List.replicate 238 0)).wellFormed = false := by decide +kernel

theorem test_wellFormed_inputs :
    (Instr.equipmentStatus .a head (List.replicate 239 0)).wellFormed = true
    ∧ (Instr.equipmentStatus .a head (List.replicate 240 0)).wellFormed = false := by decide +kernel

theorem test_wellFormed_payload :
    (Instr.roomTelegramForward { kind := 2, dest := 9, src := 8, flags := 0, payload := List.replicate 240 0 }).wellFormed
      = true
    ∧ (Instr.roomTelegramForward { kind := 2, dest := 9, src := 8, flags := 0, payload := List.replicate 241 0 }).wellFormed
      = false
    ∧ (Instr.otherFieldTelegram .a { kind := 6, dest := 9, src := 8, flags := 0, payload := List.replicate 241 0 }).wellFormed
      = false := by decide +kernel

theorem test_wellFormed_marker_has_its_own_row :
    (Instr.otherFieldTelegram .a { kind := 1, dest := 9, src := 8, flags := 0, payload := [] }).wellFormed = false := by
  decide

theorem test_wellFormed_arguments :
    (Instr.manage head 0x0C 0 (List.replicate 237 0)).wellFormed = true
    ∧ (Instr.manage head 0x0C 0 (List.replicate 238 0)).wellFormed = false := by decide +kernel

/-! ## States for the tests -/

/-- The state a command leads to. -/
def after (c : Instr) (s : State) : State :=
  match exec c s with
  | .next u => u
  | .fault _ => s
  | .refused _ => s

/-- Line tables: a platform 4 with departure section 2, a pass point 5, a line exit 6; section 2 fed by feeder 0 of
substation 1; zone 4; an input-map entry. -/
def line : LineTables :=
  let p : Point := { LineTables.standard.points.get 0 with area := 1, controller := 42, accel := 285 }
  let base := LineTables.standard
  { base with
    points := ((base.points.set 4
        { p with kind := .platform, minDwell := 200, dwell := 300, depart := some 2 }).set 5 p).set 6
        { p with kind := .lineExit }
    secs := base.secs.set 2 { used := true, area := 1, subA := 1, feederA := 0, subB := none, feederB := 0 }
    subs := base.subs.set 1 { used := true, unit := 70, cap := 2, l1 := 100, l2 := 200, telemetry := 600, window := 60 }
    zones := base.zones.set 4 { controller := 80, areas := 2, guard := 7, opens := true }
    inputMap := base.inputMap.set 3
      (some { equipment := 61, input := 1, inputClass := 0, object := .equipment, area := 1 })
    templates := base.templates.set 40 { priority := .disruption, duration := 80, params := 2, repeats := 1, interval := 300 } }

/-- A profile with one run, 417, of two steps from platform 4. -/
def profile : Profile :=
  { name := List.replicate 16 65
    params := { w := 8, hmin := 800, hx := 300, late := 1200, hysteresis := 300, delay := 1200, stall := 600,
                powerLimit := 1200, tick := 150 }
    patterns := Table.fill 16 [{ point := 4, runTime := 0, dwell := 300 }, { point := 5, runTime := 900, dwell := 0 }]
    runs := [{ number := 417, pattern := 0, origin := 510000, destination := 9 }]
    check := 0x5C07 }

/-- The part in SERVICE mode, the clock LOCKED at cycle 4000, every link up, nothing heard of the supply. -/
def service : State :=
  let psv : Psv :=
    { subs := Table.fill 8 Supply.start, secs := Table.fill 32 { state := none, source := none }, deadWaits := [] }
  let s : State :=
    { State.reset with
      links := { a := true, b := true, room := true }
      lck := { lock := .locked, cycle := 4000, dayTime := 51000000, missed := 0, timeBase := 1000, deadline := some 1375 }
      tst := { State.reset.tst with
        lineState := .valid
        line := line
        slots := Table.build 3 fun i =>
          if i = 0 then { state := .active, profile := some profile }
          else if i = 1 then { state := .ready, profile := some profile }
          else { state := .empty, profile := none } }
      asc := { zones := State.reset.asc.zones.set 4 (Zone.start .opened) }
      psv := psv }
  { s with psv := derived s }

/-- The same in PREPARED mode. -/
def prepared : State :=
  { service with tst.slots := service.tst.slots.set 0 { state := .ready, profile := some profile } }

/-- The same with the clock UNSET. -/
def unset : State := { service with lck := State.reset.lck }

/-- A train record at platform 4. -/
def train : Train := { newTrain 240 with state := .dwelling, point := some 4, target := some 510300 }

/-- The part in SERVICE mode with that train in record 0. -/
def withTrain (t : Train) : State := { service with rrg.trains := service.rrg.trains.set 0 (some t) }

/-- An open incident of a train. -/
def incident : Incident :=
  { number := 412, cls := .trainStalled, object := .train 240, areas := 2,
    effects := { suspend := false, hold := false, announce := false }, mandatory := false, template := none,
    state := .raised, cause := .present, level := 0, countdown := some 1, recurrences := 0, recurred := false,
    opened := none, ackTag := none, retention := none }

/-- The part in SERVICE mode with that incident in record 0. -/
def withIncident (r : Incident) : State :=
  { service with
    inc.records := service.inc.records.set 0 (some r)
    inc.resolved := if r.state = .resolved then [0] else [] }

/-- An entry of a console, waiting. -/
def entry : Entry :=
  { template := 40, priority := .disruption, source := .console 7, params := [], repeats := 2, interval := 1200,
    eligible := 1, expiry := some 1, seq := 0 }

/-- The part in SERVICE mode with a zone in place of zone 4. -/
def withZone (q : Zone) : State := { service with asc.zones := service.asc.zones.set 4 q }

/-- A zone that waits in GUARD with the entry queued. -/
def guarding : Zone := { Zone.start .guarding with queue := [entry], arrivals := 1, guard := some 1 }

/-- A zone that plays the entry. -/
def playing : Zone :=
  { Zone.start .playing with current := some entry, tag := some 17, nextTag := 18, arrivals := 1, play := some 1 }

/-- A MANAGE telegram from console 200. -/
def manageOf (code : Byte) (args : List Byte) : Telegram :=
  { kind := 0x21, dest := 1, src := 200, flags := 0, payload := [code, 0, 9] ++ args }

/-- A state whose management input queue holds a command alone. -/
def holding (code : Byte) (args : List Byte) (s : State) : State := { s with tiu.manage := [manageOf code args] }

/-- The data of the last telegram in a room-bound queue. -/
def lastData (s : State) : List Byte := ((s.tiu.room.getLast?.map (·.telegram.payload)).getD []).drop 4

/-- The state with the room transmitter busy, so that what is queued for the room stays to be read. -/
def roomBusy (s : State) : State := { s with tiu.roomSending := some (manageOf 0 []) }

/-! ## Worked examples of the spec -/

/-- R2: the check of the ASCII digits 1 to 9. -/
theorem test_check_of_digits : crc16 [0x31, 0x32, 0x33, 0x34, 0x35, 0x36, 0x37, 0x38, 0x39] = 0x29B1 := by decide +kernel

/-- Chapter 2, losing and regaining the master, rows 0 and 2: the expected marker, then its late copy. -/
theorem test_marker_expected_then_late_copy :
    let s : State := { State.reset with
      links := { a := true, b := true, room := true }
      lck := { lock := .locked, cycle := 4000, dayTime := 25200000, missed := 0, timeBase := 0, deadline := some 200 } }
    let u := after (.cycleMarker .a { dest := 255, src := 90, flags := 0 } 4001 25200250) s
    let v := after (.cycleMarker .b { dest := 255, src := 90, flags := 0 } 4001 25200250) u
    u.lck = { lock := .locked, cycle := 4001, dayTime := 25200250, missed := 0, timeBase := 0, deadline := some 375 }
    ∧ u.tiu.roomSending.isSome = true ∧ v.lck = u.lck ∧ v.tiu.room = [] := by decide +kernel

/-- The same sequence, rows 375 and 750: two misses, COASTING then UNLOCKED. -/
theorem test_timeout_coasting_then_unlocked :
    let s : State := { State.reset with
      lck := { lock := .locked, cycle := 4001, dayTime := 25200250, missed := 0, timeBase := 375, deadline := some 375 } }
    let u := after .markerTimeoutExpiry s
    let v := after .markerTimeoutExpiry { u with lck.timeBase := 750 }
    u.lck = { lock := .coasting, cycle := 4002, dayTime := 25200500, missed := 1, timeBase := 375, deadline := some 750 }
    ∧ v.lck = { lock := .unlocked, cycle := 4003, dayTime := 25200750, missed := 2, timeBase := 750, deadline := some 1000 } := by
  decide +kernel

/-- Table 5-3: the blend term at w = 8 for differences of +1, −1 and −130. -/
theorem test_blend_rounds_half_up :
    let x (released : Nat) : Inputs :=
      { time := 1000, sched := some { arrival := 1000, departure := 2000, dwell := 300 }, minDwell := 0, defDwell := 0,
        released := some released, releasedSched := none, w := 8, hmin := 0, hx := 0, hn := 1100 }
    (x 901).blend = 2001 ∧ (x 899).blend = 2000 ∧ (x 770).blend = 1935 := by decide +kernel

/-- R187, bringing a part into service, row 1: QUERY MODE after power-on answers BARE, INVALID, no ACTIVE slot, UNSET,
address 1. -/
theorem test_query_mode_after_power_on :
    lastData (after .queryMode (roomBusy (holding 0x0F [10, 0, 0, 0] (after (.powerOn 0) State.reset))))
      = [0, 0, 255, 0, 1] ∧
    (after .queryMode (holding 0x0F [10, 0, 0, 0] (after (.powerOn 0) State.reset))).tiu.manage = [] := by
  decide +kernel

/-- The same, row 2: EDIT_HOLD is refused with MODE in BARE mode, and nothing opens. -/
theorem test_edit_hold_in_bare :
    (after .editHold (holding 0x05 [] State.reset)).tst.openGroup = none := by decide +kernel

/-- R18: the first marker sets the clock; R25: a much lower day time is a day roll. -/
theorem test_first_marker_and_day_roll :
    (after (.cycleMarker .a head 7 300000) { State.reset with links := { a := true, b := false, room := false } }).lck
      = { lock := .locked, cycle := 7, dayTime := 300000, missed := 0, timeBase := 0, deadline := some 375 }
    ∧ (after (.cycleMarker .a head 18641 300000)
        { service with lck.cycle := 18640, lck.dayTime := 97920000 }).lck.cycle = 18641 := by decide +kernel

/-- R65, R84: a train of run 417 arrives at platform 4 at 51,000,000 ms and dwells until its scheduled departure. -/
theorem test_arrival_dwells :
    ((after (.passage .a head 240 417 4 0 0) service).rrg.trains.get 0).map
        (fun t => (t.run, t.step, t.state, t.target))
      = some (some 417, some 0, .dwelling, some 510300) := by decide +kernel

/-- R66, R85: a departure from platform 4 without a release is counted as unplanned. -/
theorem test_departure_unplanned :
    (after (.passage .a head 240 0 4 1 0) (withTrain train)).rrg.unplanned = 1 := by decide +kernel

/-- R95: a status of an OPEN incomer trips the substation; a later one sets it ONLINE with its base of C. -/
theorem test_status_trips_and_restores :
    let u := after (.substationStatus .a { head with src := 70 } 0 0 [1]) service
    let v := after (.substationStatus .a { head with src := 70, flags := 1 } 1 90 [1]) u
    (u.psv.subs.get 1).state = .tripped ∧ (u.psv.subs.get 1).capacity = 0
    ∧ (v.psv.subs.get 1).state = .online ∧ (v.psv.subs.get 1).capacity = 2
    ∧ (v.psv.secs.get 2).state = some .energized := by decide +kernel

/-- R44 to R46: an empty LINE image in one block is valid, with every record at its default; check of no bytes FFFF. -/
theorem test_load_of_an_empty_line_image :
    let u := after .loadOpen (holding 0x01 [255, 0, 1, 0xFF, 0xFF] State.reset)
    let v := after .loadBlock (holding 0x02 [0, 0] u)
    u.tst.lineState = .loading ∧ v.tst.lineState = .valid ∧ v.tst.load = none ∧ mode v = .prepared := by decide +kernel

/-- R43: of a SUBSTATION record with L1 100, an L2 of 80 is raised to 100 and counts one clamp; an L2 of 30, below its own
range too, counts two, the model's choice (log entry 58). -/
theorem test_substation_clamps :
    let image (l2 : Byte) : List Byte := [0x04, 9, 1, 70, 3, 100, l2, 0, 0, 0, 0]
    let read (l2 : Byte) := match validateLine (image l2) with
      | .valid l n => some ((l.subs.get 1).l2, n)
      | .fault _ => none
    read 80 = some (100, 1) ∧ read 30 = some (100, 2) := by decide +kernel

/-- R145: an escalation raises the level and reloads the countdown from the class, 63 by default. -/
theorem test_escalation :
    ((after (.escalation 0) (withIncident incident)).inc.records.get 0).map (fun r => (r.level, r.countdown, r.state))
      = some (1, some 63, .raised) := by decide +kernel

/-- R163: a completion returns the entry with one repeat less and its interval to wait, and the zone guards. -/
theorem test_pa_done :
    let q := (after (.paDone .a { head with src := 80 } 4 17) (withZone playing)).asc.zones.get 4
    q.state = .guarding ∧ q.current = none ∧ q.queue.map (fun e => (e.repeats, e.eligible)) = [(1, 1200)] := by
  decide +kernel

/-- R137: an operator's raise opens a record with the next number. -/
theorem test_incident_raise :
    ((after .incidentRaise (holding 0x08 [0, 2, 0, 3, 255, 0] service)).inc.records.get 0).map
      (fun r => (r.number, r.level, r.countdown)) = some (1, 0, some 3) := by decide +kernel

/-! ## The hypotheses of the statements are met

Each theorem is named for its statement, and shows for each of its clauses a state and operands that meet the clause's
hypotheses, at the ends of ranges where the clause has a range. -/

/-- The parts of `Accepted`, together. -/
theorem accepted_of {s : State} {p : FieldPort} {t : Telegram} {c : Contents}
    (h : s.inReset = false ∧ s.links.up p.port = true ∧ t.payload.length ≤ 240 ∧ t.src ≠ s.address ∧ t.kind ≠ kindManage
      ∧ contents? t = some c ∧ (t.kind = kindMarker ∨ isDuplicate s t = false)) : Accepted s p t c :=
  { awake := h.1, link := h.2.1, size := h.2.2.1, foreign := h.2.2.2.1, direct := h.2.2.2.2.1, form := h.2.2.2.2.2.1,
    fresh := h.2.2.2.2.2.2 }

/-- The parts of `TakenAs`, together. -/
theorem takenAs_of {s : State} {t : Telegram} {rest : List Telegram} {code : Nat} {args : List Byte}
    (h : s.inReset = false ∧ s.tiu.manage = t :: rest ∧ s.tiu.room.length < 64 ∧ commandOf t = code ∧ argsOf t = args) :
    TakenAs s t rest code args :=
  { awake := h.1, queue := h.2.1, place := h.2.2.1, code := h.2.2.2.1, args := h.2.2.2.2 }

/-- A command alone in the management input queue can be taken. -/
theorem takenAs_holding (code : Byte) (args : List Byte) (s : State) (h : s.inReset = false ∧ s.tiu.room.length < 64) :
    TakenAs (holding code args s) (manageOf code args) [] code.toNat args := by
  refine takenAs_of ⟨h.1, rfl, h.2, ?_, rfl⟩
  simp [commandOf, manageOf, field, numOf]

theorem test_EmptyQueueLetsTimePass :
    service.pending = [] ∧ ({ service with inReset := true } : State).inReset = true
    ∧ service.inReset = false ∧ service.lck.deadline = some 1375 ∧ service.lck.timeBase < 1375
    ∧ ({ service with lck.timeBase := 1375 } : State).lck.deadline = some 1375 := by decide +kernel

theorem test_PowerOnAndReset :
    ({ service with inReset := true } : State).inReset = true ∧ (∀ x, Instr.edit ≠ .powerOn x)
    ∧ (∀ p, Instr.edit ≠ .linkUp p) ∧ (∀ p, Instr.edit ≠ .linkDown p) ∧ Instr.edit ≠ .resetAssertion := by
  refine ⟨rfl, ?_, ?_, ?_, ?_⟩ <;> intros <;> exact fun h => Instr.noConfusion h

theorem test_LinksUpAndDown :
    service.inReset = false ∧ exec (.linkUp .room) service = .next (after (.linkUp .room) service) := ⟨rfl, rfl⟩

/-- A telegram from station 8 to station 9, and it in the room-bound queue as forwarded or as a REPLY. -/
def other : Telegram := { kind := 6, dest := 9, src := 8, flags := 1, payload := [1, 2, 3] }

theorem test_TransmissionEndsTakeHeads :
    service.inReset = false ∧ service.tiu.room = [] ∧ service.links.room = true ∧ service.links.a = true
    ∧ ({ service with tiu.room := [{ kind := .forwarded, telegram := other }] } : State).tiu.room
      = { kind := .forwarded, telegram := other } :: []
    ∧ ({ service with tiu.room := [{ kind := .reply, telegram := other }] } : State).tiu.room
      = { kind := .reply, telegram := other } :: []
    ∧ service.tiu.orders = [] ∧ service.tiu.forward = []
    ∧ ({ service with tiu.orders := [.release 42 4 417] } : State).tiu.orders = .release 42 4 417 :: []
    ∧ ({ service with tiu.forward := [other] } : State).tiu.forward = other :: [] := by decide +kernel

theorem test_FrameRoundTrip : ({ other with payload := List.replicate 240 7 } : Telegram).payload.length ≤ 240 := by
  decide +kernel

theorem test_DiscardsAreCounted :
    service.inReset = false ∧ State.reset.links.up .room = false ∧ service.links.up .fieldA = true
    ∧ readFrame [] = .lengthFault ∧ readFrame (List.replicate 46 0) = .checkFault
    ∧ readFrame (List.replicate 48 0) = .lengthFault ∧ readFrame (List.replicate 46 241) = .lengthFault
    ∧ readFrame (telegramFrame { other with dest := 1 }) = .sound { other with dest := 1 }
    ∧ readFrame (telegramFrame (manageOf 3 [])) = .sound (manageOf 3 [])
    ∧ readFrame (telegramFrame { manageOf 3 [] with payload := [3] }) = .sound { manageOf 3 [] with payload := [3] }
    ∧ readFrame (telegramFrame { other with src := 1 }) = .sound { other with src := 1 }
    ∧ readFrame (telegramFrame { other with kind := 5 }) = .sound { other with kind := 5 }
    ∧ contents? { other with kind := 5 } = none
    ∧ contents? other ≠ none ∧ isDuplicate { service with tiu.duplicates := service.tiu.duplicates.set 8 .one } other = true
    := by decide +kernel

theorem test_SecondCopyIsDuplicate :
    other.kind ≠ kindMarker ∧ Accepted service .a other .other ∧ service.links.up FieldPort.b.port = true :=
  ⟨by decide, accepted_of (by decide +kernel), rfl⟩

/-- A PASSAGE of train set 240 on run 417. -/
def passing (point event : Byte) (offset : BitVec 16) : Telegram := passageTelegram head 240 417 point event offset

/-- The contents of that PASSAGE. -/
def passed (point : TpId) (event : PassageEvent) : Passage :=
  { set := 240, run := 417, point := point, event := event, offset := 30 }

/-- A state whose room-bound queue holds `n` telegrams. -/
def filled (n : Nat) (s : State) : State :=
  { s with tiu.room := List.replicate n { kind := .forwarded, telegram := other } }

theorem test_OtherTelegramsOnlyForwarded :
    Accepted service .a other .other
    ∧ Accepted { State.reset with links := service.links } .a (passing 4 0 30) (.passage (passed 4 .arrive))
    ∧ mode State.reset = .bare ∧ (filled 47 service).tiu.room.length < min (warnLevel service) 64
    ∧ min (warnLevel service) 64 ≤ (filled 48 service).tiu.room.length
    ∧ (passing 4 0 30).kind = kindPassage ∧ 60 ≤ (filled 60 State.reset).tiu.room.length :=
  ⟨accepted_of (by decide +kernel), accepted_of (by decide +kernel), by decide +kernel⟩

theorem test_RoomTelegramsQueued :
    service.inReset = false ∧ service.links.room = true ∧ other.payload.length ≤ 240 ∧ other.dest ≠ service.address
    ∧ ({ service with tiu.forward := List.replicate 31 other } : State).tiu.forward.length < 32
    ∧ 32 ≤ ({ service with tiu.forward := List.replicate 32 other } : State).tiu.forward.length
    ∧ ({ head with dest := 1 } : Header).dest = service.address ∧ (List.replicate 237 (0 : Byte)).length ≤ 237
    ∧ ({ service with tiu.manage := List.replicate 7 other } : State).tiu.manage.length < 8
    ∧ 8 ≤ ({ service with tiu.manage := List.replicate 8 other } : State).tiu.manage.length
    ∧ service.tiu.orders = [] ∧ service.links.a = true := by decide +kernel

/-- A HOLD_ORDER for timing point 4. -/
def hold : Order := .hold 42 4 417 30 .regulation

/-- An ANNOUNCE for zone 4. -/
def call (tag : Nat) : Order := .announce 80 4 tag 40 false [1, 2] none

theorem test_TransmittersLoseNothing :
    let s : State := { filled 1 service with tiu.orders := [hold], tiu.forward := [other] }
    s.tiu.roomSending = none ∧ s.links.room = true ∧ s.tiu.room ≠ [] ∧ s.tiu.fieldSending = none ∧ s.links.a = true
    ∧ (settle s).tiu.room = [] ∧ (settle s).tiu.orders = [] ∧ (settle s).tiu.forward = [other]
    ∧ (settle { s with tiu.orders := [] }).tiu.forward = [] := by decide +kernel

theorem test_OrderQueueLawKept : [hold, call 17].Pairwise fun x y => x.rivals y = false := by decide +kernel

theorem test_SupersessionTable :
    (∀ o ∈ [hold], o.rivals (call 17) = false) ∧ (∀ o ∈ [call 17], o.point? ≠ some 4) ∧ hold.point? = some 4
    ∧ (Order.release 42 4 417).point? = some 4 ∧ (∀ o ∈ [hold], o.zone? ≠ some 4) ∧ (17 : Nat) ≠ 18 := by decide +kernel

/-- An edit of the warning level. -/
def edit : HeldEdit := { table := .defaults, index := 0, field := 1, value := 40, slot := none }

theorem test_MarkerOutcome :
    Accepted service .a (markerTelegram head 4001 51000250) (.marker 4001 51000250)
    ∧ Accepted unset .b (markerTelegram head 0xFFFF 107999999) (.marker 65535 107999999) :=
  ⟨accepted_of (by decide +kernel), accepted_of (by decide +kernel)⟩

theorem test_MarkerOutcome_day_roll :
    let s : State := withTrain { train with silence := 2 }
    Accepted s .a (markerTelegram head 4001 14999999) (.marker 4001 14999999) ∧ mode s ≠ .bare ∧ s.lck.lock ≠ .unset
    ∧ 14999999 + 36000000 < s.lck.dayTime ∧ s.rrg.trains.get 0 = some { train with silence := 2 }
    ∧ train.target = some 510300 ∧ (withTrain { train with target := none }).rrg.trains.get 0 = some { train with target := none } :=
  ⟨accepted_of (by decide +kernel), by decide +kernel⟩

/-- The part with a group waiting and slot 1 pending. -/
def staged : State := { service with tst.waiting := [[edit]], tst.pendingSlot := some 1 }

theorem test_MarkerOutcome_boundary :
    Accepted staged .a (markerTelegram head 4001 51000250) (.marker 4001 51000250) ∧ mode staged ≠ .bare
    ∧ (4001 : BitVec 16).toNat ≠ staged.lck.cycle ∧ staged.tst.pendingSlot = some 1
    ∧ Accepted staged .a (markerTelegram head 4000 51000250) (.marker 4000 51000250)
    ∧ ¬(staged.lck.lock = .unset ∨ 51000250 + 36000000 < staged.lck.dayTime ∨ (4000 : BitVec 16).toNat ≠ staged.lck.cycle) :=
  ⟨accepted_of (by decide +kernel), by decide +kernel, by decide +kernel, by decide +kernel,
    accepted_of (by decide +kernel), by decide +kernel⟩

/-- A part whose records have no HOLD has none. -/
theorem noHolds_of {s u : State}
    (h : ∀ i : IncId, ((s.inc.records.get i).all (fun r => !r.effects.hold) && (u.inc.records.get i).all (fun r => !r.effects.hold))
      = true) : NoHolds s u := by
  rintro i r (e | e) <;> have := h i <;> simp_all

/-- R51: the report of slot 1, activated after slot 0, with the name, the check and the one run of its profile. -/
theorem test_boundary_tells_the_profile :
    (staged.tst.slots.get 1).profile = some profile
    ∧ profileTold staged 1 profile = [3, 1, 0] ++ List.replicate 16 65 ++ [0x5C, 0x07, 0, 1]
    ∧ reportItem 1 (profileTold staged 1 profile) ∈ (after (.cycleMarker .a head 4001 51000250) (roomBusy staged)).tiu.room := by
  decide +kernel

/-- The part with a train whose countdowns run: overdue 2, silence 2, and the same at the last count of its silence. -/
def counting (silence : Nat) : State := withTrain { train with state := .running, target := none, overdue := some 2, silence := silence }

/-- R29: the countdowns of a record, of a retention and the hold-off fall by one at a boundary. -/
theorem test_boundary_lowers_countdowns :
    let c : Instr := .cycleMarker .a head 4001 51000250
    let r : Incident := { incident with state := .resolved, retention := some 2 }
    Accepted (counting 2) .a (markerTelegram head 4001 51000250) (.marker 4001 51000250)
    ∧ ((after c (counting 2)).rrg.trains.get 0).map (fun t => (t.overdue, t.silence)) = some (some 1, 1)
    ∧ (after c (counting 1)).rrg.trains.get 0 = none
    ∧ (withIncident r).inc.records.get 0 = some r
    ∧ ((after c (withIncident r)).inc.records.get 0).map (·.retention) = some (some 1)
    ∧ (after c (withIncident { r with retention := some 1 })).inc.records.get 0 = none
    ∧ (after c { service with rrg.holdOff := 60 }).rrg.holdOff = 59 :=
  ⟨accepted_of (by decide +kernel), by decide +kernel⟩

/-- R51, R54: at the boundary the warning level of the group is in force, slot 1 ACTIVE and slot 0 READY. -/
theorem test_boundary_writes_and_activates :
    let u := after (.cycleMarker .a head 4001 51000250) staged
    u.tst.line.defaults.w = 40 ∧ (u.tst.slots.get 1).state = .active ∧ (u.tst.slots.get 0).state = .ready
    ∧ u.tst.pendingSlot = none ∧ u.tst.waiting = [] := by decide +kernel

theorem test_MarkerTimeoutMisses :
    service.inReset = false ∧ ({ service with lck.timeBase := 1375 } : State).lck.deadline = some 1375
    ∧ ({ service with lck.timeBase := 1375 } : State).lck.lock ≠ .unset ∧ mode service ≠ .bare
    ∧ (service.psv.subs.get 1).telemetry = none ∧ unset.lck.deadline = none
    ∧ ({ staged with lck.timeBase := 1375 } : State).tst.pendingSlot = some 1
    ∧ ((withTrain { train with silence := 2 }).rrg.trains.get 0).map Train.silence = some 2
    ∧ ((withTrain { train with silence := 1 }).rrg.trains.get 0).map Train.silence = some 1
    ∧ 2 ≤ service.inc.prescaler := by decide +kernel

theorem test_MarkerTimeoutMisses_countdowns :
    let s : State := { service with
      psv.subs := service.psv.subs.set 1 { service.psv.subs.get 1 with telemetry := some 1, credit := some 2 } }
    (s.psv.subs.get 1).telemetry = some 1 ∧ (s.psv.subs.get 1).credit = some 2 := by decide +kernel

/-- A part in BARE mode with a LINE load open and the clock running. -/
def bare : State :=
  { State.reset with
    links := service.links
    lck := { service.lck with lock := .coasting, timeBase := 1375 }
    tst := { State.reset.tst with
      lineState := .loading
      load := some { target := .line, remaining := 2, expected := 0, check := 0, image := [] } } }

theorem test_MarkerOutcome_bare :
    Accepted bare .a (markerTelegram head 4001 51000250) (.marker 4001 51000250) ∧ mode bare = .bare
    ∧ bare.lck.deadline = some 1375 ∧ SupplyLaw bare ∧ HoldLaw bare := by
  have n : ∀ i, bare.inc.records.get i = none := by decide +kernel
  refine ⟨accepted_of (by decide +kernel), by decide +kernel, by decide +kernel, ⟨by decide +kernel, ?_⟩, fun p => ?_,
    fun _ => ⟨n, by decide +kernel⟩⟩
  · exact {
      held := by decide +kernel
      stopped := fun i t a => absurd a (by decide +revert +kernel)
      lists := fun b w m => absurd m (by simp [show (bare.psv.subs.get b).waits = [] by decide +revert +kernel])
      dead := fun w m => absurd m (by simp [show bare.psv.deadWaits = [] by decide +kernel])
      once := by decide +kernel
      order := by decide +kernel
      joins := by decide +kernel
      full := by decide +kernel
      bare := fun _ => by decide +kernel }
  · have f : bare.inc.underHold.get p = false := by decide +revert +kernel
    simp [f, HoldCovers, n]

theorem test_MarkerOutcome_bare_tables : TstLaw bare.tst where
  oneActive := by decide +kernel
  holds := by decide +kernel
  pending := by decide +kernel
  lineLoading := ⟨fun _ => ⟨_, rfl, rfl⟩, fun _ => rfl⟩
  slotLoading i := ⟨fun h => absurd h (by decide +revert +kernel), fun ⟨l, h, k⟩ => by cases h; cases k⟩
  blocks l h := by cases h; decide
  openGroup g h := by cases h
  waiting := by decide +kernel
  groups := by decide +kernel
  bare _ := by decide +kernel

theorem test_LineTimeArithmetic :
    0 < 250 ∧ 65535 ≤ 65535 ∧ unset.lck.lock = .unset ∧ service.lck.lock ≠ .unset ∧ service.lck.dayTime ≤ 107999999
    ∧ 249 < cycleLength service ∧ service.lck.dayTime + 249 ≤ 107999999 ∧ cycleLength service ≤ 250
    ∧ 107999999 < ({ service with lck.dayTime := 107999999 } : State).lck.dayTime + min 1 (cycleLength service - 1) := by
  decide +kernel

theorem test_PassageWritesRecord :
    Accepted service .a (passing 4 0 30) (.passage (passed 4 .arrive)) ∧ mode service ≠ .bare
    ∧ ¬((service.tst.line.points.get 4).kind = .lineExit ∧ (PassageEvent.arrive = .arrive ∨ PassageEvent.arrive = .pass))
    ∧ passageRecord service 240 0 (newTrain 240) ∧ passageRecord (withTrain train) 240 0 train
    ∧ bindsQuietly (withTrain train) 0 417 train ∧ train.state.stopped = true ∧ train.point = some 4
    ∧ Accepted (withTrain train) .a (passing 5 2 30) (.passage (passed 5 .pass))
    ∧ Accepted (withTrain train) .b (passing 4 1 30) (.passage (passed 4 .depart)) :=
  ⟨accepted_of (by decide +kernel), by decide +kernel, by decide +kernel,
    .inr (by decide +kernel), .inl (by decide +kernel), by unfold bindsQuietly; decide +kernel, by decide +kernel,
    by decide +kernel, accepted_of (by decide +kernel), accepted_of (by decide +kernel)⟩

/-- What holds of every item of an option that passes a test. -/
theorem all_of {α : Type} {o : Option α} {p : α → Bool} (h : o.all p = true) : ∀ a, o = some a → p a = true := by
  rintro a rfl
  exact h

/-- A part in which no train waits or holds a slot, and none stands with one, keeps the law of the slot pools. -/
theorem poolLaw_quiet {s : State} (v : tablesValid s = true)
    (h : ∀ b, (s.psv.subs.get b).held = 0 ∧ (s.psv.subs.get b).waits = [] ∧ slotHolders s b = [])
    (d : s.psv.deadWaits = []) (t : ∀ i : TrainId, (s.rrg.trains.get i).all (fun t => decide (t.slot = none)) = true) :
    PoolLaw s where
  held b := by simp [(h b).1, (h b).2.2]
  stopped i r a _ := of_decide_eq_true (all_of (t i) r a)
  lists b w m := by simp [(h b).2.1] at m
  dead w m := by simp [d] at m
  once := by
    have e : s.psv.subs.items.flatMap (·.waits) = [] := by
      rw [List.flatMap_eq_nil_iff]
      intro x m
      obtain ⟨k, l, e⟩ := List.getElem_of_mem m
      exact e ▸ (h ⟨k, by rw [← s.psv.subs.size]; exact l⟩).2.1
    simp [allWaits, d, e]
  order b := by simp [(h b).2.1]
  joins b := by simp [(h b).2.1]
  full b m := absurd (h b).2.1 m
  bare e := by simp [v] at e

theorem test_PassageWritesRecord_supply : SupplyLaw (withTrain train) :=
  ⟨by decide +kernel, poolLaw_quiet (by decide +kernel) (by decide +kernel) (by decide +kernel) (by decide +kernel)⟩

/-- The part at a later time of day with a bound train at platform 4. -/
def behind (dayTime : Nat) (t : Train) : State :=
  { withTrain { t with run := some 417, step := some 0 } with lck := { service.lck with dayTime := dayTime } }

/-- R99: section 2 of platform 4 has feed A of substation 1 as its source; an ARRIVE is no APPROACH. -/
theorem test_PassageWritesRecord_credit :
    Accepted (withTrain train) .a (passing 4 3 30) (.passage (passed 4 .approach)) ∧ service.lck.lock ≠ .unset
    ∧ (service.tst.line.points.get 4).kind = .platform
    ∧ ((service.tst.line.points.get 4).depart.bind fun x => (service.psv.secs.get x).source) = some (1, .a)
    ∧ ((after (.passage .a head 240 417 4 3 30) (withTrain train)).psv.subs.get 1).credit = some 24
    ∧ (service.tst.line.points.get 5).kind ≠ .platform ∧ unset.lck.lock = .unset
    ∧ PassageEvent.arrive ≠ .approach :=
  ⟨accepted_of (by decide +kernel), by decide +kernel⟩

/-- The part with a trigger at platform 4 for the train's arrival at point 5, and the bound train there. -/
def triggered : State :=
  let s := behind 51000000 train
  let p : Point :=
    { line.points.get 4 with hasTrigger := true, trigZone := 4, trigTarget := 5, trigNext := 40, trigDelayed := 41 }
  { s with tst.line.points := line.points.set 4 p }

/-- The announcement of that train: due at 511200 (dwell 300, run 900), 2 minutes after 510000. -/
def nextTrain : NewEntry :=
  { template := 40, source := .run 417, params := [9, 5, 2], repeats := 1, interval := none, expiry := some 480 }

theorem test_PassageWritesRecord_announced :
    let r : Train := { train with run := some 417, step := some 0, state := .running }
    Accepted triggered .a (passing 4 1 30) (.passage (passed 4 .depart)) ∧ SupplyLaw triggered
    ∧ (∀ j, triggered.inc.records.get j = none) ∧ passageTime triggered 30 = some 510000
    ∧ (triggered.tst.line.points.get 4).hasTrigger = true ∧ ServiceCall triggered 4 false r 510000 nextTrain
    ∧ ServiceCall triggered 4 true r 510000 nextTrain
    ∧ (service.tst.line.points.get 4).hasTrigger = false
    ∧ (∀ e, ¬ServiceCall triggered 4 false { r with run := none } 510000 e)
    ∧ (((after (.passage .a head 240 417 4 1 30) triggered).asc.zones.get 4).current).map (·.params) = some [9, 5, 2] := by
  refine ⟨accepted_of (by decide +kernel), ⟨by decide +kernel, poolLaw_quiet (by decide +kernel) (by decide +kernel)
    (by decide +kernel) (by decide +kernel)⟩, by decide +kernel, by decide +kernel, by decide +kernel,
    ⟨417, { number := 417, pattern := 0, origin := 510000, destination := 9 },
      [{ point := 4, runTime := 0, dwell := 300 }, { point := 5, runTime := 900, dwell := 0 }], 0, 1, rfl, by decide +kernel,
      rfl, ⟨by decide +kernel, by decide +kernel, fun i a b => ?_⟩, by decide +kernel⟩,
    ⟨417, { number := 417, pattern := 0, origin := 510000, destination := 9 },
      [{ point := 4, runTime := 0, dwell := 300 }, { point := 5, runTime := 900, dwell := 0 }], 0, 1, rfl, by decide +kernel,
      rfl, ⟨by decide +kernel, by decide +kernel, fun i a b => ?_⟩, by decide +kernel⟩,
    by decide +kernel, fun e h => ?_, by decide +kernel⟩
  · obtain rfl : i = 0 := by omega
    exact absurd a (by decide)
  · obtain rfl : i = 0 := by omega
    decide
  · obtain ⟨n, _, _, _, _, a, _⟩ := h
    cases a

theorem test_PassageForwardedWithAnnex :
    Accepted (withTrain train) .a (passing 4 1 30) (.passage (passed 4 .depart)) ∧ mode (withTrain train) ≠ .bare
    ∧ passageRecord (withTrain train) 240 0 train
    ∧ Accepted (withTrain train) .a (passing 4 0 30) (.passage (passed 4 .arrive)) ∧ train.state.stopped = true
    ∧ train.point = some 4 ∧ unset.lck.lock = .unset
    ∧ Accepted { withTrain train with lck := State.reset.lck } .a (passing 4 0 30) (.passage (passed 4 .arrive)) :=
  ⟨accepted_of (by decide +kernel), by decide +kernel, .inl (by decide +kernel), accepted_of (by decide +kernel),
    by decide +kernel, by decide +kernel, by decide +kernel, accepted_of (by decide +kernel)⟩

theorem test_PassageForwardedWithAnnex_arrival :
    let t : Train := { train with state := .running }
    let s : State := withTrain t
    Accepted s .a (passing 4 0 30) (.passage (passed 4 .arrive)) ∧ mode s ≠ .bare ∧ passageRecord s 240 0 t
    ∧ (s.tst.line.points.get 4).kind = .platform ∧ passageTime s 30 = some 510000 ∧ t.state.stopped = false ∧ t.slot = none
    ∧ findKey s .trainStalled (.train t.set) = none ∧ bindsQuietly s 0 417 t :=
  ⟨accepted_of (by decide +kernel), by decide +kernel, .inl (by decide +kernel), by decide +kernel, by decide +kernel,
    by decide +kernel, by decide +kernel, by decide +kernel, by unfold bindsQuietly; decide +kernel⟩

/-- The part with every train record in use. -/
def crowded : State :=
  { service with rrg.trains := Table.build 48 fun i => some (newTrain (500 + i.val)) }

theorem test_PassagesWithoutRecord :
    Accepted (withTrain train) .a (passing 6 0 30) (.passage (passed 6 .arrive))
    ∧ ((withTrain train).tst.line.points.get 6).kind = .lineExit ∧ findTrain (withTrain train) 240 = some 0
    ∧ findTrain service 240 = none
    ∧ Accepted crowded .a (passing 4 0 30) (.passage (passed 4 .arrive)) ∧ mode crowded ≠ .bare
    ∧ findTrain crowded 240 = none ∧ freeTrain crowded = none
    ∧ Accepted crowded .a (passing 4 3 30) (.passage (passed 4 .approach))
    ∧ ((crowded.tst.line.points.get 4).depart.bind fun x => (crowded.psv.secs.get x).source) = some (1, .a) :=
  ⟨accepted_of (by decide +kernel), by decide +kernel, by decide +kernel, by decide +kernel,
    accepted_of (by decide +kernel), by decide +kernel, by decide +kernel, by decide +kernel,
    accepted_of (by decide +kernel), by decide +kernel⟩

/-- The inputs of an arrival at 1000 with a release at 900. -/
def inputs (hmin hx : Nat) : Inputs :=
  { time := 1000, sched := some { arrival := 1000, departure := 1200, dwell := 300 }, minDwell := 200, defDwell := 300,
    released := some 900, releasedSched := none, w := 8, hmin := hmin, hx := hx, hn := 300 }

theorem test_DepartureTargetKeepsBounds :
    (inputs 300 0).timetable = some 1200 ∧ (inputs 300 0).spacing = some 1200 ∧ 1000 + 300 + 0 < max (1000 + 200) (900 + 800)
    ∧ max (1000 + 200) (900 + 300) ≤ 1000 + 300 + 0 ∧ (900 : Nat) ≤ (inputs 300 0).time
    ∧ ((1200 : Nat) : Int) ≤ (inputs 300 0).blend ∧ (inputs 300 0).blend ≤ 1300
    ∧ ({ inputs 300 0 with released := none } : Inputs).spacing = none
    ∧ ({ inputs 300 0 with released := some 1001 } : Inputs).released = some 1001 ∧ (1000 : Nat) < 1001
    ∧ (inputs 300 0).releasedSched = none
    ∧ ({ inputs 300 0 with releasedSched := some 1199 } : Inputs).releasedSched = some 1199
    ∧ (inputs 300 0).sched = some { arrival := 1000, departure := 1200, dwell := 300 } ∧ (1199 : Nat) < 1200
    ∧ ({ inputs 300 0 with sched := none } : Inputs).timetable = none := by decide +kernel

theorem test_ArrivalGivesTarget :
    (Act.start (withTrain train)).train 0 = some train ∧ underHold service 4 = false
    ∧ underHold (withIncident { incident with effects := { suspend := false, hold := true, announce := false } }) 4 = true
    ∧ mode prepared = .prepared ∧ mode service ≠ .prepared ∧ underSuspend service 4 = false
    ∧ ({ service with lck.lock := .unlocked } : State).lck.lock = .unlocked := by decide +kernel

theorem test_TrainCountdownsExpire :
    service.inReset = false ∧ service.lck.lock ≠ .unset ∧ unset.lck.lock = .unset
    ∧ (withTrain { train with overdue := some 1 }).rrg.trains.get 0 = some { train with overdue := some 1 }
    ∧ (withTrain { train with powerWait := some 1 }).rrg.trains.get 0 = some { train with powerWait := some 1 }
    ∧ (withTrain { train with slot := some { sub := 1, left := 1 } }).rrg.trains.get 0
      = some { train with slot := some { sub := 1, left := 1 } }
    ∧ 2 ≤ train.silence
    ∧ (withTrain { train with overdue := some 1, silence := 1 }).rrg.trains.get 0
      = some { train with overdue := some 1, silence := 1 }
    ∧ (withTrain { train with powerWait := some 1, silence := 1 }).rrg.trains.get 0
      = some { train with powerWait := some 1, silence := 1 }
    ∧ ({ service with rrg.holdOff := 1 } : State).rrg.holdOff = 1 := by decide +kernel

/-- R68: silence is taken before the overdue countdown that stands at its last count with it, and nothing is raised. -/
theorem test_silence_comes_first :
    let u := after (.overdueExpiry 0) (withTrain { train with overdue := some 1, silence := 1 })
    u.rrg.trains.get 0 = none ∧ u.inc.records.get 0 = none := by decide +kernel

/-- R68: at the boundary that ends the silence of record 0, whose removal ends the HOLD at platform 4, record 1, HELD and due
there, is removed too where its silence ends with it, and in no hand-over; one not silent is released. -/
theorem test_silent_train_in_no_hand_over :
    let r : Incident := { incident with state := .acknowledged, effects := { suspend := false, hold := true, announce := false } }
    let s (n : Nat) : State := { withIncident r with
      inc.underHold := service.inc.underHold.set 4 true
      rrg.trains := (service.rrg.trains.set 0 (some { train with point := some 5, state := .running, silence := 1 })).set 1
        (some { train with set := 241, state := .held, target := some 509000, silence := n }) }
    let u (n : Nat) : State := after (.cycleMarker .a head 4001 51000250) (s n)
    r.areas.getLsbD ((s 1).tst.line.points.get 4).area.val = true
    ∧ (u 1).rrg.trains.get 1 = none ∧ ((u 1).rrg.memory.get 4).released = none
    ∧ ((u 2).rrg.trains.get 1).map (·.state) = some .departing ∧ ((u 2).rrg.memory.get 4).released = some 510002 := by
  decide +kernel

theorem test_SilenceFreesRecord :
    service.inReset = false ∧ service.lck.lock ≠ .unset
    ∧ (withTrain { train with silence := 1 }).rrg.trains.get 0 = some { train with silence := 1 } := by decide +kernel

theorem test_TrainCommandsBindAndRemove :
    mode service ≠ .bare ∧ mode service = .service ∧ mode prepared = .prepared
    ∧ TakenAs (holding 0x0D [0, 240, 1, 0xA1] service) (manageOf 0x0D [0, 240, 1, 0xA1]) [] 0x0D [0, 240, 1, 0xA1]
    ∧ TakenAs (holding 0x0E [0, 240] service) (manageOf 0x0E [0, 240]) [] 0x0E [0, 240]
    ∧ findTrain service (numOf [0, 240]) = none ∧ findTrain (withTrain train) (numOf [0, 240]) = some 0
    ∧ numOf [0, 0] = 0 ∧ numOf [1, 0xA1] ≠ 0 ∧ activeRun service (numOf [1, 0xA1]) ≠ none
    ∧ activeRun service 9999 = none ∧ train.run ≠ some (numOf [1, 0xA1])
    ∧ ({ train with run := some 417 } : Train).run = some (numOf [1, 0xA1]) :=
  ⟨by decide +kernel, by decide +kernel, by decide +kernel, takenAs_holding 0x0D _ _ (by decide +kernel),
    takenAs_holding 0x0E _ _ (by decide +kernel), by decide +kernel⟩

theorem test_SectionPictureFromFeeds :
    (line.secs.get 2).used = true ∧ (line.secs.get 3).used = false ∧ ([true] : List Bool).length ≤ (1 : FeederId).val
    ∧ validateLine [] = .valid LineTables.standard 0 := by decide +kernel

theorem test_StatusTakesEffect :
    Accepted service .a (statusTelegram { head with src := 70 } 1 90 [1]) (.status true 90 [true]) ∧ mode service ≠ .bare
    ∧ (service.tst.line.subs.get 1).used = true ∧ (service.tst.line.subs.get 1).unit = 70
    ∧ ¬((service.tst.line.subs.get 2).used = true ∧ (service.tst.line.subs.get 2).unit = 70) :=
  ⟨accepted_of (by decide +kernel), by decide +kernel⟩

/-- An incident table without a record keeps its law. -/
theorem incLaw_empty (u : Inc) (h : ∀ i, u.records.get i = none)
    (g : 1 ≤ u.nextNumber ∧ u.nextNumber ≤ 65535 ∧ u.resolved = [] ∧ u.refused ≤ 65535) : IncLaw u where
  numbers i j r q a := by simp [h] at a
  keys i j r q a := by simp [h] at a
  own i r n a := by simp [h] at a
  numberRange i r a := by simp [h] at a
  next := ⟨g.1, g.2.1, fun i r a => by simp [h] at a⟩
  resolvedOnce := by simp [g.2.2.1]
  resolved i := by simp [g.2.2.1, h]
  retention i r a := by simp [h] at a
  level i r a := by simp [h] at a
  refused := g.2.2.2

/-- R70: 1500 ds behind its run the train turns late, and on time again it is late no more; no raise is refused. -/
theorem test_PassageWritesRecord_late :
    let t : Train := { train with state := .running, point := none, run := some 417, step := some 0 }
    let s := behind 51150000 t
    let v := behind 51000000 { t with late := true, dev := 1500 }
    let c : Instr := .passage .a head 240 417 4 0 30
    Accepted s .a (passing 4 0 30) (.passage (passed 4 .arrive)) ∧ t.late = false
    ∧ ((after c s).rrg.trains.get 0).map (fun r => (r.dev, r.late)) = some (1500, true)
    ∧ Accepted v .a (passing 4 0 30) (.passage (passed 4 .arrive))
    ∧ ((after c v).rrg.trains.get 0).map (fun r => (r.dev, r.late)) = some (0, false)
    ∧ NoneRefused s (after c s) ∧ NoneRefused v (after c v) :=
  ⟨accepted_of (by decide +kernel), by decide +kernel, by decide +kernel, accepted_of (by decide +kernel), by decide +kernel,
    ⟨incLaw_empty _ (by decide +kernel) (by decide +kernel), by decide +kernel, by decide +kernel⟩,
    ⟨incLaw_empty _ (by decide +kernel) (by decide +kernel), by decide +kernel, by decide +kernel⟩⟩

theorem test_StatusTakesEffect_none_refused :
    NoneRefused service (after (.substationStatus .a { head with src := 70 } 0 90 [1]) service) :=
  ⟨incLaw_empty _ (by decide +kernel) (by decide +kernel), by decide +kernel, by decide +kernel⟩

/-- The part with substation 1 ONLINE at a load, and countdowns on it. -/
def online (load : Nat) (telemetry credit : Option Nat) : State :=
  let v : Supply := { service.psv.subs.get 1 with
    state := .online, incomer := some true, load := some load, telemetry := telemetry, credit := credit
    feeders := Table.fill 8 .closed }
  let s : State := { service with psv.subs := service.psv.subs.set 1 v }
  { s with psv := derived s }

theorem test_SupplyCountdownsExpire :
    service.inReset = false ∧ service.lck.lock ≠ .unset ∧ ((online 90 (some 1) none).psv.subs.get 1).telemetry = some 1
    ∧ ((online 200 none (some 1)).psv.subs.get 1).credit = some 1
    ∧ (service.tst.line.subs.get 1).used = true ∧ ((online 200 none (some 1)).psv.subs.get 1).state = .online
    ∧ ((online 200 none (some 1)).psv.subs.get 1).load = some 200 := by decide +kernel

theorem test_SupplyCountdownsExpire_none_refused :
    NoneRefused (online 90 (some 1) none) (after (.telemetryTimeoutExpiry 1) (online 90 (some 1) none))
    ∧ NoneRefused (online 200 none (some 1)) (after (.creditExpiry 1) (online 200 none (some 1))) :=
  ⟨⟨incLaw_empty _ (by decide +kernel) (by decide +kernel), by decide +kernel, by decide +kernel⟩,
    ⟨incLaw_empty _ (by decide +kernel) (by decide +kernel), by decide +kernel, by decide +kernel⟩⟩

/-- The place of a train that waits. -/
def waiting : Wait := { train := 0, target := 510300, point := 4, sec := 2, joined := 0 }

theorem test_WaitingListOrder :
    [waiting, { waiting with joined := 1 }, { waiting with train := 1, point := 5 }].Pairwise
      fun x y => x.before y = true := by decide +kernel

theorem test_PowerRequestOutcomes :
    let free : State := { withTrain train with psv := (online 90 none none).psv }
    let busy : State := { free with psv.subs := free.psv.subs.set 1 { free.psv.subs.get 1 with held := 2 } }
    let dead : State := { free with psv.secs := free.psv.secs.set 2 { state := some .dead, source := none } }
    (Act.start free).train waiting.train = some train ∧ (∀ b, ((Act.start free).supply b).waits = [])
    ∧ underHold free waiting.point = false ∧ train.point = some waiting.point ∧ train.target = some waiting.target
    ∧ train.state = .dwelling ∧ (Act.start (withTrain { train with state := .held })).train 0 = some { train with state := .held }
    ∧ sourceOf free waiting.sec = some 1
    ∧ ((Act.start free).supply 1).held < ((Act.start free).supply 1).capacity
    ∧ sourceOf busy waiting.sec = some 1 ∧ ((Act.start busy).supply 1).capacity ≤ ((Act.start busy).supply 1).held
    ∧ sourceOf dead waiting.sec = none := by decide +kernel

/-- The part with every incident record in use. -/
def full : State :=
  { service with
    inc.records := Table.build 32 fun i => some { incident with number := 900 + i.val, object := .line (900 + i.val) } }

/-- The same with records 31 and 0 RESOLVED, 31 longest. -/
def closed : State :=
  { full with
    inc.records := (full.inc.records.set 0
      (some { incident with number := 900, object := .line 900, state := .resolved })).set 31
      (some { incident with number := 931, object := .line 931, state := .resolved })
    inc.resolved := [31, 0] }

/-- A train with the one slot of substation 1, and one that waits there for it. -/
def gone : Train := { train with state := .departing, run := some 417, target := none, slot := some { sub := 1, left := 2 } }
def late : Train := { train with set := 241, state := .waitPower, powerWait := some 3 }
def lateWait : Wait := { waiting with train := 1 }

/-- The part with both. -/
def pooled : State :=
  let s : State := { service with
    rrg.trains := (service.rrg.trains.set 0 (some gone)).set 1 (some late)
    psv.subs := service.psv.subs.set 1 { service.psv.subs.get 1 with held := 1, waits := [lateWait] } }
  { s with psv := derived s }

theorem test_RaiseByRecordState :
    findKey service .trainStalled (.train 240) = none ∧ freeIncident service = some 0
    ∧ findKey (withIncident incident) .trainStalled (.train 240) = some 0
    ∧ (Act.start (withIncident incident)).incident 0 = some incident
    ∧ (Act.start (withIncident { incident with state := .resolved })).incident 0 = some { incident with state := .resolved }
    ∧ findKey full .trainStalled (.train 240) = none ∧ freeIncident full = none ∧ full.inc.resolved = []
    ∧ findKey closed .trainStalled (.train 240) = none ∧ freeIncident closed = none ∧ closed.inc.resolved = 31 :: [0]
    ∧ ((Act.start closed).incident 31).isSome = true := by decide +kernel

theorem test_RaiseByRecordState_hold_start :
    clockSet unset = false ∧ clockSet (withTrain train) = true ∧ (Act.start (withTrain train)).train 0 = some train
    ∧ train.point = some 4 ∧ train.state = .dwelling ∧ train.point ≠ some 5
    ∧ (Act.start pooled).train 1 = some late ∧ late.state = .waitPower ∧ late.point = some 4
    ∧ lateWait ∈ allWaits (Act.start pooled).s.psv ∧ (∀ j < (1 : TrainId), (Act.start pooled).train j = some gone → gone.state = .departing)
    := by decide +kernel

theorem test_CauseGoneByRecordState :
    findKey service .trainStalled (.train 240) = none ∧ findKey (withIncident incident) .trainStalled (.train 240) = some 0
    ∧ (Act.start (withIncident { incident with cause := .absent })).incident 0 = some { incident with cause := .absent }
    ∧ (Act.start (withIncident { incident with state := .acknowledged })).incident 0
      = some { incident with state := .acknowledged } ∧ incident.cause = .present ∧ incident.state = .raised := by
  decide +kernel

theorem test_CauseGoneByRecordState_hold_end :
    let t : Train := { train with state := .held }
    t.silence ≠ 0 ∧ (Act.start (withTrain { t with silence := 0 })).train 0 = some { t with silence := 0 } ∧
    boundaryTime unset = none ∧ boundaryTime (withTrain t) = some 510000
    ∧ (Act.start (withTrain t)).train 0 = some t ∧ t.point = some 4 ∧ t.target = some 510300 ∧ 510000 < 510300
    ∧ (Act.start (withTrain { t with target := some 510000 })).train 0 = some { t with target := some 510000 }
    ∧ (Act.start (withTrain { t with target := none, time := some 509900 })).train 0
      = some { t with target := none, time := some 509900 }
    ∧ ((withTrain t).tst.line.points.get 4).depart = some 2 ∧ ((withTrain t).tst.line.points.get 5).depart = none := by
  decide +kernel

theorem test_EdgeMemoryWritten :
    Accepted service .a (equipmentTelegram { head with src := 61 } [0, 1]) (.equipment [false, true])
    ∧ mode service ≠ .bare
    ∧ (service.tst.line.inputMap.get 3).map (fun m => (m.equipment, m.input)) = some (61, 1)
    ∧ [false, true][(1 : Fin 16).val]? = some true ∧ [false][(1 : Fin 16).val]? = none
    ∧ service.tst.line.inputMap.get 4 = none :=
  ⟨accepted_of (by decide +kernel), by decide +kernel⟩

/-- Edge memory with entry 3 at an edge. -/
def edges (e : Edge) : Table Edge 64 := (Table.fill 64 .unknown).set 3 e

/-- The part with the input class of entry 3 at a sensitivity, and a second entry of its key. -/
def sensing (v : Sensitivity) : State :=
  { service with
    tst.line.inputs := service.tst.line.inputs.set 0 { sensitivity := v, incClass := .doorFault }
    tst.line.inputMap := service.tst.line.inputMap.set 4
      (some { equipment := 61, input := 2, inputClass := 0, object := .equipment, area := 1 })
    inc.edges := edges .released }

theorem test_EdgeMemoryWritten_sensitivities :
    (∀ v, ((sensing v).tst.line.inputMap.get 3).map (fun m => (m.equipment, m.input, m.inputClass)) = some (61, 1, 0))
    ∧ (∀ v, ((sensing v).tst.line.inputs.get 0).sensitivity = v)
    ∧ (edges .released).get 3 = .released ∧ (edges .asserted).get 3 = .asserted ∧ (edges .unknown).get 3 = .unknown
    ∧ [false, true][1]? = some true ∧ [false, false][1]? = some false
    ∧ findKey (sensing .level) .doorFault (.equipment 61) = none
    ∧ findKey (withIncident { incident with cls := .doorFault, object := .equipment 61 }) .doorFault (.equipment 61) ≠ none
    ∧ (∀ j, (sensing .level).inc.edges.get j ≠ .asserted)
    ∧ ({ sensing .level with inc.edges := (edges .released).set 4 .asserted } : State).inc.edges.get 4 = .asserted := by
  refine ⟨?_, ?_, by decide +kernel⟩ <;> intro v <;> cases v <;> decide +kernel

theorem test_OperatorIncidentOpened :
    TakenAs (holding 0x08 [0, 2, 7, 63, 127, 1] service) (manageOf 0x08 [0, 2, 7, 63, 127, 1]) [] 0x08 [0, 2, 7, 63, 127, 1]
    ∧ TakenAs (holding 0x08 [0, 2, 8, 64, 128, 2] full) (manageOf 0x08 [0, 2, 8, 64, 128, 2]) [] 0x08 [0, 2, 8, 64, 128, 2]
    ∧ mode service ≠ .bare
    ∧ ¬((127 < (127 : Byte).toNat ∧ (127 : Byte).toNat ≠ 255) ∨ 7 < (7 : Byte).toNat ∨ 1 < (1 : Byte).toNat)
    ∧ ((127 < (128 : Byte).toNat ∧ (128 : Byte).toNat ≠ 255) ∨ 7 < (8 : Byte).toNat ∨ 1 < (2 : Byte).toNat)
    ∧ freeIncident service = some 0 ∧ freeIncident full = none ∧ full.inc.resolved = []
    ∧ freeIncident closed = none ∧ closed.inc.resolved = 31 :: [0] :=
  ⟨takenAs_holding 0x08 _ _ (by decide +kernel), takenAs_holding 0x08 _ _ (by decide +kernel), by decide +kernel⟩

theorem test_AcknowledgeAndResolve :
    mode service ≠ .bare ∧ findNumber service (numOf [1, 0x9C]) = none
    ∧ TakenAs (holding 0x09 [1, 0x9C, 0] (withIncident incident)) (manageOf 0x09 [1, 0x9C, 0]) [] 0x09 [1, 0x9C, 0]
    ∧ TakenAs (holding 0x0A [1, 0x9C] (withIncident incident)) (manageOf 0x0A [1, 0x9C]) [] 0x0A [1, 0x9C]
    ∧ findNumber (withIncident incident) (numOf [1, 0x9C]) = some 0 ∧ incident.state ≠ .resolved ∧ incident.cause = .present
    ∧ (withIncident { incident with cause := .gone }).inc.records.get 0 = some { incident with cause := .gone }
    ∧ (withIncident { incident with state := .resolved }).inc.records.get 0 = some { incident with state := .resolved } :=
  ⟨by decide +kernel, by decide +kernel, takenAs_holding 0x09 _ _ (by decide +kernel),
    takenAs_holding 0x0A _ _ (by decide +kernel), by decide +kernel⟩

/-- A record that console tag 5 acknowledged, taken back to RAISED by an escalation, whose cause has gone: its resolution keeps
the tag (log entry 50). -/
theorem test_AcknowledgeAndResolve_tag :
    let r : Incident := { incident with cause := .gone, level := 1, ackTag := some 5 }
    let s := holding 0x0A [1, 0x9C] (withIncident r)
    TakenAs s (manageOf 0x0A [1, 0x9C]) [] 0x0A [1, 0x9C] ∧ findNumber s (numOf [1, 0x9C]) = some 0
    ∧ s.inc.records.get 0 = some r ∧ r.state = .raised
    ∧ ((after .incidentResolve s).inc.records.get 0).map (fun v => (v.state, v.ackTag)) = some (.resolved, some 5) :=
  ⟨takenAs_holding 0x0A _ _ (by decide +kernel), by decide +kernel⟩

theorem test_TickReachesEveryRecord :
    service.inReset = false ∧ service.lck.lock ≠ .unset ∧ ({ service with inc.prescaler := 1 } : State).inc.prescaler = 1 := by
  decide +kernel

theorem test_IncidentCountdownsExpire :
    service.inReset = false ∧ service.lck.lock ≠ .unset
    ∧ (withIncident incident).inc.records.get 0 = some incident ∧ incident.state ≠ .resolved ∧ incident.countdown = some 1
    ∧ (withIncident { incident with state := .resolved, retention := some 1 }).inc.records.get 0
      = some { incident with state := .resolved, retention := some 1 } := by decide +kernel

/-- An entry to be handed to a zone, with the key of `entry` or another. -/
def fresh (n : Nat) : NewEntry :=
  { template := 40, source := .console n, params := [], repeats := 1, interval := none, expiry := none }

/-- Eight entries with keys of their own. -/
def eight : List Entry := (List.range 8).map fun n => { entry with source := .console (10 + n), seq := n }

theorem test_PlacingByFirstCase :
    (Zone.start .off).state = .off ∧ playing.state ≠ .off ∧ entry.key = (⟨(fresh 7).template, (fresh 7).source⟩ : EntryKey)
    ∧ entry.key ≠ (⟨(fresh 8).template, (fresh 8).source⟩ : EntryKey) ∧ guarding.queue.length < 8 ∧ 8 ≤ eight.length
    ∧ (∀ x ∈ eight, x.key ≠ (⟨(fresh 8).template, (fresh 8).source⟩ : EntryKey))
    ∧ eight = eight.dropLast ++ [{ entry with source := .console 17, seq := 7 }]
    ∧ (makeEntry service (fresh 8) 8).priority.code ≤ entry.priority.code
    ∧ (makeEntry service (fresh 8) 8).priority.code < ({ entry with priority := .routine } : Entry).priority.code
    ∧ guarding.queue = [entry] ∧ guarding.current = none ∧ guarding.state = .guarding ∧ entry.priority ≠ .emergency
    ∧ (Zone.start .barred).state = .barred := by decide +kernel

/-- The part with template 41 of EMERGENCY priority, and a zone in place of zone 4. -/
def alarmed (q : Zone) : State :=
  { withZone q with
    tst.line.templates := line.templates.set 41 { priority := .emergency, duration := 80, params := 2, repeats := 1, interval := 0 } }

/-- An EMERGENCY entry to be handed to a zone. -/
def alarm : NewEntry := { fresh 9 with template := 41 }

/-- R160, R161: an EMERGENCY entry preempts a zone that plays a lesser one and a zone in GUARD, and the entry cut returns
eligible; one of a lesser priority is issued by an OPEN zone. -/
theorem test_PlacingByFirstCase_tests :
    let row := (alarmed playing).tst.line.templates.get 41
    let cut := (placeEntry 4 alarm (Act.start (alarmed { playing with current := some { entry with expiry := none } }))).1
    let spent := (placeEntry 4 alarm (Act.start (alarmed { playing with current := some { entry with expiry := some 0 } }))).1
    let early := (placeEntry 4 alarm (Act.start (alarmed guarding))).1
    let calm := (placeEntry 4 (fresh 8) (Act.start (withZone { guarding with state := .opened, guard := none }))).1
    row.priority = .emergency ∧ entry.priority ≠ .emergency
    ∧ ((cut.zone 4).current.map (·.template), (cut.zone 4).queue.map (fun e => (e.template, e.eligible, e.repeats)), cut.out)
      = (some 41, [(40, 0, 2)], [.order (.announce 80 4 18 41 true [0, 0] none)])
    ∧ ((spent.zone 4).current.map (·.template), (spent.zone 4).queue) = (some 41, [])
    ∧ ((early.zone 4).current.map (·.template), (early.zone 4).guard, early.out)
      = (some 41, none, [.order (.announce 80 4 0 41 true [0, 0] none)])
    ∧ ((calm.zone 4).current.map (·.source), calm.out)
      = (some (.console 8), [.order (.announce 80 4 0 40 false [0, 0] none)]) := by decide +kernel

/-- R158, R161: renewed with its eligible countdown running, an EMERGENCY entry makes no test; in BARRED it waits. -/
theorem test_PlacingByFirstCase_no_test :
    let e : Entry := { entry with template := 41, priority := .emergency, source := .console 9 }
    let open1 : Zone := { Zone.start .opened with queue := [e], arrivals := 1 }
    open1.queue.find? (fun y => decide (y.key = ⟨alarm.template, alarm.source⟩)) = some e ∧ 0 < e.eligible
    ∧ (placeEntry 4 alarm (Act.start (alarmed open1))).1.out = []
    ∧ (placeEntry 4 alarm (Act.start (alarmed (Zone.start .barred)))).1.out = [] := by decide +kernel

/-- The arguments of an ANNOUNCE of template `m` to the zones of a set. -/
def announceArgs (z m : Byte) : List Byte := [0, 0, 0, z, m, 0, 7, 1, 0, 0, 0, 0, 1] ++ [0, 5]

theorem test_AnnounceHandsEntries :
    TakenAs (holding 0x0C (announceArgs 16 127) service) (manageOf 0x0C (announceArgs 16 127)) [] 0x0C (announceArgs 16 127)
    ∧ ([0, 5] : List Byte).length = 2 * (1 : Byte).toNat ∧ mode service ≠ .bare ∧ mode State.reset = .bare
    ∧ ¬(127 < (127 : Byte).toNat ∨ numOf [0, 0, 0, 16] = 0 ∨ 2 ^ 24 ≤ numOf [0, 0, 0, 16] ∨ 4 < (1 : Byte).toNat)
    ∧ (127 < (128 : Byte).toNat ∨ numOf [0, 0, 0, 0] = 0) ∧ (127 : TmplId).val = (127 : Byte).toNat :=
  ⟨takenAs_holding 0x0C _ _ (by decide +kernel), by decide +kernel⟩

theorem test_PlayingEnds :
    Accepted (withZone playing) .a (doneTelegram { head with src := 80 } 4 17) (.done 4 17) ∧ mode (withZone playing) ≠ .bare
    ∧ (withZone playing).asc.zones.get 4 = playing ∧ playing.tag = some 17 ∧ playing.current = some entry
    ∧ playing.play = some 1 ∧ service.inReset = false ∧ service.lck.lock ≠ .unset
    ∧ (service.tst.line.zones.get 4).controller = 80 :=
  ⟨accepted_of (by decide +kernel), by decide +kernel⟩

/-- The parts of a zone's law that can be decided. -/
def zoneLawHolds (q : Zone) : Bool := decide (
  q.queue.length ≤ 8 ∧ (q.queue.Pairwise fun e f => e.before f = true)
  ∧ ((q.queue ++ q.current.toList).map Entry.key).Nodup ∧ ((q.queue ++ q.current.toList).map Entry.seq).Nodup
  ∧ (∀ e ∈ q.queue ++ q.current.toList, e.seq < q.arrivals) ∧ q.arrivals ≤ 65535
  ∧ (q.current.isSome = true ↔ q.state = .playing) ∧ (q.tag.isSome = true ↔ q.state = .playing)
  ∧ (q.play.isSome = true ↔ q.state = .playing) ∧ (q.guard.isSome = true ↔ q.state = .guarding)
  ∧ (q.state = .off → q.queue = []) ∧ q.nextTag ≤ 255 ∧ q.missing ≤ 65535 ∧ q.refused ≤ 65535)

theorem zoneLaw_of {q : Zone} (h : zoneLawHolds q = true) : ZoneLaw q := by
  have h := of_decide_eq_true h
  exact { size := h.1, order := h.2.1, keys := h.2.2.1, seqs := h.2.2.2.1, below := h.2.2.2.2.1,
          arrivals := h.2.2.2.2.2.1, current := h.2.2.2.2.2.2.1, tag := h.2.2.2.2.2.2.2.1,
          play := h.2.2.2.2.2.2.2.2.1, guard := h.2.2.2.2.2.2.2.2.2.1, off := h.2.2.2.2.2.2.2.2.2.2.1,
          nextTag := h.2.2.2.2.2.2.2.2.2.2.2.1, counts := h.2.2.2.2.2.2.2.2.2.2.2.2 }

/-- A zone that waits in GUARD with the entry queued, which does not expire. -/
def patient : Zone := { guarding with queue := [{ entry with expiry := none }] }

theorem test_ZoneCountdownsExpire :
    service.inReset = false ∧ service.lck.lock ≠ .unset ∧ (withZone guarding).asc.zones.get 4 = guarding
    ∧ guarding.state = .guarding ∧ guarding.guard = some 1
    ∧ guarding.queue.find? (fun e => decide (e.key = entry.key)) = some entry ∧ entry.eligible = 1 ∧ entry ∈ guarding.queue
    ∧ entry.expiry = some 1 ∧ entry.expiry ≠ some 0 ∧ { entry with expiry := none } ∈ patient.queue
    ∧ ({ entry with expiry := none } : Entry).expiry ≠ some 0 ∧ playing.current = some entry
    ∧ ({ guarding with state := .opened, guard := none } : Zone).state = .opened := by decide +kernel

/-- R165: of two entries eligible at one count, the row of the second issues the first in queue order. -/
theorem test_eligible_together :
    let j : Entry := { entry with expiry := none }
    let k : Entry := { j with source := .console 8, seq := 1 }
    let q : Zone := { Zone.start .opened with queue := [j, k], arrivals := 2 }
    ZoneLaw q ∧ k ∈ q.queue ∧ k.eligible = 1
    ∧ ((after (.eligibleCountdownExpiry 4 k.key) (withZone q)).asc.zones.get 4).current.map (·.source) = some (.console 7)
    ∧ ((after (.eligibleCountdownExpiry 4 k.key) (withZone q)).asc.zones.get 4).queue.map (·.eligible) = [0] :=
  ⟨zoneLaw_of (by decide +kernel), by decide +kernel⟩

/-- R165: an entry whose expiry runs out with the guard is not issued, and one whose expiry runs out with the play countdown
does not return. -/
theorem test_entries_expire_with_the_zone :
    let g := (after (.guardExpiry 4) (withZone { guarding with queue := [{ entry with eligible := 0 }] })).asc.zones.get 4
    let p := (after (.playTimeoutExpiry 4) (withZone playing)).asc.zones.get 4
    g.state = .opened ∧ g.queue = [] ∧ g.current = none
    ∧ p.state = .guarding ∧ p.queue = [] ∧ p.missing = 1 := by decide +kernel

theorem test_ZoneCountdownsExpire_laws : ZoneLaw guarding ∧ ZoneLaw patient ∧ ZoneLaw playing :=
  ⟨zoneLaw_of (by decide +kernel), zoneLaw_of (by decide +kernel), zoneLaw_of (by decide +kernel)⟩

theorem test_ZoneSetByState :
    ZoneLaw (Zone.start .off)
    ∧ TakenAs (holding 0x0B [23, 2] service) (manageOf 0x0B [23, 2]) [] 0x0B [23, 2]
    ∧ TakenAs (holding 0x0B [24, 0] service) (manageOf 0x0B [24, 0]) [] 0x0B [24, 0]
    ∧ TakenAs (holding 0x0B [4, 1] (withZone playing)) (manageOf 0x0B [4, 1]) [] 0x0B [4, 1]
    ∧ TakenAs (holding 0x0B [4, 1] State.reset) (manageOf 0x0B [4, 1]) [] 0x0B [4, 1] ∧ mode State.reset = .bare
    ∧ mode service ≠ .bare ∧ (23 : ZoneId).val = (23 : Byte).toNat ∧ (service.asc.zones.get 23).state = .off
    ∧ playing.state ≠ .barred ∧ (Zone.start .barred).state = .barred ∧ guarding.state ≠ .off ∧ guarding.state ≠ .barred
    ∧ (∀ o ∈ [hold], o.zone? ≠ some 4) ∧ (Zone.start .off).state = .off
    ∧ ((Act.start (withZone (Zone.start .barred))).zone 4).state = .barred
    ∧ (Zone.start .barred).current.map Entry.key ≠ some ⟨(fresh 7).template, (fresh 7).source⟩
    ∧ (Zone.start .barred).queue.length < 8 :=
  have taken (args : List Byte) (s : State) (h : s.inReset = false ∧ s.tiu.room.length < 64) := takenAs_holding 0x0B args s h
  ⟨zoneLaw_of (by decide +kernel), taken _ service (by decide +kernel), taken _ service (by decide +kernel),
    taken _ (withZone playing) (by decide +kernel), taken _ State.reset (by decide +kernel), by decide +kernel⟩

/-- An open load. -/
def opened (target : LoadTarget) (remaining : Nat) : Load :=
  { target := target, remaining := remaining, expected := 0, check := 0xFFFF, image := [] }

/-- The part with a load open. -/
def loading (l : Load) (s : State) : State := { s with tst.load := some l }

theorem test_LoadsOpenAndClose :
    TakenAs (holding 0x01 [255, 4, 0, 0, 0] State.reset) (manageOf 0x01 [255, 4, 0, 0, 0]) [] 0x01 [255, 4, 0, 0, 0]
    ∧ TakenAs (holding 0x01 [2, 0, 1, 0, 0] service) (manageOf 0x01 [2, 0, 1, 0, 0]) [] 0x01 [2, 0, 1, 0, 0]
    ∧ TakenAs (holding 0x02 ([0, 0] ++ [7]) (loading (opened .line 2) State.reset)) (manageOf 0x02 ([0, 0] ++ [7])) []
      0x02 ([0, 0] ++ [7])
    ∧ TakenAs (holding 0x03 [] service) (manageOf 0x03 []) [] 0x03 []
    ∧ numOf [4, 0] = 1024 ∧ 1024 < numOf [4, 1] ∧ numOf [0, 0] = 0 ∧ mode State.reset = .bare ∧ mode service ≠ .bare
    ∧ State.reset.tst.load = none ∧ (loading (opened .line 2) service).tst.load = some (opened .line 2)
    ∧ 2 < (3 : Byte).toNat ∧ (2 : SlotId).val = (2 : Byte).toNat
    ∧ (service.tst.slots.get 0).state = .active
    ∧ ¬((service.tst.slots.get 2).state = .active ∨ service.tst.pendingSlot = some 2)
    ∧ numOf [0, 0] = (opened .line 2).expected ∧ numOf [0, 1] ≠ (opened .line 2).expected
    ∧ crc16 ((opened .line 1).image ++ [7]) ≠ (opened .line 1).check :=
  ⟨takenAs_holding 0x01 _ _ (by decide +kernel), takenAs_holding 0x01 _ _ (by decide +kernel),
    takenAs_holding 0x02 _ _ (by decide +kernel), takenAs_holding 0x03 _ _ (by decide +kernel), by decide +kernel⟩

/-- An image of a profile with a header of standard values and one pattern. -/
def profileImage : List Byte :=
  [0x21, 33] ++ List.replicate 16 65 ++ [8, 3, 32, 1, 44, 4, 176, 1, 44, 4, 176, 2, 88, 4, 176, 0, 150]
    ++ [0x22, 12, 0, 2, 4, 0, 0, 1, 44, 5, 3, 132, 0, 0]

theorem test_ImagesPutInForce :
    let s := loading (opened .line 1) State.reset
    TakenAs (holding 0x02 ([0, 0] ++ []) s) (manageOf 0x02 ([0, 0] ++ [])) [] 0x02 ([0, 0] ++ [])
    ∧ numOf [0, 0] = (opened .line 1).expected ∧ crc16 ((opened .line 1).image ++ []) = (opened .line 1).check
    ∧ validateLine ((opened .line 1).image ++ []) = .valid LineTables.standard 0 ∧ activeSlot s = none
    ∧ s.lck.lock ≠ .unlocked
    ∧ (match validateProfile (crc16 profileImage) profileImage with
      | .valid _ n => decide (n = 0)
      | .fault _ => false) = true
    ∧ validateLine [9] = .fault (some (0, 0))
    ∧ (opened (.slot 2) 1).target = .slot 2 ∧ validateProfile 0 [9] = .fault (some (0, 0))
    ∧ (validateProfile 0 [] = .fault none) :=
  ⟨takenAs_holding 0x02 _ _ (by decide +kernel), by decide +kernel⟩

theorem test_ImagesPutInForce_unlocked :
    let s := loading (opened .line 1) { State.reset with
      lck := { lock := .unlocked, cycle := 9, dayTime := 250, missed := 7, timeBase := 0, deadline := some 250 } }
    s.lck.lock = .unlocked ∧ NoneRefused (holding 0x02 [0, 0] s) (after .loadBlock (holding 0x02 [0, 0] s)) :=
  ⟨rfl, incLaw_empty _ (by decide +kernel) (by decide +kernel), by decide +kernel, by decide +kernel⟩

theorem test_ValidImagesKeepRanges : validateLine [] = .valid LineTables.standard 0 := by decide +kernel

theorem test_ProfileActivated :
    TakenAs (holding 0x04 [1] service) (manageOf 0x04 [1]) [] 0x04 [1]
    ∧ TakenAs (holding 0x04 [3] unset) (manageOf 0x04 [3]) [] 0x04 [3] ∧ mode service ≠ .bare
    ∧ 2 < (3 : Byte).toNat ∧ (1 : SlotId).val = (1 : Byte).toNat ∧ (service.tst.slots.get 2).state ≠ .ready
    ∧ (service.tst.slots.get 1).state = .ready ∧ service.lck.lock ≠ .unset ∧ (unset.tst.slots.get 1).state = .ready
    ∧ unset.lck.lock = .unset ∧ (unset.tst.slots.get 1).profile = some profile :=
  ⟨takenAs_holding 0x04 _ _ (by decide +kernel), takenAs_holding 0x04 _ _ (by decide +kernel), by decide +kernel⟩

/-- The part with a group open that holds `n` edits. -/
def grouped (n : Nat) (s : State) : State := { s with tst.openGroup := some (List.replicate n edit) }

theorem test_EditsGatherInGroups :
    mode service ≠ .bare ∧ service.lck.lock ≠ .unset
    ∧ TakenAs (holding 0x05 [] service) (manageOf 0x05 []) [] 0x05 []
    ∧ TakenAs (holding 0x07 [] (grouped 1 service)) (manageOf 0x07 []) [] 0x07 []
    ∧ TakenAs (holding 0x06 [1, 0, 1, 0, 0, 0, 40] service) (manageOf 0x06 [1, 0, 1, 0, 0, 0, 40]) [] 0x06
      [1, 0, 1, 0, 0, 0, 40]
    ∧ service.tst.openGroup = none ∧ (grouped 0 service).tst.openGroup = some []
    ∧ (grouped 31 service).tst.openGroup = some (List.replicate 31 edit) ∧ (List.replicate 31 edit).length < 32
    ∧ 32 ≤ (List.replicate 32 edit).length ∧ [edit] ≠ [] ∧ service.tst.waiting.length < 4
    ∧ 4 ≤ ({ service with tst.waiting := List.replicate 4 [edit] } : State).tst.waiting.length
    ∧ EditTable.ofCode 200 = none ∧ EditTable.ofCode 1 = some .defaults ∧ EditTable.defaults.count ≤ 1
    ∧ 0 < EditTable.defaults.count ∧ fieldKind .defaults 1 = some (.quantity 16 56) ∧ fieldKind .defaults 99 = none
    ∧ mode prepared = .prepared :=
  ⟨by decide +kernel, by decide +kernel, takenAs_holding 0x05 _ _ (by decide +kernel),
    takenAs_holding 0x07 _ _ (by decide +kernel), takenAs_holding 0x06 _ _ (by decide +kernel), by decide +kernel⟩

theorem test_EditsGatherInGroups_fields :
    TakenAs (holding 0x06 [2, 4, 1, 0, 0, 0, 16] service) (manageOf 0x06 [2, 4, 1, 0, 0, 0, 16]) [] 0x06
      [2, 4, 1, 0, 0, 0, 16]
    ∧ EditTable.ofCode 2 = some .point ∧ 4 < EditTable.point.count ∧ fieldKind .point 1 = some (.below 16)
    ∧ ¬(FieldKind.below 16).admits line 16 ∧ (FieldKind.below 16).admits line 15
    ∧ fieldKind .incClass 4 = some (.belowOrNone 128) ∧ ¬(FieldKind.belowOrNone 128).admits line 254
    ∧ (FieldKind.belowOrNone 128).admits line 255 ∧ fieldKind .input 1 = some .inputIncident
    ∧ ¬FieldKind.inputIncident.admits line 3 ∧ FieldKind.inputIncident.admits line 10
    ∧ fieldKind .point 5 = some .usedSecOrNone ∧ ¬FieldKind.usedSecOrNone.admits line 3
    ∧ FieldKind.usedSecOrNone.admits line 2 ∧ fieldKind .sec 1 = some .usedSub ∧ ¬FieldKind.usedSub.admits line 255
    ∧ FieldKind.usedSub.admits line 1 ∧ fieldKind .sec 3 = some .usedSubOrNone ∧ ¬FieldKind.usedSubOrNone.admits line 2
    ∧ FieldKind.usedSubOrNone.admits line 255 := by
  refine ⟨takenAs_holding 0x06 _ _ (by decide +kernel), ?_⟩
  unfold FieldKind.admits
  decide +kernel

theorem test_WrittenGroupsAreWhole :
    (FieldKind.quantity 50 255).admits unset.tst.line (numOf [0, 0, 0, 60])
    ∧ TakenAs (holding 0x07 [] (grouped 1 unset)) (manageOf 0x07 []) [] 0x07 [] ∧ mode unset ≠ .bare
    ∧ TakenAs (holding 0x06 [4, 1, 3, 0, 0, 0, 60] unset) (manageOf 0x06 [4, 1, 3, 0, 0, 0, 60]) [] 0x06
      [4, 1, 3, 0, 0, 0, 60]
    ∧ unset.lck.lock = .unset ∧ (grouped 1 unset).tst.openGroup = some [edit] ∧ [edit] ≠ []
    ∧ unset.tst.waiting.length < 4 ∧ unset.tst.openGroup = none ∧ (1 : SubId).val = (1 : Byte).toNat
    ∧ EditTable.ofCode (4 : Byte).toNat = some .sub ∧ (1 : Byte).toNat < EditTable.sub.count
    ∧ fieldKind .sub (3 : Byte).toNat = some (.quantity 50 255)
    ∧ FieldKind.written (numOf [0, 0, 0, 60]) (.quantity 50 255) = 60 ∧ 60 < (unset.tst.line.subs.get 1).l1 :=
  ⟨trivial, takenAs_holding 0x07 _ _ (by decide +kernel), by decide +kernel,
    takenAs_holding 0x06 _ _ (by decide +kernel), by decide +kernel⟩

/-- An edit that makes the input class of entry 3 one of TEMPERATURE or another code, and one of the area of platform 4. -/
def inputEdit : HeldEdit := { table := .input, index := 0, field := 0, value := 1, slot := none }
def areaEdit : HeldEdit := { table := .point, index := 4, field := 1, value := 7, slot := none }

/-- R54, R125, R129: a changed input class puts its entries' edges back to UNKNOWN and no other; a changed area reaches the
record of a train that stands there. -/
theorem test_WrittenGroupsAreWhole_consequences :
    let s := sensing .level
    let u := (applyGroup [inputEdit] (Act.start s)).s
    let v := (applyGroup [areaEdit] (Act.start (withIncident { incident with object := .platform 4 }))).s
    IncLaw s.inc ∧ (∀ x, IncObject.platform 4 ≠ .equipment x)
    ∧ s.tst.line.inputMap.get 3
      = some { equipment := 61, input := 1, inputClass := 0, object := .equipment, area := 1 }
    ∧ s.tst.line.inputs.get 0 ≠ u.tst.line.inputs.get 0 ∧ s.inc.edges.get 3 = .released ∧ u.inc.edges.get 3 = .unknown
    ∧ (applyGroup [areaEdit] (Act.start s)).s.inc.edges.get 3 = .released
    ∧ s.tst.line.inputMap.get 5 = none
    ∧ (v.inc.records.get 0).map (fun r => (r.number, r.areas)) = some (412, 128) :=
  ⟨incLaw_empty _ (by decide +kernel) (by decide +kernel), by simp, by decide +kernel⟩

/-- R125: the sets an object gives: a train at a point, a train without one, a train not tracked, and the fields of a group. -/
theorem test_WrittenGroupsAreWhole_areas :
    (FieldKind.below 16).admits service.tst.line areaEdit.value
    ∧ findTrain (withTrain train) 240 = some 0 ∧ (withTrain train).rrg.trains.get 0 = some train ∧ train.point = some 4
    ∧ (withTrain { train with point := none }).rrg.trains.get 0 = some { train with point := none }
    ∧ findTrain (withTrain { train with point := none }) 240 = some 0 ∧ findTrain service 240 = none
    ∧ areasOf (withTrain train) .trainStalled (.train 240) 0 = 2
    ∧ fieldKind areaEdit.table areaEdit.field = some (.below 16) :=
  ⟨show 7 < 16 by decide, by decide +kernel⟩

theorem test_ManagementWaitsAndRefuses :
    Instr.announce ∈ managementRows ∧ service.inReset = false ∧ service.tiu.manage = []
    ∧ 64 ≤ (filled 64 service).tiu.room.length
    ∧ Taken (holding 0x12 [] service) (manageOf 0x12 []) [] ∧ 0x11 < commandOf (manageOf 0x12 [])
    ∧ commandOf (manageOf 0 []) = 0 ∧ (Instr.edit, 0x06, 7) ∈ notInBare
    ∧ TakenAs (holding 0x06 [1, 0, 1, 0, 0, 0, 40] State.reset) (manageOf 0x06 [1, 0, 1, 0, 0, 0, 40]) [] 0x06
      [1, 0, 1, 0, 0, 0, 40]
    ∧ ([1, 0, 1, 0, 0, 0, 40] : List Byte).length = 7 ∧ mode State.reset = .bare :=
  ⟨by decide, by decide +kernel, by decide +kernel, by decide +kernel,
    (takenAs_holding 0x12 _ _ (by decide +kernel)).toTaken, by decide +kernel, by decide +kernel, by decide,
    takenAs_holding 0x06 _ _ (by decide +kernel), by decide +kernel⟩

/-- R181: rows whose command is not the head's, which is LOAD_ABORT or a QUERY or RESTART of another row. -/
theorem test_ManagementWaitsAndRefuses_idle :
    Taken (holding 0x03 [] service) (manageOf 0x03 []) [] ∧ (Instr.loadOpen, 0x01) ∈ commandRows
    ∧ commandOf (manageOf 0x03 []) = 3
    ∧ Taken (holding 0x0F [10, 0, 0, 0] service) (manageOf 0x0F [10, 0, 0, 0]) []
    ∧ (Instr.queryZone, 5, Subject.zone) ∈ queryRows ∧ argsOf (manageOf 0x0F [10, 0, 0, 0]) = [10, 0, 0, 0]
    ∧ (10 : Byte).toNat ≤ 10 ∧ (10 : Byte).toNat ≠ 5
    ∧ Taken (holding 0x11 [1] service) (manageOf 0x11 [1]) [] ∧ argsOf (manageOf 0x11 [1]) = [1]
    ∧ Taken (holding 0x11 [0] service) (manageOf 0x11 [0]) [] ∧ argsOf (manageOf 0x11 [0]) = [0] :=
  ⟨(takenAs_holding 0x03 _ _ (by decide +kernel)).toTaken, by decide, by decide +kernel,
    (takenAs_holding 0x0F _ _ (by decide +kernel)).toTaken, by decide, by decide +kernel, by decide, by decide,
    (takenAs_holding 0x11 _ _ (by decide +kernel)).toTaken, by decide +kernel,
    (takenAs_holding 0x11 _ _ (by decide +kernel)).toTaken, by decide +kernel⟩

theorem test_ManagementWaitsAndRefuses_lengths :
    TakenAs (holding 0x01 [0, 0, 0, 0] service) (manageOf 0x01 [0, 0, 0, 0]) [] 0x01 [0, 0, 0, 0]
    ∧ TakenAs (holding 0x02 [0] service) (manageOf 0x02 [0]) [] 0x02 [0]
    ∧ TakenAs (holding 0x02 (List.replicate 235 0) service) (manageOf 0x02 (List.replicate 235 0)) [] 0x02 (List.replicate 235 0)
    ∧ TakenAs (holding 0x03 [0] service) (manageOf 0x03 [0]) [] 0x03 [0]
    ∧ TakenAs (holding 0x0C (List.replicate 14 0) service) (manageOf 0x0C (List.replicate 14 0)) [] 0x0C (List.replicate 14 0)
    ∧ TakenAs (holding 0x0F [11, 0, 0, 0] service) (manageOf 0x0F [11, 0, 0, 0]) [] 0x0F [11, 0, 0, 0]
    ∧ TakenAs (holding 0x10 [0] service) (manageOf 0x10 [0]) [] 0x10 [0]
    ∧ TakenAs (holding 0x11 [2] service) (manageOf 0x11 [2]) [] 0x11 [2] :=
  ⟨takenAs_holding 0x01 _ _ (by decide +kernel), takenAs_holding 0x02 _ _ (by decide +kernel),
    takenAs_holding 0x02 _ _ (by decide +kernel), takenAs_holding 0x03 _ _ (by decide +kernel),
    takenAs_holding 0x0C _ _ (by decide +kernel), takenAs_holding 0x0F _ _ (by decide +kernel),
    takenAs_holding 0x10 _ _ (by decide +kernel), takenAs_holding 0x11 _ _ (by decide +kernel)⟩

theorem test_QueriesAnswered_records :
    findTrain (withTrain train) 240 = some 0 ∧ (withTrain train).rrg.trains.get 0 = some train
    ∧ findTrain service 240 = none ∧ findNumber (withIncident incident) 412 = some 0
    ∧ (withIncident incident).inc.records.get 0 = some incident ∧ findNumber service 412 = none
    ∧ (63 : TpId).val = 63 ∧ (31 : SecId).val = 31 ∧ (7 : SubId).val = 7 ∧ (23 : ZoneId).val = 23
    ∧ (service.tst.line.subs.get 1).used = true ∧ (service.tst.line.subs.get 7).used = false
    ∧ mode State.reset = .bare ∧ mode service ≠ .bare := by decide +kernel

theorem test_QueriesAnswered :
    (Instr.queryZone, 5, Subject.zone) ∈ queryRows
    ∧ TakenAs (holding 0x0F [5, 0, 24, 0] service) (manageOf 0x0F [5, 0, 24, 0]) [] 0x0F [5, 0, 24, 0]
    ∧ (5 : Byte).toNat = 5 :=
  ⟨by decide, takenAs_holding 0x0F _ _ (by decide +kernel), by decide⟩

theorem test_ClearAndFullRestart :
    TakenAs (holding 0x10 [] service) (manageOf 0x10 []) [] 0x10 []
    ∧ TakenAs (holding 0x11 [1] service) (manageOf 0x11 [1]) [] 0x11 [1] :=
  ⟨takenAs_holding 0x10 _ _ (by decide +kernel), takenAs_holding 0x11 _ _ (by decide +kernel)⟩

theorem test_WarmRestartKeepsWhatWasTold :
    TakenAs (holding 0x11 [0] service) (manageOf 0x11 [0]) [] 0x11 [0] ∧ service.tst.load = none
    ∧ tablesValid service = true :=
  ⟨takenAs_holding 0x11 _ _ (by decide +kernel), by decide +kernel⟩

/-- R185: a slot load and a LINE load open at the restart. -/
theorem test_WarmRestartKeepsWhatWasTold_loads :
    let s := loading (opened (.slot 2) 3) service
    let v := loading (opened .line 3) State.reset
    TakenAs (holding 0x11 [0] s) (manageOf 0x11 [0]) [] 0x11 [0] ∧ s.tst.load = some (opened (.slot 2) 3)
    ∧ (opened (.slot 2) 3).target = .slot 2 ∧ tablesValid s = true ∧ (opened (.slot 2) 3).target ≠ .line
    ∧ (after .restartWarm (holding 0x11 [0] s)).tst.load = none
    ∧ TakenAs (holding 0x11 [0] v) (manageOf 0x11 [0]) [] 0x11 [0] ∧ v.tst.load = some (opened .line 3)
    ∧ (after .restartWarm (holding 0x11 [0] v)).tst.lineState = .invalid :=
  ⟨takenAs_holding 0x11 _ _ (by decide +kernel), by decide +kernel, by decide +kernel, by decide +kernel,
    by decide +kernel, by decide +kernel, takenAs_holding 0x11 _ _ (by decide +kernel), by decide +kernel, by decide +kernel⟩

theorem test_WarmRestartKeepsWhatWasTold_quiet :
    let u := after .restartWarm (holding 0x11 [0] service)
    tablesValid u = true ∧ service.lck.lock ≠ .unlocked
    ∧ (∀ b, (service.psv.subs.get b).state ≠ .tripped ∧ (service.psv.subs.get b).state ≠ .stale)
    ∧ (∀ x, (u.psv.secs.get x).state ≠ some .dead)
    ∧ tablesValid (after .restartWarm (holding 0x11 [0] State.reset)) = false := by decide +kernel

/-! ### The laws hold of a part at work, which steps -/

/-- The part at work: a train with a slot, one that waits for it, an incident, a zone that plays, a queued forwarded telegram, and a link coming up. -/
def working : State :=
  { service with
    links.b := false
    tiu.room := [{ kind := .forwarded, telegram := other }]
    tiu.orders := [hold, call 17]
    rrg.trains := pooled.rrg.trains
    psv := pooled.psv
    inc.records := service.inc.records.set 0 (some { incident with state := .resolved })
    inc.resolved := [0]
    asc.zones := service.asc.zones.set 4 playing
    pending := [.linkUp .fieldB] }

theorem test_working_steps : step working = .next (after (.linkUp .fieldB) { working with pending := [] }) := rfl

theorem test_StepKeepsTiuLaw : TiuLaw working.tiu :=
  { room := by decide +kernel, manage := by decide +kernel, forward := by decide +kernel, orders := by decide +kernel,
    counters := by decide +kernel }

theorem test_StepKeepsLckLaw : LckLaw working.lck :=
  { cycle := by decide +kernel, dayTime := by decide +kernel, missed := by decide +kernel, unset := by decide +kernel,
    running := by decide +kernel }

theorem test_StepKeepsTstLaw : TstLaw working.tst where
  oneActive := by decide +kernel
  holds := by decide +kernel
  pending := by decide +kernel
  lineLoading := ⟨fun h => absurd h (by decide +kernel), fun ⟨l, h, _⟩ => absurd h (by decide +revert +kernel)⟩
  slotLoading i := ⟨fun h => absurd h (by decide +revert +kernel), fun ⟨l, h, _⟩ => by cases h⟩
  blocks l h := by cases h
  openGroup g h := by cases h
  waiting := by decide +kernel
  groups := by decide +kernel
  bare h := absurd rfl h

theorem test_StepKeepsRrgLaw : RrgLaw working.rrg := by
  have h : ∀ i : TrainId, (working.rrg.trains.get i).all (fun t => decide
      (((i = 0 ∧ t.set = 240 ∧ t.run = some 417) ∨ (i = 1 ∧ t.set = 241 ∧ t.run = none))
        ∧ -32767 ≤ t.dev ∧ t.dev ≤ 32767 ∧ 1 ≤ t.silence ∧ t.silence ≤ 480)) = true := by decide +kernel
  have g i t e := of_decide_eq_true (all_of (h i) t e)
  exact {
    sets := fun i j t u a b e => by
      rcases (g i t a).1 with x | x <;> rcases (g j u b).1 with y | y <;> first | exact x.1.trans y.1.symm | omega
    runs := fun i j t u n a b e f => by
      rcases (g i t a).1 with x | x <;> rcases (g j u b).1 with y | y <;> simp_all
    setRange := fun i t a => by rcases (g i t a).1 with x | x <;> omega
    runRange := fun i t n a b => by
      rcases (g i t a).1 with x | x
      · have := Option.some.inj (x.2.2.symm.trans b)
        omega
      · exact absurd (x.2.2.symm.trans b) (by simp)
    devRange := fun i t a => ⟨(g i t a).2.1, (g i t a).2.2.1⟩
    silence := fun i t a => (g i t a).2.2.2
    counts := by decide +kernel }

/-- A place that a test finds to be that of a record. -/
theorem placed_of {s : State} {st : TrainState} {w : Wait}
    (h : (s.rrg.trains.get w.train).any (fun t => decide (t.state = st ∧ t.point = some w.point ∧ t.target = some w.target))
      = true) : Placed s st w := by
  obtain ⟨t, e, k⟩ := Option.any_eq_true .. |>.mp h
  exact ⟨t, e, of_decide_eq_true k⟩

theorem test_StepKeepsSupplyLaw_pool : PoolLaw working := by
  have h : ∀ i : TrainId, (working.rrg.trains.get i).all (fun t => decide (t.state.stopped = true → t.slot = none)) = true := by
    decide +kernel
  have l : ∀ b, ∀ w ∈ (working.psv.subs.get b).waits, (working.rrg.trains.get w.train).any (fun t =>
      decide (t.state = .waitPower ∧ t.point = some w.point ∧ t.target = some w.target)) = true := by decide +kernel
  exact {
    held := by decide +kernel
    stopped := fun i t a => of_decide_eq_true (all_of (h i) t a)
    lists := fun b w m => placed_of (l b w m)
    dead := by intro w m; exact absurd m (by simp [show working.psv.deadWaits = [] by decide +kernel])
    once := by decide +kernel
    order := by decide +kernel
    joins := by decide +kernel
    full := by decide +kernel
    bare := fun e => absurd e (by decide +kernel) }

theorem test_StepKeepsSupplyLaw : SupplyLaw working := ⟨by decide +kernel, test_StepKeepsSupplyLaw_pool⟩

theorem test_StepKeepsIncLaw : IncLaw working.inc := by
  have h : ∀ i : IncId, (working.inc.records.get i).all (fun r => decide (i = 0 ∧ r.number = 412 ∧ r.state = .resolved
      ∧ r.level ≤ 3 ∧ r.recurrences ≤ 255 ∧ r.cls ≠ .operator)) = true := by decide +kernel
  have g i t e := of_decide_eq_true (all_of (h i) t e)
  have e : ∃ r, working.inc.records.get 0 = some r ∧ r.state = .resolved := ⟨{ incident with state := .resolved }, by decide +kernel⟩
  exact {
    numbers := fun i j r q a b _ => (g i r a).1.trans (g j q b).1.symm
    keys := fun i j r q a b _ _ => (g i r a).1.trans (g j q b).1.symm
    own := fun i r n a c => absurd c (g i r a).2.2.2.2.2
    numberRange := fun i r a => by have := (g i r a).2.1; omega
    next := ⟨by decide +kernel, by decide +kernel, fun i r a => by
      have := (g i r a).2.1
      have : working.inc.nextNumber = 1 := by decide +kernel
      omega⟩
    resolvedOnce := by decide +kernel
    resolved := fun i => ⟨fun m => by
      have : i = 0 := by simpa [working] using m
      exact this ▸ e, fun ⟨r, a, _⟩ => by simp [working, (g i r a).1]⟩
    retention := fun i r a _ => (g i r a).2.2.1
    level := fun i r a => ⟨(g i r a).2.2.2.1, (g i r a).2.2.2.2.1⟩
    refused := by decide +kernel }

/-- No live record of the part at work has a HOLD, and no timing point stands under one. -/
theorem test_StepKeepsIncLaw_holds : HoldLaw working where
  held p := by
    have f : working.inc.underHold.get p = false := by decide +revert +kernel
    have h : ∀ i : IncId, (working.inc.records.get i).all (fun r => decide (r.state = .resolved)) = true := by decide +kernel
    refine ⟨fun e => absurd e (by simp [f]), fun ⟨i, r, a, b, _⟩ => absurd (of_decide_eq_true (all_of (h i) r a)) b⟩
  bare h := absurd h (by decide +kernel)

/-- R148: a HOLD at the area of platform 4 covers it. -/
theorem test_StepKeepsIncLaw_covered :
    let r : Incident := { incident with effects := { suspend := true, hold := true, announce := false } }
    HoldCovers (withIncident r) 4 ∧ underHold (withIncident r) 4 = true ∧ underSuspend (withIncident r) 4 = true := by
  intro r
  exact ⟨⟨0, r, by decide +kernel, by decide +kernel, by decide +kernel, by decide +kernel⟩, by decide +kernel, by decide +kernel⟩

/-- R86: at 510300 ds the train at platform 4 is due and is granted a slot of substation 1. -/
theorem test_boundary_hands_over :
    let s : State := { withTrain train with lck.dayTime := 51029750 }
    let u := after (.cycleMarker .a head 4001 51030000) s
    Accepted s .a (markerTelegram head 4001 51030000) (.marker 4001 51030000) ∧ PoolLaw s
    ∧ s.rrg.trains.get 0 = some train ∧ train.state = .dwelling ∧ 2 ≤ train.silence ∧ train.point = some 4
    ∧ train.target = some 510300 ∧ 510300 ≤ 51030000 / 100 ∧ (s.tst.line.points.get 4).depart = some 2
    ∧ (s.psv.secs.get 2).source = some (1, .a)
    ∧ (u.rrg.trains.get 0).map (fun t => (t.state, t.slot.map (·.sub))) = some (.departing, some 1)
    ∧ (u.rrg.memory.get 4).released = some 510300
    ∧ ((after (.cycleMarker .a head 4001 51029900) s).rrg.trains.get 0).map (·.state) = some .dwelling :=
  ⟨accepted_of (by decide +kernel),
    poolLaw_quiet (by decide +kernel) (by decide +kernel) (by decide +kernel) (by decide +kernel), by decide +kernel⟩

/-- R28: the second miss raises CLOCK_LOSS, and the marker after it resolves the cause. -/
theorem test_boundary_clock_loss :
    let s : State := { service with lck := { service.lck with lock := .coasting, timeBase := 1375 } }
    let u := after .markerTimeoutExpiry s
    s.lck.deadline = some 1375 ∧ mode s ≠ .bare ∧ u.lck.lock = .unlocked ∧ NoneRefused s u
    ∧ (u.inc.records.get 0).map (fun r => (r.cls, r.object, r.cause)) = some (.clockLoss, .line 0, .present)
    ∧ Accepted { service with lck.lock := .unlocked } .a (markerTelegram head 4009 51002250) (.marker 4009 51002250)
    ∧ IncLaw service.inc
    ∧ ((after (.cycleMarker .a head 4009 51002250) u).inc.records.get 0).map (·.cause) = some .gone :=
  ⟨by decide +kernel, by decide +kernel, by decide +kernel,
    ⟨incLaw_empty _ (by decide +kernel) (by decide +kernel), by decide +kernel, by decide +kernel⟩, by decide +kernel,
    accepted_of (by decide +kernel), incLaw_empty _ (by decide +kernel) (by decide +kernel), by decide +kernel⟩

/-- R29, R112: at a boundary the train that waits and the slot of the train ahead count down, no HOLD standing. -/
theorem test_boundary_lowers_waits_and_slots :
    let u := after (.cycleMarker .a head 4001 51000250) working
    Accepted working .a (markerTelegram head 4001 51000250) (.marker 4001 51000250) ∧ PoolLaw working
    ∧ working.rrg.trains.get 0 = some gone ∧ working.rrg.trains.get 1 = some late ∧ 2 ≤ late.silence ∧ NoHolds working u
    ∧ (u.rrg.trains.get 1).map (fun t => (t.state, t.powerWait)) = some (.waitPower, some 2)
    ∧ (u.rrg.trains.get 0).map (fun t => t.slot.map (·.left)) = some (some 1) :=
  ⟨accepted_of (by decide +kernel), test_StepKeepsSupplyLaw_pool, by decide +kernel, by decide +kernel, by decide +kernel,
    noHolds_of (by decide +kernel), by decide +kernel, by decide +kernel⟩

/-- R165: a zone in GUARD at its last count opens at a boundary; its entry, at its last count too, expires unissued. -/
theorem test_boundary_runs_zones :
    let s := withZone guarding
    let u := after (.cycleMarker .a head 4001 51000250) s
    (∀ i, (u.inc.records.get i).map Incident.state = (s.inc.records.get i).map Incident.state) ∧ 2 ≤ s.inc.prescaler
    ∧ (s.asc.zones.get 4 = guarding) ∧ (u.asc.zones.get 4).state = .opened ∧ (u.asc.zones.get 4).queue = [] := by
  decide +kernel

theorem test_StepKeepsAscLaw : AscLaw working.asc := fun z =>
  zoneLaw_of ((by decide +kernel : ∀ z, zoneLawHolds (working.asc.zones.get z) = true) z)

end Sys2Proof.Tests
end

