-- ==== Sys2Proof/Proofs/OrderQueue.lean ====
section
/-! PROOFS. The field order queue: orders compete for one place just when they name the same timing point or the same zone,
an order offered keeps at most one for each, and the table of R12. -/

namespace Sys2Proof.Machine

/-! ## The place an order competes for -/

/-- The place an order competes for: its timing point or its zone. -/
def Order.place : Order → TpId ⊕ ZoneId
  | .hold _ p _ _ _ => .inl p
  | .release _ p _ => .inl p
  | .announce _ z _ _ _ _ _ => .inr z
  | .cut _ z _ => .inr z

theorem Order.rivals_iff_place (o new : Order) : o.rivals new = true ↔ o.place = new.place := by
  cases o <;> cases new <;> simp [Order.rivals, Order.point?, Order.zone?, Order.place]

theorem Order.not_rivals_iff_place (o new : Order) : o.rivals new = false ↔ o.place ≠ new.place := by
  rw [← Bool.not_eq_true, Order.rivals_iff_place]

theorem Order.point?_eq_some (o : Order) (p : TpId) : o.point? = some p ↔ o.place = .inl p := by
  cases o <;> simp [Order.point?, Order.place]

theorem Order.zone?_eq_some (o : Order) (z : ZoneId) : o.zone? = some z ↔ o.place = .inr z := by
  cases o <;> simp [Order.zone?, Order.place]

/-- What two rivals become together stands for the place both compete for (R12). -/
theorem combine_place {o new x : Order} (h : o.place = new.place) (hx : combine o new = some x) :
    x.place = new.place := by
  cases o <;> cases new <;> simp_all only [combine, Order.place, Option.some.injEq, reduceCtorEq, Sum.inl.injEq, Sum.inr.injEq]
  case announce.announce => subst hx; rfl
  case announce.cut =>
    split at hx
    · obtain ⟨_, _, rfl⟩ := Option.map_eq_some_iff.mp hx; rfl
    · cases hx; rfl
  all_goals subst hx; rfl

/-- At a timing point the new order stands in the old one's place (R11). -/
theorem combine_of_point {o new : Order} {p : TpId} (h : o.point? = some p) : combine o new = some new := by
  cases o <;> simp_all [combine, Order.point?]

/-! ## The offer -/

/-- A queue in which no two orders compete for one place. -/
def OrdersApart (q : List Order) : Prop := q.Pairwise fun x y => x.rivals y = false

theorem ordersApart_iff_nodup (q : List Order) : OrdersApart q ↔ (q.map Order.place).Nodup := by
  simp [OrdersApart, List.Nodup, List.pairwise_map, Order.not_rivals_iff_place]

/-- An order that has no rival in the front of a queue passes it by. -/
theorem offerOrder_append {new : Order} {before : List Order} (h : ∀ o ∈ before, o.rivals new = false) (q : List Order) :
    offerOrder new (before ++ q) = before ++ offerOrder new q := by
  induction before with
  | nil => rfl
  | cons o before ih =>
    obtain ⟨ho, hrest⟩ := List.forall_mem_cons.mp h
    simp [offerOrder, ho, ih hrest]

/-- An order meets the first rival in that rival's place (R11, R12). -/
theorem offerOrder_meets {new old : Order} {before : List Order} (h : ∀ o ∈ before, o.rivals new = false)
    (hold : old.rivals new = true) (after : List Order) :
    offerOrder new (before ++ old :: after) = before ++ ((combine old new).toList ++ after) := by
  rw [offerOrder_append h, offerOrder, if_pos hold]

/-- Every order of a queue after an offer competes for the place of the one offered or stood there before. -/
theorem place_of_mem_offerOrder {new x : Order} {q : List Order} (h : x ∈ offerOrder new q) :
    x.place = new.place ∨ x ∈ q := by
  induction q with
  | nil => simp_all [offerOrder]
  | cons o rest ih =>
    rw [offerOrder] at h
    split at h
    · next hr =>
      rcases List.mem_append.mp h with hc | hm
      · exact .inl (combine_place ((Order.rivals_iff_place _ _).mp hr) (Option.mem_toList.mp hc))
      · exact .inr (.tail _ hm)
    · rcases List.mem_cons.mp h with rfl | hm
      · exact .inr (.head _)
      · exact (ih hm).imp id (.tail _)

/-- An order offered keeps at most one order for each timing point and each zone (R11, R12). -/
theorem offerOrder_keepsApart (new : Order) {q : List Order} (h : OrdersApart q) : OrdersApart (offerOrder new q) := by
  induction q with
  | nil => exact List.pairwise_singleton _ _
  | cons o rest ih =>
    obtain ⟨ho, hrest⟩ := List.pairwise_cons.mp h
    rw [offerOrder]
    split
    · next hr =>
      have hp := (Order.rivals_iff_place _ _).mp hr
      cases hc : combine o new with
      | none => exact hrest
      | some x =>
        refine List.pairwise_cons.mpr ⟨fun y hy => ?_, hrest⟩
        rw [Order.not_rivals_iff_place, combine_place hp hc, ← hp, ← Order.not_rivals_iff_place]
        exact ho y hy
    · next hr =>
      refine List.pairwise_cons.mpr ⟨fun y hy => ?_, ih hrest⟩
      rcases place_of_mem_offerOrder hy with hp | hm
      · rw [Order.not_rivals_iff_place, hp, ← Order.not_rivals_iff_place]
        simpa using hr
      · exact ho y hm

/-- There are 88 places: 64 timing points and 24 zones. -/
theorem length_le_of_ordersApart {q : List Order} (h : OrdersApart q) : q.length ≤ 88 := by
  have := List.Nodup.length_le_card ((ordersApart_iff_nodup q).mp h)
  simpa using this

/-- Settles O13: the law is that no two orders share a place, and there are 88 places. -/
theorem orderQueueLawKept : Obligations.OrderQueueLawKept :=
  ⟨fun o _ h => offerOrder_keepsApart o h, fun _ h => length_le_of_ordersApart h⟩

/-! ## The table of R12 -/

theorem offerOrder_of_no_rival {new : Order} {q : List Order} (h : ∀ o ∈ q, o.rivals new = false) :
    offerOrder new q = q ++ [new] := by
  simpa [offerOrder] using offerOrder_append h []

/-- Settles O14: the order offered meets its first rival, and what the two become is the table's. -/
theorem supersessionTable : Obligations.SupersessionTable := by
  refine ⟨fun new q h => offerOrder_of_no_rival h, ?_, ?_⟩
  · intro p old new before after hb hold hnew
    have hn := (new.point?_eq_some p).mp hnew
    rw [offerOrder_meets, combine_of_point hold]
    · rfl
    · intro o ho
      rw [Order.not_rivals_iff_place, hn, ne_eq, ← Order.point?_eq_some]
      exact hb o ho
    · rw [Order.rivals_iff_place, hn, ← Order.point?_eq_some]
      exact hold
  · intro before after z hb
    have meets (old new : Order) (hold : old.place = .inr z) (hnew : new.place = .inr z) :
        offerOrder new (before ++ old :: after) = before ++ ((combine old new).toList ++ after) := by
      apply offerOrder_meets
      · intro o ho
        rw [Order.not_rivals_iff_place, hnew, ne_eq, ← Order.zone?_eq_some]
        exact hb o ho
      · rw [Order.rivals_iff_place, hold, hnew]
    refine ⟨?_, ?_, ?_, ?_, ?_, ?_⟩
    · intro d d' t m p ps; rw [meets _ _ rfl rfl]; simp [combine]
    · intro d d' t m p ps c; rw [meets _ _ rfl rfl]; simp [combine]
    · intro d d' t u m p ps c h; rw [meets _ _ rfl rfl]; simp [combine, h]
    · intros; rw [meets _ _ rfl rfl]; rfl
    · intros; rw [meets _ _ rfl rfl]; rfl
    · intros; rw [meets _ _ rfl rfl]; rfl

end Sys2Proof.Machine
end

