-- ==== Sys2Proof/Proofs/Transmitters.lean ====
section
/-! PROOFS. The two transmitters: when each takes a telegram and what it then sends; that they do not touch each other's
work, so that having looked once they find none. -/

namespace Sys2Proof.Machine

/-! ## What each transmitter does -/

/-- The state once the room transmitter has taken `x` and left `rest` waiting (R9). -/
def roomTaken (x : RoomItem) (rest : List RoomItem) (s : State) : State :=
  { s with
    tiu.room := rest
    tiu.roomSending := some (roomTelegram s.tiu.roomBit x)
    tiu.roomBit := if x.kind = .forwarded then s.tiu.roomBit else !s.tiu.roomBit }

/-- The state once the field transmitter has taken the order `o` and left `rest` waiting (R14). -/
def orderTaken (o : Order) (rest : List Order) (s : State) : State :=
  { s with
    tiu.orders := rest
    tiu.fieldSending := some { telegram := orderTelegram s.address s.tiu.fieldBit o, onA := s.links.a, onB := s.links.b }
    tiu.fieldBit := !s.tiu.fieldBit }

/-- The state once the field transmitter has taken the forward telegram `t` and left `rest` waiting (R14). -/
def forwardTaken (t : Telegram) (rest : List Telegram) (s : State) : State :=
  { s with
    tiu.forward := rest
    tiu.fieldSending := some { telegram := t, onA := s.links.a, onB := s.links.b } }

/-- The room transmitter is free, has its link and finds a telegram. -/
def RoomReady (s : State) (x : RoomItem) (rest : List RoomItem) : Prop :=
  s.links.room = true ∧ s.tiu.roomSending = none ∧ s.tiu.room = x :: rest

/-- The field transmitter is free and has a link. -/
def FieldReady (s : State) : Prop := (s.links.a = true ∨ s.links.b = true) ∧ s.tiu.fieldSending = none

theorem startRoom_takes {s : State} {x : RoomItem} {rest : List RoomItem} (h : RoomReady s x rest) :
    startRoom s = roomTaken x rest s := by
  obtain ⟨hl, hs, hr⟩ := h
  simp [startRoom, roomTaken, hl, hs, hr]

theorem startRoom_rests {s : State} (h : ∀ x rest, ¬RoomReady s x rest) : startRoom s = s := by
  unfold startRoom
  split
  · next hc =>
    split
    · rfl
    · next x rest hr => exact absurd ⟨hc.1, hc.2, hr⟩ (h x rest)
  · rfl

theorem startField_takes_order {s : State} {o : Order} {rest : List Order} (h : FieldReady s)
    (ho : s.tiu.orders = o :: rest) : startField s = orderTaken o rest s := by
  obtain ⟨hl, hs⟩ := h
  simp [startField, orderTaken, hl, hs, ho]

theorem startField_takes_forward {s : State} {t : Telegram} {rest : List Telegram} (h : FieldReady s)
    (ho : s.tiu.orders = []) (hf : s.tiu.forward = t :: rest) : startField s = forwardTaken t rest s := by
  obtain ⟨hl, hs⟩ := h
  simp [startField, forwardTaken, hl, hs, ho, hf]

theorem startField_rests {s : State} (h : ¬FieldReady s ∨ (s.tiu.orders = [] ∧ s.tiu.forward = [])) :
    startField s = s := by
  unfold startField
  split
  · next hc =>
    obtain ⟨ho, hf⟩ := h.resolve_left (not_not_intro hc)
    simp [ho, hf]
  · rfl

/-- What the room transmitter can do. -/
theorem startRoom_cases (s : State) :
    ((∀ x rest, ¬RoomReady s x rest) ∧ startRoom s = s)
      ∨ ∃ x rest, RoomReady s x rest ∧ startRoom s = roomTaken x rest s := by
  by_cases h : ∃ x rest, RoomReady s x rest
  · obtain ⟨x, rest, h⟩ := h
    exact .inr ⟨x, rest, h, startRoom_takes h⟩
  · have h : ∀ x rest, ¬RoomReady s x rest := fun x rest hr => h ⟨x, rest, hr⟩
    exact .inl ⟨h, startRoom_rests h⟩

/-- What the field transmitter can do. -/
theorem startField_cases (s : State) :
    ((¬FieldReady s ∨ (s.tiu.orders = [] ∧ s.tiu.forward = [])) ∧ startField s = s)
      ∨ (∃ o rest, FieldReady s ∧ s.tiu.orders = o :: rest ∧ startField s = orderTaken o rest s)
      ∨ ∃ t rest, FieldReady s ∧ s.tiu.orders = [] ∧ s.tiu.forward = t :: rest
        ∧ startField s = forwardTaken t rest s := by
  by_cases h : FieldReady s
  · cases ho : s.tiu.orders with
    | cons o rest => exact .inr (.inl ⟨o, rest, h, rfl, startField_takes_order h ho⟩)
    | nil =>
      cases hf : s.tiu.forward with
      | cons t rest => exact .inr (.inr ⟨t, rest, h, rfl, rfl, startField_takes_forward h ho hf⟩)
      | nil => exact .inl ⟨.inr ⟨rfl, rfl⟩, startField_rests (.inr ⟨ho, hf⟩)⟩
  · exact .inl ⟨.inl h, startField_rests (.inl h)⟩

/-! ## The transmitters together -/

/-- The transmitters look for work independently: neither reads what the other writes. -/
theorem startRoom_startField (s : State) : startRoom (startField s) = startField (startRoom s) := by
  rcases startRoom_cases s with ⟨hr, er⟩ | ⟨x, xs, hr, er⟩ <;>
    rcases startField_cases s with ⟨hf, ef⟩ | ⟨o, os, hf, ho, ef⟩ | ⟨t, ts, hf, ho, ht, ef⟩ <;>
    rw [er, ef]
  · exact er
  · exact startRoom_rests (s := orderTaken o os s) hr
  · exact startRoom_rests (s := forwardTaken t ts s) hr
  · exact er.trans (startField_rests (s := roomTaken x xs s) hf).symm
  · exact (startRoom_takes (s := orderTaken o os s) hr).trans
      (startField_takes_order (s := roomTaken x xs s) hf ho).symm
  · exact (startRoom_takes (s := forwardTaken t ts s) hr).trans
      (startField_takes_forward (s := roomTaken x xs s) hf ho ht).symm

theorem startRoom_startRoom (s : State) : startRoom (startRoom s) = startRoom s := by
  rcases startRoom_cases s with ⟨_, er⟩ | ⟨x, rest, _, er⟩
  · rw [er, er]
  · rw [er]
    exact startRoom_rests fun y ys ⟨_, hs, _⟩ => nomatch hs

theorem startField_startField (s : State) : startField (startField s) = startField s := by
  rcases startField_cases s with ⟨_, ef⟩ | ⟨o, rest, _, _, ef⟩ | ⟨t, rest, _, _, _, ef⟩ <;> rw [ef]
  · exact ef
  · exact startField_rests (.inl fun ⟨_, hs⟩ => nomatch hs)
  · exact startField_rests (.inl fun ⟨_, hs⟩ => nomatch hs)

/-- Having looked for work once, the transmitters find none. -/
theorem settle_settle (s : State) : settle (settle s) = settle s := by
  rw [settle, settle, startRoom_startField, startRoom_startRoom, startField_startField]

/-! ## What settling leaves alone -/

/-- The transmitters write the TIU alone. -/
theorem settle_outside (s : State) : settle s = { s with tiu := (settle s).tiu } := by
  have hr (s : State) : startRoom s = { s with tiu := (startRoom s).tiu } := by
    rcases startRoom_cases s with ⟨_, er⟩ | ⟨_, _, _, er⟩
    · rw [er]
    · rw [er]; rfl
  have hf (s : State) : startField s = { s with tiu := (startField s).tiu } := by
    rcases startField_cases s with ⟨_, ef⟩ | ⟨_, _, _, _, ef⟩ | ⟨_, _, _, _, _, ef⟩
    · rw [ef]
    · rw [ef]; rfl
    · rw [ef]; rfl
  calc settle s = { startRoom s with tiu := (settle s).tiu } := hf _
    _ = { s with tiu := (settle s).tiu } := by rw [hr s]

/-- The TIU fields that the room transmitter writes are its queue, its sending and its bit. -/
theorem startRoom_frame (s : State) :
    startRoom s = { s with tiu.room := (startRoom s).tiu.room, tiu.roomSending := (startRoom s).tiu.roomSending,
                           tiu.roomBit := (startRoom s).tiu.roomBit } := by
  rcases startRoom_cases s with ⟨_, er⟩ | ⟨_, _, _, er⟩
  · rw [er]
  · rw [er]; rfl

/-- The TIU fields that the field transmitter writes are its two queues, its sending and its bit. -/
theorem startField_frame (s : State) :
    startField s = { s with tiu.orders := (startField s).tiu.orders, tiu.forward := (startField s).tiu.forward,
                            tiu.fieldSending := (startField s).tiu.fieldSending,
                            tiu.fieldBit := (startField s).tiu.fieldBit } := by
  rcases startField_cases s with ⟨_, ef⟩ | ⟨_, _, _, _, ef⟩ | ⟨_, _, _, _, _, ef⟩
  · rw [ef]
  · rw [ef]; rfl
  · rw [ef]; rfl

theorem byte_ofNat_toNat (b : Bool) : BitVec.ofNat 8 b.toNat = if b then 1 else 0 := by cases b <;> rfl

/-- A built telegram goes out with the alternation bit as its flags, a forwarded one as it came (R9). -/
theorem roomTelegram_forwarded {x : RoomItem} (h : x.kind = .forwarded) (bit : Bool) :
    roomTelegram bit x = x.telegram := by
  simp [roomTelegram, h]

theorem roomTelegram_built {x : RoomItem} (h : x.kind ≠ .forwarded) (bit : Bool) :
    roomTelegram bit x = { x.telegram with flags := if bit then 1 else 0 } := by
  unfold roomTelegram
  split
  · next hk => exact absurd hk h
  · rw [byte_ofNat_toNat]
  · rw [byte_ofNat_toNat]

/-- What the room transmitter takes is the head of its queue, which it then sends. -/
theorem settle_room (s : State) :
    ((settle s).tiu.room = s.tiu.room ∧ (settle s).tiu.roomSending = s.tiu.roomSending
        ∧ (settle s).tiu.roomBit = s.tiu.roomBit ∧ ∀ x rest, ¬RoomReady s x rest)
      ∨ ∃ x, RoomReady s x (settle s).tiu.room
        ∧ (settle s).tiu.roomSending = some (roomTelegram s.tiu.roomBit x)
        ∧ (settle s).tiu.roomBit = if x.kind = .forwarded then s.tiu.roomBit else !s.tiu.roomBit := by
  have e : settle s = startField (startRoom s) := rfl
  rw [e, startField_frame]
  rcases startRoom_cases s with ⟨h, er⟩ | ⟨x, rest, h, er⟩ <;> rw [er]
  · exact .inl ⟨rfl, rfl, rfl, h⟩
  · exact .inr ⟨x, h, rfl, rfl⟩

/-- What the field transmitter takes is the head of the order queue, or of the forward queue when no order waits. -/
theorem settle_field (s : State) :
    ((settle s).tiu.orders = s.tiu.orders ∧ (settle s).tiu.forward = s.tiu.forward
        ∧ (settle s).tiu.fieldSending = s.tiu.fieldSending ∧ (settle s).tiu.fieldBit = s.tiu.fieldBit
        ∧ (¬FieldReady s ∨ (s.tiu.orders = [] ∧ s.tiu.forward = [])))
      ∨ (FieldReady s ∧ ∃ o, s.tiu.orders = o :: (settle s).tiu.orders ∧ (settle s).tiu.forward = s.tiu.forward
        ∧ (settle s).tiu.fieldSending
            = some { telegram := orderTelegram s.address s.tiu.fieldBit o, onA := s.links.a, onB := s.links.b }
        ∧ (settle s).tiu.fieldBit = !s.tiu.fieldBit)
      ∨ (FieldReady s ∧ ∃ m, s.tiu.orders = [] ∧ (settle s).tiu.orders = [] ∧ s.tiu.forward = m :: (settle s).tiu.forward
        ∧ (settle s).tiu.fieldSending = some { telegram := m, onA := s.links.a, onB := s.links.b }
        ∧ (settle s).tiu.fieldBit = s.tiu.fieldBit) := by
  have e : settle s = startRoom (startField s) := (startRoom_startField s).symm
  rw [e, startRoom_frame]
  rcases startField_cases s with ⟨h, ef⟩ | ⟨o, rest, h, ho, ef⟩ | ⟨t, rest, h, ho, hf, ef⟩ <;> rw [ef]
  · exact .inl ⟨rfl, rfl, rfl, rfl, h⟩
  · exact .inr (.inl ⟨h, o, ho, rfl, rfl, rfl⟩)
  · exact .inr (.inr ⟨h, t, ho, ho, hf, rfl, rfl⟩)

theorem settle_stands (s : State) :
    (settle s).tiu.duplicates = s.tiu.duplicates ∧ (settle s).tiu.manage = s.tiu.manage
      ∧ (settle s).tiu.counters = s.tiu.counters := by
  have e : settle s = startField (startRoom s) := rfl
  rw [e, startField_frame, startRoom_frame]
  exact ⟨rfl, rfl, rfl⟩

/-- Settles O6: the two transmitters case by case. -/
theorem transmittersLoseNothing : Obligations.TransmittersLoseNothing := by
  intro s
  obtain ⟨hd, hm, hc⟩ := settle_stands s
  refine ⟨⟨(settle s).tiu, settle_outside s, hd, hm, hc, ?_, ?_, ?_, ?_⟩, settle_settle s⟩
  · rcases settle_room s with ⟨hq, hs, hb, _⟩ | ⟨x, ⟨hl, hi, hq⟩, hs, hb⟩
    · exact .inl ⟨hq, hs, hb⟩
    · refine .inr ⟨x, hq, hi, hl, ?_⟩
      by_cases hk : x.kind = .forwarded
      · exact .inl ⟨hk, by rw [hs, roomTelegram_forwarded hk], by rw [hb, if_pos hk]⟩
      · exact .inr ⟨hk, by rw [hs, roomTelegram_built hk], by rw [hb, if_neg hk]⟩
  · rcases settle_field s with ⟨ho, hf, hs, hb, _⟩ | ⟨⟨hl, hi⟩, o, h⟩ | ⟨⟨hl, hi⟩, m, h⟩
    · exact .inl ⟨ho, hf, hs, hb⟩
    · exact .inr ⟨hl, hi, .inl ⟨o, h⟩⟩
    · exact .inr ⟨hl, hi, .inr ⟨m, h⟩⟩
  · intro x rest hi hl hq
    rcases settle_room s with ⟨_, _, _, hn⟩ | ⟨y, ⟨_, _, hy⟩, _⟩
    · exact absurd ⟨hl, hi, hq⟩ (hn x rest)
    · exact (List.cons.inj (hy.symm.trans hq)).2
  · intro hi hl
    rcases settle_field s with ⟨_, _, _, _, hn⟩ | ⟨_, o, ho, hf, _⟩ | ⟨_, m, ho, hos, hf, _⟩
    · obtain ⟨ho, hf⟩ := hn.resolve_left (not_not_intro ⟨hl, hi⟩)
      simp [ho, hf]
    · exact ⟨fun p rest hp => ⟨(List.cons.inj (ho.symm.trans hp)).2, hf⟩,
        fun m rest hn => absurd (ho.symm.trans hn) (by simp)⟩
    · exact ⟨fun p rest hp => absurd (ho.symm.trans hp) (by simp),
        fun t rest _ ht => (List.cons.inj (hf.symm.trans ht)).2⟩

/-! ## The ends of transmission -/

theorem whenAwake_awake (f : State → State) {s : State} (h : s.inReset = false) : whenAwake f s = settle (f s) := by
  simp [whenAwake, h]

theorem whenAwake_reset (f : State → State) {s : State} (h : s.inReset = true) : whenAwake f s = s := by
  simp [whenAwake, h]

/-- The room port has finished sending. -/
def roomFreed (s : State) : State := { s with tiu.roomSending := none }

/-- The field ports have finished sending. -/
def fieldFreed (s : State) : State := { s with tiu.fieldSending := none }

theorem exec_roomTransmissionEnd {s : State} (h : s.inReset = false) :
    exec .roomTransmissionEnd s = .next (startField (startRoom (roomFreed s))) :=
  congrArg _ (whenAwake_awake _ h)

theorem exec_fieldTransmissionEnd {s : State} (h : s.inReset = false) :
    exec .fieldTransmissionEnd s = .next (startRoom (startField (fieldFreed s))) :=
  (congrArg _ (whenAwake_awake _ h)).trans (congrArg _ (startRoom_startField _).symm)

/-- Settles O5: at the end of a transmission the transmitter concerned is idle and takes what the rules above say. -/
theorem transmissionEndsTakeHeads : Obligations.TransmissionEndsTakeHeads := by
  refine ⟨fun s h => ⟨fun hn => ?_, fun x rest hl hr => ?_, fun hn => ?_, fun o rest hl ho => ?_,
    fun t rest hl ho hf => ?_⟩, ?_⟩
  · rw [exec_roomTransmissionEnd h, startRoom_rests]
    · rfl
    rintro x rest ⟨hl, _, hr⟩
    rcases hn with hn | hn
    · exact Bool.noConfusion (hn.symm.trans hl)
    · exact nomatch (hn.symm.trans hr)
  · have e : exec .roomTransmissionEnd s = .next (startField (roomTaken x rest (roomFreed s))) := by
      rw [exec_roomTransmissionEnd h, startRoom_takes (s := roomFreed s) ⟨hl, rfl, hr⟩]
    refine ⟨fun hk => ?_, fun hk => ?_⟩
    · rw [e, roomTaken, roomTelegram_forwarded hk, if_pos hk]; rfl
    · rw [e, roomTaken, roomTelegram_built hk, if_neg hk]; rfl
  · rw [exec_fieldTransmissionEnd h, startField_rests]
    · rfl
    rcases hn with ⟨ha, hb⟩ | hn
    · exact .inl fun hf => by simp [FieldReady, fieldFreed, ha, hb] at hf
    · exact .inr hn
  · rw [exec_fieldTransmissionEnd h, startField_takes_order (s := fieldFreed s) ⟨hl, rfl⟩ ho]; rfl
  · rw [exec_fieldTransmissionEnd h, startField_takes_forward (s := fieldFreed s) ⟨hl, rfl⟩ ho hf]; rfl
  · intro address d bit pre p z m run n ps held why
    refine ⟨?_, ?_, ?_, ?_⟩
    · cases why <;> simp [orderTelegram, byte_ofNat_toNat, HoldReason.code, kindHold, num1]
    · simp [orderTelegram, byte_ofNat_toNat, kindRelease]
    · simp [orderTelegram, byte_ofNat_toNat, kindAnnounce, flag1, num1]
    · simp [orderTelegram, byte_ofNat_toNat, kindCut]

end Sys2Proof.Machine
end

