-- ==== Sys2Proof/Proofs/Queues.lean ====
section
/-! PROOFS. The queues and counters of the TIU: what an action's orders and reports do when they enter, and the operations
that keep the law of the TIU. -/

namespace Sys2Proof.Machine

/-! ## What an action made enters the queues (R7, R9, R10) -/

/-- The orders among what an action made, in the order made. -/
def madeOrders : List Made → List Order
  | [] => []
  | .order o :: rest => o :: madeOrders rest
  | .report _ :: rest => madeOrders rest

/-- The REPORTs among what an action made, in the order made. -/
def madeReports (address : Byte) : List Made → List RoomItem
  | [] => []
  | .order _ :: rest => madeReports address rest
  | .report content :: rest => reportItem address content :: madeReports address rest

@[simp] theorem madeOrders_append (l m : List Made) : madeOrders (l ++ m) = madeOrders l ++ madeOrders m := by
  induction l with
  | nil => rfl
  | cons x l ih => cases x <;> simp [madeOrders, ih]

@[simp] theorem madeReports_append (address : Byte) (l m : List Made) :
    madeReports address (l ++ m) = madeReports address l ++ madeReports address m := by
  induction l with
  | nil => rfl
  | cons x l ih => cases x <;> simp [madeReports, ih]

theorem mem_madeReports {address : Byte} {x : RoomItem} {l : List Made} :
    x ∈ madeReports address l ↔ ∃ content, .report content ∈ l ∧ x = reportItem address content := by
  induction l with
  | nil => simp [madeReports]
  | cons y l ih => cases y <;> simp [madeReports, ih]

theorem madeReports_kind {address : Byte} {x : RoomItem} {l : List Made} (h : x ∈ madeReports address l) :
    x.kind = .report := by
  obtain ⟨_, _, rfl⟩ := mem_madeReports.mp h
  rfl

theorem offerRoom_below {c : RoomClass} {s : State} (h : s.tiu.room.length < roomLimit s c) (item : RoomItem) :
    offerRoom c item s = { s with tiu.room := s.tiu.room ++ [item] } := if_pos h

theorem offerRoom_full {c : RoomClass} {s : State} (h : roomLimit s c ≤ s.tiu.room.length) (item : RoomItem) :
    offerRoom c item s = { s with tiu.counters := s.tiu.counters.refuse c } := if_neg (Nat.not_lt.mpr h)

/-- A REPORT is offered to the room-bound queue (R9). -/
def reportOffered (content : List Byte) (s : State) : State :=
  offerRoom .part { kind := .report, telegram := reportTelegram s content } s

theorem reportOffered_below {s : State} (h : s.tiu.room.length < 64) (content : List Byte) :
    reportOffered content s = { s with tiu.room := s.tiu.room ++ [reportItem s.address content] } :=
  offerRoom_below (c := .part) h _

theorem reportOffered_full {s : State} (h : 64 ≤ s.tiu.room.length) (content : List Byte) :
    reportOffered content s = { s with tiu.counters.partRefused := bump s.tiu.counters.partRefused } :=
  offerRoom_full (c := .part) h _

/-- What enters the queues writes the order queue, the room-bound queue and the count of refused telegrams of the part. -/
theorem enterMade_frame (s : State) (l : List Made) :
    enterMade s l = { s with
      tiu.orders := (enterMade s l).tiu.orders
      tiu.room := (enterMade s l).tiu.room
      tiu.counters.partRefused := (enterMade s l).tiu.counters.partRefused } := by
  induction l generalizing s with
  | nil => rfl
  | cons x l ih =>
    cases x with
    | order o => exact (ih _).trans rfl
    | report content =>
      have e : enterMade s (.report content :: l) = enterMade (reportOffered content s) l := rfl
      rw [e, ih]
      rcases Nat.lt_or_ge s.tiu.room.length 64 with h | h
      · rw [reportOffered_below h]
      · rw [reportOffered_full h]

/-- The orders are offered in the order made. -/
theorem orders_enterMade (s : State) (l : List Made) :
    (enterMade s l).tiu.orders = (madeOrders l).foldl (fun q o => offerOrder o q) s.tiu.orders := by
  induction l generalizing s with
  | nil => rfl
  | cons x l ih =>
    cases x with
    | order o => exact ih _
    | report content =>
      refine (ih (reportOffered content s)).trans ?_
      rcases Nat.lt_or_ge s.tiu.room.length 64 with h | h
      · rw [reportOffered_below h]; rfl
      · rw [reportOffered_full h]; rfl

/-- The REPORTs join the room-bound queue in the order made, as many as find a place. -/
theorem room_enterMade (s : State) (l : List Made) :
    (enterMade s l).tiu.room = s.tiu.room ++ (madeReports s.address l).take (64 - s.tiu.room.length) := by
  induction l generalizing s with
  | nil => simp [enterMade, madeReports]
  | cons x l ih =>
    cases x with
    | order o => exact ih _
    | report content =>
      refine (ih (reportOffered content s)).trans ?_
      rcases Nat.lt_or_ge s.tiu.room.length 64 with h | h
      · obtain ⟨k, hk⟩ : ∃ k, 64 - s.tiu.room.length = k + 1 := ⟨63 - s.tiu.room.length, by omega⟩
        rw [reportOffered_below h]
        have hk' : 64 - (s.tiu.room ++ [reportItem s.address content]).length = k := by
          rw [List.length_append, List.length_singleton]; omega
        simp only [hk', hk, madeReports, List.take_succ_cons, List.append_assoc, List.singleton_append]
      · rw [reportOffered_full h]
        simp [Nat.sub_eq_zero_of_le h]

/-! ## The law of the TIU -/

/-- Counters that stand within 0 to 65535 (R15). -/
def Counters.Within (c : Counters) : Prop := ∀ n ∈ c.values, n ≤ 65535

theorem bump_le (n : Nat) : bump n ≤ 65535 := Nat.min_le_right _ _

theorem Counters.Within.check {c : Counters} (h : c.Within) (p : Port) : (c.check p).Within := by
  cases p <;> simp_all [Counters.Within, Counters.values, Counters.check, bump_le]

theorem Counters.Within.length {c : Counters} (h : c.Within) (p : Port) : (c.length p).Within := by
  cases p <;> simp_all [Counters.Within, Counters.values, Counters.length, bump_le]

theorem Counters.Within.duplicate {c : Counters} (h : c.Within) (p : FieldPort) : (c.duplicate p).Within := by
  cases p <;> simp_all [Counters.Within, Counters.values, Counters.duplicate, bump_le]

theorem Counters.Within.misdirected {c : Counters} (h : c.Within) (p : Port) : (c.misdirected p).Within := by
  cases p <;> simp_all [Counters.Within, Counters.values, Counters.misdirected, bump_le]

theorem Counters.Within.refuse {c : Counters} (h : c.Within) (k : RoomClass) : (c.refuse k).Within := by
  cases k <;> simp_all [Counters.Within, Counters.values, Counters.refuse, bump_le]

theorem Counters.Within.manageLost {c : Counters} (h : c.Within) :
    Counters.Within { c with manageLost := bump c.manageLost } := by
  simp_all [Counters.Within, Counters.values, bump_le]

theorem Counters.Within.forwardRefused {c : Counters} (h : c.Within) :
    Counters.Within { c with forwardRefused := bump c.forwardRefused } := by
  simp_all [Counters.Within, Counters.values, bump_le]

theorem Counters.within_zero : Counters.zero.Within := by simp [Counters.Within, Counters.values, Counters.zero]

theorem tiuLaw_start : TiuLaw Tiu.start where
  room := Nat.zero_le _
  manage := Nat.zero_le _
  forward := Nat.zero_le _
  orders := List.Pairwise.nil
  counters := Counters.within_zero

/-- Counting keeps the law. -/
theorem tiuLaw_count {s : State} (h : TiuLaw s.tiu) {f : Counters → Counters} (hf : (f s.tiu.counters).Within) :
    TiuLaw (count f s).tiu := { h with counters := hf }

theorem tiuLaw_remember {s : State} (h : TiuLaw s.tiu) (t : Telegram) : TiuLaw (remember t s).tiu := { h with }

theorem tiuLaw_forgotten {t : Tiu} (h : TiuLaw t) (d : Table DupEntry 256) : TiuLaw { t with duplicates := d } := { h with }

theorem tiuLaw_order {t : Tiu} (h : TiuLaw t) (o : Order) : TiuLaw { t with orders := offerOrder o t.orders } :=
  { h with orders := offerOrder_keepsApart o h.orders }

theorem tiuLaw_manageTaken {t : Tiu} {x : Telegram} {rest : List Telegram} (h : TiuLaw t) (hm : t.manage = x :: rest) :
    TiuLaw { t with manage := rest } :=
  { h with manage := by have := h.manage; rw [hm, List.length_cons] at this; exact Nat.le_of_succ_le this }

theorem roomLimit_le (s : State) (c : RoomClass) : roomLimit s c ≤ 64 := by
  cases c
  · exact Nat.min_le_right _ _
  · exact (by decide : 60 ≤ 64)
  · exact le_rfl

theorem tiuLaw_offerRoom {s : State} (h : TiuLaw s.tiu) (c : RoomClass) (item : RoomItem) :
    TiuLaw (offerRoom c item s).tiu := by
  unfold offerRoom
  split
  · next hlt =>
    have := roomLimit_le s c
    exact { h with room := by simp; omega }
  · exact { h with counters := Counters.Within.refuse h.counters c }

theorem tiuLaw_enterMade {s : State} (h : TiuLaw s.tiu) (l : List Made) : TiuLaw (enterMade s l).tiu := by
  induction l generalizing s with
  | nil => exact h
  | cons x l ih =>
    cases x with
    | order o => exact ih (tiuLaw_order h o)
    | report content => exact ih (tiuLaw_offerRoom h _ _)

theorem tiuLaw_answer {s : State} (h : TiuLaw s.tiu) (hr : s.tiu.room.length < 64) (t : Telegram) (r : Reply) :
    TiuLaw (answer t r s).tiu :=
  { h with room := by simp [answer]; omega }

theorem tiuLaw_queueManage {s : State} (h : TiuLaw s.tiu) (t : Telegram) : TiuLaw (queueManage t s).tiu := by
  unfold queueManage
  split
  · exact { h with manage := by simp; omega }
  · exact tiuLaw_count h (Counters.Within.manageLost h.counters)

theorem tiuLaw_queueForward {s : State} (h : TiuLaw s.tiu) (t : Telegram) : TiuLaw (queueForward t s).tiu := by
  unfold queueForward
  split
  · exact { h with forward := by simp; omega }
  · exact tiuLaw_count h (Counters.Within.forwardRefused h.counters)

/-- A FULL restart keeps the law: it only takes from the room-bound queue (R16). -/
theorem tiuLaw_full {t : Tiu} (h : TiuLaw t) : TiuLaw t.full :=
  { tiuLaw_start with
    room := (List.length_filter_le _ _).trans h.room
    manage := h.manage }

/-- The transmitters only take heads. -/
theorem tiuLaw_settle {s : State} (h : TiuLaw s.tiu) : TiuLaw (settle s).tiu := by
  obtain ⟨_, hm, hc⟩ := settle_stands s
  have hroom : (settle s).tiu.room.length ≤ s.tiu.room.length := by
    rcases settle_room s with ⟨hq, _⟩ | ⟨x, ⟨_, _, hq⟩, _⟩ <;> simp [hq]
  have hfield : (settle s).tiu.orders <:+ s.tiu.orders ∧ (settle s).tiu.forward.length ≤ s.tiu.forward.length := by
    rcases settle_field s with ⟨ho, hf, _⟩ | ⟨_, o, ho, hf, _⟩ | ⟨_, m, ho, hos, hf, _⟩
    · simp [ho, hf]
    · simp [ho, hf]
    · simp [ho, hos, hf]
  exact
    { room := hroom.trans h.room
      manage := hm ▸ h.manage
      forward := hfield.2.trans h.forward
      orders := h.orders.sublist hfield.1.sublist
      counters := hc ▸ h.counters }

end Sys2Proof.Machine
end

