-- ==== Sys2Proof/Proofs/Frames.lean ====
section
/-! PROOFS. What every command leaves alone: the links, the straps, the address, the reset and the waiting commands; and that
every command keeps the law of the TIU. A command function gathers what it makes and writes no queue of the TIU itself
(`outer`); the rest is the queues' own rules. -/

namespace Sys2Proof.Machine

/-! ## What the management commands write -/

/-- A state without what any block but the TIU holds, and without the model's count of free values. -/
def State.outer (s : State) : State := { s.pins with freeCount := 0 }

/-- The outer of an action's state. -/
def Act.outer (a : Act) : State := a.s.outer

theorem outer_of_pins {a b : Act} (h : a.pins = b.pins) : a.outer = b.outer :=
  show { a.s.pins with freeCount := 0 } = { b.s.pins with freeCount := 0 } from
    congrArg (fun s : State => { s with freeCount := 0 }) h

theorem outer_of_still {a b : Act} (h : a.still = b.still) : a.outer = b.outer := outer_of_pins (pins_of_still h)

theorem outer_of_blank {a b : Act} (h : a.blank = b.blank) : a.outer = b.outer := outer_of_still (still_of_blank h)

theorem outer_of_residue {a b : Act} (h : a.residue = b.residue) : a.outer = b.outer := outer_of_blank (blank_of_residue h)

theorem outer_of_offAsc {a b : Act} (h : a.offAsc = b.offAsc) : a.outer = b.outer := outer_of_residue (residue_of_offAsc h)

@[simp] theorem outer_loadOpen (x n k : Nat) (a : Act) : (loadOpen x n k a).1.outer = a.outer := by
  unfold loadOpen
  split
  · rfl
  · repeat' split
    all_goals rfl

@[simp] theorem outer_loadAbort (a : Act) : (loadAbort a).1.outer = a.outer := by
  unfold loadAbort; split <;> rfl

@[simp] theorem outer_contentFault (l : Load) (x : Option (Nat × Nat)) (a : Act) :
    (contentFault l x a).1.outer = a.outer := by
  unfold contentFault
  cases x <;> rfl

@[simp] theorem outer_raiseIfUnlocked (a : Act) : (raiseIfUnlocked a).outer = a.outer := by
  unfold raiseIfUnlocked
  split
  · exact outer_of_blank (blank_request _ a)
  · rfl

@[simp] theorem outer_lineInForce (l : LineTables) (a : Act) : (lineInForce l a).outer = a.outer :=
  (outer_raiseIfUnlocked _).trans rfl

@[simp] theorem outer_validate (l : Load) (a : Act) : (validate l a).1.outer = a.outer := by
  unfold validate
  split
  · split
    · simp
    · exact outer_lineInForce _ a
  · split
    · simp
    · rfl

@[simp] theorem outer_complete (l : Load) (a : Act) : (complete l a).1.outer = a.outer := by
  unfold complete
  dsimp only
  split
  · rfl
  · simp

@[simp] theorem outer_loadBlock (k : Nat) (bytes : List Byte) (a : Act) : (loadBlock k bytes a).1.outer = a.outer := by
  unfold loadBlock
  split
  · rfl
  · split
    · rfl
    · dsimp only
      split
      · simp
      · rfl

@[simp] theorem outer_activatePending (a : Act) : (activatePending a).outer = a.outer :=
  outer_of_still (still_activatePending a)

@[simp] theorem outer_profileActivate (k : Nat) (a : Act) : (profileActivate k a).1.outer = a.outer := by
  unfold profileActivate
  split
  · rfl
  · split
    · rfl
    · split
      · rfl
      · dsimp only
        split
        · rfl
        · exact outer_activatePending _

@[simp] theorem outer_closeGroup (g : List HeldEdit) (a : Act) : (closeGroup g a).1.outer = a.outer := by
  unfold closeGroup
  split
  · rfl
  · exact outer_of_still (still_applyGroup g a)

@[simp] theorem outer_editHold (a : Act) : (editHold a).1.outer = a.outer := by
  unfold editHold
  repeat' split
  all_goals rfl

@[simp] theorem outer_editRelease (a : Act) : (editRelease a).1.outer = a.outer := by
  unfold editRelease
  split
  · rfl
  · split
    · rfl
    · split
      · rfl
      · split
        · rfl
        · exact outer_closeGroup _ _

@[simp] theorem outer_joinGroup (e : HeldEdit) (c : Bool) (a : Act) : (joinGroup e c a).1.outer = a.outer := by
  unfold joinGroup
  split
  · split <;> rfl
  · split
    · exact outer_closeGroup _ a
    · rfl

@[simp] theorem outer_edit (t i f v : Nat) (a : Act) : (edit t i f v a).1.outer = a.outer := by
  unfold edit
  split
  · rfl
  · split
    · rfl
    · split
      · rfl
      · split
        · rfl
        · split
          · rfl
          · exact outer_joinGroup _ _ a

@[simp] theorem outer_bindCommand (x n : Nat) (a : Act) : (bindCommand x n a).1.outer = a.outer := by
  unfold bindCommand
  split
  · rfl
  · split
    · rfl
    · split
      · exact outer_of_blank (blank_unschedule _ a)
      · split
        · rfl
        · split
          · rfl
          · split
            · rfl
            · exact outer_of_blank (blank_bindRun _ _ a)

@[simp] theorem outer_removeCommand (x : Nat) (a : Act) : (removeCommand x a).1.outer = a.outer := by
  unfold removeCommand
  split
  · rfl
  · split
    · rfl
    · exact outer_of_blank (blank_removeTrain _ a)

@[simp] theorem outer_raiseCommand (x e r t m : Nat) (a : Act) : (raiseCommand x e r t m a).1.outer = a.outer := by
  unfold raiseCommand
  split
  · rfl
  · split
    · split
      · rfl
      · split
        · rfl
        · next i b h =>
          refine outer_of_residue ?_
          rw [residue_drain, residue_openRecord, residue_takeRecord h]
    · rfl

@[simp] theorem outer_ackCommand (t n r : Nat) (a : Act) : (ackCommand t n r a).1.outer = a.outer := by
  unfold ackCommand
  split
  · rfl
  · split
    · rfl
    · split
      · rfl
      · dsimp only
        split
        · exact outer_of_residue (by simp)
        · exact outer_of_residue (by simp)

@[simp] theorem outer_resolveCommand (n : Nat) (a : Act) : (resolveCommand n a).1.outer = a.outer := by
  unfold resolveCommand
  split
  · rfl
  · split
    · rfl
    · split
      · rfl
      · split
        · rfl
        · exact outer_of_residue (by simp)

@[simp] theorem outer_zoneCommand (z st : Nat) (a : Act) : (zoneCommand z st a).1.outer = a.outer := by
  unfold zoneCommand
  split
  · rfl
  · split
    · rfl
    · split
      · rfl
      · dsimp only
        refine outer_of_offAsc ?_
        split
        · simp
        · split
          · split <;> simp
          · simp

theorem offAsc_placeAll (e : NewEntry) (l : List ZoneId) (a : Act) : (placeAll e l a).1.offAsc = a.offAsc := by
  induction l generalizing a with
  | nil => rfl
  | cons z l ih => exact (ih _).trans (offAsc_placeEntry z e a)

@[simp] theorem outer_announceCommand (t : Telegram) (a : Act) : (announceCommand t a).1.outer = a.outer := by
  have args (x : List Byte) : (announceArgs x a).1.outer = a.outer := by
    unfold announceArgs
    split
    · rfl
    · dsimp only
      split
      · rfl
      · split
        · rfl
        · exact outer_of_offAsc (offAsc_placeAll _ _ a)
  unfold announceCommand
  dsimp only
  split
  · exact args _
  · rfl

@[simp] theorem outer_blockCommand (t : Telegram) (a : Act) : (blockCommand t a).1.outer = a.outer := by
  unfold blockCommand
  dsimp only
  split
  · simp
  · rfl

theorem outer_queryCommand (t : Telegram) (a : Act) : (queryCommand t a).1.outer = a.outer := by
  unfold queryCommand
  split <;> rfl

/-- A command with arguments of a length keeps what its function keeps. -/
theorem outer_sized {n : Nat} {f : List Byte → Act → Act × Reply} (hf : ∀ x a, (f x a).1.outer = a.outer) (t : Telegram)
    (a : Act) : (sized n f t a).1.outer = a.outer := by
  unfold sized
  split
  · exact hf _ a
  · rfl

/-! ## What every command keeps -/

/-- The links, the straps, the address, the reset and the waiting commands. -/
def State.shell (s : State) : Bool × Links × Byte × Byte × List Instr :=
  (s.inReset, s.links, s.straps, s.address, s.pending)

/-- A change of the state that keeps the shell and the law of the TIU. -/
structure Keeps (f : State → State) : Prop where
  shell : ∀ s, (f s).shell = s.shell
  law : ∀ s, TiuLaw s.tiu → TiuLaw (f s).tiu

/-- States of equal outer have the same shell and the same TIU. -/
theorem shell_of_outer {s u : State} (h : s.outer = u.outer) : s.shell = u.shell ∧ s.tiu = u.tiu :=
  have f {γ : Type} (g : State → γ) : g s.outer = g u.outer := congrArg g h
  ⟨f State.shell, f (·.tiu)⟩

theorem shell_enterMade (s : State) (l : List Made) : (enterMade s l).shell = s.shell := by
  rw [enterMade_frame]; rfl

theorem shell_offerRoom (c : RoomClass) (x : RoomItem) (s : State) : (offerRoom c x s).shell = s.shell := by
  unfold offerRoom; split <;> rfl

theorem shell_settle (s : State) : (settle s).shell = s.shell := by
  rw [settle_outside]; rfl

/-- Every command ends with the transmitters' look for work, or finds the part in reset. -/
theorem Keeps.whenAwake {f : State → State} (h : Keeps f) : Keeps (whenAwake f) where
  shell s := by
    unfold Machine.whenAwake
    split
    · rfl
    · exact (shell_settle _).trans (h.shell s)
  law s hs := by
    unfold Machine.whenAwake
    split
    · exact hs
    · exact tiuLaw_settle (h.law s hs)

theorem keeps_id : Keeps fun s => s := ⟨fun _ => rfl, fun _ h => h⟩

/-- Work of the blocks whose orders and reports then enter the queues. -/
theorem keeps_finish {work : Act → Act} (h : ∀ a, (work a).outer = a.outer) :
    Keeps fun s => (work (Act.start s)).finish where
  shell s := (shell_enterMade _ _).trans (shell_of_outer (h (Act.start s))).1
  law s hs := tiuLaw_enterMade ((shell_of_outer (h (Act.start s))).2 ▸ hs) _

/-- The expiry of a countdown. -/
theorem keeps_expiry {due : State → Bool} {work : Act → Act} (h : ∀ a, (work a).outer = a.outer) :
    Keeps fun s => if clockSet s ∧ due s then (work (Act.start s)).finish else s where
  shell s := by
    split
    · exact (keeps_finish h).shell s
    · rfl
  law s hs := by
    split
    · exact (keeps_finish h).law s hs
    · exact hs

/-! ## The receive path -/

theorem keeps_count {f : Counters → Counters} (h : ∀ c : Counters, c.Within → (f c).Within) : Keeps (count f) :=
  ⟨fun _ => rfl, fun _ hs => tiuLaw_count hs (h _ hs.counters)⟩

/-- The state an accepted field telegram leaves, before what was made enters the queues, differs from the one it came to in
the blocks alone. -/
theorem outer_dispatch (t : Telegram) (c : Contents) (a : Act) : (dispatch t c a).1.outer = a.outer :=
  outer_of_pins (pins_dispatch t c a)

theorem keeps_acceptField (t : Telegram) (c : Contents) : Keeps (acceptField t c) where
  shell s := by
    have h := (shell_of_outer (outer_dispatch t c (Act.start s))).1
    unfold acceptField forwardThenFinish
    split
    · exact (shell_enterMade _ _).trans ((shell_offerRoom _ _ _).trans h)
    · exact (shell_enterMade _ _).trans h
  law s hs := by
    have h : TiuLaw (dispatch t c (Act.start s)).1.s.tiu := (shell_of_outer (outer_dispatch t c (Act.start s))).2 ▸ hs
    unfold acceptField forwardThenFinish
    split
    · exact tiuLaw_enterMade (tiuLaw_offerRoom h _ _) _
    · exact tiuLaw_enterMade h _

theorem keeps_receiveField (p : FieldPort) (t : Telegram) : Keeps (receiveField p t) := by
  have misdirected := keeps_count fun c (h : c.Within) => h.misdirected p.port
  have length := keeps_count fun c (h : c.Within) => h.length p.port
  have duplicate := keeps_count fun c (h : c.Within) => h.duplicate p
  refine ⟨fun s => ?_, fun s hs => ?_⟩ <;> unfold receiveField
  · split
    · rfl
    · split
      · exact misdirected.shell s
      · split
        · exact length.shell s
        · split
          · exact (keeps_acceptField _ _).shell s
          · split
            · exact duplicate.shell s
            · exact (keeps_acceptField _ _).shell (remember t s)
  · split
    · exact hs
    · split
      · exact misdirected.law s hs
      · split
        · exact length.law s hs
        · split
          · exact (keeps_acceptField _ _).law s hs
          · split
            · exact duplicate.law s hs
            · exact (keeps_acceptField _ _).law _ (tiuLaw_remember hs t)

theorem keeps_queueManage (t : Telegram) : Keeps (queueManage t) :=
  ⟨fun s => by unfold queueManage; split <;> rfl, fun _ hs => tiuLaw_queueManage hs t⟩

theorem keeps_queueForward (t : Telegram) : Keeps (queueForward t) :=
  ⟨fun s => by unfold queueForward; split <;> rfl, fun _ hs => tiuLaw_queueForward hs t⟩

/-- A choice between two changes that keep shell and law. -/
theorem Keeps.ite {f g : State → State} {c : State → Prop} [DecidablePred c] (hf : Keeps f) (hg : Keeps g) :
    Keeps fun s => if c s then f s else g s where
  shell s := by split; exacts [hf.shell s, hg.shell s]
  law s hs := by split; exacts [hf.law s hs, hg.law s hs]

theorem keeps_receiveRoom (t : Telegram) : Keeps (receiveRoom t) := by
  refine Keeps.ite (Keeps.ite ?_ (Keeps.ite ?_ (keeps_queueManage t))) (keeps_queueForward t)
  · exact keeps_count fun c h => h.misdirected .room
  · exact keeps_count fun c h => h.length .room

theorem keeps_receiveSound (p : Port) (t : Telegram) : Keeps (receiveSound p t) := by
  cases p
  · exact keeps_receiveField .a t
  · exact keeps_receiveField .b t
  · exact keeps_receiveRoom t

theorem keeps_receiveTelegram (p : Port) (t : Telegram) : Keeps (receiveTelegram p t) :=
  Keeps.ite (Keeps.ite (keeps_count fun _ h => h.length p) (keeps_receiveSound p t)) keeps_id

theorem keeps_receiveFrame (p : Port) (f : List Byte) : Keeps (receiveFrame p f) := by
  refine Keeps.ite ?_ keeps_id
  cases readFrame f with
  | lengthFault => exact keeps_count fun _ h => h.length p
  | checkFault => exact keeps_count fun _ h => h.check p
  | sound t => exact keeps_receiveSound p t

/-! ## The management rows -/

/-- What the execution of a MANAGE must keep, which finds a place for its REPLY in the room-bound queue (R10). -/
structure KeepsTaken (run : Telegram → State → State) : Prop where
  shell : ∀ t s, (run t s).shell = s.shell
  law : ∀ t s, TiuLaw s.tiu → s.tiu.room.length < 64 → TiuLaw (run t s).tiu

theorem keeps_takeHead {belongs : Telegram → Bool} {run : Telegram → State → State} (h : KeepsTaken run) :
    Keeps (takeHead belongs run) := by
  refine ⟨fun s => ?_, fun s hs => ?_⟩ <;> unfold takeHead
  · split
    · rfl
    · split
      · exact h.shell _ _
      · rfl
  · split
    · exact hs
    · next t rest hm =>
      split
      · next hc => exact h.law _ _ (tiuLaw_manageTaken hs hm) hc.2
      · exact hs

theorem keepsTaken_answer (r : Reply) : KeepsTaken fun t s => answer t r s :=
  ⟨fun _ _ => rfl, fun t _ hs hr => tiuLaw_answer hs hr t r⟩

/-- The execution of a command whose function leaves the room-bound queue alone and keeps shell and law. -/
theorem keepsTaken_execute {f : Telegram → Act → Act × Reply}
    (hs : ∀ t s, (f t (Act.start s)).1.s.shell = s.shell)
    (hl : ∀ t s, TiuLaw s.tiu → TiuLaw (f t (Act.start s)).1.s.tiu)
    (hr : ∀ t s, (f t (Act.start s)).1.s.tiu.room = s.tiu.room) : KeepsTaken (execute f) where
  shell t s := (shell_enterMade _ _).trans (hs t s)
  law t s h hlt := tiuLaw_enterMade (tiuLaw_answer (hl t s h) (by rw [hr]; exact hlt) _ _) _

theorem keeps_command {code : Nat} {f : Telegram → Act → Act × Reply} (h : ∀ t a, (f t a).1.outer = a.outer) :
    Keeps (command code f) :=
  keeps_takeHead (keepsTaken_execute (fun t s => (shell_of_outer (h t (Act.start s))).1)
    (fun t s hs => (shell_of_outer (h t (Act.start s))).2 ▸ hs)
    (fun t s => congrArg Tiu.room (shell_of_outer (h t (Act.start s))).2))

theorem keeps_sizedCommand {code n : Nat} {f : List Byte → Act → Act × Reply} (h : ∀ x a, (f x a).1.outer = a.outer) :
    Keeps (command code (sized n f)) :=
  keeps_command fun t a => outer_sized h t a

theorem keeps_query (q : Subject) : Keeps (query q) :=
  keeps_takeHead (keepsTaken_execute
    (fun t s => (shell_of_outer (outer_queryCommand t (Act.start s))).1)
    (fun t s hs => (shell_of_outer (outer_queryCommand t (Act.start s))).2 ▸ hs)
    (fun t s => congrArg Tiu.room (shell_of_outer (outer_queryCommand t (Act.start s))).2))

theorem tiuLaw_clearCounters {s : State} (h : TiuLaw s.tiu) : TiuLaw (clearCounters s).tiu :=
  { h with counters := Counters.within_zero }

theorem keeps_clearCounters :
    Keeps (command 0x10 (sized 0 fun _ a => ({ a with s := clearCounters a.s }, .ok []))) := by
  refine keeps_takeHead (keepsTaken_execute (fun t s => ?_) (fun t s hs => ?_) fun t s => ?_) <;> unfold sized <;> split
  · rfl
  · rfl
  · exact tiuLaw_clearCounters hs
  · exact hs
  · rfl
  · rfl

/-- The raises after a WARM restart (R185). -/
theorem outer_standing (a : Act) : (standing a).outer = a.outer := by
  unfold standing
  split
  · rfl
  · rw [foldl_keeps Act.outer _ fun a r => outer_of_blank (blank_request r a)]
    exact outer_raiseIfUnlocked a

theorem keeps_restartWarmly : Keeps restartWarmly where
  shell s := (keeps_finish outer_standing).shell (warmState s)
  law s hs := (keeps_finish outer_standing).law (warmState s) (tiuLaw_forgotten hs _)

theorem keeps_restartFully : Keeps restartFully := ⟨fun _ => rfl, fun _ hs => tiuLaw_full hs⟩

theorem keeps_restart (full : Bool) : Keeps (restart full) := by
  unfold restart
  refine keeps_takeHead ⟨fun t s => ?_, fun t s hs hr => ?_⟩ <;> split
  · rfl
  · exact keeps_restartWarmly.shell _
  · exact keeps_restartFully.shell _
  · exact tiuLaw_answer hs hr _ _
  · exact keeps_restartWarmly.law _ (tiuLaw_answer hs hr _ _)
  · exact keeps_restartFully.law _ (tiuLaw_answer hs hr _ _)

/-! ## Every command -/

theorem outer_unlessSilent {work : Act → Act} (h : ∀ a, (work a).blank = a.blank) (i : TrainId) (a : Act) :
    (unlessSilent i work a).outer = a.outer := by
  unfold unlessSilent
  split
  · exact outer_of_blank (blank_removeTrain i a)
  · exact outer_of_blank (h a)

theorem outer_entriesRunOut (z : ZoneId) (a : Act) : (entriesRunOut z a).outer = a.outer := rfl

/-- A meaning that is a change of an awake part which keeps its shell and the law of the TIU. -/
def Tame (m : State → Answer) : Prop := ∃ f, Keeps f ∧ ∀ s, m s = .next (whenAwake f s)

theorem Keeps.tame {f : State → State} (h : Keeps f) : Tame fun s => .next (Machine.whenAwake f s) := ⟨f, h, fun _ => rfl⟩

/-- An expiry whose work keeps the outer. -/
theorem tame_expire (due : State → Bool) {work : Act → Act} (h : ∀ a, (work a).outer = a.outer) : Tame (expire due work) :=
  (keeps_expiry h).tame

theorem tame_telegram (p : Port) (t : Telegram) : Tame fun s => .next (whenAwake (receiveTelegram p t) s) :=
  (keeps_receiveTelegram p t).tame

theorem tame_query (q : Subject) : Tame fun s => .next (whenAwake (query q) s) := (keeps_query q).tame

theorem tame_sized {code n : Nat} {f : List Byte → Act → Act × Reply} (h : ∀ x a, (f x a).1.outer = a.outer) :
    Tame fun s => .next (whenAwake (command code (sized n f)) s) := (keeps_sizedCommand h).tame

theorem tame_command {code : Nat} {f : Telegram → Act → Act × Reply} (h : ∀ t a, (f t a).1.outer = a.outer) :
    Tame fun s => .next (whenAwake (command code f) s) := (keeps_command h).tame

theorem outer_escalateAt (i : IncId) (a : Act) : (escalateAt i a).outer = a.outer := by
  unfold escalateAt
  split
  · exact outer_of_residue (residue_escalate _ _ a)
  · rfl

theorem outer_freeAt (i : IncId) (a : Act) : (freeAt i a).outer = a.outer := by
  unfold freeAt
  split <;> rfl

theorem tame_execReportHoldOffExpiry : Tame execReportHoldOffExpiry := by
  refine tame_expire _ (work := fun a => { a with s.rrg.holdOff := 0 }) fun a => ?_
  rfl

theorem tame_execTelemetryTimeoutExpiry (b : SubId) : Tame (execTelemetryTimeoutExpiry b) := by
  refine tame_expire _ (work := fun a => deriveSupply (telemetryOut [b] a).1 [] (telemetryOut [b] a).2) fun a => ?_
  exact outer_of_blank ((blank_deriveSupply _ _ _).trans (blank_telemetryOut _ a))

theorem tame_execCreditExpiry (b : SubId) : Tame (execCreditExpiry b) := by
  refine tame_expire _ (work := fun a => deriveSupply [] [] (creditOut [b] a)) fun a => ?_
  exact outer_of_blank ((blank_deriveSupply _ _ _).trans (blank_creditOut _ a))

theorem tame_execSlotExpiry (i : TrainId) : Tame (execSlotExpiry i) := by
  refine tame_expire _ (work := fun a => deriveSupply [] [] (dropSlot i a)) fun a => ?_
  exact outer_of_blank ((blank_deriveSupply _ _ _).trans (blank_dropSlot i a))

theorem outer_expireEntry (z : ZoneId) (k : EntryKey) (a : Act) : (expireEntry z k a).outer = a.outer := rfl

/-- The work of a zone once what of its entries' countdowns runs out has done so. -/
theorem outer_zoneWork {work : Act → Act} (h : ∀ a, (work a).offAsc = a.offAsc) (z : ZoneId) (a : Act) :
    (work (entriesRunOut z a)).outer = a.outer :=
  (outer_of_offAsc (h _)).trans (outer_entriesRunOut z a)

theorem tame_execEligibleCountdownExpiry (z : ZoneId) (k : EntryKey) : Tame (execEligibleCountdownExpiry z k) := by
  unfold execEligibleCountdownExpiry
  exact tame_expire _ fun a => outer_zoneWork (offAsc_issueTest z) z a

theorem tame_execPlayTimeoutExpiry (z : ZoneId) : Tame (execPlayTimeoutExpiry z) := by
  unfold execPlayTimeoutExpiry
  exact tame_expire _ fun a => outer_zoneWork (offAsc_playTimeout z) z a

theorem tame_execGuardExpiry (z : ZoneId) : Tame (execGuardExpiry z) := by
  unfold execGuardExpiry
  exact tame_expire _ fun a => outer_zoneWork (offAsc_guardEnd z) z a

/-- Every command but the release and the assertion of reset and the changes of link inputs is a change of an awake part that
keeps its shell and the law of the TIU. -/
theorem exec_tame (c : Instr) (hp : ∀ x, c ≠ .powerOn x) (hu : ∀ p, c ≠ .linkUp p) (hd : ∀ p, c ≠ .linkDown p)
    (hr : c ≠ .resetAssertion) : Tame (exec c) := by
  cases c with
  | powerOn x => exact absurd rfl (hp x)
  | linkUp p => exact absurd rfl (hu p)
  | linkDown p => exact absurd rfl (hd p)
  | resetAssertion => exact absurd rfl hr
  | roomTransmissionEnd => exact Keeps.tame (f := roomFreed) ⟨fun _ => rfl, fun _ h => { h with }⟩
  | fieldTransmissionEnd => exact Keeps.tame (f := fieldFreed) ⟨fun _ => rfl, fun _ h => { h with }⟩
  | cycleMarker _ _ _ _ => exact tame_telegram _ _
  | passage _ _ _ _ _ _ _ => exact tame_telegram _ _
  | substationStatus _ _ _ _ _ => exact tame_telegram _ _
  | equipmentStatus _ _ _ => exact tame_telegram _ _
  | paDone _ _ _ _ => exact tame_telegram _ _
  | otherFieldTelegram _ _ => exact tame_telegram _ _
  | roomTelegramForward _ => exact tame_telegram _ _
  | manage _ _ _ _ => exact tame_telegram _ _
  | telegramDiscarded _ _ => exact (keeps_receiveFrame _ _).tame
  | markerTimeoutExpiry => exact (keeps_finish fun a => outer_of_pins (pins_timeoutExpiry a)).tame
  | silenceExpiry i => exact tame_expire _ fun a => outer_of_blank (blank_removeTrain i a)
  | overdueExpiry i => exact tame_expire _ fun a => outer_unlessSilent (blank_overdueOut i) i a
  | powerWaitExpiry i => exact tame_expire _ fun a => outer_unlessSilent (blank_powerWaitOut i) i a
  | reportHoldOffExpiry => exact tame_execReportHoldOffExpiry
  | telemetryTimeoutExpiry b => exact tame_execTelemetryTimeoutExpiry b
  | creditExpiry b => exact tame_execCreditExpiry b
  | slotExpiry i => exact tame_execSlotExpiry i
  | escalationTick => exact tame_expire _ fun a => outer_of_blank (blank_tick a)
  | escalation i => exact tame_expire _ (outer_escalateAt i)
  | retentionExpiry i => exact tame_expire _ (outer_freeAt i)
  | eligibleCountdownExpiry z k => exact tame_execEligibleCountdownExpiry z k
  | entryExpiry z k => exact tame_expire _ (outer_expireEntry z k)
  | playTimeoutExpiry z => exact tame_execPlayTimeoutExpiry z
  | guardExpiry z => exact tame_execGuardExpiry z
  | manageUnknownCommand => exact (keeps_takeHead (keepsTaken_answer _)).tame
  | loadOpen => exact tame_sized fun _ _ => outer_loadOpen _ _ _ _
  | loadBlock => exact tame_command outer_blockCommand
  | loadAbort => exact tame_sized fun _ => outer_loadAbort
  | profileActivate => exact tame_sized fun _ => outer_profileActivate _
  | editHold => exact tame_sized fun _ => outer_editHold
  | edit => exact tame_sized fun _ => outer_edit _ _ _ _
  | editRelease => exact tame_sized fun _ => outer_editRelease
  | incidentRaise => exact tame_sized fun _ => outer_raiseCommand _ _ _ _ _
  | incidentAck =>
    exact tame_command fun t => outer_sized (fun _ => outer_ackCommand _ _ _) t
  | incidentResolve => exact tame_sized fun _ => outer_resolveCommand _
  | zoneSet => exact tame_sized fun _ => outer_zoneCommand _ _
  | announce => exact tame_command outer_announceCommand
  | trainBind => exact tame_sized fun _ => outer_bindCommand _ _
  | trainRemove => exact tame_sized fun _ => outer_removeCommand _
  | queryTrain => exact tame_query _
  | queryTimingPoint => exact tame_query _
  | querySection => exact tame_query _
  | querySubstation => exact tame_query _
  | queryIncident => exact tame_query _
  | queryZone => exact tame_query _
  | queryClock => exact tame_query _
  | queryProfile => exact tame_query _
  | queryCounters => exact tame_query _
  | queryIdentity => exact tame_query _
  | queryMode => exact tame_query _
  | countersClear => exact (keeps_clearCounters).tame
  | restartWarm => exact (keeps_restart false).tame
  | restartFull => exact (keeps_restart true).tame

end Sys2Proof.Machine
end

