-- ==== Sys2Proof/Proofs/Steps.lean ====
section
/-! PROOFS. The pins and the step: power-on and reset, the link inputs, and the law of the TIU over every step. -/

namespace Sys2Proof.Machine

/-! ## Links -/

theorem Links.up_set_same (l : Links) (b : Bool) (p : Port) : (l.set b p).up p = b := by cases p <;> rfl

theorem Links.up_set_ne (l : Links) (b : Bool) {p q : Port} (h : q ≠ p) : (l.set b p).up q = l.up q := by
  cases p <;> cases q <;> simp_all [Links.set, Links.up]

/-- What a port was sending is lost with its link; the room port sends for itself, the field ports together (log entry 13). -/
theorem Tiu.loseLink_eq (t : Tiu) (p : Port) :
    t.loseLink p = { t with
      roomSending := if p = .room then none else t.roomSending
      fieldSending := match p with
        | .fieldA => t.fieldSending.bind (·.lose .a)
        | .fieldB => t.fieldSending.bind (·.lose .b)
        | .room => t.fieldSending } := by
  cases p <;> rfl

theorem tiuLaw_loseLink {t : Tiu} (h : TiuLaw t) (p : Port) : TiuLaw (t.loseLink p) := by
  rw [Tiu.loseLink_eq]
  exact { h with }

theorem exec_linkDown (p : Port) (s : State) : exec (.linkDown p) s = .next (settleAwake (dropLink p s)) := rfl

theorem exec_resetAssertion (s : State) : exec .resetAssertion s = .next { s with inReset := true } := rfl

theorem settleAwake_awake {s : State} (h : s.inReset = false) : settleAwake s = settle s := by simp [settleAwake, h]

theorem settleAwake_reset {s : State} (h : s.inReset = true) : settleAwake s = s := by simp [settleAwake, h]

theorem shell_settleAwake (s : State) : (settleAwake s).shell = s.shell := by
  unfold settleAwake
  split
  · rfl
  · exact shell_settle s

theorem tiuLaw_settleAwake {s : State} (h : TiuLaw s.tiu) : TiuLaw (settleAwake s).tiu := by
  unfold settleAwake
  split
  · exact h
  · exact tiuLaw_settle h

/-- The four commands that are not a change of an awake part, and the others. -/
theorem exec_cases (c : Instr) :
    (∃ x, c = .powerOn x) ∨ (∃ p, c = .linkUp p) ∨ (∃ p, c = .linkDown p) ∨ c = .resetAssertion
      ∨ ((∀ x, c ≠ .powerOn x) ∧ (∀ p, c ≠ .linkUp p) ∧ (∀ p, c ≠ .linkDown p) ∧ c ≠ .resetAssertion
        ∧ Tame (exec c)) := by
  by_cases hp : ∃ x, c = .powerOn x
  · exact .inl hp
  by_cases hu : ∃ p, c = .linkUp p
  · exact .inr (.inl hu)
  by_cases hd : ∃ p, c = .linkDown p
  · exact .inr (.inr (.inl hd))
  by_cases hr : c = .resetAssertion
  · exact .inr (.inr (.inr (.inl hr)))
  have hp : ∀ x, c ≠ .powerOn x := fun x e => hp ⟨x, e⟩
  have hu : ∀ p, c ≠ .linkUp p := fun p e => hu ⟨p, e⟩
  have hd : ∀ p, c ≠ .linkDown p := fun p e => hd ⟨p, e⟩
  exact .inr (.inr (.inr (.inr ⟨hp, hu, hd, hr, exec_tame c hp hu hd hr⟩)))

/-! ## The law of the TIU -/

theorem tiuLaw_exec {c : Instr} {s u : State} (h : TiuLaw s.tiu) (e : exec c s = .next u) : TiuLaw u.tiu := by
  rcases exec_cases c with ⟨x, rfl⟩ | ⟨p, rfl⟩ | ⟨p, rfl⟩ | rfl | ⟨_, _, _, _, f, hf, hx⟩
  · cases e
    exact tiuLaw_start
  · cases e
    exact tiuLaw_settleAwake (s := raiseLink p s) h
  · cases e
    exact tiuLaw_settleAwake (s := dropLink p s) (tiuLaw_loseLink h p)
  · cases e
    exact h
  · rw [hx] at e
    cases e
    exact hf.whenAwake.law s h

theorem tiuLaw_idle {s u : State} (h : TiuLaw s.tiu) (e : idle s = .next u) : TiuLaw u.tiu := by
  unfold idle at e
  split at e
  · cases e
    exact h
  · split at e
    · exact tiuLaw_exec (c := .markerTimeoutExpiry) h e
    · cases e
      exact h

/-- Settles O54: a step is the command at the front or the passing of time, and each keeps the law. -/
theorem stepKeepsTiuLaw : Obligations.StepKeepsTiuLaw := by
  intro s u h e
  unfold step at e
  split at e
  · exact tiuLaw_idle h e
  · next c rest _ => exact tiuLaw_exec (s := { s with pending := rest }) h e

/-! ## Link inputs, power-on and reset -/

/-- A telegram on a lost field port goes on on the other one, and is gone when neither sends it. -/
theorem FieldSending.lose_spec (g : FieldSending) (p : FieldPort) :
    (∀ f, g.lose p = some f → f.telegram = g.telegram ∧ f.onA = (g.onA && decide (p ≠ .a))
        ∧ f.onB = (g.onB && decide (p ≠ .b)))
      ∧ (g.lose p = none → (g.onA && decide (p ≠ .a)) = false ∧ (g.onB && decide (p ≠ .b)) = false) := by
  cases p
  · cases hb : g.onB <;> simp [FieldSending.lose, hb]
  · cases ha : g.onA <;> simp [FieldSending.lose, ha]

/-- What the loss of a link makes of the field sending. -/
theorem Tiu.loseLink_field (t : Tiu) (p : Port) :
    (∀ f, (t.loseLink p).fieldSending = some f → ∃ g, t.fieldSending = some g ∧ f.telegram = g.telegram
        ∧ f.onA = (g.onA && decide (p ≠ .fieldA)) ∧ f.onB = (g.onB && decide (p ≠ .fieldB)))
      ∧ ∀ g, t.fieldSending = some g → (t.loseLink p).fieldSending = none →
        (g.onA && decide (p ≠ .fieldA)) = false ∧ (g.onB && decide (p ≠ .fieldB)) = false := by
  cases p with
  | fieldA =>
    refine ⟨fun f hf => ?_, fun g hg hn => ?_⟩
    · obtain ⟨g, hg, hl⟩ := Option.bind_eq_some_iff.mp hf
      exact ⟨g, hg, by simpa using (g.lose_spec .a).1 f hl⟩
    · have hn : g.lose .a = none := by simpa [Tiu.loseLink, hg] using hn
      simpa using (g.lose_spec .a).2 hn
  | fieldB =>
    refine ⟨fun f hf => ?_, fun g hg hn => ?_⟩
    · obtain ⟨g, hg, hl⟩ := Option.bind_eq_some_iff.mp hf
      exact ⟨g, hg, by simpa using (g.lose_spec .b).1 f hl⟩
    · have hn : g.lose .b = none := by simpa [Tiu.loseLink, hg] using hn
      simpa using (g.lose_spec .b).2 hn
  | room =>
    refine ⟨fun f hf => ⟨f, hf, by simp⟩, fun g hg hn => ?_⟩
    exact absurd (hg.symm.trans hn) (by simp)

/-- What each command leaves of the shell. -/
theorem exec_shell {c : Instr} {s u : State} (e : exec c s = .next u) :
    u.pending = s.pending
      ∧ ((∀ x, c ≠ .powerOn x) → u.straps = s.straps ∧ u.address = s.address
        ∧ (c ≠ .resetAssertion → u.inReset = s.inReset))
      ∧ ((∀ p, c ≠ .linkUp p) → (∀ p, c ≠ .linkDown p) → u.links = s.links) := by
  have fields {v : State} (h : u.shell = v.shell) :
      u.inReset = v.inReset ∧ u.links = v.links ∧ u.straps = v.straps ∧ u.address = v.address ∧ u.pending = v.pending := by
    simpa [State.shell] using h
  rcases exec_cases c with ⟨x, rfl⟩ | ⟨p, rfl⟩ | ⟨p, rfl⟩ | rfl | ⟨_, _, _, _, f, hf, hx⟩
  · cases e
    exact ⟨rfl, fun h => absurd rfl (h x), fun _ _ => rfl⟩
  · obtain ⟨hr, _, hs, ha, hp⟩ := fields (v := raiseLink p s) (by cases e; exact shell_settleAwake _)
    exact ⟨hp, fun _ => ⟨hs, ha, fun _ => hr⟩, fun h _ => absurd rfl (h p)⟩
  · obtain ⟨hr, _, hs, ha, hp⟩ := fields (v := dropLink p s) (by cases e; exact shell_settleAwake _)
    exact ⟨hp, fun _ => ⟨hs, ha, fun _ => hr⟩, fun _ h => absurd rfl (h p)⟩
  · cases e
    exact ⟨rfl, fun _ => ⟨rfl, rfl, fun h => absurd rfl h⟩, fun _ _ => rfl⟩
  · rw [hx] at e
    obtain ⟨hr, hl, hs, ha, hp⟩ := fields (v := s) (by cases e; exact hf.whenAwake.shell s)
    exact ⟨hp, fun _ => ⟨hs, ha, fun _ => hr⟩, fun _ _ => hl⟩

/-- Settles O4: the frame of every command, and what each link input does to its port. -/
theorem linksUpAndDown : Obligations.LinksUpAndDown := by
  refine ⟨fun c s u e => exec_shell e, fun p s hr => ⟨⟨s.links.set true p, ?_, ?_, ?_⟩,
    ⟨s.links.set false p, (s.tiu.loseLink p).roomSending, (s.tiu.loseLink p).fieldSending, ?_, ?_, ?_, ?_, ?_⟩⟩⟩
  · exact congrArg _ (settleAwake_awake (s := raiseLink p s) hr)
  · exact Links.up_set_same _ _ p
  · exact fun q hq => Links.up_set_ne _ _ hq
  · have e : dropLink p s = { s with
        links := s.links.set false p
        tiu.roomSending := (s.tiu.loseLink p).roomSending
        tiu.fieldSending := (s.tiu.loseLink p).fieldSending } := by
      simp only [dropLink, Tiu.loseLink_eq]
    rw [exec_linkDown, settleAwake_awake (s := dropLink p s) hr, e]
  · exact Links.up_set_same _ _ p
  · exact fun q hq => Links.up_set_ne _ _ hq
  · rw [Tiu.loseLink_eq]
  · exact s.tiu.loseLink_field p

/-- Settles O3: the values after power-on are those of reset, and in reset only the pins change. -/
theorem powerOnAndReset : Obligations.PowerOnAndReset := by
  refine ⟨fun _ _ => rfl, ?_, exec_resetAssertion, fun p s hr => ⟨?_, ?_⟩, fun c s hr hp hu hd ha => ?_⟩
  · refine ⟨by decide, rfl, rfl, rfl, ?_, ?_, ?_, ?_, ?_, rfl, rfl, ?_, ?_⟩ <;> intro i <;>
      simp [State.reset, Tiu.start, Tst.start, Rrg.start, Inc.start, Psv.start, Supply.start]
  · exact ⟨s.links.set true p, congrArg _ (settleAwake_reset (s := raiseLink p s) hr), Links.up_set_same _ _ p,
      fun q hq => Links.up_set_ne _ _ hq⟩
  · refine ⟨s.links.set false p, (s.tiu.loseLink p).roomSending, (s.tiu.loseLink p).fieldSending, ?_,
      Links.up_set_same _ _ p, fun q hq => Links.up_set_ne _ _ hq⟩
    rw [exec_linkDown, settleAwake_reset (s := dropLink p s) hr]
    simp only [dropLink, Tiu.loseLink_eq]
  · obtain ⟨f, _, hx⟩ := exec_tame c hp hu hd ha
    rw [hx, whenAwake_reset f hr]

end Sys2Proof.Machine
end

