-- ==== Sys2Proof/Proofs/Bytes.lean ====
section
/-! PROOFS. Numbers and telegrams as bytes: what is written is read back, a frame sent is read as the telegram it carries, and
the form check reads the fields of the field telegrams. -/

namespace Sys2Proof.Machine

/-! ## Numbers as bytes -/

@[simp] theorem numOf_one (b : Byte) : numOf [b] = b.toNat := by simp [numOf]

theorem numOf_two (a b : Byte) : numOf [a, b] = a.toNat * 256 + b.toNat := by simp [numOf]

theorem numOf_num2 {n : Nat} (h : n < 65536) : numOf (num2 n) = n := by
  simp only [num2, numOf_two, BitVec.toNat_ofNat]
  omega

theorem numOf_num4 {n : Nat} (h : n < 4294967296) : numOf (num4 n) = n := by
  simp only [num4, num2, numOf, List.cons_append, List.nil_append, List.foldl_cons, List.foldl_nil, BitVec.toNat_ofNat]
  omega

@[simp] theorem length_num1 (n : Nat) : (num1 n).length = 1 := rfl
@[simp] theorem length_num2 (n : Nat) : (num2 n).length = 2 := rfl
@[simp] theorem length_num4 (n : Nat) : (num4 n).length = 4 := rfl

/-- A field that begins a list. -/
theorem field_zero (xs ys : List Byte) : field (xs ++ ys) 0 xs.length = numOf xs := by simp [field]

/-- A field behind other bytes. -/
theorem field_append (before xs after : List Byte) {k n : Nat} (hk : before.length = k) (hn : xs.length = n) :
    field (before ++ (xs ++ after)) k n = numOf xs := by
  subst hk hn
  simp [field]

/-! ## Frames (R1, R2, R4) -/

theorem length_telegramBody (t : Telegram) : (telegramBody t).length = 5 + t.payload.length := by
  simp [telegramBody]
  omega

theorem telegramBody_eq (t : Telegram) :
    telegramBody t = t.kind :: t.dest :: t.src :: t.flags :: BitVec.ofNat 8 t.payload.length :: t.payload := rfl

/-- A frame that begins with the body and the check of a telegram, and is long enough, is read as the telegram. -/
theorem readFrame_of_body {t : Telegram} (h : t.payload.length ≤ 240) (rest : List Byte)
    (hr : rest = [] ∨ (telegramBytes t ++ rest).length ≤ 46) : readFrame (telegramBytes t ++ rest) = .sound t := by
  have hb := length_telegramBody t
  have hlen : field (telegramBytes t ++ rest) 4 1 = t.payload.length := by
    simp [telegramBytes, telegramBody_eq, field]
    omega
  have hcheck : field (telegramBytes t ++ rest) (5 + t.payload.length) 2 = (crc16 (telegramBody t)).toNat := by
    rw [telegramBytes, List.append_assoc, field_append _ _ _ hb (length_num2 _), numOf_num2 (BitVec.isLt _)]
  have hbody : (telegramBytes t ++ rest).take (5 + t.payload.length) = telegramBody t := by
    rw [telegramBytes, List.append_assoc, ← hb, List.take_left]
  have hsize : (telegramBytes t ++ rest).length = 7 + t.payload.length + rest.length := by
    simp [telegramBytes, hb]
    omega
  have hlong : ¬(240 < t.payload.length ∨ (telegramBytes t ++ rest).length < 7 + t.payload.length
      ∨ (7 + t.payload.length < (telegramBytes t ++ rest).length ∧ 46 < (telegramBytes t ++ rest).length)) := by
    rcases hr with rfl | hr
    · simp only [hsize, List.length_nil]
      omega
    · omega
  unfold readFrame
  simp only [hlen, hcheck, hbody, if_neg hlong, ne_eq, not_true_eq_false, if_false]
  simp [telegramBytes, telegramBody_eq]

/-- Settles O7: the padding is as long as a frame of 46 bytes needs, and none otherwise. -/
theorem frameRoundTrip : Obligations.FrameRoundTrip := by
  intro t h
  refine readFrame_of_body h _ ?_
  rcases Nat.le_total (telegramBytes t).length 46 with hl | hl
  · exact .inr (by simp; omega)
  · exact .inl (by simp; omega)

/-! ## The form check (R5) -/

theorem index?_eq_some {n k : Nat} {i : Fin n} : index? n k = some i ↔ i.val = k := by
  unfold index?
  split
  · simp [Fin.ext_iff, eq_comm]
  · next h => simp; rintro rfl; exact h i.isLt

/-- A list of codes is a list of flags just when each is 0 or 1. -/
theorem flags?_eq (bs : List Byte) :
    flags? bs = if ∀ b ∈ bs, b.toNat ≤ 1 then some (bs.map fun b => decide (b = 1)) else none := by
  have code {b : Byte} (h : b.toNat ≤ 1) : b = 0#8 ∨ b = 1#8 := by
    rcases (by omega : b.toNat = 0 ∨ b.toNat = 1) with h | h
    · exact .inl (BitVec.eq_of_toNat_eq h)
    · exact .inr (BitVec.eq_of_toNat_eq h)
  induction bs with
  | nil => simp [flags?]
  | cons b bs ih =>
    rw [flags?, ih]
    by_cases hb : b.toNat ≤ 1
    · rcases code hb with rfl | rfl <;> simp
    · have h0 : b ≠ 0#8 := by rintro rfl; exact hb (by decide)
      have h1 : b ≠ 1#8 := by rintro rfl; exact hb (by decide)
      simp [h0, h1, hb]

/-- Every field telegram from station 255 fails. -/
theorem contents?_foreign {t : Telegram} (h : t.src = 255) : contents? t = none := if_pos h

theorem contents?_marker (h : Header) (n : BitVec 16) (d : BitVec 32) :
    contents? (markerTelegram h n d)
      = if h.src ≠ 255 ∧ d.toNat ≤ 107999999 then some (.marker n.toNat d.toNat) else none := by
  have hn : field (num2 n.toNat ++ num4 d.toNat) 0 2 = n.toNat :=
    (field_zero (num2 n.toNat) _).trans (numOf_num2 n.isLt)
  have hd : field (num2 n.toNat ++ num4 d.toNat) 2 4 = d.toNat := by
    have := field_append (num2 n.toNat) (num4 d.toNat) [] rfl rfl
    rw [List.append_nil] at this
    exact this.trans (numOf_num4 d.isLt)
  by_cases hs : h.src = 255
  · rw [contents?_foreign (t := markerTelegram h n d) hs, if_neg fun hc => hc.1 hs]
  · have e : contents? (markerTelegram h n d)
        = if (num2 n.toNat ++ num4 d.toNat).length = 6 ∧ field (num2 n.toNat ++ num4 d.toNat) 2 4 ≤ 107999999 then
            some (.marker (field (num2 n.toNat ++ num4 d.toNat) 0 2) (field (num2 n.toNat ++ num4 d.toNat) 2 4))
          else none := if_neg hs
    have hs : h.src ≠ 255#8 := hs
    rw [e, hn, hd]
    simp [hs]

theorem contents?_passage {h : Header} (hs : h.src ≠ 255) (set run : BitVec 16) (pt ev : Byte) (off : BitVec 16) :
    contents? (passageTelegram h set run pt ev off)
      = (passage? (passageTelegram h set run pt ev off).payload).map .passage := if_neg hs

/-- The fields of a PASSAGE payload. -/
theorem passage?_eq_some (set run : BitVec 16) (pt ev : Byte) (off : BitVec 16) (x : Passage) :
    passage? (num2 set.toNat ++ num2 run.toNat ++ [pt, ev] ++ num2 off.toNat) = some x ↔
      1 ≤ set.toNat ∧ set.toNat ≤ 999 ∧ run.toNat ≤ 9999 ∧ x.set = set.toNat ∧ x.run = run.toNat
        ∧ x.point.val = pt.toNat ∧ PassageEvent.ofCode ev.toNat = some x.event ∧ x.offset = off.toNat := by
  let p := num2 set.toNat ++ num2 run.toNat ++ [pt, ev] ++ num2 off.toNat
  have h0 : field p 0 2 = set.toNat := numOf_num2 set.isLt
  have h2 : field p 2 2 = run.toNat := numOf_num2 run.isLt
  have h4 : field p 4 1 = pt.toNat := numOf_one pt
  have h5 : field p 5 1 = ev.toNat := numOf_one ev
  have h6 : field p 6 2 = off.toNat := numOf_num2 off.isLt
  have e : passage? p = if 1 ≤ set.toNat ∧ set.toNat ≤ 999 ∧ run.toNat ≤ 9999 then
      match index? 64 pt.toNat, PassageEvent.ofCode ev.toNat with
      | some tp, some ev => some { set := set.toNat, run := run.toNat, point := tp, event := ev, offset := off.toNat }
      | _, _ => none
    else none := by
    rw [passage?, h0, h2, h4, h5, h6]
    exact if_congr (and_iff_right rfl) rfl rfl
  show passage? p = some x ↔ _
  rw [e]
  obtain ⟨xs, xr, xp, xe, xo⟩ := x
  constructor
  · intro h
    split at h
    · next hc =>
      obtain ⟨h1, h2, h3⟩ := hc
      split at h
      · next tp ev' htp hev =>
        cases h
        exact ⟨h1, h2, h3, rfl, rfl, index?_eq_some.mp htp, hev, rfl⟩
      · cases h
    · cases h
  · rintro ⟨h1, h2, h3, rfl, rfl, hp, he, rfl⟩
    rw [if_pos ⟨h1, h2, h3⟩, index?_eq_some.mpr hp, he]

theorem byte_eq_one_iff (b : Byte) : b.toNat = 1 ↔ b = 1 :=
  ⟨fun h => BitVec.eq_of_toNat_eq h, fun h => h ▸ rfl⟩

theorem contents?_status {h : Header} (hs : h.src ≠ 255) (incomer load : Byte) (feeders : List Byte) :
    contents? (statusTelegram h incomer load feeders)
      = if incomer.toNat ≤ 1 ∧ 1 ≤ feeders.length ∧ feeders.length ≤ 8 ∧ (∀ b ∈ feeders, b.toNat ≤ 1) then
          some (.status (decide (incomer = 1)) load.toNat (feeders.map fun b => decide (b = 1)))
        else none := by
  let p := [incomer, load] ++ num1 feeders.length ++ feeders
  have h0 : field p 0 1 = incomer.toNat := numOf_one incomer
  have h1 : field p 1 1 = load.toNat := numOf_one load
  have h2 : field p 2 1 = feeders.length % 256 := (numOf_one _).trans (BitVec.toNat_ofNat _ _)
  have hlen : p.length = 3 + feeders.length := by simp [p]; omega
  have e : contents? (statusTelegram h incomer load feeders)
      = if 3 ≤ p.length ∧ p.length = 3 + field p 2 1 ∧ 1 ≤ field p 2 1 ∧ field p 2 1 ≤ 8 ∧ field p 0 1 ≤ 1 then
          (flags? feeders).map (.status (decide (field p 0 1 = 1)) (field p 1 1))
        else none := if_neg hs
  have hc : (3 ≤ p.length ∧ p.length = 3 + field p 2 1 ∧ 1 ≤ field p 2 1 ∧ field p 2 1 ≤ 8 ∧ field p 0 1 ≤ 1)
      ↔ incomer.toNat ≤ 1 ∧ 1 ≤ feeders.length ∧ feeders.length ≤ 8 := by
    rw [hlen, h2, h0]
    omega
  rw [e, if_congr hc rfl rfl, flags?_eq, h0, h1]
  by_cases hi : incomer.toNat ≤ 1 ∧ 1 ≤ feeders.length ∧ feeders.length ≤ 8
  · by_cases hf : ∀ b ∈ feeders, b.toNat ≤ 1
    · rw [if_pos hi, if_pos hf, if_pos ⟨hi.1, hi.2.1, hi.2.2, hf⟩]
      simp only [byte_eq_one_iff, Option.map_some]
    · rw [if_pos hi, if_neg hf, if_neg fun hx => hf hx.2.2.2]
      rfl
  · rw [if_neg hi, if_neg fun hx => hi ⟨hx.1, hx.2.1, hx.2.2.1⟩]

theorem contents?_equipment {h : Header} (hs : h.src ≠ 255) (inputs : List Byte) :
    contents? (equipmentTelegram h inputs)
      = if 1 ≤ inputs.length ∧ inputs.length ≤ 16 ∧ (∀ b ∈ inputs, b.toNat ≤ 1) then
          some (.equipment (inputs.map fun b => decide (b = 1)))
        else none := by
  let p := num1 inputs.length ++ inputs
  have h0 : field p 0 1 = inputs.length % 256 := (numOf_one _).trans (BitVec.toNat_ofNat _ _)
  have hlen : p.length = 1 + inputs.length := by simp [p]
  have e : contents? (equipmentTelegram h inputs)
      = if 1 ≤ p.length ∧ p.length = 1 + field p 0 1 ∧ 1 ≤ field p 0 1 ∧ field p 0 1 ≤ 16 then
          (flags? inputs).map .equipment
        else none := if_neg hs
  have hc : (1 ≤ p.length ∧ p.length = 1 + field p 0 1 ∧ 1 ≤ field p 0 1 ∧ field p 0 1 ≤ 16)
      ↔ 1 ≤ inputs.length ∧ inputs.length ≤ 16 := by
    rw [hlen, h0]
    omega
  rw [e, if_congr hc rfl rfl, flags?_eq]
  by_cases hi : 1 ≤ inputs.length ∧ inputs.length ≤ 16
  · by_cases hf : ∀ b ∈ inputs, b.toNat ≤ 1
    · rw [if_pos hi, if_pos hf, if_pos ⟨hi.1, hi.2, hf⟩]
      rfl
    · rw [if_pos hi, if_neg hf, if_neg fun hx => hf hx.2.2]
      rfl
  · rw [if_neg hi, if_neg fun hx => hi ⟨hx.1, hx.2.1⟩]

theorem contents?_done {h : Header} (hs : h.src ≠ 255) (zone tag : Byte) :
    contents? (doneTelegram h zone tag) = (index? 24 zone.toNat).map (.done · tag.toNat) := by
  have e : contents? (doneTelegram h zone tag)
      = (index? 24 (field [zone, tag] 0 1)).map (.done · (field [zone, tag] 1 1)) := if_neg hs
  have h0 : field [zone, tag] 0 1 = zone.toNat := numOf_one zone
  have h1 : field [zone, tag] 1 1 = tag.toNat := numOf_one tag
  rw [e, h0, h1]

/-- Settles O8: each kind by the lemma on its payload; a source of 255 fails first. -/
theorem formCheckReadsFields : Obligations.FormCheckReadsFields := by
  intro h
  refine ⟨contents?_marker h, fun set run pt ev off x => ?_, fun incomer load feeders => ?_, fun inputs => ?_,
    fun zone tag z k => ?_⟩ <;> by_cases hs : h.src = 255
  · rw [contents?_foreign (t := passageTelegram h set run pt ev off) hs]
    exact ⟨fun hx => (nomatch hx), fun hx => absurd hs hx.1⟩
  · rw [contents?_passage hs]
    have : passageTelegram h set run pt ev off = mkTelegram h kindPassage
      (num2 set.toNat ++ num2 run.toNat ++ [pt, ev] ++ num2 off.toNat) := rfl
    rw [this, mkTelegram]
    simp only [Option.map_eq_some_iff, Contents.passage.injEq, exists_eq_right, passage?_eq_some]
    exact (and_iff_right hs).symm
  · rw [contents?_foreign (t := statusTelegram h incomer load feeders) hs, if_neg fun hx => hx.1 hs]
  · rw [contents?_status hs, if_congr (and_iff_right hs) rfl rfl]
  · rw [contents?_foreign (t := equipmentTelegram h inputs) hs, if_neg fun hx => hx.1 hs]
  · rw [contents?_equipment hs, if_congr (and_iff_right hs) rfl rfl]
  · rw [contents?_foreign (t := doneTelegram h zone tag) hs]
    exact ⟨fun hx => (nomatch hx), fun hx => absurd hs hx.1⟩
  · rw [contents?_done hs, Option.map_eq_some_iff]
    constructor
    · rintro ⟨y, hy, he⟩
      cases he
      exact ⟨hs, index?_eq_some.mp hy, rfl⟩
    · rintro ⟨_, hz, rfl⟩
      exact ⟨z, index?_eq_some.mpr hz, rfl⟩

end Sys2Proof.Machine
end

