-- ==== Sys2Proof/Proofs/Receive.lean ====
section
/-! PROOFS. The receive path: which frames fail, what each failed check counts, the second ring copy, and the telegrams that
are only queued. -/

namespace Sys2Proof.Machine

/-! ## Frames that fail (R4) -/

theorem field_byte (f : List Byte) (k : Nat) : field f k 1 = (f.getD k 0).toNat := by
  rw [field, List.take_one, List.head?_drop, List.getD_eq_getElem?_getD]
  cases f[k]? <;> simp [numOf]

/-- The length check of R4 fails. -/
def TooLong (f : List Byte) : Prop :=
  240 < (f.getD 4 0).toNat ∨ f.length < 7 + (f.getD 4 0).toNat
    ∨ (7 + (f.getD 4 0).toNat < f.length ∧ 46 < f.length)

/-- The bytes of a frame spell a telegram whose length byte is right, where the length check passes. -/
theorem take_of_not_tooLong {f : List Byte} (h : ¬TooLong f) :
    ((f.drop 5).take (f.getD 4 0).toNat).length = (f.getD 4 0).toNat
      ∧ f.take (5 + (f.getD 4 0).toNat)
        = [f.getD 0 0, f.getD 1 0, f.getD 2 0, f.getD 3 0, BitVec.ofNat 8 (f.getD 4 0).toNat]
          ++ (f.drop 5).take (f.getD 4 0).toNat := by
  have hl : 7 + (f.getD 4 0).toNat ≤ f.length := by
    unfold TooLong at h
    omega
  match f, hl with
  | a :: b :: c :: d :: e :: rest, hl =>
    constructor
    · simp at hl ⊢
      omega
    · rw [Nat.add_comm]
      simp

theorem readFrame_cases (f : List Byte) :
    (TooLong f ∧ readFrame f = .lengthFault)
      ∨ (¬TooLong f ∧ numOf ((f.drop (5 + (f.getD 4 0).toNat)).take 2) ≠ (crc16 (f.take (5 + (f.getD 4 0).toNat))).toNat
        ∧ readFrame f = .checkFault)
      ∨ (¬TooLong f ∧ numOf ((f.drop (5 + (f.getD 4 0).toNat)).take 2) = (crc16 (f.take (5 + (f.getD 4 0).toNat))).toNat
        ∧ readFrame f = .sound { kind := f.getD 0 0, dest := f.getD 1 0, src := f.getD 2 0, flags := f.getD 3 0,
                                 payload := (f.drop 5).take (f.getD 4 0).toNat }) := by
  unfold readFrame
  simp only [field_byte]
  by_cases hl : TooLong f
  · exact .inl ⟨hl, if_pos hl⟩
  · by_cases hc : numOf ((f.drop (5 + (f.getD 4 0).toNat)).take 2) = (crc16 (f.take (5 + (f.getD 4 0).toNat))).toNat
    · exact .inr (.inr ⟨hl, hc, (if_neg hl).trans (if_neg fun h => h hc.symm)⟩)
    · exact .inr (.inl ⟨hl, hc, (if_neg hl).trans (if_pos fun h => hc h.symm)⟩)

/-! ## What each failed check counts (R4, R15) -/

theorem count_length (p : Port) (s : State) : count (·.length p) s = lengthCounted p s := by cases p <;> rfl
theorem count_check (p : Port) (s : State) : count (·.check p) s = checkCounted p s := by cases p <;> rfl
theorem count_misdirected (p : Port) (s : State) : count (·.misdirected p) s = misdirectedCounted p s := by
  cases p <;> rfl
theorem count_duplicate (p : FieldPort) (s : State) : count (·.duplicate p) s = duplicateCounted p s := by
  cases p <;> rfl

theorem exec_telegramDiscarded {s : State} (h : s.inReset = false) (p : Port) (f : List Byte) :
    exec (.telegramDiscarded p f) s = .next (settle (receiveFrame p f s)) :=
  congrArg _ (whenAwake_awake _ h)

theorem receiveFrame_up {s : State} {p : Port} (h : s.links.up p = true) (f : List Byte) :
    receiveFrame p f s = match readFrame f with
      | .lengthFault => count (·.length p) s
      | .checkFault => count (·.check p) s
      | .sound t => receiveSound p t s := if_pos h

theorem receiveFrame_down {s : State} {p : Port} (h : s.links.up p = false) (f : List Byte) : receiveFrame p f s = s := by
  simp [receiveFrame, h]

theorem receiveFrame_sound {s : State} {p : Port} {f : List Byte} {t : Telegram} (h : s.links.up p = true)
    (hf : readFrame f = .sound t) : receiveFrame p f s = receiveSound p t s := by
  rw [receiveFrame_up h, hf]

theorem receiveSound_field (p : FieldPort) (t : Telegram) (s : State) :
    receiveSound p.port t s = receiveField p t s := by cases p <;> rfl

/-! Checks 3 to 6 of a field telegram, in their order. -/

theorem receiveField_own {t : Telegram} {s : State} (h : t.src = s.address) (p : FieldPort) : receiveField p t s = s :=
  if_pos h

theorem receiveField_manage {t : Telegram} {s : State} (h : t.src ≠ s.address) (hk : t.kind = kindManage) (p : FieldPort) :
    receiveField p t s = count (·.misdirected p.port) s := (if_neg h).trans (if_pos hk)

theorem receiveField_form {t : Telegram} {s : State} (h : t.src ≠ s.address) (hk : t.kind ≠ kindManage) (p : FieldPort) :
    receiveField p t s = match contents? t with
      | none => count (·.length p.port) s
      | some c =>
        if t.kind = kindMarker then acceptField t c s
        else if isDuplicate s t then count (·.duplicate p) s
        else acceptField t c (remember t s) := (if_neg h).trans (if_neg hk)

/-- Settles O9: the cases of a frame, and each failed check by its rule. -/
theorem discardsAreCounted : Obligations.DiscardsAreCounted := by
  refine ⟨fun f => ⟨?_, ?_, ?_⟩, fun s f hr => ⟨fun p => ⟨?_, ?_, ?_⟩, fun t hl hf hd => ⟨?_, ?_⟩,
    fun p t hl hf => ⟨?_, ?_, ?_, ?_⟩⟩⟩
  · rcases readFrame_cases f with ⟨hl, e⟩ | ⟨hl, _, e⟩ | ⟨hl, _, e⟩
    · exact iff_of_true e hl
    · exact iff_of_false (e ▸ nofun) hl
    · exact iff_of_false (e ▸ nofun) hl
  · rcases readFrame_cases f with ⟨hl, e⟩ | ⟨hl, hc, e⟩ | ⟨hl, hc, e⟩
    · exact iff_of_false (e ▸ nofun) fun h => h.1 hl
    · exact iff_of_true e ⟨hl, hc⟩
    · exact iff_of_false (e ▸ nofun) fun h => h.2 hc
  · intro t ht
    rcases readFrame_cases f with ⟨_, e⟩ | ⟨_, _, e⟩ | ⟨hl, _, e⟩ <;> rw [e] at ht <;> cases ht
    exact take_of_not_tooLong hl
  · intro h
    rw [exec_telegramDiscarded hr, receiveFrame_down h]
  · intro h hf
    rw [exec_telegramDiscarded hr, receiveFrame_up h, hf, count_length]
  · intro h hf
    rw [exec_telegramDiscarded hr, receiveFrame_up h, hf, count_check]
  · intro hk
    rw [exec_telegramDiscarded hr, receiveFrame_sound (p := .room) hl hf, ← count_misdirected]
    exact congrArg (fun u => Host.Outcome.next (settle u)) ((if_pos hd).trans (if_pos hk))
  · intro hk hp
    rw [exec_telegramDiscarded hr, receiveFrame_sound (p := .room) hl hf, ← count_length]
    exact congrArg (fun u => Host.Outcome.next (settle u))
      ((if_pos hd).trans ((if_neg (not_not_intro hk)).trans (if_pos hp)))
  · intro hs
    rw [exec_telegramDiscarded hr, receiveFrame_sound hl hf, receiveSound_field, receiveField_own hs]
  · intro hs hk
    rw [exec_telegramDiscarded hr, receiveFrame_sound hl hf, receiveSound_field, receiveField_manage hs hk,
      count_misdirected]
  · intro hs hk hc
    rw [exec_telegramDiscarded hr, receiveFrame_sound hl hf, receiveSound_field, receiveField_form hs hk, hc, count_length]
  · intro hs hk hc hm hd
    obtain ⟨c, hc⟩ := Option.ne_none_iff_exists'.mp hc
    rw [exec_telegramDiscarded hr, receiveFrame_sound hl hf, receiveSound_field, receiveField_form hs hk, hc]
    simp only [if_neg hm, hd, if_true, count_duplicate]

/-! ## Accepted telegrams -/

/-- A telegram that passes the receive checks is dispatched; one that is no marker is remembered first (R4, R6). -/
theorem receiveTelegram_accepted {s : State} {p : FieldPort} {t : Telegram} {c : Contents} (h : Accepted s p t c) :
    receiveTelegram p.port t s = acceptField t c (if t.kind = kindMarker then s else remember t s) := by
  rw [receiveTelegram, if_pos h.link, if_neg (Nat.not_lt.mpr h.size), receiveSound_field,
    receiveField_form h.foreign h.direct, h.form]
  by_cases hm : t.kind = kindMarker
  · simp only [if_pos hm]
  · simp [if_neg hm, h.fresh.resolve_left hm]

/-- A copy that the memory knows is counted. -/
theorem receiveTelegram_duplicate {u : State} {q : FieldPort} {t : Telegram} {c : Contents}
    (hl : u.links.up q.port = true) (hs : t.payload.length ≤ 240) (hf : t.src ≠ u.address) (hk : t.kind ≠ kindManage)
    (hc : contents? t = some c) (hm : t.kind ≠ kindMarker) (hd : isDuplicate u t = true) :
    receiveTelegram q.port t u = count (·.duplicate q) u := by
  rw [receiveTelegram, if_pos hl, if_neg (Nat.not_lt.mpr hs), receiveSound_field, receiveField_form hf hk, hc]
  simp only [if_neg hm, hd, if_true]

theorem duplicates_acceptField (t : Telegram) (c : Contents) (s : State) :
    (acceptField t c s).tiu.duplicates = s.tiu.duplicates := by
  have h := (shell_of_outer (outer_dispatch t c (Act.start s))).2
  have made (u : State) (l : List Made) : (enterMade u l).tiu.duplicates = u.tiu.duplicates := by rw [enterMade_frame]
  have offered (k : RoomClass) (x : RoomItem) (u : State) : (offerRoom k x u).tiu.duplicates = u.tiu.duplicates := by
    unfold offerRoom; split <;> rfl
  unfold acceptField forwardThenFinish
  split
  · exact (made _ _).trans ((offered _ _ _).trans (congrArg Tiu.duplicates h))
  · exact (made _ _).trans (congrArg Tiu.duplicates h)

/-- Settles O10: the first copy is remembered, nothing on the way to the second changes the memory, the pins or the
address, and the second is counted. -/
theorem secondCopyIsDuplicate : Obligations.SecondCopyIsDuplicate := by
  intro s p q t c hm h hq
  refine ⟨_, rfl, ?_⟩
  have e : receiveTelegram p.port t s = acceptField t c (remember t s) := by
    rw [receiveTelegram_accepted h, if_neg hm]
  have hdup : (receiveTelegram p.port t s).tiu.duplicates
      = s.tiu.duplicates.set t.src.toFin (DupEntry.ofBit (telegramBit t)) := by
    rw [e, duplicates_acceptField]
    rfl
  have hshell := (keeps_receiveTelegram p.port t).shell s
  simp only [State.shell, Prod.mk.injEq] at hshell
  obtain ⟨_, hlinks, _, haddr, _⟩ := hshell
  have hd : isDuplicate (receiveTelegram p.port t s) t = true := by simp [isDuplicate, hdup]
  refine ⟨hd, fun a ha => ?_, ?_⟩
  · rw [hdup]
    exact Table.get_set_ne _ _ (Ne.symm ha)
  · rw [receiveTelegram_duplicate (hlinks.symm ▸ hq) h.size (haddr.symm ▸ h.foreign) h.direct h.form hm hd]
    generalize receiveTelegram p.port t s = u
    cases q <;> rfl

/-! ## Telegrams that are only queued -/

theorem dispatch_unowned {s : State} {t : Telegram} {c : Contents} (hc : ∀ n d, c ≠ .marker n d)
    (h : c = .other ∨ mode s = .bare) : dispatch t c (Act.start s) = (Act.start s, some t) := by
  unfold dispatch
  rcases h with rfl | h
  · rfl
  · cases c with
    | marker n d => exact absurd rfl (hc n d)
    | passage x => exact if_pos h
    | status b k l => simp [h]
    | equipment l => simp [h]
    | done z k => simp [h]
    | other => rfl

/-- Only a telegram of the marker's kind reads as a marker. -/
theorem kind_of_marker {t : Telegram} {n d : Nat} (h : contents? t = some (.marker n d)) : t.kind = kindMarker := by
  unfold contents? at h
  by_contra hk
  simp only [if_neg hk] at h
  split at h
  · cases h
  · split at h
    · simp at h
    · split at h
      · split at h <;> simp at h
      · split at h
        · split at h <;> simp at h
        · split at h
          · split at h <;> simp at h
          · cases h

theorem acceptField_unowned {s : State} {t : Telegram} {c : Contents} (hc : ∀ n d, c ≠ .marker n d)
    (h : c = .other ∨ mode s = .bare) : acceptField t c s = forwardToRoom t s := by
  rw [acceptField, dispatch_unowned hc h]
  rfl

theorem exec_otherFieldTelegram {s : State} (h : s.inReset = false) (p : FieldPort) (t : Telegram) :
    exec (.otherFieldTelegram p t) s = .next (settle (receiveTelegram p.port t s)) :=
  congrArg _ (whenAwake_awake _ h)

/-- Settles O11: such a telegram is offered to the room-bound queue after it is remembered, and nothing else is made. -/
theorem otherTelegramsOnlyForwarded : Obligations.OtherTelegramsOnlyForwarded := by
  intro s p t c h hm hc
  have hn : ∀ n d, c ≠ .marker n d := fun n d e => hm (kind_of_marker (e ▸ h.form))
  have e : exec (.otherFieldTelegram p t) s = .next (settle (forwardToRoom t (remember t s))) := by
    rw [exec_otherFieldTelegram h.awake, receiveTelegram_accepted h, if_neg hm, acceptField_unowned (s := remember t s) hn hc]
  have hlimit : roomLimit (remember t s) (forwardClass t) = if t.kind = kindPassage then 60 else min (warnLevel s) 64 := by
    unfold forwardClass
    split <;> rfl
  refine ⟨fun hlt => ?_, fun hk hle => ?_, fun hk hle => ?_⟩
  · rw [e, forwardToRoom, offerRoom_below (s := remember t s) (hlimit.symm ▸ hlt)]
    rfl
  · have hl : roomLimit (remember t s) (forwardClass t) ≤ (remember t s).tiu.room.length := by
      rw [hlimit, if_pos hk]; exact hle
    rw [e, forwardToRoom, offerRoom_full hl, forwardClass, if_pos hk]
    rfl
  · have hl : roomLimit (remember t s) (forwardClass t) ≤ (remember t s).tiu.room.length := by
      rw [hlimit, if_neg hk]; exact hle
    rw [e, forwardToRoom, offerRoom_full hl, forwardClass, if_neg hk]
    rfl

theorem receiveTelegram_room {s : State} {t : Telegram} (hl : s.links.room = true) (ht : t.payload.length ≤ 240) :
    receiveTelegram .room t s = receiveRoom t s := (if_pos hl).trans (if_neg (Nat.not_lt.mpr ht))

/-- What the part reads off a MANAGE is what was sent (R180). -/
theorem manageTelegram_read (h : Header) (code : Byte) (tag : BitVec 16) (args : List Byte) :
    commandOf (manageTelegram h code tag args) = code.toNat ∧ tagOf (manageTelegram h code tag args) = tag.toNat
      ∧ argsOf (manageTelegram h code tag args) = args := by
  refine ⟨?_, ?_, ?_⟩
  · exact numOf_one code
  · exact (field_append [code] (num2 tag.toNat) args rfl rfl).trans (numOf_num2 tag.isLt)
  · rfl

theorem exec_roomTelegramForward {s : State} (h : s.inReset = false) (t : Telegram) :
    exec (.roomTelegramForward t) s = .next (settle (receiveTelegram .room t s)) :=
  congrArg _ (whenAwake_awake _ h)

theorem exec_manage {s : State} (hr : s.inReset = false) (h : Header) (code : Byte) (tag : BitVec 16) (args : List Byte) :
    exec (.manage h code tag args) s = .next (settle (receiveTelegram .room (manageTelegram h code tag args) s)) :=
  congrArg _ (whenAwake_awake _ hr)

theorem receiveRoom_forward {t : Telegram} {s : State} (h : t.dest ≠ s.address) :
    receiveRoom t s = queueForward t s := if_neg h

theorem receiveRoom_manage {t : Telegram} {s : State} (h : t.dest = s.address) (hk : t.kind = kindManage)
    (hl : 3 ≤ t.payload.length) : receiveRoom t s = queueManage t s :=
  (if_pos h).trans ((if_neg (not_not_intro hk)).trans (if_neg (Nat.not_lt.mpr hl)))

/-- Settles O12: the two input queues of the room side by their limits. -/
theorem roomTelegramsQueued : Obligations.RoomTelegramsQueued := by
  intro s hr hl
  refine ⟨fun t ht hd => ?_, fun t rest hf ho hup => ?_, fun h code tag args hd ha => ?_⟩
  · rw [exec_roomTelegramForward hr, receiveTelegram_room hl ht, receiveRoom_forward hd]
    refine ⟨fun hlt => ?_, fun hle => ?_⟩
    · rw [queueForward, if_pos hlt]
    · rw [queueForward, if_neg (Nat.not_lt.mpr hle)]
      rfl
  · refine ⟨_, exec_fieldTransmissionEnd hr, ?_⟩
    rw [startField_takes_forward (s := fieldFreed s) ⟨hup, rfl⟩ ho hf, startRoom_frame]
    exact ⟨rfl, rfl⟩
  · have hsize : (manageTelegram h code tag args).payload.length = 3 + args.length := by
      simp [manageTelegram, mkTelegram]
      omega
    have e : exec (.manage h code tag args) s = .next (settle (queueManage (manageTelegram h code tag args) s)) := by
      rw [exec_manage hr, receiveTelegram_room hl (by omega), receiveRoom_manage hd rfl (by omega)]
    refine ⟨fun hlt => ⟨manageTelegram h code tag args, ?_, rfl, rfl, rfl, rfl, manageTelegram_read h code tag args⟩,
      fun hle => ?_⟩
    · rw [e, queueManage, if_pos hlt]
    · rw [e, queueManage, if_neg (Nat.not_lt.mpr hle)]
      rfl

end Sys2Proof.Machine
end

