-- ==== Sys2Proof/Proofs/Management.lean ====
section
/-! PROOFS. The management rows: when the head of the management input queue waits, is taken or is refused, COUNTERS_CLEAR and
RESTART FULL. -/

namespace Sys2Proof.Machine

/-! ## Taking the head (R10, R181) -/

theorem takeHead_waits {belongs : Telegram → Bool} {run : Telegram → State → State} {s : State}
    (h : s.tiu.manage = [] ∨ 64 ≤ s.tiu.room.length) : takeHead belongs run s = s := by
  unfold takeHead
  split
  · rfl
  · next t rest hm =>
    have hr : ¬s.tiu.room.length < 64 := Nat.not_lt.mpr (h.resolve_left (by simp [hm]))
    exact if_neg fun hc => hr hc.2

/-- The state in which the head of the management input queue has been taken. -/
def headTaken (rest : List Telegram) (s : State) : State := { s with tiu.manage := rest }

theorem takeHead_taken {belongs : Telegram → Bool} {run : Telegram → State → State} {s : State} {t : Telegram}
    {rest : List Telegram} (h : Taken s t rest) (hb : belongs t = true) :
    takeHead belongs run s = run t (headTaken rest s) := by
  simp only [takeHead, h.queue, hb, h.place, and_self, if_true]
  rfl

theorem takeHead_other {belongs : Telegram → Bool} {run : Telegram → State → State} {s : State} {t : Telegram}
    {rest : List Telegram} (h : Taken s t rest) (hb : belongs t = false) : takeHead belongs run s = s := by
  simp [takeHead, h.queue, hb]

/-- A command whose function changes nothing and makes nothing has its REPLY appended, and no more. -/
theorem execute_replied {f : Telegram → Act → Act × Reply} {t : Telegram} {rest : List Telegram} {r : Reply} {s : State}
    (h : f t (Act.start (headTaken rest s)) = (Act.start (headTaken rest s), r)) :
    execute f t (headTaken rest s) = replied t rest r s := by
  rw [execute, h]
  rfl

theorem sized_wrong {n : Nat} {f : List Byte → Act → Act × Reply} {t : Telegram} (h : (argsOf t).length ≠ n) (a : Act) :
    sized n f t a = (a, .no .badIndex) := if_neg h

theorem sized_right {n : Nat} {f : List Byte → Act → Act × Reply} {t : Telegram} (h : (argsOf t).length = n) (a : Act) :
    sized n f t a = f (argsOf t) a := if_pos h

theorem command_taken {code : Nat} {f : Telegram → Act → Act × Reply} {s : State} {t : Telegram} {rest : List Telegram}
    (h : Taken s t rest) (hc : commandOf t = code) : command code f s = execute f t (headTaken rest s) :=
  takeHead_taken h (decide_eq_true hc)

theorem command_other {code : Nat} {f : Telegram → Act → Act × Reply} {s : State} {t : Telegram} {rest : List Telegram}
    (h : Taken s t rest) (hc : commandOf t ≠ code) : command code f s = s :=
  takeHead_other h (decide_eq_false hc)

/-! ## The rows -/

/-- Every management row takes the head where it is a telegram of the row. -/
theorem managementRow_takeHead {c : Instr} (h : c ∈ managementRows) :
    ∃ belongs run, ∀ s, exec c s = .next (whenAwake (takeHead belongs run) s) := by
  simp only [managementRows, List.mem_cons, List.not_mem_nil, or_false] at h
  rcases h with rfl | rfl | rfl | rfl | rfl | rfl | rfl | rfl | rfl | rfl | rfl | rfl | rfl | rfl | rfl | rfl | rfl | rfl
    | rfl | rfl | rfl | rfl | rfl | rfl | rfl | rfl | rfl | rfl | rfl <;> exact ⟨_, _, fun _ => rfl⟩

/-- Every row of one command code executes the command of that code. -/
theorem commandRow_command {c : Instr} {code : Nat} (h : (c, code) ∈ commandRows) :
    ∃ f, ∀ s, exec c s = .next (whenAwake (command code f) s) := by
  simp only [commandRows, List.mem_cons, Prod.mk.injEq, List.not_mem_nil, or_false] at h
  rcases h with ⟨rfl, rfl⟩ | ⟨rfl, rfl⟩ | ⟨rfl, rfl⟩ | ⟨rfl, rfl⟩ | ⟨rfl, rfl⟩ | ⟨rfl, rfl⟩ | ⟨rfl, rfl⟩ | ⟨rfl, rfl⟩
    | ⟨rfl, rfl⟩ | ⟨rfl, rfl⟩ | ⟨rfl, rfl⟩ | ⟨rfl, rfl⟩ | ⟨rfl, rfl⟩ | ⟨rfl, rfl⟩ | ⟨rfl, rfl⟩ <;>
    exact ⟨_, fun _ => rfl⟩

/-- A command that is refused in BARE mode tests the length of its arguments and then the mode. -/
theorem notInBare_command {c : Instr} {code n : Nat} (h : (c, code, n) ∈ notInBare) :
    ∃ f : Telegram → List Byte → Act → Act × Reply,
      (∀ s, exec c s = .next (whenAwake (command code fun t => sized n (f t) t) s))
        ∧ ∀ t x a, mode a.s = .bare → f t x a = (a, .no .mode) := by
  simp only [notInBare, List.mem_cons, Prod.mk.injEq, List.not_mem_nil, or_false] at h
  rcases h with ⟨rfl, rfl, rfl⟩ | ⟨rfl, rfl, rfl⟩ | ⟨rfl, rfl, rfl⟩ | ⟨rfl, rfl, rfl⟩ | ⟨rfl, rfl, rfl⟩ | ⟨rfl, rfl, rfl⟩
    | ⟨rfl, rfl, rfl⟩ | ⟨rfl, rfl, rfl⟩ | ⟨rfl, rfl, rfl⟩ | ⟨rfl, rfl, rfl⟩
  · exact ⟨fun _ x => profileActivate (field x 0 1), fun _ => rfl,
      fun _ _ _ hm => if_pos hm⟩
  · exact ⟨fun _ _ => editHold, fun _ => rfl,
      fun _ _ _ hm => if_pos hm⟩
  · exact ⟨fun _ x => edit (field x 0 1) (field x 1 1) (field x 2 1) (field x 3 4), fun _ => rfl,
      fun _ _ _ hm => if_pos hm⟩
  · exact ⟨fun _ _ => editRelease, fun _ => rfl,
      fun _ _ _ hm => if_pos hm⟩
  · exact ⟨fun _ x => raiseCommand (field x 0 2) (field x 2 1) (field x 3 1) (field x 4 1) (field x 5 1), fun _ => rfl,
      fun _ _ _ hm => if_pos hm⟩
  · exact ⟨fun t x => ackCommand (tagOf t) (field x 0 2) (field x 2 1), fun _ => rfl,
      fun _ _ _ hm => if_pos hm⟩
  · exact ⟨fun _ x => resolveCommand (field x 0 2), fun _ => rfl,
      fun _ _ _ hm => if_pos hm⟩
  · exact ⟨fun _ x => zoneCommand (field x 0 1) (field x 1 1), fun _ => rfl,
      fun _ _ _ hm => if_pos hm⟩
  · exact ⟨fun _ x => bindCommand (field x 0 2) (field x 2 2), fun _ => rfl,
      fun _ _ _ hm => if_pos hm⟩
  · exact ⟨fun _ x => removeCommand (field x 0 2), fun _ => rfl,
      fun _ _ _ hm => if_pos hm⟩

theorem queryRow_query {c : Instr} {code : Nat} {q : Subject} (h : (c, code, q) ∈ queryRows) :
    (∀ s, exec c s = .next (whenAwake (query q) s)) ∧ Subject.ofCode code = some q ∧ code ≤ 10 := by
  simp only [queryRows, List.mem_cons, Prod.mk.injEq, List.not_mem_nil, or_false] at h
  rcases h with ⟨rfl, rfl, rfl⟩ | ⟨rfl, rfl, rfl⟩ | ⟨rfl, rfl, rfl⟩ | ⟨rfl, rfl, rfl⟩ | ⟨rfl, rfl, rfl⟩ | ⟨rfl, rfl, rfl⟩
    | ⟨rfl, rfl, rfl⟩ | ⟨rfl, rfl, rfl⟩ | ⟨rfl, rfl, rfl⟩ | ⟨rfl, rfl, rfl⟩ | ⟨rfl, rfl, rfl⟩ <;>
    exact ⟨fun _ => rfl, rfl, by decide⟩

/-! ## Subjects and restart kinds -/

theorem ofCode_eq_none {n : Nat} (h : 10 < n) : Subject.ofCode n = none := by
  unfold Subject.ofCode
  split <;> simp_all

theorem ofCode_injective {m n : Nat} (hm : m ≤ 10) (hn : n ≤ 10) (h : Subject.ofCode m = Subject.ofCode n) : m = n := by
  have table : ∀ i j : Fin 11, Subject.ofCode i.val = Subject.ofCode j.val → i = j := by decide
  exact congrArg Fin.val (table ⟨m, Nat.lt_succ_of_le hm⟩ ⟨n, Nat.lt_succ_of_le hn⟩ h)

theorem ofCode_isSome {n : Nat} (h : n ≤ 10) : Subject.ofCode n ≠ none := by
  have table : ∀ i : Fin 11, Subject.ofCode i.val ≠ none := by decide
  exact table ⟨n, Nat.lt_succ_of_le h⟩

theorem subjectOf_args {t : Telegram} {x i1 i0 k : Byte} (h : argsOf t = [x, i1, i0, k]) :
    subjectOf t = Subject.ofCode x.toNat := by
  unfold subjectOf
  rw [h]
  exact congrArg Subject.ofCode (numOf_one x)

theorem subjectOf_none {t : Telegram}
    (h : (argsOf t).length ≠ 4 ∨ ∃ x, (argsOf t)[0]? = some x ∧ 10 < x.toNat) : subjectOf t = none := by
  unfold subjectOf
  split
  · next hl =>
    obtain ⟨x, hx, hlt⟩ := h.resolve_left (not_not_intro hl)
    rw [field_byte, List.getD_eq_getElem?_getD, hx]
    exact ofCode_eq_none hlt
  · rfl

theorem restartKind_args {t : Telegram} {x : Byte} (h : argsOf t = [x]) : restartKind t = bool? x.toNat := by
  unfold restartKind
  rw [h]
  exact congrArg bool? (numOf_one x)

theorem restartKind_none {t : Telegram}
    (h : (argsOf t).length ≠ 1 ∨ ∃ x, (argsOf t)[0]? = some x ∧ 1 < x.toNat) : restartKind t = none := by
  unfold restartKind
  split
  · next hl =>
    obtain ⟨x, hx, hlt⟩ := h.resolve_left (not_not_intro hl)
    rw [field_byte, List.getD_eq_getElem?_getD, hx]
    unfold bool?
    split
    · next h0 => simp only [Option.getD_some] at h0; omega
    · next h1 => simp only [Option.getD_some] at h1; omega
    · rfl
  · rfl

/-- A RESTART whose kind is the other row's is left to that row. -/
theorem restart_other {s : State} {t : Telegram} {rest : List Telegram} {full : Bool} (h : Taken s t rest)
    (hc : commandOf t ≠ 0x11 ∨ restartKind t = some (!full)) : restart full s = s := by
  refine takeHead_other h (decide_eq_false ?_)
  rintro ⟨hcode, hkind⟩
  have hk := hc.resolve_left (not_not_intro hcode)
  cases full <;> simp [hk] at hkind

/-! ## Waiting and refusals -/

/-- Settles O49: each row is its command's taking of the head, refused before anything is changed. -/
theorem managementWaitsAndRefuses : Obligations.ManagementWaitsAndRefuses := by
  refine ⟨fun s c hc hr hw => ?_, fun s t rest h hu => ?_, fun s t rest c code n args hc h => ⟨fun hl => ?_, fun hl hm => ?_⟩,
    fun s t rest h => ⟨fun c code hc hne => ?_, fun h1 h2 => ?_, fun c code q hc hne => ?_, fun hne => ?_, fun hne => ?_⟩,
    fun s t rest args => ⟨fun h hl => ?_, fun h hl => ?_, fun h hl => ?_, fun h hl => ?_, fun c code q hc h hl => ?_,
      fun h hl => ?_, fun h hl => ?_⟩⟩
  · obtain ⟨_, _, hx⟩ := managementRow_takeHead hc
    rw [hx, whenAwake_awake _ hr, takeHead_waits hw]
  · exact congrArg _ ((whenAwake_awake _ h.awake).trans (congrArg settle (takeHead_taken h (decide_eq_true hu))))
  · obtain ⟨f, hx, _⟩ := notInBare_command hc
    rw [hx, whenAwake_awake _ h.awake, command_taken h.toTaken h.code,
      execute_replied (f := fun t => sized n (f t) t) (sized_wrong (by rw [h.args]; exact hl) _)]
  · obtain ⟨f, hx, hbare⟩ := notInBare_command hc
    rw [hx, whenAwake_awake _ h.awake, command_taken h.toTaken h.code,
      execute_replied (f := fun t => sized n (f t) t) (t := t) (rest := rest) (s := s)
        ((sized_right (by rw [h.args]; exact hl) _).trans (hbare _ _ _ hm))]
  · obtain ⟨f, hx⟩ := commandRow_command hc
    rw [hx, whenAwake_awake _ h.awake, command_other h hne]
  · have hb : decide (commandOf t = 0 ∨ 0x11 < commandOf t) = false := decide_eq_false (by omega)
    exact congrArg _ ((whenAwake_awake _ h.awake).trans (congrArg settle (takeHead_other h hb)))
  · obtain ⟨hx, hq, hle⟩ := queryRow_query hc
    have hb : ¬(commandOf t = 0x0F ∧ (subjectOf t = some q ∨ subjectOf t = none)) := by
      rintro ⟨hcode, hs⟩
      obtain ⟨x, i1, i0, k, ha, hx10, hxne⟩ := hne.resolve_left (not_not_intro hcode)
      rw [subjectOf_args ha] at hs
      rcases hs with hs | hs
      · exact hxne (ofCode_injective hx10 hle (hs.trans hq.symm))
      · exact ofCode_isSome hx10 hs
    rw [hx, whenAwake_awake _ h.awake, query, takeHead_other h (decide_eq_false hb)]
  · exact congrArg _ ((whenAwake_awake _ h.awake).trans
      (congrArg settle (restart_other h (hne.imp_right fun ha => (restartKind_args ha).trans rfl))))
  · exact congrArg _ ((whenAwake_awake _ h.awake).trans
      (congrArg settle (restart_other h (hne.imp_right fun ha => (restartKind_args ha).trans rfl))))
  · exact congrArg _ ((whenAwake_awake _ h.awake).trans (congrArg settle ((command_taken h.toTaken h.code).trans
      (execute_replied (sized_wrong (by rw [h.args]; exact hl) _)))))
  · refine congrArg _ ((whenAwake_awake _ h.awake).trans (congrArg settle ((command_taken h.toTaken h.code).trans
      (execute_replied (if_neg ?_)))))
    rw [h.args]
    omega
  · refine congrArg _ ((whenAwake_awake _ h.awake).trans (congrArg settle ((command_taken h.toTaken h.code).trans
      (execute_replied (sized_wrong ?_ _)))))
    rw [h.args]
    exact fun e => hl (List.length_eq_zero_iff.mp e)
  · refine congrArg _ ((whenAwake_awake _ h.awake).trans (congrArg settle ((command_taken h.toTaken h.code).trans
      (execute_replied (if_neg ?_)))))
    rw [h.args, field_byte, List.getD_eq_getElem?_getD]
    rcases hl with hl | ⟨c, hc, hl⟩
    · omega
    · rw [hc]
      exact fun hx => hl hx.2
  · obtain ⟨hx, _, _⟩ := queryRow_query hc
    have hs : subjectOf t = none := subjectOf_none (by rw [h.args]; exact hl)
    rw [hx, whenAwake_awake _ h.awake, query, takeHead_taken h.toTaken (decide_eq_true ⟨h.code, .inr hs⟩),
      execute_replied (r := .no .badIndex)]
    simp only [queryCommand, hs]
  · refine congrArg _ ((whenAwake_awake _ h.awake).trans (congrArg settle ((command_taken h.toTaken h.code).trans
      (execute_replied (sized_wrong ?_ _)))))
    rw [h.args]
    exact fun e => hl (List.length_eq_zero_iff.mp e)
  · have hk : restartKind t = none := restartKind_none (by rw [h.args]; exact hl)
    have e (full : Bool) : restart full s = replied t rest (.no .badIndex) s := by
      rw [restart, takeHead_taken h.toTaken (decide_eq_true ⟨h.code, .inr hk⟩)]
      simp only [hk]
      rfl
    exact ⟨congrArg _ ((whenAwake_awake _ h.awake).trans (congrArg settle (e false))),
      congrArg _ ((whenAwake_awake _ h.awake).trans (congrArg settle (e true)))⟩

/-! ## COUNTERS_CLEAR and RESTART FULL -/

/-- Settles O51: both rows take the head, and what they write stands field by field. -/
theorem clearAndFullRestart : Obligations.ClearAndFullRestart := by
  refine fun s t rest => ⟨fun h => ?_, fun h => ?_⟩
  · have hzones : (s.asc.zones.map fun q => { q with missing := 0, refused := 0 })
        = Table.build 24 fun z => { s.asc.zones.get z with missing := 0, refused := 0 } :=
      Table.ext_get fun z => by simp
    refine congrArg _ ((whenAwake_awake _ h.awake).trans (congrArg settle ((command_taken h.toTaken h.code).trans ?_)))
    rw [execute, sized_right (by rw [h.args]; rfl), ← hzones]
    rfl
  · have hk : restartKind t = some true := (restartKind_args h.args).trans rfl
    refine congrArg _ ((whenAwake_awake _ h.awake).trans (congrArg settle
      ((takeHead_taken h.toTaken (decide_eq_true ⟨h.code, .inl hk⟩)).trans ?_)))
    simp only [hk]
    simp [restartFully, Tiu.full, answer, headTaken, Tiu.start, State.reset]
    rfl

end Sys2Proof.Machine
end

