-- ==== Sys2Proof/Proofs/Reset.lean ====
section
/-! PROOFS. The state after reset meets every law: each block is empty there. -/

namespace Sys2Proof.Machine

theorem lckLaw_start : LckLaw Lck.start where
  cycle := by decide
  dayTime := by decide
  missed := by decide
  unset _ := ⟨rfl, rfl, rfl, rfl⟩
  running h := absurd rfl h

theorem Tst.start_slot (i : SlotId) : Tst.start.slots.get i = { state := .empty, profile := none } := Table.get_fill _ i

theorem tstLaw_start : TstLaw Tst.start where
  oneActive i j h := by simp [Tst.start_slot] at h
  holds i := by simp [Tst.start_slot]
  pending i h := by simp [Tst.start] at h
  lineLoading := by simp [Tst.start]
  slotLoading i := by
    rw [Tst.start_slot]
    simp [Tst.start]
  blocks l h := by simp [Tst.start] at h
  openGroup g h := by simp [Tst.start] at h
  waiting := Nat.zero_le _
  groups g h := by simp [Tst.start] at h
  bare _ := ⟨fun i => by rw [Tst.start_slot], rfl, rfl, rfl⟩

/-- A train table without records. -/
theorem rrgLaw_of_empty {r : Rrg} (h : ∀ i, r.trains.get i = none)
    (hc : r.refused ≤ 65535 ∧ r.unplanned ≤ 65535 ∧ r.holdOff ≤ 60) : RrgLaw r where
  sets i j t u hi := by simp [h] at hi
  runs i j t u n hi := by simp [h] at hi
  setRange i t hi := by simp [h] at hi
  runRange i t n hi := by simp [h] at hi
  devRange i t hi := by simp [h] at hi
  silence i t hi := by simp [h] at hi
  counts := hc

theorem reset_train (i : TrainId) : State.reset.rrg.trains.get i = none := Table.get_fill _ i

theorem reset_supply (b : SubId) : State.reset.psv.subs.get b = Supply.start := Table.get_fill _ b

theorem reset_incident (i : IncId) : State.reset.inc.records.get i = none := Table.get_fill _ i

theorem reset_waits : allWaits State.reset.psv = [] := by
  have h : ∀ v ∈ State.reset.psv.subs.items, v.waits = [] := by
    intro v hv
    obtain ⟨b, rfl⟩ := Table.exists_get hv
    rw [reset_supply]
    rfl
  simpa [allWaits, List.flatMap_eq_nil_iff] using ⟨h, rfl⟩

theorem poolLaw_reset : PoolLaw State.reset where
  held b := by
    rw [reset_supply]
    simp [slotHolders, reset_train, Supply.start]
  stopped i t h := by simp [reset_train] at h
  lists b w h := by
    rw [reset_supply] at h
    simp [Supply.start] at h
  dead w h := nomatch h
  once := by simp [reset_waits]
  order b := by
    rw [reset_supply]
    exact List.Pairwise.nil
  joins b := by
    rw [reset_supply]
    exact List.nodup_nil
  full b h := by
    rw [reset_supply] at h
    exact absurd rfl h
  bare _ := reset_train

/-- No section is used, so none has a picture, and no substation is, so none has a capacity (R94, R101). -/
theorem psv_start_derived : State.reset.psv = derived State.reset := by
  have hs : State.reset.psv.subs = (derived State.reset).subs := by
    refine Table.ext_get fun b => ?_
    simp only [derived, Table.get_build, reset_supply]
    simp [effectiveCapacity, State.reset, Tst.start, LineTables.standard, Supply.start]
  have hx : State.reset.psv.secs = (derived State.reset).secs := by
    refine Table.ext_get fun x => ?_
    simp [derived, pictureOf, State.reset, Tst.start, LineTables.standard, Psv.start]
  exact congrArg₂ (fun a b => { subs := a, secs := b, deadWaits := [] : Psv }) hs hx

theorem holdLaw_reset : HoldLaw State.reset where
  held p := by simp [HoldCovers, State.reset, Inc.start]
  bare _ := ⟨reset_incident, fun b => by rw [reset_supply]; rfl⟩

/-- An incident table without records. -/
theorem incLaw_of_empty {u : Inc} (h : ∀ i, u.records.get i = none) (hr : u.resolved = [])
    (hn : 1 ≤ u.nextNumber ∧ u.nextNumber ≤ 65535) (hc : u.refused ≤ 65535) : IncLaw u where
  numbers i j r q hi := by simp [h] at hi
  keys i j r q hi := by simp [h] at hi
  own i r n hi := by simp [h] at hi
  numberRange i r hi := by simp [h] at hi
  next := ⟨hn.1, hn.2, fun i r hi => by simp [h] at hi⟩
  resolvedOnce := by simp [hr]
  resolved i := by simp [h, hr]
  retention i r hi := by simp [h] at hi
  level i r hi := by simp [h] at hi
  refused := hc

theorem zoneLaw_start_off : ZoneLaw (Zone.start .off) where
  size := by decide
  order := List.Pairwise.nil
  keys := List.nodup_nil
  seqs := List.nodup_nil
  below e h := nomatch h
  arrivals := by decide
  current := by decide
  tag := by decide
  play := by decide
  guard := by decide
  off _ := rfl
  nextTag := by decide
  counts := by decide

/-- Settles O53. -/
theorem resetMeetsLaws : Obligations.ResetMeetsLaws :=
  ⟨tiuLaw_start, lckLaw_start, tstLaw_start, rrgLaw_of_empty reset_train (by decide),
    ⟨psv_start_derived, poolLaw_reset⟩, holdLaw_reset,
    incLaw_of_empty reset_incident rfl (by decide) (by decide),
    fun z => (Table.get_fill (Zone.start .off) z).symm ▸ zoneLaw_start_off⟩

end Sys2Proof.Machine
end

