-- ==== Sys2Proof/Proofs/Queries.lean ====
section
/-! PROOFS. The QUERY replies: the head is answered and nothing else changes, lists are cut where they no longer fit, and each
subject's data stands field by field. -/

namespace Sys2Proof.Machine

/-! ## Lists (R183) -/

/-- The elements that fit are the leading ones, up to the first that does not. -/
theorem fitWhole_eq_take (room : Nat) (l : List (List Byte)) :
    ∃ n, fitWhole room l = (l.take n).flatten ∧ (l.take n).flatten.length ≤ room
      ∧ (l.length ≤ n ∨ room < (l.take (n + 1)).flatten.length) := by
  induction l generalizing room with
  | nil => exact ⟨0, rfl, Nat.zero_le _, .inl le_rfl⟩
  | cons e rest ih =>
    by_cases he : e.length ≤ room
    · obtain ⟨n, heq, hfit, hnext⟩ := ih (room - e.length)
      refine ⟨n + 1, ?_, ?_, ?_⟩
      · simp [fitWhole, he, heq]
      · simp only [List.take_succ_cons, List.flatten_cons, List.length_append]
        omega
      · simp only [List.take_succ_cons, List.flatten_cons, List.length_append, List.length_cons]
        omega
    · refine ⟨0, ?_, Nat.zero_le _, .inr ?_⟩
      · simp [fitWhole, he]
      · simpa using he

/-- The rows of a table in index order. -/
theorem Table.items_eq_map {α : Type} {n : Nat} (t : Table α n) : t.items = (indices n).map t.get := by
  apply List.ext_getElem
  · simp [indices, t.size]
  · intro k h1 h2
    simp [indices, Table.get]

/-! ## The head -/

/-- What a QUERY gives does not read the management input queue. -/
theorem queryReply_headTaken (rest : List Telegram) (s : State) (q : Subject) (i k : Nat) :
    queryReply (headTaken rest s) q i k = queryReply s q i k := by
  cases q <;> rfl

theorem execute_queryCommand {s : State} {t : Telegram} {rest : List Telegram} {q : Subject} {x i1 i0 k : Byte}
    (ha : argsOf t = [x, i1, i0, k]) (hq : subjectOf t = some q) :
    execute queryCommand t (headTaken rest s) = replied t rest (queryReply s q (numOf [i1, i0]) k.toNat) s := by
  apply execute_replied
  have hi : field [x, i1, i0, k] 1 2 = numOf [i1, i0] := rfl
  have hk : field [x, i1, i0, k] 3 1 = k.toNat := numOf_one k
  simp only [queryCommand, hq, ha, hi, hk, Act.start_s, queryReply_headTaken]

/-! ## The subjects -/

theorem index?_val {n : Nat} (i : Fin n) : index? n i.val = some i := index?_eq_some.mpr rfl

theorem index?_none {n k : Nat} (h : n ≤ k) : index? n k = none := dif_neg (Nat.not_lt.mpr h)

theorem loadData_eq (o : Option Load) :
    opt1 (o.map (·.target.code)) ++ opt2 (o.map (·.remaining)) ++ opt2 (o.map (·.expected))
      = match o with
        | some l => (match l.target with
            | .line => [255]
            | .slot j => num1 j.val) ++ num2 l.remaining ++ num2 l.expected
        | none => [255, 0, 0, 0, 0] := by
  cases o with
  | none => rfl
  | some l => cases h : l.target <;> simp [h, LoadTarget.code, opt1, opt2, num1]

theorem profileData_eq (s : State) :
    profileData s = (indices 3).flatMap (fun j => slotData (s.tst.slots.get j)) ++ num1 s.tst.lineState.code
      ++ (opt1 (s.tst.load.map (·.target.code)) ++ opt2 (s.tst.load.map (·.remaining))
        ++ opt2 (s.tst.load.map (·.expected)))
      ++ opt1 (s.tst.pendingSlot.map (·.val)) ++ opt1 (s.tst.openGroup.map (·.length)) ++ num1 s.tst.waiting.length := by
  rw [profileData, Table.items_eq_map, List.flatMap_map]
  simp only [List.append_assoc]

theorem sourceData_eq (s : State) (o : Option (SubId × FeedName)) :
    opt1 (o.map (·.1.val)) ++ opt1 (o.map (·.2.code)) ++ opt1 (o.map fun f => (s.psv.subs.get f.1).capacity)
        ++ opt1 (o.map fun f => (s.psv.subs.get f.1).held)
      = match o with
        | some (b, f) => num1 b.val ++ num1 f.code ++ num1 (s.psv.subs.get b).capacity ++ num1 (s.psv.subs.get b).held
        | none => [255, 255, 255, 255] := by
  cases o <;> rfl

theorem feedBData_eq (o : Option SubId) (f : FeederId) :
    opt1 (o.map (·.val)) ++ opt1 (o.map fun _ => f.val)
      = match o with
        | some b => num1 b.val ++ num1 f.val
        | none => [255, 255] := by
  cases o <;> rfl

theorem sectionState_eq (s : State) (x : Sec) (v : Picture) :
    sectionState s x v = num1 (feedOf s.psv x.subA x.feederA).code
      ++ opt1 (x.subB.map fun b => (feedOf s.psv b x.feederB).code) ++ opt1 (v.state.map (·.code))
      ++ (opt1 (v.source.map (·.1.val)) ++ opt1 (v.source.map (·.2.code))
        ++ opt1 (v.source.map fun f => (s.psv.subs.get f.1).capacity)
        ++ opt1 (v.source.map fun f => (s.psv.subs.get f.1).held)) := by
  simp only [sectionState, List.append_assoc]

theorem querySectionReply_eq (s : State) (i : SecId) :
    querySectionReply s i.val
      = .ok (flag1 (s.tst.line.secs.get i).used ++ num1 (s.tst.line.secs.get i).area.val
        ++ num1 (s.tst.line.secs.get i).subA.val ++ num1 (s.tst.line.secs.get i).feederA.val
        ++ (opt1 ((s.tst.line.secs.get i).subB.map (·.val))
          ++ opt1 ((s.tst.line.secs.get i).subB.map fun _ => (s.tst.line.secs.get i).feederB.val))
        ++ if (s.tst.line.secs.get i).used then sectionState s (s.tst.line.secs.get i) (s.psv.secs.get i)
           else List.replicate 7 255) := by
  simp only [querySectionReply, index?_val, List.append_assoc]

theorem currentData_eq (o : Option Entry) :
    (o.map entryData).getD noEntryData
      = match o with
        | some e => entryData e
        | none => [255, 255, 255, 0, 0, 0, 255, 0, 0, 0, 0, 0, 0] := by
  cases o <;> rfl

/-- Settles O50: the row's head is answered, the list rule, and the data of each subject. -/
theorem queriesAnswered : Obligations.QueriesAnswered := by
  refine ⟨fun s t rest c code q x i1 i0 k hc h hx => ?_, fun before after elements skip => ?_, fun s i k => ?_⟩
  · obtain ⟨he, hq, _⟩ := queryRow_query hc
    have hs : subjectOf t = some q := (subjectOf_args h.args).trans ((congrArg Subject.ofCode hx).trans hq)
    rw [he, whenAwake_awake _ h.awake, query, takeHead_taken h.toTaken (decide_eq_true ⟨h.code, .inl hs⟩),
      execute_queryCommand h.args hs]
  · obtain ⟨n, heq, hfit, hnext⟩ := fitWhole_eq_take (236 - (before.length + 2 + after.length)) (elements.drop skip)
    refine ⟨n, ?_, hfit, hnext.imp_left fun h => ?_⟩
    · rw [withList, heq]
    · rw [List.length_drop] at h
      omega
  · refine ⟨rfl, rfl, rfl, ?_, rfl, ?_, ?_, ?_, ?_, ?_, ?_, ?_, ?_, ?_, ?_, ?_, ?_, ?_, ?_, ?_⟩
    · simp [queryReply, countersData, Counters.values]
    · simp only [queryReply, profileData_eq, loadData_eq] <;>
        rfl
    · simp [queryReply, queryTrainReply, trainTableData, trainsInUse]
    · intro j t hi hf ht
      simp [queryReply, queryTrainReply, hi, hf, ht, trainData]
    · intro hi hf
      simp [queryReply, queryTrainReply, hi, hf]
    · rintro p rfl
      simp only [queryReply, queryPointReply, index?_val]
      rfl
    · intro hi
      simp only [queryReply, queryPointReply, index?_none hi]
    · rintro x rfl
      simp only [queryReply, querySectionReply_eq, sectionState_eq, feedBData_eq, sourceData_eq] <;>
        rfl
    · intro hi
      simp only [queryReply, querySectionReply, index?_none hi]
    · rintro b rfl
      refine ⟨fun hu => ?_, fun hu => ?_⟩
      · simp only [queryReply, querySubstationReply, index?_val, hu]
        rfl
      · simp only [queryReply, querySubstationReply, index?_val, hu]
        rfl
    · intro hi
      simp only [queryReply, querySubstationReply, index?_none hi]
    · rfl
    · intro j r hi hf hr
      simp [queryReply, queryIncidentReply, hi, hf, hr, incidentData]
    · intro hi hf
      simp [queryReply, queryIncidentReply, hi, hf]
    · rintro z rfl
      refine ⟨fun hm => ?_, fun hm => ?_⟩
      · simp only [queryReply, queryZoneReply, index?_val, if_pos hm]
        rfl
      · simp only [queryReply, queryZoneReply, index?_val, if_neg hm, zoneData, currentData_eq] <;>
          rfl
    · intro hi
      simp only [queryReply, queryZoneReply, index?_none hi]

end Sys2Proof.Machine
end

