-- ==== Sys2Proof/Proofs/Works.lean ====
section
/-! PROOFS. What the work of the blocks makes and what of the INC it leaves alone. Orders and reports are only added; grants
hand nothing to the INC but that a power wait is over; and the work on trains, substations and zones leaves the incident
records as they stand. -/

namespace Sys2Proof.Machine

/-! ## Two relations between an action and what follows from it -/

/-- A request that reports a power wait over. -/
def PowerWaitOver (r : Request) : Prop := ∃ n, r = .gone .powerWait (.train n)

/-- What follows from an action adds to what it has made, and asks the INC for nothing but the end of power waits. -/
structure Speaks (a b : Act) : Prop where
  out : a.out <+: b.out
  asks : ∀ r ∈ b.requests, r ∈ a.requests ∨ PowerWaitOver r

/-- The INC without its coverage under HOLD. -/
def Act.books (a : Act) : Inc := { a.s.inc with underHold := Table.fill 64 false }

/-- What follows from an action leaves the incident records as they stand. -/
structure Works (a b : Act) : Prop extends Speaks a b where
  books : b.books = a.books

theorem Speaks.refl (a : Act) : Speaks a a := ⟨List.prefix_rfl, fun _ h => .inl h⟩

theorem Speaks.trans {a b c : Act} (h : Speaks a b) (k : Speaks b c) : Speaks a c :=
  ⟨h.out.trans k.out, fun r hr => (k.asks r hr).elim (h.asks r) .inr⟩

/-- An update that makes nothing and asks nothing. -/
theorem Speaks.of_eq {a b : Act} (ho : b.out = a.out) (hr : b.requests = a.requests) : Speaks a b :=
  ⟨ho ▸ List.prefix_rfl, fun _ h => .inl (hr ▸ h)⟩

theorem Works.refl (a : Act) : Works a a := ⟨Speaks.refl a, rfl⟩

theorem Works.trans {a b c : Act} (h : Works a b) (k : Works b c) : Works a c :=
  ⟨h.toSpeaks.trans k.toSpeaks, k.books.trans h.books⟩

theorem Works.of_eq {a b : Act} (ho : b.out = a.out) (hr : b.requests = a.requests) (hb : b.books = a.books) : Works a b :=
  ⟨Speaks.of_eq ho hr, hb⟩

theorem Speaks.foldl {β : Type} {f : Act → β → Act} (h : ∀ a b, Speaks a (f a b)) (l : List β) (a : Act) :
    Speaks a (l.foldl f a) := by
  induction l generalizing a with
  | nil => exact Speaks.refl a
  | cons b l ih => exact (h a b).trans (ih _)

theorem Works.foldl {β : Type} {f : Act → β → Act} (h : ∀ a b, Works a (f a b)) (l : List β) (a : Act) :
    Works a (l.foldl f a) := by
  induction l generalizing a with
  | nil => exact Works.refl a
  | cons b l ih => exact (h a b).trans (ih _)

theorem Works.forAll {n : Nat} {f : Fin n → Act → Act} (h : ∀ i a, Works a (f i a)) (a : Act) : Works a (forAll n f a) :=
  Works.foldl (fun a i => h i a) _ a

/-! ## Writing records, orders and reports -/

theorem works_order (o : Order) (a : Act) : Works a (a.order o) :=
  ⟨⟨List.prefix_append _ _, fun _ h => .inl h⟩, rfl⟩

theorem works_report (k : Nat) (c : List Byte) (a : Act) : Works a (a.report k c) :=
  ⟨⟨List.prefix_append _ _, fun _ h => .inl h⟩, rfl⟩

theorem works_hold (p : TpId) (r : Option Nat) (k : Nat) (x : HoldReason) (a : Act) : Works a (a.hold p r k x) :=
  works_order _ a

theorem works_putTrain (i : TrainId) (t : Option Train) (a : Act) : Works a (a.putTrain i t) := Works.of_eq rfl rfl rfl

theorem works_onTrain (i : TrainId) (f : Train → Train) (a : Act) : Works a (a.onTrain i f) := Works.of_eq rfl rfl rfl

theorem works_onSupply (b : SubId) (f : Supply → Supply) (a : Act) : Works a (a.onSupply b f) := Works.of_eq rfl rfl rfl

theorem works_putZone (z : ZoneId) (q : Zone) (a : Act) : Works a (a.putZone z q) := Works.of_eq rfl rfl rfl

theorem speaks_putIncident (i : IncId) (r : Option Incident) (a : Act) : Speaks a (a.putIncident i r) :=
  Speaks.of_eq rfl rfl

/-! ## Announcements -/

theorem works_issueEntry (z : ZoneId) (p : Bool) (e : Entry) (a : Act) : Works a (issueEntry z p e a) :=
  (works_order _ a).trans (works_putZone _ _ _)

theorem works_issueTest (z : ZoneId) (a : Act) : Works a (issueTest z a) := by
  unfold issueTest
  split
  · split
    · exact works_issueEntry z _ _ a
    · exact Works.refl a
  · exact Works.refl a

theorem works_preemptTest (z : ZoneId) (a : Act) : Works a (preemptTest z a) := by
  unfold preemptTest
  dsimp only
  split
  · exact works_issueTest z a
  · split
    · exact works_issueEntry z _ _ a
    · exact Works.refl a
  · split
    · split
      · exact Works.refl a
      · exact (works_issueEntry z _ _ a).trans (works_putZone _ _ _)
    · exact Works.refl a
  · exact Works.refl a
  · exact Works.refl a

theorem works_placedTest (z : ZoneId) (p : Priority) (e : Nat) (a : Act) : Works a (placedTest z p e a) := by
  unfold placedTest
  split
  · split
    · exact works_preemptTest z a
    · exact Works.refl a
  · exact works_issueTest z a

theorem works_placeEntry (z : ZoneId) (n : NewEntry) (a : Act) : Works a (placeEntry z n a).1 := by
  have tested (p : Priority) (e : Nat) (q : Zone) : Works a (placedTest z p e (a.putZone z q)) :=
    (works_putZone z q a).trans (works_placedTest z p e _)
  unfold placeEntry
  dsimp only
  split
  · exact works_putZone _ _ a
  · split
    · exact works_putZone _ _ a
    · split
      · exact tested _ _ _
      · split
        · exact tested _ _ _
        · split
          · split
            · exact tested _ _ _
            · exact works_putZone _ _ a
          · exact Works.refl a

theorem works_cutCurrent (z : ZoneId) (a : Act) : Works a (cutCurrent z a) := by
  unfold cutCurrent
  split
  · exact works_order _ a
  · exact Works.refl a

theorem works_zoneRemove (x : Source) (z : ZoneId) (a : Act) : Works a (zoneRemove x z a) := by
  unfold zoneRemove
  dsimp only
  split
  · exact (works_cutCurrent z a).trans (works_putZone _ _ _)
  · exact works_putZone _ _ a

/-! ## Power -/

theorem works_withdraw (i : TrainId) (a : Act) : Works a (withdraw i a) := Works.of_eq rfl rfl rfl

theorem works_takeToHeld (w : Wait) (a : Act) : Works a (takeToHeld w a) :=
  (works_onTrain _ _ a).trans (works_hold _ _ _ _ _)

theorem works_grantSlot (b : SubId) (w : Wait) (a : Act) : Works a (grantSlot b w a) := by
  unfold grantSlot
  split
  · exact Works.refl a
  · next t _ =>
    refine ⟨⟨List.prefix_append _ _, fun r hr => ?_⟩, rfl⟩
    rcases List.mem_append.mp hr with h | h
    · exact .inl h
    · exact .inr ⟨t.set, List.mem_singleton.mp h⟩

theorem works_grantFrom (b : SubId) (ws : List Wait) (a : Act) : Works a (grantFrom b ws a) := by
  induction ws generalizing a with
  | nil => exact works_onSupply b _ a
  | cons w rest ih =>
    unfold grantFrom
    split
    · split
      · exact (works_takeToHeld w a).trans (ih _)
      · exact (works_grantSlot b w a).trans (ih _)
    · exact works_onSupply b _ a

theorem works_grantAll (a : Act) : Works a (grantAll a) := Works.forAll (fun b a => works_grantFrom b _ a) a

theorem works_joinList (b : SubId) (w : Wait) (a : Act) : Works a (joinList b w a) := works_onSupply b _ a

theorem works_addDead (w : Wait) (a : Act) : Works a (a.addDead w) := Works.of_eq rfl rfl rfl

theorem works_releaseTripped (b : SubId) (a : Act) : Works a (releaseTripped b a) := by
  unfold releaseTripped
  dsimp only
  refine Works.trans (Works.forAll (fun i a => ?_) a) (works_onSupply b _ _)
  split
  · exact works_onTrain i _ a
  · exact Works.refl a

theorem works_startPowerWait (i : TrainId) (st : TrainState) (a : Act) : Works a (startPowerWait i st a) :=
  works_onTrain i _ a

theorem works_placeOne (w : Wait) (a : Act) : Works a (placeOne w a) := by
  unfold placeOne
  split
  · split
    · exact works_joinList _ w a
    · exact ((works_addDead w a).trans (works_startPowerWait _ _ _)).trans (works_hold _ _ _ _ _)
  · exact Works.refl a

theorem works_settleWait (w : Wait) (a : Act) : Works a (settleWait w a) := by
  unfold settleWait
  split
  · exact (works_startPowerWait _ _ a).trans (works_hold _ _ _ _ _)
  · exact Works.refl a

theorem works_placeHandOver (ws : List Wait) (a : Act) : Works a (placeHandOver ws a) :=
  ((Works.foldl (fun a w => works_placeOne w a) ws a).trans (works_grantAll _)).trans
    (Works.foldl (fun a w => works_settleWait w a) ws _)

theorem works_replaceOne (b : SubId) (w : Wait) (a : Act) : Works a (replaceOne b w a) := by
  unfold replaceOne
  split
  · exact Works.refl a
  · dsimp only
    split
    · exact (works_onSupply b _ a).trans (works_joinList _ w _)
    · exact (((works_onSupply b _ a).trans (works_addDead w _)).trans (works_onTrain _ _ _)).trans (works_hold _ _ _ _ _)

theorem works_replaceList (b : SubId) (a : Act) : Works a (replaceList b a) :=
  Works.foldl (fun a w => works_replaceOne b w a) _ a

theorem works_rejoinOne (w : Wait) (a : Act) : Works a (rejoinOne w a) := by
  unfold rejoinOne
  split
  · exact Works.refl a
  · have h : Works a { a with s.psv.deadWaits := a.s.psv.deadWaits.erase w } := Works.of_eq rfl rfl rfl
    exact h.trans (works_joinList _ w _)

theorem works_settleRejoined (w : Wait) (a : Act) : Works a (settleRejoined w a) := by
  unfold settleRejoined
  split
  · exact (works_onTrain _ _ a).trans (works_hold _ _ _ _ _)
  · exact Works.refl a

theorem works_replaceAndGrant (l : List SubId) (a : Act) : Works a (replaceAndGrant l a) := by
  unfold replaceAndGrant
  dsimp only
  refine Works.trans ?_ (Works.foldl (fun a w => works_settleRejoined w a) _ _)
  refine Works.trans ?_ (works_grantAll _)
  refine Works.trans ?_ (Works.foldl (fun a w => works_rejoinOne w a) _ _)
  exact (Works.foldl (fun a b => works_releaseTripped b a) l a).trans (Works.forAll (fun b a => works_replaceList b a) _)

/-! ## Holds -/

theorem works_holdTrain (i : TrainId) (a : Act) : Works a (holdTrain i a) :=
  (works_withdraw i a).trans (works_onTrain i _ _)

theorem works_holdStart (p : TpId) (a : Act) : Works a (holdStart p a) := by
  unfold holdStart
  split
  · split
    · exact Works.refl a
    · exact (Works.foldl (fun a j => works_holdTrain j a) _ a).trans (works_hold _ _ _ _ _)
  · exact Works.refl a

theorem works_unholdTrain (p : TpId) (b : Nat) (i : TrainId) (x : List Wait × Act) :
    Works x.2 (unholdTrain p b i x).2 := by
  unfold unholdTrain
  split
  · exact Works.refl _
  · split
    · dsimp only
      split
      · split
        · exact works_putTrain _ _ _
        · exact (works_putTrain _ _ _).trans (works_hold _ _ _ _ _)
      · exact (works_putTrain _ _ _).trans (works_hold _ _ _ _ _)
    · exact Works.refl _

theorem works_unholdPoint (p : TpId) (b : Nat) (l : List TrainId) (x : List Wait × Act) :
    Works x.2 (l.foldl (fun x i => unholdTrain p b i x) x).2 := by
  induction l generalizing x with
  | nil => exact Works.refl _
  | cons i l ih => exact (works_unholdTrain p b i x).trans (ih _)

theorem works_unholdPoints (b : Nat) (k : List TrainId) (l : List TpId) (x : List Wait × Act) :
    Works x.2 (l.foldl (fun x p => k.foldl (fun x i => unholdTrain p b i x) x) x).2 := by
  induction l generalizing x with
  | nil => exact Works.refl _
  | cons p l ih => exact (works_unholdPoint p b k x).trans (ih _)

theorem works_holdEnds (l : List TpId) (a : Act) : Works a (holdEnds l a) := by
  unfold holdEnds
  split
  · exact Works.refl a
  · next b _ =>
    have h := works_unholdPoints b (indices 48) l (([] : List Wait), a)
    dsimp only
    split
    · exact h
    · exact h.trans (Works.of_eq rfl rfl rfl)

theorem works_reckonHolds {m : Act → Act} (hm : ∀ a, Works a (m a)) (a : Act) : Works a (reckonHolds m a) := by
  unfold reckonHolds
  dsimp only
  refine Works.trans ?_ (works_holdEnds _ _)
  refine Works.trans ?_ (hm _)
  have h : Works a { a with s.inc.underHold := Table.build 64 (underHold a.s) } := Works.of_eq rfl rfl rfl
  exact h.trans (Works.foldl (fun a p => works_holdStart p a) _ _)

theorem works_announceIncident (r : Incident) (a : Act) : Works a (announceIncident r a) := by
  unfold announceIncident
  split
  · exact Works.refl a
  · exact Works.foldl (fun a z => works_placeEntry z _ a) _ a

theorem works_removeEntries (x : Source) (a : Act) : Works a (forAll 24 (zoneRemove x) a) :=
  Works.forAll (fun z a => works_zoneRemove x z a) a

end Sys2Proof.Machine
end

