-- ==== Sys2Proof/Proofs/Requests.lean ====
section
/-! PROOFS. Requests to the INC and what is handed on add to what an action has made, and ask for nothing but the end of power
waits. -/

namespace Sys2Proof.Machine

theorem speaks_report (k : Nat) (c : List Byte) (a : Act) : Speaks a (a.report k c) := (works_report k c a).toSpeaks

theorem speaks_record (e : IncEvent) (i : IncId) (r : Incident) (a : Act) : Speaks a (a.record e i r) :=
  (speaks_putIncident i _ a).trans (speaks_report _ _ _)

theorem speaks_reckonHolds {m : Act → Act} (hm : ∀ a, Works a (m a)) (a : Act) : Speaks a (reckonHolds m a) :=
  (works_reckonHolds hm a).toSpeaks

theorem speaks_takeRecord {a b : Act} {i : IncId} (h : takeRecord a = some (i, b)) : Speaks a b := by
  unfold takeRecord at h
  split at h
  · cases h; exact Speaks.refl a
  · split at h
    · cases h
    · dsimp only at h
      split at h
      · cases h; exact ⟨List.prefix_append _ _, fun _ hr => .inl hr⟩
      · cases h; exact Speaks.of_eq rfl rfl

theorem speaks_openRecord (o : Opening) (i : IncId) (a : Act) : Speaks a (openRecord o i a) := by
  unfold openRecord
  dsimp only
  refine Speaks.trans ?_ (speaks_reckonHolds (works_announceIncident _) _)
  exact ⟨List.prefix_append _ _, fun _ hr => .inl hr⟩

theorem speaks_refuseRaise (c : IncClass) (o : IncObject) (a : Act) : Speaks a (refuseRaise c o a) := by
  unfold refuseRaise
  dsimp only
  split
  · exact Speaks.of_eq rfl rfl
  · exact ⟨List.prefix_append _ _, fun _ hr => .inl hr⟩

theorem speaks_recur (i : IncId) (r : Incident) (p : Bool) (a : Act) : Speaks a (recur i r p a) :=
  (speaks_record _ _ _ a).trans (speaks_reckonHolds Works.refl _)

theorem speaks_reopen (i : IncId) (r : Incident) (p : Bool) (a : Act) : Speaks a (reopen i r p a) := by
  unfold reopen
  dsimp only
  refine Speaks.trans ?_ (speaks_reckonHolds (works_announceIncident _) _)
  exact ⟨List.prefix_append _ _, fun _ hr => .inl hr⟩

theorem speaks_handleRaise (c : IncClass) (o : IncObject) (p : Bool) (a : Act) : Speaks a (handleRaise c o p a) := by
  unfold handleRaise
  split
  · split
    · split
      · exact speaks_reopen _ _ _ a
      · exact speaks_recur _ _ _ a
    · exact Speaks.refl a
  · split
    · next h => exact (speaks_takeRecord h).trans (speaks_openRecord _ _ _)
    · exact speaks_refuseRaise c o a

theorem speaks_resolve (i : IncId) (r : Incident) (a : Act) : Speaks a (resolve i r a) := by
  unfold resolve
  dsimp only
  refine Speaks.trans ?_ (speaks_reckonHolds (works_removeEntries _) _)
  exact ⟨List.prefix_append _ _, fun _ hr => .inl hr⟩

theorem speaks_handleGone (c : IncClass) (o : IncObject) (a : Act) : Speaks a (handleGone c o a) := by
  unfold handleGone
  split
  · exact Speaks.refl a
  · split
    · split
      · exact speaks_record _ _ _ a
      · exact speaks_resolve _ _ a
      · exact Speaks.refl a
    · exact Speaks.refl a

theorem speaks_handleRequest (r : Request) (a : Act) : Speaks a (handleRequest r a) := by
  cases r
  · exact speaks_handleRaise _ _ _ a
  · exact speaks_handleGone _ _ a

theorem speaks_drainFor (k : Nat) (a : Act) : Speaks a (drainFor k a) := by
  induction k generalizing a with
  | zero => exact Speaks.refl a
  | succ k ih =>
    unfold drainFor
    split
    · next _ r rest he =>
      have taken : Speaks a { a with requests := rest } :=
        ⟨List.prefix_rfl, fun x hx => .inl (he ▸ List.mem_cons_of_mem r hx)⟩
      exact (taken.trans (speaks_handleRequest r _)).trans (ih _)
    · next ws rest _ he =>
      have taken : Speaks a { a with handOvers := rest } := Speaks.of_eq rfl rfl
      exact (taken.trans (works_placeHandOver ws _).toSpeaks).trans (ih _)
    · exact Speaks.refl a

theorem speaks_drain (a : Act) : Speaks a (drain a) := speaks_drainFor 1000 a

theorem speaks_deriveSupply (l : List Request) (ts : List SubId) (a : Act) : Speaks a (deriveSupply l ts a) := by
  unfold deriveSupply
  dsimp only
  refine Speaks.trans ?_ (speaks_drain _)
  refine Speaks.trans ?_ (works_replaceAndGrant ts _).toSpeaks
  have h : Speaks a { a with s.psv := derived a.s } := Speaks.of_eq rfl rfl
  exact h.trans (Speaks.foldl (fun a r => speaks_handleRequest r a) _ _)

theorem speaks_giveCredit (p : TpId) (a : Act) : Speaks a (giveCredit p a) := by
  unfold giveCredit
  dsimp only
  split
  · split
    · exact (works_onSupply _ _ a).toSpeaks.trans (speaks_deriveSupply _ _ _)
    · exact Speaks.refl a
  · exact Speaks.refl a

/-- Nothing handed on leaves nothing to work off. -/
theorem drainFor_nothing {a : Act} (hr : a.requests = []) (hw : a.handOvers = []) (k : Nat) : drainFor k a = a := by
  cases k with
  | zero => rfl
  | succ k => rw [drainFor, hr, hw]

theorem drain_nothing {a : Act} (hr : a.requests = []) (hw : a.handOvers = []) : drain a = a := drainFor_nothing hr hw 1000

end Sys2Proof.Machine
end

