-- ==== Sys2Proof/Proofs/Forwarding.lean ====
section
/-! PROOFS. A field telegram that is handled is forwarded, then what its handling made enters the queues; the supply picture a
derivation leaves; and what grants and incident work keep of trains and substations, read from the residue. -/

namespace Sys2Proof.Machine

/-! ## Reading what is kept -/

theorem blank_fields {s t : State} (h : s.blank = t.blank) :
    s.tiu = t.tiu ∧ s.lck = t.lck ∧ s.tst = t.tst ∧ s.address = t.address :=
  have f {γ : Type} (g : State → γ) : g s.blank = g t.blank := congrArg g h
  ⟨f (·.tiu), f (·.lck), f (·.tst), f (·.address)⟩

theorem heard_core (v : Supply) : v.core.heard = v.heard := rfl

theorem capacity_core (v : Supply) : v.core.capacity = v.capacity := rfl

theorem effectiveCapacity_core (row : Sub) (v : Supply) : effectiveCapacity row v.core = effectiveCapacity row v := rfl

theorem map_told_of_core {o p : Option Train} (h : o.map Train.core = p.map Train.core) :
    o.map Train.told = p.map Train.told := by
  have e := congrArg (Option.map Train.told) h
  rwa [Option.map_map, Option.map_map, show Train.told ∘ Train.core = Train.told from rfl] at e

theorem sameTrains_of_residue {s u : State} (h : u.residue = s.residue) : sameTrains s u :=
  fun i => map_told_of_core (residue_train h i)

theorem heard_of_residue {s u : State} (h : u.residue = s.residue) (b : SubId) :
    (u.psv.subs.get b).heard = (s.psv.subs.get b).heard := by
  rw [← heard_core, residue_supply h, heard_core]

/-- The picture of a section is read from the cores of the substations. -/
theorem pictureOf_of_core {v w : Psv} (h : ∀ b, (v.subs.get b).core = (w.subs.get b).core) (x : Sec) :
    pictureOf v x = pictureOf w x := by
  have feed (b : SubId) (f : FeederId) : feedOf v b f = feedOf w b f := by
    have e := congrArg (fun y : Supply => judgeFeed y.state (y.feeders.get f)) (h b)
    exact e
  have feeds : sectionFeeds v x = sectionFeeds w x := by simp only [sectionFeeds, feed]
  simp only [pictureOf, feeds]

theorem pictureStands_of_residue {s u : State} (h : u.residue = s.residue) (hs : pictureStands s) : pictureStands u := by
  obtain ⟨capacity, sections⟩ := hs
  obtain ⟨-, -, -, -, -, -, tst, -, -⟩ := residue_outer h
  obtain ⟨-, -, -, secs⟩ := residue_rest h
  refine ⟨fun b => ?_, fun x => ?_⟩
  · have e := residue_supply h b
    rw [← effectiveCapacity_core, ← capacity_core, e, tst, capacity_core, effectiveCapacity_core, capacity b]
  · rw [secs, tst, sections x]
    exact (pictureOf_of_core (residue_supply h) _).symm

/-! ## Derivations -/

theorem pictureOf_derived (s : State) (x : Sec) : pictureOf (derived s) x = pictureOf s.psv x := by
  have feed (b : SubId) (f : FeederId) : feedOf (derived s) b f = feedOf s.psv b f := by simp [feedOf, derived]
  have feeds : sectionFeeds (derived s) x = sectionFeeds s.psv x := by simp only [sectionFeeds, feed]
  simp only [pictureOf, feeds]

theorem pictureStands_derived (s : State) : pictureStands { s with psv := derived s } := by
  refine ⟨fun b => ?_, fun x => ?_⟩
  · simp [derived, effectiveCapacity, creditOf]
  · rw [pictureOf_derived]
    simp [derived]

theorem residue_deriveSupply (l : List Request) (ts : List SubId) (a : Act) :
    (deriveSupply l ts a).residue = Act.residue { a with s.psv := derived a.s } := by
  unfold deriveSupply
  dsimp only
  rw [residue_drain, residue_replaceAndGrant, foldl_keeps Act.residue _ fun a r => residue_handleRequest r a]

theorem pictureStands_deriveSupply (l : List Request) (ts : List SubId) (a : Act) : pictureStands (deriveSupply l ts a).s :=
  pictureStands_of_residue (residue_deriveSupply l ts a) (pictureStands_derived a.s)

theorem heard_deriveSupply (l : List Request) (ts : List SubId) (a : Act) (b : SubId) :
    ((deriveSupply l ts a).s.psv.subs.get b).heard = (a.s.psv.subs.get b).heard := by
  rw [heard_of_residue (residue_deriveSupply l ts a)]
  simp [derived, Supply.heard]

theorem sameTrains_deriveSupply (l : List Request) (ts : List SubId) (a : Act) : sameTrains a.s (deriveSupply l ts a).s :=
  fun i => sameTrains_of_residue (residue_deriveSupply l ts a) i

/-- What of the RRG no derivation writes. -/
theorem counts_deriveSupply (l : List Request) (ts : List SubId) (a : Act) :
    (deriveSupply l ts a).s.rrg.holdOff = a.s.rrg.holdOff ∧ (deriveSupply l ts a).s.rrg.refused = a.s.rrg.refused
      ∧ (deriveSupply l ts a).s.rrg.unplanned = a.s.rrg.unplanned := by
  obtain ⟨holdOff, refused, unplanned, -⟩ := residue_rest (residue_deriveSupply l ts a)
  exact ⟨holdOff, refused, unplanned⟩

/-! ## Credits -/

/-- The substation and the window of the credit an APPROACH to `p` gives. -/
theorem giveCredit_given {p : TpId} {a : Act} {b : SubId} (hc : clockSet a.s = true)
    (hk : (a.s.tst.line.points.get p).kind = .platform) (hb : (a.s.tst.line.points.get p).depart.bind (sourceOf a.s) = some b) :
    giveCredit p a = deriveSupply [] []
      (a.onSupply b fun v => { v with credit := some (cycles a.s (a.s.tst.line.subs.get b).window 1) }) := by
  simp [giveCredit, hc, hk, hb]

theorem giveCredit_none {p : TpId} {a : Act}
    (h : clockSet a.s = false ∨ (a.s.tst.line.points.get p).kind ≠ .platform
      ∨ (a.s.tst.line.points.get p).depart.bind (sourceOf a.s) = none) : giveCredit p a = a := by
  rcases h with h | h | h <;> simp [giveCredit, h]

/-- What an APPROACH gives the supply. -/
theorem approachCredits_giveCredit (p : TpId) (a : Act) : approachCredits a.s (giveCredit p a).s p := by
  refine ⟨fun b f hc hk hs => ?_, fun h c => ?_⟩
  · have hb : (a.s.tst.line.points.get p).depart.bind (sourceOf a.s) = some b := by
      obtain ⟨x, hx, hf⟩ := Option.bind_eq_some_iff.mp hs
      simp [hx, sourceOf, hf]
    rw [giveCredit_given (by simp [clockSet, hc]) hk hb]
    refine ⟨?_, fun c hne => ?_, pictureStands_deriveSupply _ _ _⟩
    · rw [heard_deriveSupply]
      simp [Act.onSupply, Act.supply, Supply.heard, cycles]
    · rw [heard_deriveSupply]
      simp [Act.onSupply, Table.get_set_ne _ _ hne.symm]
  · rw [giveCredit_none]
    rcases h with h | h | h
    · exact .inl (by simp [clockSet, h])
    · exact .inr (.inl h)
    · refine .inr (.inr ?_)
      cases hd : (a.s.tst.line.points.get p).depart with
      | none => rfl
      | some x =>
        rw [hd] at h
        exact congrArg (Option.map Prod.fst) h

/-- A credit is one derivation, or nothing. -/
theorem giveCredit_cases (p : TpId) (a : Act) :
    giveCredit p a = a ∨ ∃ b f, giveCredit p a = deriveSupply [] [] (a.onSupply b f) := by
  unfold giveCredit
  dsimp only
  split
  · split
    · exact .inr ⟨_, _, rfl⟩
    · exact .inl rfl
  · exact .inl rfl

theorem sameTrains_giveCredit (p : TpId) (a : Act) : sameTrains a.s (giveCredit p a).s := by
  rcases giveCredit_cases p a with e | ⟨b, f, e⟩
  · rw [e]; exact fun _ => rfl
  · rw [e]; exact fun i => sameTrains_deriveSupply [] [] (a.onSupply b f) i

theorem counts_giveCredit (p : TpId) (a : Act) :
    (giveCredit p a).s.rrg.holdOff = a.s.rrg.holdOff ∧ (giveCredit p a).s.rrg.refused = a.s.rrg.refused
      ∧ (giveCredit p a).s.rrg.unplanned = a.s.rrg.unplanned := by
  rcases giveCredit_cases p a with e | ⟨b, f, e⟩
  · rw [e]; exact ⟨rfl, rfl, rfl⟩
  · rw [e]; exact counts_deriveSupply [] [] (a.onSupply b f)

/-! ## Forwarding -/

/-- Where a telegram is forwarded the blocks stand as the work of its handling left them. -/
theorem forwardThenFinish_frame (a : Act) (t : Telegram) :
    forwardThenFinish (a, some t) = { a.s with tiu := (forwardThenFinish (a, some t)).tiu } := by
  have offered : forwardToRoom t a.s = { a.s with tiu := (forwardToRoom t a.s).tiu } := by
    unfold forwardToRoom offerRoom
    split <;> rfl
  unfold forwardThenFinish
  dsimp only
  rw [enterMade_frame, offered]

/-- The telegram where the occupancy is below its limit. -/
def forwardedItems (s : State) (limit : Nat) (t : Telegram) : List RoomItem :=
  if s.tiu.room.length < limit then [{ kind := .forwarded, telegram := t }] else []

theorem room_forwardToRoom (t : Telegram) (s : State) :
    (forwardToRoom t s).tiu.room = s.tiu.room ++ forwardedItems s (roomLimit s (forwardClass t)) t := by
  unfold forwardToRoom offerRoom forwardedItems
  split
  · rfl
  · exact (List.append_nil _).symm

theorem address_forwardToRoom (t : Telegram) (s : State) : (forwardToRoom t s).address = s.address := by
  unfold forwardToRoom offerRoom
  split <;> rfl

/-- The telegram, then the reports made, as many as find a place. -/
theorem room_forwardThenFinish (a : Act) (t : Telegram) :
    (forwardThenFinish (a, some t)).tiu.room
      = a.s.tiu.room ++ forwardedItems a.s (roomLimit a.s (forwardClass t)) t
        ++ (madeReports a.s.address a.out).take
          (64 - (a.s.tiu.room ++ forwardedItems a.s (roomLimit a.s (forwardClass t)) t).length) := by
  unfold forwardThenFinish
  dsimp only
  rw [room_enterMade, room_forwardToRoom, address_forwardToRoom]

theorem forwarded_forwardThenFinish {s : State} {a : Act} {t : Telegram} {limit : Nat} (hr : a.s.tiu.room = s.tiu.room)
    (hl : roomLimit a.s (forwardClass t) = limit) : Forwarded s (forwardThenFinish (a, some t)) limit t := by
  have room := room_forwardThenFinish a t
  rw [hr, hl, forwardedItems, hr] at room
  exact ⟨_, fun x hx => madeReports_kind (List.mem_of_mem_take hx), room⟩

/-! ## The handling of an accepted telegram -/

theorem exec_passage {s : State} (h : s.inReset = false) (q : FieldPort) (hd : Header) (set run : BitVec 16) (pt ev : Byte)
    (off : BitVec 16) :
    exec (.passage q hd set run pt ev off) s
      = .next (settle (receiveTelegram q.port (passageTelegram hd set run pt ev off) s)) :=
  congrArg _ (whenAwake_awake _ h)

theorem kind_passageTelegram (hd : Header) (set run : BitVec 16) (pt ev : Byte) (off : BitVec 16) :
    (passageTelegram hd set run pt ev off).kind = kindPassage := rfl

/-- The telegram a handled PASSAGE is forwarded as. -/
def passageSent (t : Telegram) (annex : Option (List Byte)) : Telegram := (annex.map (withAnnex t)).getD t

theorem forwardClass_passageSent {t : Telegram} (h : t.kind = kindPassage) (annex : Option (List Byte)) :
    forwardClass (passageSent t annex) = .service := by
  cases annex <;> exact if_pos h

/-- A PASSAGE that is accepted outside BARE mode is remembered, handled and forwarded. -/
theorem exec_passage_accepted {s : State} {q : FieldPort} {hd : Header} {set run : BitVec 16} {pt ev : Byte}
    {off : BitVec 16} {x : Passage} (h : Accepted s q (passageTelegram hd set run pt ev off) (.passage x))
    (hm : mode s ≠ .bare) :
    let t := passageTelegram hd set run pt ev off
    let y := handlePassage x (Act.start (remember t s))
    exec (.passage q hd set run pt ev off) s = .next (settle (forwardThenFinish (y.1, some (passageSent t y.2)))) := by
  have kind : (passageTelegram hd set run pt ev off).kind ≠ kindMarker := by
    rw [kind_passageTelegram]; decide
  have handled : dispatch (passageTelegram hd set run pt ev off) (.passage x)
      (Act.start (remember (passageTelegram hd set run pt ev off) s)) = _ := if_neg hm
  rw [exec_passage h.awake, receiveTelegram_accepted h, if_neg kind, acceptField, handled]
  rfl

end Sys2Proof.Machine
end

