-- ==== Sys2Proof/Proofs/Passages.lean ====
section
/-! PROOFS. The run a passage carries is applied to its record, and the passages that find no record or free it: an ARRIVE or
PASS at a LINE_EXIT, and one that finds the train table full. -/

namespace Sys2Proof.Machine

/-! ## Finding records -/

theorem findTrain_some {s : State} {set : Nat} {i : TrainId} (h : findTrain s set = some i) :
    ∃ t, s.rrg.trains.get i = some t ∧ t.set = set := by
  have := List.find?_some h
  simpa using this

theorem boundElsewhere_ne {s : State} {i j : TrainId} {n : Nat} (h : boundElsewhere s i n = some j) : j ≠ i := by
  have := List.find?_some h
  simp only [decide_eq_true_eq] at this
  exact this.1

/-! ## Binding -/

theorem map_told_drain (a : Act) (i : TrainId) : ((drain a).train i).map Train.told = (a.train i).map Train.told :=
  map_told_of_core (residue_train (residue_drain a) i)

theorem unbind_train_other {i j : TrainId} (h : j ≠ i) (a : Act) : (unbind j a).train i = a.train i := by
  unfold unbind
  split
  · rfl
  · dsimp only
    split <;> exact (Act.putTrain_train _ _ _ _).trans (if_neg h)

theorem unbind_train_self {i : TrainId} {a : Act} {t : Train} (h : a.train i = some t) :
    (unbind i a).train i = some { t with run := none, step := none, late := false } := by
  unfold unbind
  rw [h]
  dsimp only
  split <;> exact (Act.putTrain_train _ _ _ _).trans (if_pos rfl)

/-- What passages write of the record a run is applied to. -/
theorem told_applyRun (i : TrainId) (n : Nat) (a : Act) :
    ((applyRun i n a).train i).map Train.told = (a.train i).map fun t => (t.withRun a.s n).told := by
  cases ht : a.train i with
  | none =>
    unfold applyRun
    rw [ht]
    split
    · rw [ht]; rfl
    · split
      · unfold bindRun
        dsimp only
        split
        · next j hj =>
          rw [unschedule, map_told_drain, unbind_train_other (boundElsewhere_ne hj), Act.onTrain_train, if_pos rfl, ht]
          rfl
        · rw [Act.onTrain_train, if_pos rfl, ht]; rfl
      · exact congrArg _ ht
  | some t =>
    unfold applyRun Train.withRun
    rw [ht]
    simp only [Option.bind_some, Option.map_some]
    split
    · rw [ht]; rfl
    · split
      · unfold bindRun
        dsimp only
        split
        · next j hj =>
          rw [unschedule, map_told_drain, unbind_train_other (boundElsewhere_ne hj), Act.onTrain_train, if_pos rfl, ht]
          rfl
        · rw [Act.onTrain_train, if_pos rfl, ht]; rfl
      · split
        · rw [unschedule, map_told_drain, unbind_train_self ht]; rfl
        · rw [ht]; rfl

/-! ## Removal -/

/-- A free record stays free through grants and incident work. -/
theorem train_none_of_residue {s u : State} (h : u.residue = s.residue) {i : TrainId} (hi : s.rrg.trains.get i = none) :
    u.rrg.trains.get i = none := by
  have := residue_train h i
  rw [hi] at this
  exact Option.map_eq_none_iff.mp this

theorem removeTrain_frees (i : TrainId) (a : Act) : (removeTrain i a).train i = none := by
  unfold removeTrain
  split
  · assumption
  · next t _ =>
    dsimp only
    have freed : ((withdraw i (drain (releaseSlot i a))).putTrain i none).train i = none := by
      rw [Act.putTrain_train, if_pos rfl]
    exact train_none_of_residue (((residue_request _ _).trans (residue_request _ _)).trans (residue_request _ _)) freed

/-! ## What is handled without a record -/

theorem handlePassage_removed {x : Passage} {a : Act} (hr : removes a.s x = true) {i : TrainId}
    (hi : findTrain a.s x.set = some i) :
    (handlePassage x a).1 = removeTrain i (applyRun i x.run a)
      ∧ (handlePassage x a).2 =
        let t := ((applyRun i x.run a).train i).getD (newTrain x.set)
        some (annexBytes 6 (t.run.getD 0) t.dev (uncertain (applyRun i x.run a).s) false none) := by
  have removes' : removes (applyRun i x.run a).s x = true := by
    rw [removes, (blank_fields (blank_applyRun i x.run a)).2.2.1]
    exact hr
  unfold handlePassage
  rw [hi]
  dsimp only
  unfold passageFor
  dsimp only
  rw [if_pos removes']
  exact ⟨rfl, rfl⟩

theorem handlePassage_absent {x : Passage} {a : Act} (hr : removes a.s x = true) (hi : findTrain a.s x.set = none) :
    handlePassage x a = (a, some (annexBytes 6 0 0 (uncertain a.s) false none)) := by
  unfold handlePassage
  rw [hi]
  exact if_pos hr

theorem handlePassage_refused {x : Passage} {a : Act} (hr : removes a.s x = false) (hi : findTrain a.s x.set = none)
    (hf : freeTrain a.s = none) :
    handlePassage x a = (if x.event = .approach then giveCredit x.point (refuseCreation x.set x.point a)
      else refuseCreation x.set x.point a, none) := by
  unfold handlePassage
  rw [hi]
  dsimp only
  rw [hr, hf]
  rfl

theorem removes_iff {s : State} {x : Passage} :
    removes s x = true ↔ (s.tst.line.points.get x.point).kind = .lineExit ∧ (x.event = .arrive ∨ x.event = .pass) := by
  simp [removes]

theorem annexBytes_removed (n : Nat) (d : Int) (s : State) :
    annexBytes 6 n d (uncertain s) false none
      = num1 6 ++ num2 n ++ int2 d ++ num1 (if s.lck.lock = .coasting ∨ s.lck.lock = .unlocked then 1 else 0) ++ num1 0 := by
  unfold annexBytes uncertain
  by_cases h : s.lck.lock = .coasting ∨ s.lck.lock = .unlocked <;> simp [h]

/-- A passage is forwarded by the rules of service telegrams. -/
theorem forwarded_passage {s : State} {t : Telegram} (hk : t.kind = kindPassage) (x : Passage) (annex : Option (List Byte)) :
    Forwarded s (forwardThenFinish ((handlePassage x (Act.start (remember t s))).1, some (passageSent t annex))) 60
      (passageSent t annex) := by
  have room := congrArg Tiu.room (blank_fields (blank_handlePassage x (Act.start (remember t s)))).1
  refine forwarded_forwardThenFinish room ?_
  rw [forwardClass_passageSent hk]
  rfl

/-- The clock and the tables stand through the handling of a passage. -/
theorem kept_passage (t t' : Telegram) (s : State) (x : Passage) :
    (forwardThenFinish ((handlePassage x (Act.start (remember t s))).1, some t')).lck = s.lck
      ∧ (forwardThenFinish ((handlePassage x (Act.start (remember t s))).1, some t')).tst = s.tst := by
  obtain ⟨-, lck, tst, -⟩ := blank_fields (blank_handlePassage x (Act.start (remember t s)))
  rw [forwardThenFinish_frame]
  exact ⟨lck, tst⟩

/-- What the refusal of a record writes and reports. -/
theorem refuseCreation_eq (set : Nat) (p : TpId) (s : State) :
    refuseCreation set p (Act.start s) =
      { Act.start s with
        s.rrg.refused := min (s.rrg.refused + 1) 65535
        s.rrg.holdOff := if s.rrg.holdOff = 0 then 60 else s.rrg.holdOff
        out := if s.rrg.holdOff = 0 then
            [.report ([5] ++ num2 set ++ num1 p.val ++ num2 (min (s.rrg.refused + 1) 65535))] else [] } := by
  unfold refuseCreation
  by_cases h : s.rrg.holdOff = 0 <;> simp [h, bump, Act.report, Act.start, num1]

/-- The items of a report that is offered first. -/
theorem take_madeReports_told (address : Byte) (k : Nat) (c : List Byte) (told : Prop) [Decidable told] {l : List Made}
    (h : (if told then [Made.report c] else []) <+: l) :
    ∃ more, (∀ y ∈ more, y.kind = .report)
      ∧ (madeReports address l).take (64 - k) = (if told ∧ k < 64 then [reportItem address c] else []) ++ more
      ∧ (l = (if told then [Made.report c] else []) → more = []) := by
  obtain ⟨m, rfl⟩ := h
  by_cases ht : told
  · by_cases hk : k < 64
    · obtain ⟨j, hj⟩ : ∃ j, 64 - k = j + 1 := ⟨63 - k, by omega⟩
      refine ⟨(madeReports address m).take j, fun y hy => madeReports_kind (List.mem_of_mem_take hy), ?_, fun e => ?_⟩
      · simp [ht, hk, hj, madeReports]
      · have : m = [] := by simpa [ht] using e
        simp [this, madeReports]
    · refine ⟨[], fun y hy => (List.not_mem_nil hy).elim, ?_, fun _ => rfl⟩
      simp [hk, Nat.sub_eq_zero_of_le (Nat.not_lt.mp hk)]
  · refine ⟨(madeReports address m).take (64 - k), fun y hy => madeReports_kind (List.mem_of_mem_take hy), ?_, fun e => ?_⟩
    · simp [ht]
    · have : m = [] := by simpa [ht] using e
      simp [this, madeReports]

/-- The annex of a removed record, and of a train set that no record holds. -/
theorem annex_removed {x : Passage} {s : State} (hr : removes s x = true) :
    (handlePassage x (Act.start s)).2 =
      let r := ((findTrain s x.set).bind fun i => s.rrg.trains.get i).map (Train.withRun s x.run)
      some (num1 6 ++ num2 ((r.bind Train.run).getD 0) ++ int2 ((r.map Train.dev).getD 0)
        ++ num1 (if s.lck.lock = .coasting ∨ s.lck.lock = .unlocked then 1 else 0) ++ num1 0) := by
  cases hi : findTrain s x.set with
  | none => rw [handlePassage_absent (a := Act.start s) hr hi, annexBytes_removed]; rfl
  | some i =>
    obtain ⟨t, ht, -⟩ := findTrain_some hi
    have told := told_applyRun i x.run (Act.start s)
    rw [show (Act.start s).train i = some t from ht] at told
    obtain ⟨v, hv, e⟩ := Option.map_eq_some_iff.mp told
    have run : v.run = (t.withRun s x.run).run := congrArg (·.2.1) e
    have dev : v.dev = (t.withRun s x.run).dev := congrArg (·.2.2.2.2.2.1) e
    rw [(handlePassage_removed (a := Act.start s) hr hi).2, hv]
    dsimp only
    have unsure : uncertain (applyRun i x.run (Act.start s)).s = uncertain s := by
      unfold uncertain
      rw [(blank_fields (blank_applyRun i x.run (Act.start s))).2.1]
      rfl
    rw [unsure, annexBytes_removed]
    simp [ht, run, dev]

/-- The part of O20 on an ARRIVE or PASS at a LINE_EXIT. -/
theorem lineExit_passage {s : State} {q : FieldPort} {h : Header} {set run : BitVec 16} {pt ev : Byte} {off : BitVec 16}
    {x : Passage} (ha : Accepted s q (passageTelegram h set run pt ev off) (.passage x)) (hm : mode s ≠ .bare)
    (hr : (s.tst.line.points.get x.point).kind = .lineExit ∧ (x.event = .arrive ∨ x.event = .pass)) :
    ∃ u, exec (.passage q h set run pt ev off) s = .next (settle u)
      ∧ (∀ i, findTrain s x.set = some i → u.rrg.trains.get i = none)
      ∧ (findTrain s x.set = none → u.rrg = s.rrg ∧ u.psv = s.psv ∧ u.inc = s.inc ∧ u.asc = s.asc)
      ∧ u.lck = s.lck ∧ u.tst = s.tst
      ∧ (let r := ((findTrain s x.set).bind fun i => s.rrg.trains.get i).map (Train.withRun s x.run)
         Forwarded s u 60
          { passageTelegram h set run pt ev off with
            flags := h.flags ||| 0x80
            payload := (passageTelegram h set run pt ev off).payload
              ++ num1 6 ++ num2 ((r.bind Train.run).getD 0) ++ int2 ((r.map Train.dev).getD 0)
              ++ num1 (if s.lck.lock = .coasting ∨ s.lck.lock = .unlocked then 1 else 0) ++ num1 0 }) := by
  have hr' : removes (remember (passageTelegram h set run pt ev off) s) x = true := removes_iff.mpr hr
  obtain ⟨lck, tst⟩ := kept_passage (passageTelegram h set run pt ev off)
    (passageSent (passageTelegram h set run pt ev off) (handlePassage x (Act.start (remember _ s))).2) s x
  refine ⟨_, exec_passage_accepted ha hm, fun i hi => ?_, fun hi => ?_, lck, tst, ?_⟩
  · rw [forwardThenFinish_frame, (handlePassage_removed (a := Act.start (remember _ s)) hr' hi).1]
    exact removeTrain_frees i _
  · rw [forwardThenFinish_frame, handlePassage_absent (a := Act.start (remember _ s)) hr' hi]
    exact ⟨rfl, rfl, rfl, rfl⟩
  · have forwarded := forwarded_passage (s := s) (kind_passageTelegram h set run pt ev off) x
      (handlePassage x (Act.start (remember (passageTelegram h set run pt ev off) s))).2
    rw [annex_removed hr'] at forwarded
    rw [annex_removed hr']
    simp only [passageSent, Option.map_some, Option.getD_some, withAnnex, ← List.append_assoc] at forwarded ⊢
    exact forwarded

/-! ## A full train table -/

/-- The work of a passage that finds the train table full. -/
def refusedWork (x : Passage) (s : State) : Act :=
  if x.event = .approach then giveCredit x.point (refuseCreation x.set x.point (Act.start s))
  else refuseCreation x.set x.point (Act.start s)

theorem speaks_refusedWork (x : Passage) (s : State) :
    Speaks (refuseCreation x.set x.point (Act.start s)) (refusedWork x s) := by
  unfold refusedWork
  split
  · exact speaks_giveCredit _ _
  · exact Speaks.refl _

theorem counts_refusedWork (x : Passage) (s : State) :
    (refusedWork x s).s.rrg.holdOff = (if s.rrg.holdOff = 0 then 60 else s.rrg.holdOff)
      ∧ (refusedWork x s).s.rrg.refused = min (s.rrg.refused + 1) 65535
      ∧ (refusedWork x s).s.rrg.unplanned = s.rrg.unplanned := by
  unfold refusedWork
  split
  · have h := counts_giveCredit x.point (refuseCreation x.set x.point (Act.start s))
    rwa [refuseCreation_eq] at h ⊢
  · rw [refuseCreation_eq]
    exact ⟨rfl, rfl, rfl⟩

theorem sameTrains_refusedWork (x : Passage) (s : State) : sameTrains s (refusedWork x s).s := by
  unfold refusedWork
  split
  · have h := sameTrains_giveCredit x.point (refuseCreation x.set x.point (Act.start s))
    rwa [refuseCreation_eq] at h ⊢
  · rw [refuseCreation_eq]
    exact fun _ => rfl

theorem credits_refusedWork {x : Passage} (hx : x.event = .approach) (s : State) :
    approachCredits s (refusedWork x s).s x.point := by
  unfold refusedWork
  rw [if_pos hx]
  have h := approachCredits_giveCredit x.point (refuseCreation x.set x.point (Act.start s))
  rwa [refuseCreation_eq] at h ⊢

/-- A passage refused that is no APPROACH writes the counts alone. -/
theorem refusedWork_eq {x : Passage} (hx : x.event ≠ .approach) (s : State) :
    refusedWork x s = refuseCreation x.set x.point (Act.start s) := if_neg hx

theorem madeOrders_refuseCreation (set : Nat) (p : TpId) (s : State) :
    madeOrders (refuseCreation set p (Act.start s)).out = [] := by
  rw [refuseCreation_eq]
  by_cases h : s.rrg.holdOff = 0 <;> simp [h, madeOrders]

/-- A place is left for the report after the telegram just where one was left before it. -/
theorem length_forwardedItems (s : State) (t : Telegram) :
    (s.tiu.room ++ forwardedItems s 60 t).length < 64 ↔ s.tiu.room.length < 64 := by
  unfold forwardedItems
  split
  · rw [List.length_append, List.length_singleton]
    omega
  · rw [List.append_nil]

theorem blank_refusedWork (x : Passage) (s : State) : (refusedWork x s).blank = s.blank := by
  unfold refusedWork
  split
  · exact (blank_giveCredit _ _).trans (blank_refuseCreation _ _ _)
  · exact blank_refuseCreation _ _ _

/-- What the room-bound queue holds after a passage that finds the train table full. -/
theorem room_refusedWork {t : Telegram} (hk : t.kind = kindPassage) (x : Passage) (s : State) :
    ∃ reports : List RoomItem, (∀ y ∈ reports, y.kind = .report)
      ∧ (forwardThenFinish (refusedWork x (remember t s), some t)).tiu.room = s.tiu.room ++ forwardedItems s 60 t
        ++ (if s.rrg.holdOff = 0 ∧ s.tiu.room.length < 64 then
              [reportItem s.address ([5] ++ num2 x.set ++ num1 x.point.val ++ num2 (min (s.rrg.refused + 1) 65535))]
            else []) ++ reports
      ∧ (x.event ≠ .approach → reports = []) := by
  obtain ⟨tiu, -, -, address⟩ := blank_fields (blank_refusedWork x (remember t s))
  have room : (refusedWork x (remember t s)).s.tiu.room = s.tiu.room := (congrArg Tiu.room tiu).trans rfl
  have items : forwardedItems (refusedWork x (remember t s)).s 60 t = forwardedItems s 60 t := by
    rw [forwardedItems, room]
    rfl
  have limit : roomLimit (refusedWork x (remember t s)).s (forwardClass t) = 60 := by
    rw [forwardClass, if_pos hk]
    rfl
  have told := (speaks_refusedWork x (remember t s)).out
  rw [refuseCreation_eq] at told
  obtain ⟨more, reports, taken, alone⟩ := take_madeReports_told s.address (s.tiu.room ++ forwardedItems s 60 t).length
    ([5] ++ num2 x.set ++ num1 x.point.val ++ num2 (min (s.rrg.refused + 1) 65535)) (s.rrg.holdOff = 0) told
  refine ⟨more, reports, ?_, fun hx => alone ?_⟩
  · rw [room_forwardThenFinish, limit, items, room, show (refusedWork x (remember t s)).s.address = s.address from address,
      taken]
    simp only [length_forwardedItems, List.append_assoc]
  · rw [refusedWork_eq hx, refuseCreation_eq]
    rfl

theorem orders_forwardThenFinish {a : Act} (h : madeOrders a.out = []) (t : Telegram) :
    (forwardThenFinish (a, some t)).tiu.orders = a.s.tiu.orders := by
  unfold forwardThenFinish
  dsimp only
  rw [orders_enterMade, h, List.foldl_nil]
  unfold forwardToRoom offerRoom
  split <;> rfl

/-- A PASSAGE that finds the train table full is refused and forwarded as it came. -/
theorem exec_passage_refused {s : State} {q : FieldPort} {h : Header} {set run : BitVec 16} {pt ev : Byte}
    {off : BitVec 16} {x : Passage} (ha : Accepted s q (passageTelegram h set run pt ev off) (.passage x))
    (hm : mode s ≠ .bare)
    (hr : ¬((s.tst.line.points.get x.point).kind = .lineExit ∧ (x.event = .arrive ∨ x.event = .pass)))
    (hi : findTrain s x.set = none) (hf : freeTrain s = none) :
    let t := passageTelegram h set run pt ev off
    exec (.passage q h set run pt ev off) s
      = .next (settle (forwardThenFinish (refusedWork x (remember t s), some t))) := by
  have hr' : removes (remember (passageTelegram h set run pt ev off) s) x = false := by
    rw [← Bool.not_eq_true]
    exact fun e => hr (removes_iff.mp e)
  have handled := exec_passage_accepted ha hm
  dsimp only at handled
  rw [handlePassage_refused (a := Act.start (remember _ s)) hr' hi hf] at handled
  exact handled

/-- What a passage refused that is no APPROACH leaves of the blocks. -/
theorem refusedWork_frame {x : Passage} (hx : x.event ≠ .approach) (s : State) :
    (refusedWork x s).s = { s with rrg := { s.rrg with
      refused := (refusedWork x s).s.rrg.refused, holdOff := (refusedWork x s).s.rrg.holdOff } } := by
  rw [refusedWork_eq hx, refuseCreation_eq]
  rfl

/-- Settles O20: at a LINE_EXIT the record is freed with an annex of what it held; a full table refuses the record, and only
an APPROACH then does anything more. -/
theorem passagesWithoutRecord : Obligations.PassagesWithoutRecord := by
  intro s q h set run pt ev off x ha hm
  refine ⟨lineExit_passage ha hm, fun hr hi hf => ⟨_, exec_passage_refused ha hm hr hi hf, ?_⟩⟩
  have kind := kind_passageTelegram h set run pt ev off
  generalize passageTelegram h set run pt ev off = t at kind ⊢
  obtain ⟨holdOff, refused, unplanned⟩ := counts_refusedWork x (remember t s)
  obtain ⟨-, lck, tst, -⟩ := blank_fields (blank_refusedWork x (remember t s))
  have frame := forwardThenFinish_frame (refusedWork x (remember t s)) t
  have rrg := congrArg State.rrg frame
  refine ⟨(congrArg Rrg.refused rrg).trans refused, (congrArg Rrg.holdOff rrg).trans holdOff,
    (congrArg Rrg.unplanned rrg).trans unplanned, ?_, (congrArg State.tst frame).trans tst,
    (congrArg State.lck frame).trans lck, room_refusedWork kind x s, fun hx => ?_, fun hx => ?_⟩
  · have same := sameTrains_refusedWork x (remember t s)
    rw [frame]
    exact same
  · have credits := credits_refusedWork hx (remember t s)
    rw [frame]
    exact credits
  · have blocks := refusedWork_frame hx (remember t s)
    have orders : (forwardThenFinish (refusedWork x (remember t s), some t)).tiu.orders = s.tiu.orders := by
      rw [orders_forwardThenFinish (refusedWork_eq hx (remember t s) ▸ madeOrders_refuseCreation _ _ _), blocks]
      rfl
    have kept := congrArg State.rrg blocks
    have psv := congrArg State.psv blocks
    have inc := congrArg State.inc blocks
    have asc := congrArg State.asc blocks
    refine ⟨?_, (congrArg State.psv frame).trans psv, (congrArg State.inc frame).trans inc,
      (congrArg State.asc frame).trans asc, orders⟩
    rw [rrg]
    exact kept

end Sys2Proof.Machine
end

