-- ==== Sys2Proof/Proofs/Annex.lean ====
section
/-! PROOFS. The annex of a handled PASSAGE: the record stands through all of its work, and the cap and the hold seconds are
those of the departure computation, on the inputs the part had when the passage came. -/

namespace Sys2Proof.Machine

/-! ## The record stands -/

/-- Record `i` is in use. -/
def Act.inUse (a : Act) (i : TrainId) : Bool := (a.train i).isSome

theorem inUse_of_residue {a b : Act} (h : a.residue = b.residue) (i : TrainId) : a.inUse i = b.inUse i := by
  simpa [Act.inUse, Act.train] using congrArg Option.isSome (residue_train h i)

theorem inUse_of_told {a b : Act} {i : TrainId} (h : (a.train i).map Train.told = (b.train i).map Train.told) :
    a.inUse i = b.inUse i := by
  simpa [Act.inUse] using congrArg Option.isSome h

@[simp] theorem inUse_putTrain (i : TrainId) (t : Train) (a : Act) : (a.putTrain i (some t)).inUse i = true := by
  simp [Act.inUse]

@[simp] theorem inUse_onTrain (i : TrainId) (f : Train → Train) (a : Act) : (a.onTrain i f).inUse i = a.inUse i := by
  simp [Act.inUse]

@[simp] theorem inUse_drain (a : Act) (i : TrainId) : (drain a).inUse i = a.inUse i := inUse_of_residue (residue_drain a) i

@[simp] theorem inUse_request (r : Request) (a : Act) (i : TrainId) : (a.request r).inUse i = a.inUse i :=
  inUse_of_residue (residue_request r a) i

@[simp] theorem inUse_hold (p : TpId) (r : Option Nat) (k : Nat) (x : HoldReason) (a : Act) (i : TrainId) :
    (a.hold p r k x).inUse i = a.inUse i := rfl

@[simp] theorem inUse_withdraw (i j : TrainId) (a : Act) : (withdraw j a).inUse i = a.inUse i := rfl

@[simp] theorem inUse_releaseSlot (i j : TrainId) (a : Act) : (releaseSlot j a).inUse i = a.inUse i :=
  inUse_of_residue (residue_releaseSlot j a) i

@[simp] theorem inUse_placeEntry (z : ZoneId) (n : NewEntry) (a : Act) (i : TrainId) :
    (placeEntry z n a).1.inUse i = a.inUse i := inUse_of_residue (residue_placeEntry z n a) i

@[simp] theorem inUse_applyRun (i : TrainId) (n : Nat) (a : Act) : (applyRun i n a).inUse i = a.inUse i := by
  simpa [Act.inUse] using congrArg Option.isSome (told_applyRun i n a)

@[simp] theorem inUse_giveCredit (p : TpId) (a : Act) (i : TrainId) : (giveCredit p a).inUse i = a.inUse i :=
  inUse_of_told (sameTrains_giveCredit p a i)

@[simp] theorem inUse_lateTest (i : TrainId) (a : Act) : (lateTest i a).inUse i = a.inUse i := by
  unfold lateTest
  split
  · rfl
  · next t ht =>
    have used : a.inUse i = true := by rw [Act.inUse, ht]; rfl
    dsimp only
    split
    · rw [inUse_request, inUse_putTrain, used]
    · split
      · rw [inUse_request, inUse_putTrain, used]
      · rfl

@[simp] theorem inUse_endAnyStop (i : TrainId) (a : Act) : (endAnyStop i a).inUse i = a.inUse i := by
  unfold endAnyStop
  split
  · unfold endStop
    split
    · rfl
    · rw [inUse_request, inUse_onTrain, inUse_withdraw]
      rfl
  · rfl

theorem train_of_inUse {a : Act} {i : TrainId} (h : a.inUse i = true) : ∃ t, a.train i = some t :=
  Option.isSome_iff_exists.mp h

theorem inUse_regulate {i : TrainId} {a : Act} (h : a.inUse i = true) (p : TpId) (now : Nat) :
    (regulate i p now a).1.inUse i = true := by
  obtain ⟨t, ht⟩ := train_of_inUse h
  unfold regulate
  rw [ht]
  dsimp only
  split
  · rw [inUse_hold, inUse_putTrain]
  · rw [inUse_hold, inUse_putTrain]

theorem inUse_arrive {i : TrainId} {a : Act} (h : a.inUse i = true) (p : TpId) (time : Option Nat) :
    (arrive i p time a).1.inUse i = true := by
  obtain ⟨t, ht⟩ := train_of_inUse h
  unfold arrive
  rw [ht]
  dsimp only
  split
  · exact h
  · have used : (stallGone t.set ((drain (releaseSlot i (endAnyStop i a))).onTrain i fun t =>
        { t with overdue := none, point := some p, time := time })).inUse i = true := by
      rw [stallGone, inUse_request, inUse_onTrain, inUse_drain, inUse_releaseSlot, inUse_endAnyStop, h]
    split
    · exact inUse_regulate used p _
    · rw [inUse_onTrain, used]

theorem inUse_passThrough {i : TrainId} {a : Act} (h : a.inUse i = true) (p : TpId) (time : Option Nat) :
    (passThrough i p time a).inUse i = true := by
  unfold passThrough
  dsimp only
  split
  · rw [inUse_drain, inUse_releaseSlot, inUse_endAnyStop, h]
  · rw [stallGone, inUse_request, inUse_putTrain]

theorem inUse_departTrain {i : TrainId} {a : Act} (h : a.inUse i = true) (p : TpId) (time : Option Nat) :
    (departTrain i p time a).inUse i = true := by
  unfold departTrain
  dsimp only
  split
  · rw [inUse_endAnyStop, h]
  · rw [stallGone, inUse_request, inUse_putTrain]

theorem inUse_eventWork {i : TrainId} {a : Act} (h : a.inUse i = true) (x : Passage) (time : Option Nat) :
    (eventWork i x time a).1.inUse i = true := by
  unfold eventWork
  split
  · split
    · exact inUse_arrive h _ _
    · exact inUse_passThrough h _ _
  · exact inUse_passThrough h _ _
  · exact inUse_departTrain h _ _
  · rw [inUse_giveCredit, h]

@[simp] theorem inUse_serviceAnnouncement (i : TrainId) (p : TpId) (time : Option Nat) (b : Bool) (a : Act) :
    (serviceAnnouncement i p time b a).inUse i = a.inUse i := by
  unfold serviceAnnouncement
  dsimp only
  split
  · split
    · split
      · exact inUse_placeEntry _ _ _ _
      · rfl
    · rfl
  · rfl

/-! ## A run bound quietly -/

/-- Nothing waits to be worked off. -/
structure Idle (a : Act) : Prop where
  requests : a.requests = []
  handOvers : a.handOvers = []

theorem Idle.drain {a : Act} (h : Idle a) : Machine.drain a = a := drain_nothing h.requests h.handOvers

theorem Idle.putTrain {a : Act} (h : Idle a) (i : TrainId) (t : Option Train) : Idle (a.putTrain i t) :=
  ⟨h.requests, h.handOvers⟩

theorem putTrain_self {i : TrainId} {a : Act} {t : Train} (h : a.train i = some t) : a.putTrain i (some t) = a := by
  have same : a.s.rrg.trains.set i (some t) = a.s.rrg.trains := by
    refine Table.ext_get fun j => ?_
    rw [Table.get_set]
    split
    · next e => rw [← e]; exact h.symm
    · rfl
  unfold Act.putTrain
  rw [same]

theorem table_set_set {α : Type} {n : Nat} (t : Table α n) (i : Fin n) (x y : α) : (t.set i x).set i y = t.set i y := by
  refine Table.ext_get fun j => ?_
  simp only [Table.get_set]
  split <;> rfl

theorem putTrain_putTrain (i : TrainId) (t v : Option Train) (a : Act) : (a.putTrain i t).putTrain i v = a.putTrain i v := by
  simp only [Act.putTrain, table_set_set]

theorem onTrain_putTrain (i : TrainId) (t : Train) (f : Train → Train) (a : Act) :
    (a.putTrain i (some t)).onTrain i f = a.putTrain i (some (f t)) := by
  rw [Act.onTrain, Act.putTrain_train, if_pos rfl, putTrain_putTrain]
  rfl

/-- A run that makes no train unscheduled is written into the record alone. -/
theorem applyRun_quiet {i : TrainId} {n : Nat} {a : Act} {t : Train} (hi : Idle a) (ht : a.train i = some t)
    (hq : bindsQuietly a.s i n t) : applyRun i n a = a.putTrain i (some (t.withRun a.s n)) := by
  unfold applyRun Train.withRun
  rw [ht]
  simp only [Option.bind_some]
  split
  · exact (putTrain_self ht).symm
  · next hn =>
    obtain ⟨hzero, hsame⟩ := not_or.mp hn
    have quiet := (hq.resolve_left hzero).resolve_left hsame
    split
    · next hrun =>
      rw [if_pos hrun] at quiet
      unfold bindRun
      dsimp only
      rw [quiet, Act.onTrain, ht]
      rfl
    · next hrun =>
      rw [if_neg hrun] at quiet
      split
      · have unbound : unbind i a = a.putTrain i (some { t with run := none, step := none }) := by
          unfold unbind
          rw [ht]
          dsimp only
          rw [quiet]
          rfl
        rw [unschedule, unbound, (hi.putTrain i _).drain]
      · exact (putTrain_self ht).symm

/-! ## An arrival -/

/-- A train that stands at the platform already is only matched to its step. -/
theorem arrive_repeated {i : TrainId} {p : TpId} {time : Option Nat} {a : Act} {t : Train} (ht : a.train i = some t)
    (hs : t.state.stopped = true ∧ t.point = some p) : (arrive i p time a).2.cap = false ∧ (arrive i p time a).2.secs = none := by
  unfold arrive
  rw [ht]
  dsimp only
  rw [if_pos hs]
  exact ⟨rfl, rfl⟩

/-- While the clock is UNSET no arrival is regulated. -/
theorem arrive_untimed (i : TrainId) (p : TpId) (a : Act) :
    (arrive i p none a).2.cap = false ∧ (arrive i p none a).2.secs = none := by
  unfold arrive
  split
  · exact ⟨rfl, rfl⟩
  · dsimp only
    split <;> exact ⟨rfl, rfl⟩

/-- A request whose handling hands nothing on is worked off at once. -/
theorem request_idle {r : Request} {a : Act} (hi : Idle a) (h : Idle (handleRequest r a)) :
    a.request r = handleRequest r a := by
  have asked : (a.ask r).requests = [r] := by
    rw [Act.ask_requests, hi.requests]
    rfl
  have left : { a.ask r with requests := [] } = a := by
    have := hi.requests
    obtain ⟨s, out, requests, handOvers⟩ := a
    subst this
    rfl
  unfold Act.request drain drainFor
  rw [asked]
  dsimp only
  rw [left]
  exact drainFor_nothing h.requests h.handOvers _

theorem stallGone_quiet {n : Nat} {a : Act} (hi : Idle a) (h : findKey a.s .trainStalled (.train n) = none) :
    stallGone n a = a := by
  have gone : handleRequest (.gone .trainStalled (.train n)) a = a := by
    unfold handleRequest handleGone
    dsimp only
    rw [h]
    rfl
  rw [stallGone, request_idle hi (by rw [gone]; exact hi), gone]

/-- A train that runs without a slot and is not reported stalled is regulated as it arrives. -/
theorem arrive_regulated {i : TrainId} {p : TpId} {now : Nat} {a : Act} {t : Train} (hi : Idle a) (ht : a.train i = some t)
    (hs : t.state.stopped = false) (hslot : t.slot = none) (hk : findKey a.s .trainStalled (.train t.set) = none) :
    arrive i p (some now) a
      = regulate i p now (a.putTrain i (some { t with overdue := none, point := some p, time := some now })) := by
  have running : endAnyStop i a = a := by
    unfold endAnyStop
    rw [ht]
    exact if_neg (by simp [hs])
  have slotless : releaseSlot i a = a := by
    unfold releaseSlot
    rw [ht]
    exact if_neg (by simp [hslot])
  unfold arrive
  rw [ht]
  dsimp only
  rw [if_neg (by simp [hs]), running, slotless, hi.drain, Act.onTrain, ht]
  exact congrArg _ (stallGone_quiet (hi.putTrain i _) hk)

/-- Without a target no cap is recorded. -/
theorem target_none {x : Inputs} {held prepared free : Bool} (h : (x.target held prepared free).1 = none) :
    (x.target held prepared free).2 = false := by
  unfold Inputs.target at h ⊢
  split
  · rfl
  · next hh =>
    rw [if_neg hh] at h
    split
    · rfl
    · next hp =>
      rw [if_neg hp] at h
      split
      · rfl
      · next hf =>
        rw [if_neg hf] at h
        cases h

/-- The departure computation for an arrival of train `t` at `p` at time `now`. -/
def departureTarget (s : State) (p : TpId) (now : Nat) (t : Train) : Option Nat × Bool :=
  (regulationInputs s p now (matchStep s t p)).target (underHold s p) (decide (mode s = .prepared))
    (decide (s.lck.lock = .unlocked) || underSuspend s p)

/-- What a departure computation gives the annex. -/
theorem regulate_told {i : TrainId} {p : TpId} {now : Nat} {a : Act} {t : Train} (ht : a.train i = some t) :
    (regulate i p now a).2.cap = (departureTarget a.s p now t).2
      ∧ (regulate i p now a).2.secs = some ((departureTarget a.s p now t).1.elim 255 fun td => holdSeconds (td - now)) := by
  unfold regulate
  rw [ht]
  dsimp only
  split
  · next h => exact ⟨(target_none h).symm, congrArg (fun o : Option Nat => some (o.elim 255 _)) h.symm⟩
  · next td h => exact ⟨rfl, congrArg (fun o : Option Nat => some (o.elim 255 fun td => holdSeconds (td - now))) h.symm⟩

/-! ## The annex of a passage that removes no train -/

/-- What the event of a passage tells the annex, where the run has been applied. -/
def passageHeard (i : TrainId) (x : Passage) (a : Act) : Heard :=
  (eventWork i x (passageTime a.s x.offset) ((applyRun i x.run a).onTrain i fun t => { t with silence := 480 })).2

theorem passageFor_annex {i : TrainId} {x : Passage} {a : Act} (hr : removes (applyRun i x.run a).s x = false)
    (hu : a.inUse i = true) :
    ∃ r, (passageFor i x a).1.train i = some r
      ∧ (passageFor i x a).2 = annexBytes r.state.code (r.run.getD 0) r.dev (uncertain (passageFor i x a).1.s)
          (passageHeard i x a).cap (passageHeard i x a).secs := by
  have worked := inUse_eventWork (a := (applyRun i x.run a).onTrain i fun t => { t with silence := 480 }) (i := i)
    (by rw [inUse_onTrain, inUse_applyRun, hu]) x (passageTime a.s x.offset)
  have used : (passageFor i x a).1.inUse i = true := by
    unfold passageFor
    dsimp only
    rw [hr, if_neg Bool.false_ne_true, inUse_serviceAnnouncement]
    split
    · exact worked
    · rw [inUse_lateTest, worked]
  obtain ⟨r, h⟩ := train_of_inUse used
  refine ⟨r, h, ?_⟩
  have annex : (passageFor i x a).2 = annexOf (passageFor i x a).1.s i (passageHeard i x a) := by
    unfold passageFor passageHeard
    dsimp only
    rw [hr]
    rfl
  rw [annex, annexOf, show (passageFor i x a).1.s.rrg.trains.get i = some r from h]

/-- The act in which the handling of a passage for record `i` with the train `t` begins. -/
def recorded (s : State) (i : TrainId) (t : Train) : Act := (Act.start s).putTrain i (some t)

/-- A passage that finds or opens a record is handled for it. -/
theorem handlePassage_recorded {s : State} {x : Passage} {i : TrainId} {t : Train} (hr : removes s x = false)
    (h : passageRecord s x.set i t) :
    handlePassage x (Act.start s) = ((passageFor i x (recorded s i t)).1, some (passageFor i x (recorded s i t)).2) := by
  unfold handlePassage recorded
  rcases h with ⟨hi, ht⟩ | ⟨hi, hf, rfl⟩
  · rw [putTrain_self (a := Act.start s) ht, Act.start_s, hi]
  · rw [Act.start_s, hi]
    dsimp only
    rw [hr, hf]
    rfl

theorem withRun_frame (s : State) (n : Nat) (t : Train) :
    t.withRun s n = { t with run := (t.withRun s n).run, step := (t.withRun s n).step } := by
  unfold Train.withRun
  split
  · rfl
  · split
    · rfl
    · split <;> rfl

/-- Which other record a run is bound to does not depend on the record itself. -/
theorem boundElsewhere_putTrain (i : TrainId) (t : Option Train) (n : Nat) (a : Act) :
    boundElsewhere (a.putTrain i t).s i n = boundElsewhere a.s i n := by
  unfold boundElsewhere
  refine congrArg (List.find? · _) (funext fun j => ?_)
  by_cases h : j = i
  · simp [h]
  · simp [h, Act.putTrain, Table.get_set_ne _ _ (Ne.symm h)]

theorem bindsQuietly_putTrain {i : TrainId} {n : Nat} {t : Train} {a : Act} (h : bindsQuietly a.s i n t) (v : Option Train) :
    bindsQuietly (a.putTrain i v).s i n t := by
  unfold bindsQuietly at h ⊢
  rw [boundElsewhere_putTrain]
  exact h

/-- A passage that is no arrival at a platform tells the annex nothing. -/
theorem passageHeard_elsewhere {i : TrainId} {x : Passage} {a : Act}
    (h : ¬(x.event = .arrive ∧ (a.s.tst.line.points.get x.point).kind = .platform)) :
    passageHeard i x a = Heard.nothing := by
  have tst : ((applyRun i x.run a).onTrain i fun t => { t with silence := 480 }).s.tst = a.s.tst :=
    (blank_fields (blank_applyRun i x.run a)).2.2.1
  unfold passageHeard eventWork
  rw [tst]
  split
  · next e => rw [if_neg fun hp => h ⟨e, hp⟩]
  · rfl
  · rfl
  · rfl

theorem passageHeard_arrival {i : TrainId} {x : Passage} {a : Act} (he : x.event = .arrive)
    (hp : (a.s.tst.line.points.get x.point).kind = .platform) :
    passageHeard i x a = (arrive i x.point (passageTime a.s x.offset)
      ((applyRun i x.run a).onTrain i fun t => { t with silence := 480 })).2 := by
  have tst : ((applyRun i x.run a).onTrain i fun t => { t with silence := 480 }).s.tst = a.s.tst :=
    (blank_fields (blank_applyRun i x.run a)).2.2.1
  unfold passageHeard eventWork
  rw [he]
  dsimp only
  rw [tst, if_pos hp]

/-- The act in which a record with the train `t` arrives once its run has been bound quietly. -/
theorem quiet_arrival {s : State} {i : TrainId} {n : Nat} {t : Train} (hq : bindsQuietly s i n t) :
    (applyRun i n ((Act.start s).putTrain i (some t))).onTrain i (fun t => { t with silence := 480 })
      = (Act.start s).putTrain i (some { t.withRun s n with silence := 480 }) := by
  have idle : Idle (Act.start s) := ⟨rfl, rfl⟩
  have record : ((Act.start s).putTrain i (some t)).train i = some t := by simp
  rw [applyRun_quiet (idle.putTrain i _) record (bindsQuietly_putTrain (a := Act.start s) hq _), putTrain_putTrain,
    onTrain_putTrain]
  rfl

/-- The bytes of an annex as the statement writes them. -/
theorem annexBytes_eq (state run : Nat) (dev : Int) (s : State) (cap : Bool) (secs : Option Nat) :
    annexBytes state run dev (uncertain s) cap secs = num1 state ++ num2 run ++ int2 dev
      ++ num1 ((if s.lck.lock = .coasting ∨ s.lck.lock = .unlocked then 1 else 0) + (if cap = true then 2 else 0)
        + (if secs.isSome then 4 else 0)) ++ num1 (secs.getD 0) := by
  unfold annexBytes uncertain
  by_cases h : s.lck.lock = .coasting ∨ s.lck.lock = .unlocked <;> cases cap <;> cases secs <;> simp [h]

theorem heard_unregulated {s : State} {i : TrainId} {t : Train} {x : Passage}
    (h : ¬(x.event = .arrive ∧ (s.tst.line.points.get x.point).kind = .platform) ∨ s.lck.lock = .unset) :
    (passageHeard i x (recorded s i t)).cap = false ∧ (passageHeard i x (recorded s i t)).secs = none := by
  by_cases docks : x.event = .arrive ∧ (s.tst.line.points.get x.point).kind = .platform
  · have untimed : passageTime (recorded s i t).s x.offset = none := by
      simp [passageTime, clockSet, recorded, Act.putTrain, h.resolve_left (not_not_intro docks)]
    rw [passageHeard_arrival (a := recorded s i t) docks.1 docks.2, untimed]
    exact arrive_untimed i x.point _
  · rw [passageHeard_elsewhere (a := recorded s i t) docks]
    exact ⟨rfl, rfl⟩

theorem heard_repeated {s : State} {i : TrainId} {t : Train} {x : Passage} (he : x.event = .arrive)
    (hp : (s.tst.line.points.get x.point).kind = .platform) (hs : t.state.stopped = true ∧ t.point = some x.point)
    (hq : bindsQuietly s i x.run t) :
    (passageHeard i x (recorded s i t)).cap = false ∧ (passageHeard i x (recorded s i t)).secs = none := by
  rw [passageHeard_arrival (a := recorded s i t) he hp, recorded, quiet_arrival hq]
  refine arrive_repeated (t := { t.withRun s x.run with silence := 480 }) (by simp) ?_
  rw [withRun_frame]
  exact hs

theorem heard_regulated {s : State} {i : TrainId} {t : Train} {x : Passage} {now : Nat} (he : x.event = .arrive)
    (hp : (s.tst.line.points.get x.point).kind = .platform) (hn : passageTime s x.offset = some now)
    (hs : t.state.stopped = false) (hslot : t.slot = none) (hk : findKey s .trainStalled (.train t.set) = none)
    (hq : bindsQuietly s i x.run t) :
    (passageHeard i x (recorded s i t)).cap = (departureTarget s x.point now (t.withRun s x.run)).2
      ∧ (passageHeard i x (recorded s i t)).secs
        = some ((departureTarget s x.point now (t.withRun s x.run)).1.elim 255 fun td => holdSeconds (td - now)) := by
  have timed : passageTime (recorded s i t).s x.offset = some now := hn
  have bound := withRun_frame s x.run t
  rw [passageHeard_arrival (a := recorded s i t) he hp, timed, recorded, quiet_arrival hq,
    arrive_regulated (t := { t.withRun s x.run with silence := 480 }) ⟨rfl, rfl⟩ (by simp) (by rw [bound]; exact hs)
      (by rw [bound]; exact hslot) (by rw [bound]; exact hk), putTrain_putTrain]
  exact regulate_told
    (t := { t.withRun s x.run with silence := 480, overdue := none, point := some x.point, time := some now }) (by simp)

/-- Settles O19: the record stands through the passage, its annex is built from the record as it then stands, and the cap and
the hold seconds are what the computation of an arrival gave. -/
theorem passageForwardedWithAnnex : Obligations.PassageForwardedWithAnnex := by
  intro s q h set run pt ev off x i t ha hm hr hrec docks here
  have sent := exec_passage_accepted ha hm
  have kind := kind_passageTelegram h set run pt ev off
  have flags : (passageTelegram h set run pt ev off).flags = h.flags := rfl
  generalize passageTelegram h set run pt ev off = tel at sent kind flags ⊢
  dsimp only at sent
  have hr' : removes (remember tel s) x = false := by
    rw [← Bool.not_eq_true]
    exact fun e => hr (removes_iff.mp e)
  have handled := handlePassage_recorded hr' hrec
  have stays : removes (applyRun i x.run (recorded (remember tel s) i t)).s x = false := by
    rw [removes, (blank_fields (blank_applyRun i x.run (recorded (remember tel s) i t))).2.2.1]
    exact hr'
  obtain ⟨r, hrecord, annex⟩ := passageFor_annex stays (inUse_putTrain i t _)
  have forwarded := forwarded_passage (s := s) kind x
    (some (passageFor i x (recorded (remember tel s) i t)).2)
  rw [handled] at sent forwarded
  dsimp only at sent forwarded
  refine ⟨_, r, (passageHeard i x (recorded (remember tel s) i t)).cap,
    (passageHeard i x (recorded (remember tel s) i t)).secs, sent, ?_, fun e => heard_unregulated (s := remember tel s) e,
    fun e e' hq => heard_repeated (s := remember tel s) e.1 e.2 e' hq, fun now e hn hs hslot hk hq => ?_, ?_⟩
  · rw [forwardThenFinish_frame]
    exact hrecord
  · obtain ⟨cap, secs⟩ := heard_regulated (s := remember tel s) e.1 e.2 hn hs hslot hk hq
    refine ⟨cap, secs.trans (congrArg some ?_)⟩
    have written (o : Option Nat) : o.elim 255 (fun td => holdSeconds (td - now))
        = match o with | none => 255 | some td => min ((td - now + 9) / 10) 254 := by cases o <;> rfl
    exact written _
  · have lck := (blank_fields (blank_passageFor i x (recorded (remember tel s) i t))).2.1
    have unsure : uncertain (passageFor i x (recorded (remember tel s) i t)).1.s = uncertain s := by
      unfold uncertain
      rw [lck]
      rfl
    rw [show (passageFor i x (recorded (remember tel s) i t)).2 = _ from annex, unsure, annexBytes_eq] at forwarded ⊢
    simp only [passageSent, Option.map_some, Option.getD_some, withAnnex, ← List.append_assoc, flags] at forwarded ⊢
    exact forwarded

end Sys2Proof.Machine
end

