-- ==== Sys2Proof/Proofs/Causes.lean ====
section
/-! PROOFS. What requests make of the incident records: a raise that finds a place leaves its cause present in an open record,
a cause-gone leaves none, and neither touches another key. -/

namespace Sys2Proof.Machine

/-! ## The records and their keys -/

/-- An open record of a table holds a key with cause PRESENT. -/
def Inc.causes (u : Inc) (c : IncClass) (o : IncObject) : Prop :=
  ∃ i r, u.records.get i = some r ∧ r.cls = c ∧ r.object = o ∧ r.state ≠ .resolved ∧ r.cause = .present

/-- A record holds a key. -/
def Incident.hasKey (r : Incident) (c : IncClass) (o : IncObject) : Prop := r.cls = c ∧ r.object = o

/-- No two records share a key, and the resolved order lists RESOLVED records, each once. -/
structure KeyLaw (u : Inc) : Prop where
  keys : ∀ i j r q, u.records.get i = some r → u.records.get j = some q → q.hasKey r.cls r.object → i = j
  once : u.resolved.Nodup
  resolved : ∀ i ∈ u.resolved, ∃ r, u.records.get i = some r ∧ r.state = .resolved

theorem IncLaw.keyLaw {u : Inc} (h : IncLaw u) : KeyLaw u where
  keys i j r q hr hq hk := h.keys i j r q hr hq hk.1.symm hk.2.symm
  once := h.resolvedOnce
  resolved i hi := (h.resolved i).mp hi

theorem findKey_some {s : State} {c : IncClass} {o : IncObject} {i : IncId} (h : findKey s c o = some i) :
    ∃ r, s.inc.records.get i = some r ∧ r.hasKey c o := by
  have := List.find?_some h
  simpa [Incident.hasKey, Prod.ext_iff] using this

theorem findKey_none {s : State} {c : IncClass} {o : IncObject} (h : findKey s c o = none) {i : IncId} {r : Incident}
    (hr : s.inc.records.get i = some r) : ¬r.hasKey c o := by
  have := List.find?_eq_none.mp h i (mem_indices i)
  simpa [hr, Incident.hasKey] using this

/-! ## Writing one record of a key -/

/-- Table `v` is table `u` with record `r` of the key written at `i`, where a record of the key, a RESOLVED one or none stood,
and no other record has the key. -/
structure Written (u v : Inc) (c : IncClass) (o : IncObject) (i : IncId) (r : Incident) : Prop where
  key : r.hasKey c o
  records : v.records = u.records.set i (some r)
  place : ∀ q, u.records.get i = some q → q.hasKey c o ∨ q.state = .resolved
  alone : ∀ j q, j ≠ i → u.records.get j = some q → ¬q.hasKey c o

variable {u v : Inc} {c : IncClass} {o : IncObject} {i : IncId} {r : Incident}

theorem Written.get (h : Written u v c o i r) (j : IncId) :
    v.records.get j = if i = j then some r else u.records.get j := by rw [h.records, Table.get_set]

theorem Written.causes_self (h : Written u v c o i r) : v.causes c o ↔ r.state ≠ .resolved ∧ r.cause = .present := by
  constructor
  · rintro ⟨j, q, hq, hc, ho, hs, hp⟩
    rw [h.get] at hq
    split at hq
    · cases hq; exact ⟨hs, hp⟩
    · next hne => exact absurd ⟨hc, ho⟩ (h.alone j q (Ne.symm hne) hq)
  · rintro ⟨hs, hp⟩
    exact ⟨i, r, by rw [h.get, if_pos rfl], h.key.1, h.key.2, hs, hp⟩

theorem Written.causes_other (h : Written u v c o i r) {d : IncClass} {p : IncObject} (hk : ¬(d = c ∧ p = o)) :
    v.causes d p ↔ u.causes d p := by
  constructor
  · rintro ⟨j, q, hq, hc, ho, hs, hp⟩
    rw [h.get] at hq
    split at hq
    · cases hq; exact absurd ⟨hc.symm.trans h.key.1, ho.symm.trans h.key.2⟩ hk
    · exact ⟨j, q, hq, hc, ho, hs, hp⟩
  · rintro ⟨j, q, hq, hc, ho, hs, hp⟩
    refine ⟨j, q, ?_, hc, ho, hs, hp⟩
    rw [h.get]
    split
    · next e =>
      subst e
      rcases h.place q hq with hk' | hr
      · exact absurd ⟨hc.symm.trans hk'.1, ho.symm.trans hk'.2⟩ hk
      · exact absurd hr hs
    · exact hq

theorem Written.keys (h : Written u v c o i r) (hu : KeyLaw u) :
    ∀ j k q p, v.records.get j = some q → v.records.get k = some p → p.hasKey q.cls q.object → j = k := by
  intro j k q p hq hp hk
  rw [h.get] at hq hp
  split at hq
  · next ej =>
    cases hq
    split at hp
    · next ek => exact ej.symm.trans ek
    · next hne =>
      refine absurd ?_ (h.alone k p (Ne.symm hne) hp)
      exact ⟨hk.1.trans h.key.1, hk.2.trans h.key.2⟩
  · next hne =>
    split at hp
    · cases hp
      refine absurd ?_ (h.alone j q (Ne.symm hne) hq)
      exact ⟨hk.1.symm.trans h.key.1, hk.2.symm.trans h.key.2⟩
    · exact hu.keys j k q p hq hp hk

/-- A live record written takes its place out of the resolved order. -/
theorem Written.keyLaw_live (h : Written u v c o i r) (hu : KeyLaw u)
    (hv : v.resolved = u.resolved.filter fun j => decide (j ≠ i)) : KeyLaw v where
  keys := h.keys hu
  once := hv ▸ hu.once.filter _
  resolved j hj := by
    rw [hv, List.mem_filter, decide_eq_true_eq] at hj
    obtain ⟨q, hq, hs⟩ := hu.resolved j hj.1
    exact ⟨q, by rw [h.get, if_neg (Ne.symm hj.2), hq], hs⟩

/-- A place that is not RESOLVED is not in the resolved order. -/
theorem KeyLaw.not_mem_resolved (hu : KeyLaw u) (h : ∀ q, u.records.get i = some q → q.state ≠ .resolved) :
    i ∉ u.resolved := by
  intro hi
  obtain ⟨q, hq, hs⟩ := hu.resolved i hi
  exact h q hq hs

theorem KeyLaw.filter_resolved (hu : KeyLaw u) (h : ∀ q, u.records.get i = some q → q.state ≠ .resolved) :
    (u.resolved.filter fun j => decide (j ≠ i)) = u.resolved :=
  List.filter_eq_self.mpr fun j hj => by
    rw [decide_eq_true_eq]
    rintro rfl
    exact hu.not_mem_resolved h hj

/-! ## Raises -/

/-- A raise of a key has opened or found record `r` at `i`. -/
structure RaiseTaken (u v : Inc) (c : IncClass) (o : IncObject) (present : Bool) (i : IncId) (r : Incident) : Prop extends
    Written u v c o i r where
  resolved : v.resolved = u.resolved.filter fun j => decide (j ≠ i)
  live : r.state = .raised ∨ ∃ q, u.records.get i = some q ∧ q.state ≠ .resolved ∧ r.state = q.state
  level : r.level = 0 ∨ ∃ q, u.records.get i = some q ∧ r.level = q.level
  cause : present = true → r.cause = .present
  kept : v.refused = u.refused ∧ v.edges = u.edges ∧ v.prescaler = u.prescaler

/-- A raise has found no place. -/
def RaiseRefused (u v : Inc) : Prop := ∃ h, v = { u with refused := bump u.refused, holdOff := h }

theorem RaiseTaken.state_ne {present : Bool} (h : RaiseTaken u v c o present i r) : r.state ≠ .resolved := by
  rcases h.live with e | ⟨q, -, hq, e⟩
  · rw [e]; exact IncState.noConfusion
  · exact e ▸ hq

theorem books_reckonHolds {m : Act → Act} (hm : ∀ a, Works a (m a)) (a : Act) : (reckonHolds m a).books = a.books :=
  (works_reckonHolds hm a).books

theorem books_refuseRaise (c : IncClass) (o : IncObject) (a : Act) : RaiseRefused a.books (refuseRaise c o a).books := by
  unfold refuseRaise
  dsimp only
  split
  · exact ⟨_, rfl⟩
  · exact ⟨_, rfl⟩

theorem books_recur {a : Act} (hu : KeyLaw a.books) (hr : a.incident i = some r) (hk : r.hasKey c o)
    (hs : r.state ≠ .resolved) (present : Bool) : ∃ q, RaiseTaken a.books (recur i r present a).books c o present i q := by
  unfold recur
  dsimp only
  rw [books_reckonHolds (m := id) Works.refl]
  refine ⟨_, {
    key := ?_, records := rfl, place := fun q hq => ?_, alone := fun j q hne hq hk' => ?_, resolved := ?_
    live := .inr ⟨r, hr, hs, rfl⟩, level := .inr ⟨r, hr, rfl⟩, kept := ⟨rfl, rfl, rfl⟩, cause := fun hp => if_pos hp }⟩
  · exact hk
  · cases hr.symm.trans hq; exact .inl hk
  · exact hne (hu.keys j i q r hq hr ⟨hk.1.trans hk'.1.symm, hk.2.trans hk'.2.symm⟩)
  · exact (hu.filter_resolved fun q hq => by cases hr.symm.trans hq; exact hs).symm

theorem books_reopen {a : Act} (hu : KeyLaw a.books) (hr : a.incident i = some r) (hk : r.hasKey c o) (present : Bool) :
    ∃ q, RaiseTaken a.books (reopen i r present a).books c o present i q := by
  unfold reopen
  dsimp only
  rw [books_reckonHolds (works_announceIncident _)]
  refine ⟨_, {
    key := ?_, records := rfl, place := fun q hq => ?_, alone := fun j q hne hq hk' => ?_, resolved := rfl
    live := .inl rfl, level := .inr ⟨r, hr, rfl⟩, kept := ⟨rfl, rfl, rfl⟩, cause := fun hp => if_pos hp }⟩
  · exact hk
  · cases hr.symm.trans hq; exact .inl hk
  · exact hne (hu.keys j i q r hq hr ⟨hk.1.trans hk'.1.symm, hk.2.trans hk'.2.symm⟩)

/-- What taking a record does to the table: its place is free of live records and of the resolved order. -/
structure RecordTaken (u w : Inc) (i : IncId) : Prop where
  place : ∀ q, u.records.get i = some q → q.state = .resolved
  records : ∀ r, w.records.set i r = u.records.set i r
  resolved : w.resolved = u.resolved.filter fun j => decide (j ≠ i)
  kept : w.refused = u.refused ∧ w.edges = u.edges ∧ w.prescaler = u.prescaler

theorem books_takeRecord {a b : Act} (hu : KeyLaw a.books) (h : takeRecord a = some (i, b)) :
    RecordTaken a.books b.books i := by
  unfold takeRecord at h
  split at h
  · next e =>
    cases h
    have free : a.books.records.get i = none := by
      have := List.find?_some e
      exact Option.isNone_iff_eq_none.mp this
    exact { place := fun q hq => by rw [free] at hq; cases hq
            records := fun _ => rfl
            resolved := (hu.filter_resolved fun q hq => by rw [free] at hq; cases hq).symm
            kept := ⟨rfl, rfl, rfl⟩ }
  · split at h
    · cases h
    · next j rest e =>
      have e : a.books.resolved = j :: rest := e
      have first : (a.books.resolved.filter fun k => decide (k ≠ j)) = rest := by
        have once := e ▸ hu.once
        rw [e, List.filter_cons_of_neg (by simp)]
        refine List.filter_eq_self.mpr fun k hk => ?_
        rw [decide_eq_true_eq]
        rintro rfl
        exact (List.nodup_cons.mp once).1 hk
      obtain ⟨q, hq, hs⟩ := hu.resolved j (e ▸ List.mem_cons_self)
      dsimp only at h
      split at h
      · cases h
        exact { place := fun p hp => by cases hq.symm.trans hp; exact hs
                records := fun r => table_set_set _ _ _ _
                resolved := first.symm
                kept := ⟨rfl, rfl, rfl⟩ }
      · next hn => cases hq.symm.trans hn

theorem books_openRecord {a b : Act} {w : Opening} (ht : RecordTaken a.books b.books i) (hw : w.object = some o)
    (hn : findKey a.s w.cls o = none) (present : Bool) (hc : w.cause = if present then .present else .absent) :
    ∃ q, RaiseTaken a.books (openRecord w i b).books w.cls o present i q := by
  unfold openRecord
  dsimp only
  rw [books_reckonHolds (works_announceIncident _), hw]
  refine ⟨_, {
    key := ⟨rfl, rfl⟩, records := ht.records _, place := fun q hq => .inr (ht.place q hq)
    alone := fun j q _ hq => findKey_none hn hq, resolved := ht.resolved, live := .inl rfl, level := .inl rfl,
    kept := ht.kept, cause := fun hp => by rw [hc, hp]; rfl }⟩

/-- What a raise makes of the table. -/
theorem books_handleRaise {a : Act} (hu : KeyLaw a.books) (c : IncClass) (o : IncObject) (present : Bool) :
    (∃ i q, RaiseTaken a.books (handleRaise c o present a).books c o present i q)
      ∨ RaiseRefused a.books (handleRaise c o present a).books := by
  unfold handleRaise
  split
  · next i hi =>
    obtain ⟨r, hr, hk⟩ := findKey_some hi
    rw [show a.incident i = some r from hr]
    dsimp only
    split
    · exact .inl ⟨i, books_reopen hu hr hk present⟩
    · next hs => exact .inl ⟨i, books_recur hu hr hk hs present⟩
  · next hn =>
    split
    · next i b hb => exact .inl ⟨i, books_openRecord (w := openingOf a.s c o present) (books_takeRecord hu hb) rfl hn present rfl⟩
    · exact .inr (books_refuseRaise c o a)

theorem RaiseTaken.keyLaw {present : Bool} (h : RaiseTaken u v c o present i r) (hu : KeyLaw u) : KeyLaw v :=
  h.keyLaw_live hu h.resolved

theorem RaiseRefused.keyLaw (h : RaiseRefused u v) (hu : KeyLaw u) : KeyLaw v := by
  obtain ⟨x, rfl⟩ := h
  exact ⟨hu.keys, hu.once, hu.resolved⟩

/-! ## Causes reported gone -/

/-- The cause of an open record of a key has been reported gone. -/
structure GoneTaken (u v : Inc) (c : IncClass) (o : IncObject) (i : IncId) (r : Incident) : Prop extends
    Written u v c o i r where
  live : ∀ q, u.records.get i = some q → q.state ≠ .resolved
  cause : r.cause = .gone
  resolved : v.resolved = u.resolved ∨ (r.state = .resolved ∧ v.resolved = u.resolved ++ [i])
  refused : v.refused = u.refused

theorem GoneTaken.keyLaw (h : GoneTaken u v c o i r) (hu : KeyLaw u) : KeyLaw v := by
  have apart := hu.not_mem_resolved h.live
  have stays : ∀ j ∈ u.resolved, ∃ q, v.records.get j = some q ∧ q.state = .resolved := by
    intro j hj
    obtain ⟨q, hq, hs⟩ := hu.resolved j hj
    refine ⟨q, ?_, hs⟩
    rw [h.get, if_neg (by rintro rfl; exact apart hj), hq]
  rcases h.resolved with e | ⟨hs, e⟩
  · exact ⟨h.keys hu, e ▸ hu.once, fun j hj => stays j (e ▸ hj)⟩
  · refine ⟨h.keys hu, ?_, fun j hj => ?_⟩
    · rw [e, List.nodup_append]
      exact ⟨hu.once, List.nodup_singleton i, fun j hj k hk => by
        rw [List.mem_singleton] at hk
        rintro rfl
        exact apart (hk ▸ hj)⟩
    · rw [e, List.mem_append, List.mem_singleton] at hj
      rcases hj with hj | rfl
      · exact stays j hj
      · exact ⟨r, by rw [h.get, if_pos rfl], hs⟩

/-- A key whose record is RESOLVED or has no cause PRESENT has no cause. -/
theorem KeyLaw.not_causes (hu : KeyLaw u) (hr : u.records.get i = some r) (hk : r.hasKey c o)
    (h : r.state = .resolved ∨ r.cause ≠ .present) : ¬u.causes c o := by
  rintro ⟨j, q, hq, hc, ho, hs, hp⟩
  have same := hu.keys i j r q hr hq ⟨hc.trans hk.1.symm, ho.trans hk.2.symm⟩
  subst same
  cases hr.symm.trans hq
  exact h.elim hs fun hne => hne hp

/-- What a cause reported gone makes of the table. -/
theorem books_handleGone {a : Act} (hu : KeyLaw a.books) (c : IncClass) (o : IncObject) :
    ((handleGone c o a).books = a.books ∧ ¬a.books.causes c o)
      ∨ ∃ i q, GoneTaken a.books (handleGone c o a).books c o i q := by
  unfold handleGone
  cases hi : findKey a.s c o with
  | none =>
    refine .inl ⟨rfl, ?_⟩
    rintro ⟨j, q, hq, hc, ho, -⟩
    exact findKey_none hi hq ⟨hc, ho⟩
  | some i =>
    obtain ⟨r, hr, hk⟩ := findKey_some hi
    have place : ∀ q, a.books.records.get i = some q → q.hasKey c o ∨ q.state = .resolved := fun q hq => by
      cases hr.symm.trans hq; exact .inl hk
    have alone : ∀ j q, j ≠ i → a.books.records.get j = some q → ¬q.hasKey c o := fun j q hne hq hk' =>
      hne (hu.keys j i q r hq hr ⟨hk.1.trans hk'.1.symm, hk.2.trans hk'.2.symm⟩)
    rw [Option.bind_some, show a.incident i = some r from hr, Option.map_some]
    dsimp only
    split
    · split
      · next hs =>
        refine .inr ⟨i, _, {
          key := ?_, records := rfl, place := place, alone := alone, cause := rfl, resolved := .inl rfl, refused := rfl
          live := fun q hq => by cases hr.symm.trans hq; rw [hs]; exact IncState.noConfusion }⟩
        exact hk
      · next hs =>
        unfold resolve
        dsimp only
        rw [books_reckonHolds (works_removeEntries _)]
        refine .inr ⟨i, _, {
          key := ?_, records := rfl, place := place, alone := alone, cause := rfl, resolved := .inr ⟨rfl, rfl⟩, refused := rfl
          live := fun q hq => by cases hr.symm.trans hq; rw [hs]; exact IncState.noConfusion }⟩
        exact hk
      · next hs => exact .inl ⟨rfl, hu.not_causes hr hk (.inl hs)⟩
    · next hp => exact .inl ⟨rfl, hu.not_causes hr hk (.inr hp)⟩

end Sys2Proof.Machine
end

