-- ==== Sys2Proof/Proofs/CausesFollow.lean ====
section
/-! PROOFS. Through a list of requests and what they hand on, a key with a raise among them has its cause present, a key with a
cause-gone among them has none, and every other key stands, as long as no raise is refused. -/

namespace Sys2Proof.Machine

/-- The key of a request. -/
def Request.key : Request → IncClass × IncObject
  | .raise c o _ => (c, o)
  | .gone c o => (c, o)

/-! ## One request -/

theorem handleRequest_keyLaw {a : Act} (hu : KeyLaw a.books) (r : Request) : KeyLaw (handleRequest r a).books := by
  cases r with
  | raise c o present =>
    rcases books_handleRaise hu c o present with ⟨i, q, h⟩ | h
    · exact h.keyLaw hu
    · exact h.keyLaw hu
  | gone c o =>
    rcases books_handleGone hu c o with ⟨h, -⟩ | ⟨i, q, h⟩
    · exact (show (handleRequest (.gone c o) a).books = a.books from h) ▸ hu
    · exact h.keyLaw hu

theorem handleGone_refused {a : Act} (hu : KeyLaw a.books) (c : IncClass) (o : IncObject) :
    (handleGone c o a).books.refused = a.books.refused := by
  rcases books_handleGone hu c o with ⟨h, -⟩ | ⟨i, q, h⟩
  · rw [h]
  · exact h.refused

/-- The refused count stays in range and never falls. -/
theorem handleRequest_refused {a : Act} (hu : KeyLaw a.books) (hr : a.books.refused ≤ 65535) (r : Request) :
    a.books.refused ≤ (handleRequest r a).books.refused ∧ (handleRequest r a).books.refused ≤ 65535 := by
  cases r with
  | raise c o present =>
    rcases books_handleRaise hu c o present with ⟨i, q, h⟩ | ⟨x, h⟩
    · rw [handleRequest, h.kept.1]; exact ⟨le_refl _, hr⟩
    · rw [handleRequest, h]
      exact ⟨le_min (Nat.le_succ _) hr, bump_le _⟩
  | gone c o =>
    rw [handleRequest, handleGone_refused hu]
    exact ⟨le_refl _, hr⟩

theorem handleRequest_other {a : Act} (hu : KeyLaw a.books) {r : Request} {c : IncClass} {o : IncObject}
    (hk : r.key ≠ (c, o)) : (handleRequest r a).books.causes c o ↔ a.books.causes c o := by
  cases r with
  | raise d p present =>
    have apart : ¬(c = d ∧ o = p) := fun e => hk (by rw [Request.key, e.1, e.2])
    rcases books_handleRaise hu d p present with ⟨i, q, h⟩ | ⟨x, h⟩
    · exact h.causes_other apart
    · rw [handleRequest, h]; exact Iff.rfl
  | gone d p =>
    have apart : ¬(c = d ∧ o = p) := fun e => hk (by rw [Request.key, e.1, e.2])
    rcases books_handleGone hu d p with ⟨h, -⟩ | ⟨i, q, h⟩
    · rw [handleRequest, h]
    · exact h.causes_other apart

/-- A raise that is not refused leaves its cause present. -/
theorem handleRaise_causes {a : Act} (hu : KeyLaw a.books) {c : IncClass} {o : IncObject} (hr : a.books.refused < 65535)
    (he : (handleRequest (.raise c o true) a).books.refused = a.books.refused) :
    (handleRequest (.raise c o true) a).books.causes c o := by
  rcases books_handleRaise hu c o true with ⟨i, q, h⟩ | ⟨x, h⟩
  · exact h.causes_self.mpr ⟨h.state_ne, h.cause rfl⟩
  · rw [handleRequest, h] at he
    have : min (a.books.refused + 1) 65535 = a.books.refused := he
    omega

theorem handleGone_causes {a : Act} (hu : KeyLaw a.books) (c : IncClass) (o : IncObject) :
    ¬(handleRequest (.gone c o) a).books.causes c o := by
  rcases books_handleGone hu c o with ⟨h, hn⟩ | ⟨i, q, h⟩
  · rw [handleRequest, h]; exact hn
  · intro hc
    have present := (h.causes_self.mp hc).2
    rw [h.cause] at present
    cases present

/-! ## A list of requests -/

/-- The requests of a list are handled in order. -/
def handleAll (l : List Request) (a : Act) : Act := l.foldl (fun a r => handleRequest r a) a

theorem handleAll_keyLaw (l : List Request) {a : Act} (hu : KeyLaw a.books) : KeyLaw (handleAll l a).books := by
  induction l generalizing a with
  | nil => exact hu
  | cons r l ih => exact ih (handleRequest_keyLaw hu r)

theorem handleAll_refused (l : List Request) {a : Act} (hu : KeyLaw a.books) (hr : a.books.refused ≤ 65535) :
    a.books.refused ≤ (handleAll l a).books.refused := by
  induction l generalizing a with
  | nil => exact le_refl _
  | cons r l ih =>
    obtain ⟨grows, below⟩ := handleRequest_refused hu hr r
    exact grows.trans (ih (handleRequest_keyLaw hu r) below)

/-- A key all of whose requests are raises has its cause present at the end, if there is one or the cause was present. -/
theorem handleAll_raised {c : IncClass} {o : IncObject} (l : List Request) {a : Act} (hu : KeyLaw a.books)
    (hr : a.books.refused < 65535) (he : (handleAll l a).books.refused = a.books.refused)
    (hall : ∀ r ∈ l, r.key = (c, o) → r = .raise c o true) (h : .raise c o true ∈ l ∨ a.books.causes c o) :
    (handleAll l a).books.causes c o := by
  induction l generalizing a with
  | nil => exact h.resolve_left List.not_mem_nil
  | cons r l ih =>
    have law := handleRequest_keyLaw hu r
    obtain ⟨grows, below⟩ := handleRequest_refused hu hr.le r
    have same : (handleRequest r a).books.refused = a.books.refused :=
      le_antisymm ((handleAll_refused l law below).trans he.le) grows
    refine ih law (same ▸ hr) (he.trans same.symm) (fun q hq => hall q (List.mem_cons_of_mem r hq)) ?_
    by_cases hk : r.key = (c, o)
    · have e := hall r List.mem_cons_self hk
      subst e
      exact .inr (handleRaise_causes hu hr same)
    · rcases h with h | h
      · rcases List.mem_cons.mp h with e | h
        · exact absurd (e ▸ rfl) hk
        · exact .inl h
      · exact .inr ((handleRequest_other hu hk).mpr h)

/-- A key all of whose requests report its cause gone has none at the end, if there is one or there was none. -/
theorem handleAll_gone {c : IncClass} {o : IncObject} (l : List Request) {a : Act} (hu : KeyLaw a.books)
    (hall : ∀ r ∈ l, r.key = (c, o) → r = .gone c o) (h : .gone c o ∈ l ∨ ¬a.books.causes c o) :
    ¬(handleAll l a).books.causes c o := by
  induction l generalizing a with
  | nil => exact h.resolve_left List.not_mem_nil
  | cons r l ih =>
    refine ih (handleRequest_keyLaw hu r) (fun q hq => hall q (List.mem_cons_of_mem r hq)) ?_
    by_cases hk : r.key = (c, o)
    · have e := hall r List.mem_cons_self hk
      subst e
      exact .inr (handleGone_causes hu c o)
    · rcases h with h | h
      · rcases List.mem_cons.mp h with e | h
        · exact absurd (e ▸ rfl) hk
        · exact .inl h
      · exact .inr (mt (handleRequest_other hu hk).mp h)

/-! ## What is handed on -/

/-- Where only ends of power waits are asked for, working them off keeps every other cause and refuses nothing. -/
theorem drainFor_causes (k : Nat) {a : Act} (hu : KeyLaw a.books) (hr : ∀ r ∈ a.requests, PowerWaitOver r) :
    (∀ c o, c ≠ .powerWait → ((drainFor k a).books.causes c o ↔ a.books.causes c o))
      ∧ (drainFor k a).books.refused = a.books.refused := by
  induction k generalizing a with
  | zero => exact ⟨fun _ _ _ => Iff.rfl, rfl⟩
  | succ k ih =>
    unfold drainFor
    split
    · next _ r rest he =>
      obtain ⟨n, rfl⟩ := hr r (he ▸ List.mem_cons_self)
      have rest_over : ∀ q ∈ rest, PowerWaitOver q := fun q hq => hr q (he ▸ List.mem_cons_of_mem _ hq)
      obtain ⟨causes, refused⟩ := ih (a := handleRequest (.gone .powerWait (.train n)) { a with requests := rest })
        (handleRequest_keyLaw (a := { a with requests := rest }) hu _)
        (fun q hq => ((speaks_handleRequest _ _).asks q hq).elim (rest_over q) id)
      refine ⟨fun c o hc => (causes c o hc).trans ?_, refused.trans ?_⟩
      · exact handleRequest_other (a := { a with requests := rest }) hu fun e => hc (congrArg Prod.fst e).symm
      · exact handleGone_refused (a := { a with requests := rest }) hu _ _
    · next ws rest _ he =>
      have works := works_placeHandOver ws { a with handOvers := rest }
      have same : (placeHandOver ws { a with handOvers := rest }).books = a.books := works.books
      obtain ⟨causes, refused⟩ := ih (a := placeHandOver ws { a with handOvers := rest }) (same ▸ hu)
        (fun q hq => (works.asks q hq).elim (hr q) id)
      rw [same] at causes refused
      exact ⟨causes, refused⟩
    · exact ⟨fun _ _ _ => Iff.rfl, rfl⟩

theorem drain_causes {a : Act} (hu : KeyLaw a.books) (hr : ∀ r ∈ a.requests, PowerWaitOver r) :
    (∀ c o, c ≠ .powerWait → ((drain a).books.causes c o ↔ a.books.causes c o))
      ∧ (drain a).books.refused = a.books.refused := drainFor_causes 1000 hu hr

/-! ## A derivation -/

/-- What a derivation asks of the INC for the sections that enter or leave DEAD. -/
def sectionRequests (s : State) : List Request :=
  (indices 32).flatMap fun x => deadRequests x (s.psv.secs.get x) ((derived s).secs.get x)

/-- The supply picture derived afresh, and the requests it makes handled. -/
def pictureTold (l : List Request) (a : Act) : Act :=
  handleAll (l ++ sectionRequests a.s) { a with s.psv := derived a.s }

theorem deriveSupply_eq (l : List Request) (ts : List SubId) (a : Act) :
    deriveSupply l ts a = drain (replaceAndGrant ts (pictureTold l a)) := rfl

/-- What a derivation makes of the incident records is what its requests make. -/
theorem deriveSupply_causes (l : List Request) (ts : List SubId) {a : Act} (hu : KeyLaw a.books) (hn : a.requests = []) :
    (∀ c o, c ≠ .powerWait → ((deriveSupply l ts a).books.causes c o ↔ (pictureTold l a).books.causes c o))
      ∧ (deriveSupply l ts a).books.refused = (pictureTold l a).books.refused := by
  have law : KeyLaw (pictureTold l a).books := handleAll_keyLaw _ (a := { a with s.psv := derived a.s }) hu
  have speaks : Speaks { a with s.psv := derived a.s } (pictureTold l a) :=
    Speaks.foldl (fun a r => speaks_handleRequest r a) _ _
  have works := works_replaceAndGrant ts (pictureTold l a)
  have asked : ∀ r ∈ (replaceAndGrant ts (pictureTold l a)).requests, PowerWaitOver r := by
    intro r hr
    rcases (speaks.trans works.toSpeaks).asks r hr with h | h
    · rw [show ({ a with s.psv := derived a.s } : Act).requests = [] from hn] at h
      exact absurd h List.not_mem_nil
    · exact h
  have law' : KeyLaw (replaceAndGrant ts (pictureTold l a)).books := by
    rw [works.books]
    exact law
  have drained := drain_causes law' asked
  rwa [works.books, ← deriveSupply_eq] at drained

/-- A derivation that refuses no raise leaves the cause of a key present whose requests are all raises. -/
theorem deriveSupply_raised {l : List Request} (ts : List SubId) {a : Act} (hu : KeyLaw a.books) (hn : a.requests = [])
    (hr : a.books.refused < 65535) (he : (deriveSupply l ts a).books.refused = a.books.refused) {c : IncClass}
    {o : IncObject} (hc : c ≠ .powerWait) (hall : ∀ r ∈ l ++ sectionRequests a.s, r.key = (c, o) → r = .raise c o true)
    (h : .raise c o true ∈ l ++ sectionRequests a.s) : (deriveSupply l ts a).books.causes c o := by
  obtain ⟨causes, refused⟩ := deriveSupply_causes l ts hu hn
  exact (causes c o hc).mpr
    (handleAll_raised _ (a := { a with s.psv := derived a.s }) hu hr (refused.symm.trans he) hall (.inl h))

/-- A derivation leaves no cause of a key present whose requests all report it gone. -/
theorem deriveSupply_gone {l : List Request} (ts : List SubId) {a : Act} (hu : KeyLaw a.books) (hn : a.requests = [])
    {c : IncClass} {o : IncObject} (hc : c ≠ .powerWait)
    (hall : ∀ r ∈ l ++ sectionRequests a.s, r.key = (c, o) → r = .gone c o)
    (h : .gone c o ∈ l ++ sectionRequests a.s) : ¬(deriveSupply l ts a).books.causes c o := by
  obtain ⟨causes, -⟩ := deriveSupply_causes l ts hu hn
  exact fun hp => handleAll_gone _ (a := { a with s.psv := derived a.s }) hu hall (.inl h) ((causes c o hc).mp hp)

end Sys2Proof.Machine
end

