-- ==== Sys2Proof/Proofs/Status.lean ====
section
/-! PROOFS. What a SUBSTATION_STATUS writes of the substations of its source, and the causes that follow from it. -/

namespace Sys2Proof.Machine

/-! ## What a status writes -/

/-- A substation after a status of its telemetry unit. -/
def statusSupply (s : State) (closed : Bool) (load : Nat) (feeders : List Bool) (b : SubId) : Supply :=
  ((s.psv.subs.get b).report closed load feeders (cycles s (s.tst.line.subs.get b).telemetry 3)).flagTrip

/-- The substations of the source have been written. -/
def statusWritten (src : Byte) (closed : Bool) (load : Nat) (feeders : List Bool) (a : Act) : Act :=
  (statusTargets a.s src).foldl (fun a' b => a'.onSupply b fun _ => statusSupply a.s closed load feeders b) a

/-- What a status asks of the INC for the substations. -/
def statusRequests (src : Byte) (closed : Bool) (load : Nat) (feeders : List Bool) (s : State) : List Request :=
  (statusTargets s src).flatMap fun b => tripRequests b (s.psv.subs.get b) (statusSupply s closed load feeders b)

theorem mem_statusTargets {s : State} {src : Byte} {b : SubId} :
    b ∈ statusTargets s src ↔ (s.tst.line.subs.get b).used = true ∧ (s.tst.line.subs.get b).unit = src := by
  simp [statusTargets]

theorem statusReport_none {src : Byte} {a : Act} (h : statusTargets a.s src = []) (closed : Bool) (load : Nat)
    (feeders : List Bool) : statusReport src closed load feeders a = a := by
  unfold statusReport
  rw [h]

theorem statusReport_some {src : Byte} {a : Act} (h : statusTargets a.s src ≠ []) (closed : Bool) (load : Nat)
    (feeders : List Bool) :
    ∃ ts, statusReport src closed load feeders a
      = deriveSupply (statusRequests src closed load feeders a.s) ts (statusWritten src closed load feeders a) := by
  unfold statusReport statusRequests statusWritten
  generalize statusTargets a.s src = l at h
  cases l with
  | nil => exact absurd rfl h
  | cons b l => exact ⟨_, rfl⟩

/-- Substations written each with its own values. -/
theorem foldl_onSupply_supply (f : SubId → Supply) (l : List SubId) (a : Act) (b : SubId) :
    (l.foldl (fun a' b => a'.onSupply b fun _ => f b) a).supply b = if b ∈ l then f b else a.supply b := by
  induction l generalizing a with
  | nil => simp
  | cons c l ih =>
    rw [List.foldl_cons, ih, Act.onSupply_supply]
    by_cases hb : b ∈ l
    · simp [hb]
    · by_cases hc : c = b
      · simp [hc]
      · simp [hb, hc, Ne.symm hc]

theorem statusWritten_supply (src : Byte) (closed : Bool) (load : Nat) (feeders : List Bool) (a : Act) (b : SubId) :
    (statusWritten src closed load feeders a).supply b
      = if b ∈ statusTargets a.s src then statusSupply a.s closed load feeders b else a.supply b :=
  foldl_onSupply_supply _ _ a b

/-- What the writing of the substations leaves. -/
theorem statusWritten_frame (src : Byte) (closed : Bool) (load : Nat) (feeders : List Bool) (a : Act) :
    statusWritten src closed load feeders a
      = { a with s.psv.subs := (statusWritten src closed load feeders a).s.psv.subs } := by
  unfold statusWritten
  generalize statusTargets a.s src = l
  generalize statusSupply a.s closed load feeders = f
  induction l generalizing a with
  | nil => rfl
  | cons b l ih => rw [List.foldl_cons, ih]; rfl

theorem statusSupply_trip (s : State) (closed : Bool) (load : Nat) (feeders : List Bool) (b : SubId) :
    (statusSupply s closed load feeders b).trip = !closed := by
  cases closed <;> rfl

/-! ## What a status asks -/

theorem tripRequests_key {r : Request} {b : SubId} {old new : Supply} (h : r ∈ tripRequests b old new) :
    r.key = (.telemetryLoss, .substation b) ∨ r.key = (.substationTrip, .substation b) := by
  simp only [tripRequests, List.mem_append, List.mem_ite_nil_right, List.mem_singleton] at h
  rcases h with ((⟨-, rfl⟩ | ⟨-, rfl⟩) | ⟨-, rfl⟩) | ⟨-, rfl⟩
  · exact .inl rfl
  · exact .inr rfl
  · exact .inr rfl
  · exact .inl rfl

theorem deadRequests_key {r : Request} {x : SecId} {old new : Picture} (h : r ∈ deadRequests x old new) :
    r.key = (.powerLoss, .sec x) := by
  unfold deadRequests at h
  split at h
  · rw [List.mem_singleton.mp h]; rfl
  · split at h
    · rw [List.mem_singleton.mp h]; rfl
    · exact absurd h List.not_mem_nil

/-- Of a substation that is tripped the trip is raised. -/
theorem tripRequests_tripped {r : Request} {b : SubId} {old new : Supply} (hs : new.state = .tripped)
    (h : r ∈ tripRequests b old new) (hk : r.key = (.substationTrip, .substation b)) :
    r = .raise .substationTrip (.substation b) true := by
  simp only [tripRequests, List.mem_append, List.mem_ite_nil_right, List.mem_singleton] at h
  rcases h with ((⟨-, rfl⟩ | ⟨-, rfl⟩) | ⟨⟨hn, -⟩, rfl⟩) | ⟨-, rfl⟩
  · cases hk
  · rfl
  · rw [hs] at hn; cases hn
  · cases hk

/-- Of a substation that is ONLINE the trip is reported gone. -/
theorem tripRequests_online {r : Request} {b : SubId} {old new : Supply} (hs : new.state = .online)
    (h : r ∈ tripRequests b old new) (hk : r.key = (.substationTrip, .substation b)) :
    r = .gone .substationTrip (.substation b) := by
  simp only [tripRequests, List.mem_append, List.mem_ite_nil_right, List.mem_singleton] at h
  rcases h with ((⟨-, rfl⟩ | ⟨⟨hn, -⟩, rfl⟩) | ⟨-, rfl⟩) | ⟨-, rfl⟩
  · cases hk
  · rw [hs] at hn; cases hn
  · rfl
  · cases hk

/-- Of a substation that is not STALE the silence is reported gone. -/
theorem tripRequests_heard {r : Request} {b : SubId} {old new : Supply} (hs : new.state ≠ .stale)
    (h : r ∈ tripRequests b old new) (hk : r.key = (.telemetryLoss, .substation b)) :
    r = .gone .telemetryLoss (.substation b) := by
  simp only [tripRequests, List.mem_append, List.mem_ite_nil_right, List.mem_singleton] at h
  rcases h with ((⟨-, rfl⟩ | ⟨-, rfl⟩) | ⟨-, rfl⟩) | ⟨⟨hn, -⟩, rfl⟩
  · rfl
  · cases hk
  · cases hk
  · exact absurd hn hs

theorem deadRequests_dead {r : Request} {x : SecId} {old new : Picture} (hs : new.state = some .dead)
    (h : r ∈ deadRequests x old new) : r = .raise .powerLoss (.sec x) true := by
  unfold deadRequests at h
  split at h
  · exact List.mem_singleton.mp h
  · rw [if_neg (fun e => e.2 hs)] at h
    exact absurd h List.not_mem_nil

theorem deadRequests_alive {r : Request} {x : SecId} {old new : Picture} (hs : new.state ≠ some .dead)
    (h : r ∈ deadRequests x old new) : r = .gone .powerLoss (.sec x) := by
  unfold deadRequests at h
  rw [if_neg fun e => hs e.1] at h
  split at h
  · exact List.mem_singleton.mp h
  · exact absurd h List.not_mem_nil

section
variable {src : Byte} {closed : Bool} {load : Nat} {feeders : List Bool} {s s' : State} {r : Request}

/-- The requests of a substation's key are those of its own change. -/
theorem asked_substation {cls : IncClass} {b : SubId}
    (hr : r ∈ statusRequests src closed load feeders s ++ sectionRequests s') (hk : r.key = (cls, .substation b)) :
    r ∈ tripRequests b (s.psv.subs.get b) (statusSupply s closed load feeders b) := by
  rcases List.mem_append.mp hr with h | h
  · obtain ⟨d, -, hd⟩ := List.mem_flatMap.mp h
    have same : IncObject.substation d = .substation b := by
      rcases tripRequests_key hd with e | e
      · exact (congrArg Prod.snd e).symm.trans (congrArg Prod.snd hk)
      · exact (congrArg Prod.snd e).symm.trans (congrArg Prod.snd hk)
    cases same
    exact hd
  · obtain ⟨x, -, hx⟩ := List.mem_flatMap.mp h
    cases (congrArg Prod.snd (deadRequests_key hx)).symm.trans (congrArg Prod.snd hk)

/-- The requests of a section's key are those of its own change. -/
theorem asked_section {x : SecId} (hr : r ∈ statusRequests src closed load feeders s ++ sectionRequests s')
    (hk : r.key = (.powerLoss, .sec x)) : r ∈ deadRequests x (s'.psv.secs.get x) ((derived s').secs.get x) := by
  rcases List.mem_append.mp hr with h | h
  · obtain ⟨d, -, hd⟩ := List.mem_flatMap.mp h
    rcases tripRequests_key hd with e | e
    · cases (congrArg Prod.snd e).symm.trans (congrArg Prod.snd hk)
    · cases (congrArg Prod.snd e).symm.trans (congrArg Prod.snd hk)
  · obtain ⟨y, -, hy⟩ := List.mem_flatMap.mp h
    have same : IncObject.sec y = .sec x := (congrArg Prod.snd (deadRequests_key hy)).symm.trans (congrArg Prod.snd hk)
    cases same
    exact hy

theorem mem_asked_substation {b : SubId} (hb : b ∈ statusTargets s src)
    (h : r ∈ tripRequests b (s.psv.subs.get b) (statusSupply s closed load feeders b)) :
    r ∈ statusRequests src closed load feeders s ++ sectionRequests s' :=
  List.mem_append_left _ (List.mem_flatMap.mpr ⟨b, hb, h⟩)

theorem mem_asked_section {x : SecId} (h : r ∈ deadRequests x (s'.psv.secs.get x) ((derived s').secs.get x)) :
    r ∈ statusRequests src closed load feeders s ++ sectionRequests s' :=
  List.mem_append_right _ (List.mem_flatMap.mpr ⟨x, mem_indices x, h⟩)

end

/-! ## The picture and the causes after a status -/

/-- What of a substation stands after a status. -/
theorem heard_statusReport (src : Byte) (closed : Bool) (load : Nat) (feeders : List Bool) (a : Act) (b : SubId) :
    ((statusReport src closed load feeders a).supply b).heard
      = (if b ∈ statusTargets a.s src then statusSupply a.s closed load feeders b else a.supply b).heard := by
  by_cases h : statusTargets a.s src = []
  · rw [statusReport_none h, h, if_neg List.not_mem_nil]
  · obtain ⟨ts, e⟩ := statusReport_some h closed load feeders
    rw [e, ← statusWritten_supply]
    exact heard_deriveSupply _ _ _ b

/-- The sections stand as derived. -/
theorem secs_deriveSupply (l : List Request) (ts : List SubId) (a : Act) :
    (deriveSupply l ts a).s.psv.secs = (derived a.s).secs := by
  obtain ⟨-, -, -, secs⟩ := residue_rest (residue_deriveSupply l ts a)
  exact secs

theorem state_of_heard {v w : Supply} (h : v.heard = w.heard) : v.state = w.state := congrArg Prod.fst h

theorem causePresent_iff {a : Act} {c : IncClass} {o : IncObject} : CausePresent a.s c o ↔ a.books.causes c o := Iff.rfl

theorem books_refused (a : Act) : a.books.refused = a.s.inc.refused := rfl

theorem keyLaw_books {a : Act} (h : KeyLaw a.s.inc) : KeyLaw a.books := ⟨h.keys, h.once, h.resolved⟩

section
variable {src : Byte} {closed : Bool} {load : Nat} {feeders : List Bool} {a : Act} {ts : List SubId} {c : IncClass}
  {o : IncObject}

/-- What a status asks of the INC, the sections after it. -/
def statusAsked (src : Byte) (closed : Bool) (load : Nat) (feeders : List Bool) (a : Act) : List Request :=
  statusRequests src closed load feeders a.s ++ sectionRequests (statusWritten src closed load feeders a).s

/-- The action after a status that some substation acts on; `ts` are those that enter TRIPPED. -/
def statusDerived (src : Byte) (closed : Bool) (load : Nat) (feeders : List Bool) (ts : List SubId) (a : Act) : Act :=
  deriveSupply (statusRequests src closed load feeders a.s) ts (statusWritten src closed load feeders a)

theorem statusWritten_books (src : Byte) (closed : Bool) (load : Nat) (feeders : List Bool) (a : Act) :
    (statusWritten src closed load feeders a).books = a.books := by
  rw [statusWritten_frame]; rfl

theorem statusWritten_requests (src : Byte) (closed : Bool) (load : Nat) (feeders : List Bool) (a : Act) :
    (statusWritten src closed load feeders a).requests = a.requests := by
  rw [statusWritten_frame]

theorem status_raised (hn : a.requests = []) (law : KeyLaw a.books) (below : a.books.refused < 65535)
    (refused : (statusDerived src closed load feeders ts a).books.refused = a.books.refused) (hc : c ≠ .powerWait)
    (hall : ∀ r ∈ statusAsked src closed load feeders a, r.key = (c, o) → r = .raise c o true)
    (h : .raise c o true ∈ statusAsked src closed load feeders a) :
    (statusDerived src closed load feeders ts a).books.causes c o := by
  have books := statusWritten_books src closed load feeders a
  refine deriveSupply_raised ts (a := statusWritten src closed load feeders a) ?_ ?_ ?_ ?_ hc hall h
  · rw [books]; exact law
  · rw [statusWritten_requests]; exact hn
  · rw [books]; exact below
  · rw [books]; exact refused

theorem status_gone (hn : a.requests = []) (law : KeyLaw a.books) (hc : c ≠ .powerWait)
    (hall : ∀ r ∈ statusAsked src closed load feeders a, r.key = (c, o) → r = .gone c o)
    (h : .gone c o ∈ statusAsked src closed load feeders a) :
    ¬(statusDerived src closed load feeders ts a).books.causes c o := by
  refine deriveSupply_gone ts (a := statusWritten src closed load feeders a) ?_ ?_ hc hall h
  · rw [statusWritten_books]; exact law
  · rw [statusWritten_requests]; exact hn

/-- The state of a substation after a status is what was written. -/
theorem state_statusDerived (b : SubId) :
    ((statusDerived src closed load feeders ts a).supply b).state
      = if b ∈ statusTargets a.s src then (if closed then .online else .tripped) else (a.supply b).state := by
  have e := state_of_heard (heard_deriveSupply (statusRequests src closed load feeders a.s) ts
    (statusWritten src closed load feeders a) b)
  rw [statusDerived, Act.supply, e, ← Act.supply, statusWritten_supply]
  split <;> rfl

/-- A section after a status is as derived, and the status has compared it with the section before. -/
theorem secs_statusDerived (x : SecId) :
    (statusDerived src closed load feeders ts a).s.psv.secs.get x
        = (derived (statusWritten src closed load feeders a).s).secs.get x
      ∧ (statusWritten src closed load feeders a).s.psv.secs.get x = a.s.psv.secs.get x := by
  rw [statusDerived, secs_deriveSupply]
  refine ⟨rfl, ?_⟩
  rw [statusWritten_frame]

/-- Where no raise is refused, the causes follow from what a status changed. -/
theorem causesFollow_statusDerived (hn : a.requests = []) (none_refused :
    NoneRefused a.s (statusDerived src closed load feeders ts a).s) :
    CausesFollow a.s (statusDerived src closed load feeders ts a).s := by
  obtain ⟨law, below, refused⟩ := none_refused
  have law := keyLaw_books law.keyLaw
  rw [← books_refused] at below
  rw [← books_refused, ← books_refused] at refused
  have state := @state_statusDerived src closed load feeders a ts
  have secs := @secs_statusDerived src closed load feeders a ts
  exact {
    trip := fun b hs ht hu => by
      have written := (state b).symm.trans hu
      split at written
      · next hb =>
        have tripped : (statusSupply a.s closed load feeders b).state = .tripped := written
        refine causePresent_iff.mpr ?_
        refine status_raised hn law below refused IncClass.noConfusion (fun r hr hk => ?_) ?_
        · exact tripRequests_tripped tripped (asked_substation hr hk) hk
        · refine mem_asked_substation hb ?_
          simp [tripRequests, tripped, hs, ht]
      · exact absurd written hs
    restored := fun b hs ht hu => by
      have written := (state b).symm.trans hu
      split at written
      · next hb =>
        have online : (statusSupply a.s closed load feeders b).state = .online := written
        refine mt causePresent_iff.mp ?_
        refine status_gone hn law IncClass.noConfusion (fun r hr hk => ?_) ?_
        · exact tripRequests_online online (asked_substation hr hk) hk
        · refine mem_asked_substation hb ?_
          simp [tripRequests, online, hs, ht]
      · exact absurd written hs
    silent := fun b hs hu => by
      have written := (state b).symm.trans hu
      split at written
      · split at written
        · cases written
        · cases written
      · exact absurd written hs
    heard := fun b hs hu => by
      have written := state b
      split at written
      · next hb =>
        have heard : (statusSupply a.s closed load feeders b).state ≠ .stale := fun e => hu (written.trans e)
        refine mt causePresent_iff.mp ?_
        refine status_gone hn law IncClass.noConfusion (fun r hr hk => ?_) ?_
        · exact tripRequests_heard heard (asked_substation hr hk) hk
        · refine mem_asked_substation hb ?_
          simp [tripRequests, heard, hs]
      · exact absurd (written.trans hs) hu
    dead := fun x hs hu => by
      rw [(secs x).1] at hu
      refine causePresent_iff.mpr ?_
      refine status_raised hn law below refused IncClass.noConfusion (fun r hr hk => ?_) ?_
      · exact deadRequests_dead hu (asked_section hr hk)
      · refine mem_asked_section (x := x) ?_
        rw [deadRequests, (secs x).2, if_pos ⟨hu, hs⟩]
        exact List.mem_singleton_self _
    alive := fun x hs hu => by
      rw [(secs x).1] at hu
      refine mt causePresent_iff.mp ?_
      refine status_gone hn law IncClass.noConfusion (fun r hr hk => ?_) ?_
      · exact deadRequests_alive hu (asked_section hr hk)
      · refine mem_asked_section (x := x) ?_
        rw [deadRequests, (secs x).2, if_neg fun e => hu e.1, if_pos ⟨hs, hu⟩]
        exact List.mem_singleton_self _ }

end

/-- Where no raise is refused, the causes follow from what a status changed. -/
theorem causesFollow_statusReport {src : Byte} {closed : Bool} {load : Nat} {feeders : List Bool} {a : Act}
    (hn : a.requests = []) (h : NoneRefused a.s (statusReport src closed load feeders a).s) :
    CausesFollow a.s (statusReport src closed load feeders a).s := by
  by_cases ht : statusTargets a.s src = []
  · rw [statusReport_none ht]
    exact {
      trip := fun b h _ h' => absurd h' h
      restored := fun b h _ h' => absurd h' h
      silent := fun b h h' => absurd h' h
      heard := fun b h h' => absurd h h'
      dead := fun x h h' => absurd h' h
      alive := fun x h h' => absurd h h' }
  · obtain ⟨ts, e⟩ := statusReport_some ht closed load feeders
    rw [e] at h ⊢
    exact causesFollow_statusDerived hn h

/-! ## The trains and the picture -/

theorem sameTrains_statusReport (src : Byte) (closed : Bool) (load : Nat) (feeders : List Bool) (a : Act) :
    sameTrains a.s (statusReport src closed load feeders a).s := by
  by_cases h : statusTargets a.s src = []
  · rw [statusReport_none h]
    exact fun _ => rfl
  · obtain ⟨ts, e⟩ := statusReport_some h closed load feeders
    rw [e]
    intro i
    rw [sameTrains_deriveSupply _ ts (statusWritten src closed load feeders a) i, statusWritten_frame]

theorem pictureStands_statusReport {src : Byte} {a : Act} {b : SubId} (h : b ∈ statusTargets a.s src) (closed : Bool)
    (load : Nat) (feeders : List Bool) : pictureStands (statusReport src closed load feeders a).s := by
  obtain ⟨ts, e⟩ := statusReport_some (List.ne_nil_of_mem h) closed load feeders
  rw [e]
  exact pictureStands_deriveSupply _ _ _

/-- What a status writes of a substation, field by field. -/
structure StatusRead (s : State) (closed : Bool) (load : Nat) (feeders : List Bool) (b : SubId) (v : Supply) : Prop where
  incomer : v.incomer = some closed
  load : v.load = some load
  state : v.state = if closed then .online else .tripped
  telemetry : v.telemetry = some (cyclesAt (cycleLength s) (s.tst.line.subs.get b).telemetry 3)
  trip : v.trip = !closed
  credit : v.credit = (s.psv.subs.get b).credit
  feeders : v.feeders = reportFeeders feeders (s.psv.subs.get b).feeders

theorem statusRead_of_heard {s : State} {closed : Bool} {load : Nat} {feeders : List Bool} {b : SubId} {v : Supply}
    (h : v.heard = (statusSupply s closed load feeders b).heard) : StatusRead s closed load feeders b v where
  incomer := congrArg (·.2.1) h
  load := congrArg (·.2.2.1) h
  state := congrArg (·.1) h
  telemetry := congrArg (·.2.2.2.2.1) h
  trip := (congrArg (·.2.2.2.2.2.2) h).trans (statusSupply_trip s closed load feeders b)
  credit := congrArg (·.2.2.2.2.2.1) h
  feeders := congrArg (·.2.2.2.1) h

/-! ## The step -/

/-- A SUBSTATION_STATUS that is accepted outside BARE mode is remembered, acted on and forwarded. -/
theorem exec_status_accepted {s : State} {q : FieldPort} {h : Header} {incomer load : Byte} {feeders : List Byte}
    {closed : Bool} {k : Nat} {fs : List Bool}
    (ha : Accepted s q (statusTelegram h incomer load feeders) (.status closed k fs)) (hm : mode s ≠ .bare) :
    let t := statusTelegram h incomer load feeders
    exec (.substationStatus q h incomer load feeders) s
      = .next (settle (forwardThenFinish (statusReport h.src closed k fs (Act.start (remember t s)), some t))) := by
  have received : exec (.substationStatus q h incomer load feeders) s
      = .next (settle (receiveTelegram q.port (statusTelegram h incomer load feeders) s)) :=
    congrArg _ (whenAwake_awake _ ha.awake)
  have kind : (statusTelegram h incomer load feeders).kind ≠ kindMarker := by
    rw [show (statusTelegram h incomer load feeders).kind = kindStatus from rfl]; decide
  have acted : dispatch (statusTelegram h incomer load feeders) (.status closed k fs)
      (Act.start (remember (statusTelegram h incomer load feeders) s))
        = (statusReport h.src closed k fs (Act.start (remember (statusTelegram h incomer load feeders) s)),
          some (statusTelegram h incomer load feeders)) := by
    unfold dispatch
    dsimp only
    rw [if_neg (show mode (Act.start (remember _ s)).s ≠ .bare from hm)]
    rfl
  rw [received, receiveTelegram_accepted ha, if_neg kind, acceptField, acted]

theorem roomLimit_status (s : State) (t : Telegram) (h : t.kind = kindStatus) :
    roomLimit s (forwardClass t) = min (warnLevel s) 64 := by
  rw [forwardClass, h]
  rfl

/-- Settles O27: the substations of the source are written, the picture is derived, and the causes of what changed are raised
or reported gone in the derivation, whose later work asks only for the end of power waits. -/
theorem statusTakesEffect : Obligations.StatusTakesEffect := by
  intro s q h incomer load feeders closed k fs ha hm
  have sent := exec_status_accepted ha hm
  have kind : (statusTelegram h incomer load feeders).kind = kindStatus := rfl
  generalize statusTelegram h incomer load feeders = t at sent kind ⊢
  dsimp only at sent
  have frame := forwardThenFinish_frame (statusReport h.src closed k fs (Act.start (remember t s))) t
  obtain ⟨tiu, lck, tst, -⟩ := blank_fields (blank_statusReport h.src closed k fs (Act.start (remember t s)))
  have room : (statusReport h.src closed k fs (Act.start (remember t s))).s.tiu.room = s.tiu.room :=
    (congrArg Tiu.room tiu).trans rfl
  have limit : roomLimit (statusReport h.src closed k fs (Act.start (remember t s))).s (forwardClass t)
      = min (warnLevel s) 64 := by
    rw [roomLimit_status _ _ kind, warnLevel, tablesValid, tst]
    rfl
  have forwarded := forwarded_forwardThenFinish room limit
  have heard := heard_statusReport h.src closed k fs (Act.start (remember t s))
  have psv := congrArg State.psv frame
  refine ⟨_, sent, fun b hu hs => ?_, fun b hb => ?_, fun hb => ?_, fun hb => ?_, ?_, (congrArg State.lck frame).trans lck,
    (congrArg State.tst frame).trans tst, fun hn => ?_, forwarded⟩
  · have target : b ∈ statusTargets (Act.start (remember t s)).s h.src := mem_statusTargets.mpr ⟨hu, hs⟩
    have written := heard b
    rw [if_pos target] at written
    have read := statusRead_of_heard written
    rw [psv]
    refine ⟨read.incomer, read.load, read.state, read.telemetry, read.trip, read.credit, fun f => ?_⟩
    exact (congrArg (Table.get · f) read.feeders).trans (Table.get_build _ f)
  · have apart : b ∉ statusTargets (Act.start (remember t s)).s h.src := fun e => hb (mem_statusTargets.mp e)
    have written := heard b
    rw [if_neg apart] at written
    rw [psv]
    exact written
  · obtain ⟨b, hu, hs⟩ := hb
    have target : b ∈ statusTargets (Act.start (remember t s)).s h.src := mem_statusTargets.mpr ⟨hu, hs⟩
    have stands := pictureStands_statusReport target closed k fs
    rw [frame]
    exact stands
  · have apart : statusTargets (Act.start (remember t s)).s h.src = [] :=
      List.eq_nil_iff_forall_not_mem.mpr fun b e => hb b (mem_statusTargets.mp e)
    rw [frame, statusReport_none apart]
    exact ⟨rfl, rfl, rfl, rfl⟩
  · have same := sameTrains_statusReport h.src closed k fs (Act.start (remember t s))
    rw [frame]
    exact same
  · have follow := causesFollow_statusReport (src := h.src) (closed := closed) (load := k) (feeders := fs)
      (a := Act.start (remember t s)) rfl
    rw [frame] at hn ⊢
    obtain ⟨trip, restored, silent, heard, dead, alive⟩ := follow hn
    exact ⟨trip, restored, silent, heard, dead, alive⟩

end Sys2Proof.Machine
end

