-- ==== Sys2Proof/Proofs/IncidentEntries.lean ====
section
/-! PROOFS. Where every entry of the zones comes of an incident, the announcements of incidents keep it so. -/

namespace Sys2Proof.Machine

/-- The entry comes of an incident. -/
def Entry.ofIncident (e : Entry) : Prop := ∃ n, e.source = .incident n

/-- Every entry of a zone, the current one among them, comes of an incident. -/
structure Zone.OfIncidents (q : Zone) : Prop where
  queue : ∀ e ∈ q.queue, e.ofIncident
  current : ∀ e, q.current = some e → e.ofIncident

/-- Every entry of the zones comes of an incident. -/
def Act.OfIncidents (a : Act) : Prop := ∀ z, (a.zone z).OfIncidents

theorem Zone.OfIncidents.empty {q : Zone} (hq : q.queue = []) (hc : q.current = none) : q.OfIncidents :=
  ⟨fun e he => absurd (hq ▸ he) List.not_mem_nil, fun e he => by rw [hc] at he; cases he⟩

/-! ## Queues -/

theorem mem_insertEntry {e x : Entry} {l : List Entry} (h : x ∈ insertEntry e l) : x = e ∨ x ∈ l := by
  induction l with
  | nil => exact .inl (List.mem_singleton.mp h)
  | cons y l ih =>
    unfold insertEntry at h
    split at h
    · exact List.mem_cons.mp h
    · rcases List.mem_cons.mp h with rfl | h
      · exact .inr List.mem_cons_self
      · exact (ih h).imp_right (List.mem_cons_of_mem y)

/-- Renumbering keeps where the entries come from. -/
theorem renumberFrom_ofIncident {n : Nat} {c : Option Entry} {l : List Entry} (hl : ∀ e ∈ l, e.ofIncident)
    (hc : ∀ e, c = some e → e.ofIncident) :
    (∀ e ∈ (renumberFrom n c l).1, e.ofIncident) ∧ ∀ e, (renumberFrom n c l).2.1 = some e → e.ofIncident := by
  induction l generalizing n c with
  | nil =>
    cases c with
    | none => exact ⟨fun e he => absurd he List.not_mem_nil, fun e he => by cases he⟩
    | some d => exact ⟨fun e he => absurd he List.not_mem_nil, fun e he => by cases he; exact hc d rfl⟩
  | cons x l ih =>
    have head := hl x List.mem_cons_self
    have tail : ∀ e ∈ l, e.ofIncident := fun e he => hl e (List.mem_cons_of_mem x he)
    have none_from : ∀ e, (none : Option Entry) = some e → e.ofIncident := fun e he => by cases he
    cases c with
    | none =>
      obtain ⟨queue, current⟩ := ih (n := n + 1) tail none_from
      exact ⟨List.forall_mem_cons.mpr ⟨head, queue⟩, current⟩
    | some d =>
      unfold renumberFrom
      dsimp only
      split
      · obtain ⟨queue, -⟩ := ih (n := n + 2) tail none_from
        exact ⟨List.forall_mem_cons.mpr ⟨head, queue⟩, fun e he => by cases he; exact hc d rfl⟩
      · obtain ⟨queue, current⟩ := ih (n := n + 1) tail hc
        exact ⟨List.forall_mem_cons.mpr ⟨head, queue⟩, current⟩

theorem countArrival_ofIncidents {q : Zone} (h : q.OfIncidents) : (countArrival q).OfIncidents := by
  unfold countArrival
  split
  · exact ⟨h.queue, h.current⟩
  · obtain ⟨queue, current⟩ := renumberFrom_ofIncident (n := 0) h.queue h.current
    exact ⟨queue, current⟩

theorem returnEntry_ofIncidents {q : Zone} {e : Entry} (h : q.OfIncidents) (he : e.ofIncident) :
    (returnEntry e q).OfIncidents := by
  unfold returnEntry
  split
  · exact h
  · split
    · exact ⟨fun x hx => (mem_insertEntry hx).elim (fun hxe => hxe ▸ he) (h.queue x), h.current⟩
    · split
      · split
        · exact ⟨fun x hx => (mem_insertEntry hx).elim (fun hxe => hxe ▸ he) fun hx => h.queue x (List.mem_of_mem_dropLast hx),
            h.current⟩
        · exact ⟨h.queue, h.current⟩
      · exact h

/-! ## Zones -/

theorem putZone_ofIncidents {a : Act} (h : a.OfIncidents) {z : ZoneId} {q : Zone} (hq : q.OfIncidents) :
    (a.putZone z q).OfIncidents := by
  intro y
  rw [Act.putZone_zone]
  split
  · exact hq
  · exact h y

theorem issueEntry_ofIncidents {a : Act} (h : a.OfIncidents) (z : ZoneId) (p : Bool) {e : Entry} (he : e.ofIncident) :
    (issueEntry z p e a).OfIncidents :=
  putZone_ofIncidents (a := a.order _) h
    ⟨fun x hx => (h z).queue x (List.mem_of_mem_erase hx), fun x hx => by cases hx; exact he⟩

theorem firstEligible_mem {l : List Entry} {e : Entry} (h : firstEligible l = some e) : e ∈ l := List.mem_of_find?_eq_some h

theorem issueTest_ofIncidents {a : Act} (h : a.OfIncidents) (z : ZoneId) : (issueTest z a).OfIncidents := by
  unfold issueTest
  split
  · split
    · next e he => exact issueEntry_ofIncidents h z _ ((h z).queue e (firstEligible_mem he))
    · exact h
  · exact h

theorem preemptTest_ofIncidents {a : Act} (h : a.OfIncidents) (z : ZoneId) : (preemptTest z a).OfIncidents := by
  unfold preemptTest
  dsimp only
  split
  · exact issueTest_ofIncidents h z
  · split
    · next e he => exact issueEntry_ofIncidents h z _ ((h z).queue e (firstEligible_mem he))
    · exact h
  · split
    · next c e hc he =>
      split
      · exact h
      · have issued := issueEntry_ofIncidents h z true ((h z).queue e (firstEligible_mem he))
        obtain ⟨n, hn⟩ := (h z).current c hc
        exact putZone_ofIncidents issued (returnEntry_ofIncidents (issued z) ⟨n, hn⟩)
    · exact h
  · exact h
  · exact h

theorem placedTest_ofIncidents {a : Act} (h : a.OfIncidents) (z : ZoneId) (p : Priority) (k : Nat) :
    (placedTest z p k a).OfIncidents := by
  unfold placedTest
  split
  · split
    · exact preemptTest_ofIncidents h z
    · exact h
  · exact issueTest_ofIncidents h z

theorem placeEntry_ofIncidents {a : Act} (h : a.OfIncidents) (z : ZoneId) {n : NewEntry}
    (hn : ∃ k, n.source = .incident k) : (placeEntry z n a).1.OfIncidents := by
  have kept {q : Zone} (hq : q.queue = (a.zone z).queue) (hc : q.current = (a.zone z).current) :
      (a.putZone z q).OfIncidents :=
    putZone_ofIncidents h ⟨hq ▸ (h z).queue, hc ▸ (h z).current⟩
  have joined {q : Zone} {l : List Entry} (hl : ∀ e ∈ l, e ∈ (a.zone z).queue)
      (hq : q.queue = insertEntry (makeEntry a.s n (a.zone z).arrivals) l) (hc : q.current = (a.zone z).current) :
      (a.putZone z (countArrival q)).OfIncidents := by
    refine putZone_ofIncidents h (countArrival_ofIncidents ⟨fun e he => ?_, hc ▸ (h z).current⟩)
    rw [hq] at he
    rcases mem_insertEntry he with rfl | he
    · exact hn
    · exact (h z).queue e (hl e he)
  unfold placeEntry
  dsimp only
  split
  · exact kept rfl rfl
  · split
    · refine putZone_ofIncidents h ⟨(h z).queue, fun e he => ?_⟩
      obtain ⟨c, hc, rfl⟩ := Option.map_eq_some_iff.mp he
      exact (h z).current c hc
    · split
      · refine placedTest_ofIncidents ?_ z _ _
        refine putZone_ofIncidents h ⟨fun e he => ?_, (h z).current⟩
        obtain ⟨x, hx, rfl⟩ := List.mem_map.mp he
        split
        · exact (h z).queue x hx
        · exact (h z).queue x hx
      · split
        · refine placedTest_ofIncidents ?_ z _ _
          exact joined (fun _ he => he) rfl rfl
        · split
          · split
            · refine placedTest_ofIncidents ?_ z _ _
              exact joined (fun _ he => List.mem_of_mem_dropLast he) rfl rfl
            · exact kept rfl rfl
          · exact h

theorem announceIncident_ofIncidents {a : Act} (h : a.OfIncidents) (r : Incident) :
    (announceIncident r a).OfIncidents := by
  unfold announceIncident
  split
  · exact h
  · next t zs chosen =>
    clear chosen
    dsimp only
    generalize (classRow a.s r.cls).repeats = k
    induction zs generalizing a with
    | nil => exact h
    | cons z zs ih =>
      refine ih ?_
      exact placeEntry_ofIncidents h z ⟨r.number, rfl⟩

end Sys2Proof.Machine
end

