-- ==== Sys2Proof/Proofs/WarmRestart.lean ====
section
/-! PROOFS. RESTART WARM: with no train in the part, the raises for what stands write the incident records, the announcements
and the reports, and nothing of the trains and the supply. -/

namespace Sys2Proof.Machine

/-! ## A part without trains -/

/-- No train record is in use. -/
def Act.NoTrains (a : Act) : Prop := ∀ i, a.train i = none

/-- What of an action the trains and the supply hold, and what it hands on. -/
def Act.held (a : Act) : Rrg × Psv × List Request × List (List Wait) := (a.s.rrg, a.s.psv, a.requests, a.handOvers)

/-- What follows from an action writes neither trains nor supply, hands nothing on, and places entries of incidents only. -/
structure Calm (a b : Act) : Prop where
  held : b.held = a.held
  entries : a.OfIncidents → b.OfIncidents

theorem Calm.refl (a : Act) : Calm a a := ⟨rfl, id⟩

theorem Calm.trans {a b c : Act} (h : Calm a b) (k : Calm b c) : Calm a c :=
  ⟨k.held.trans h.held, fun e => k.entries (h.entries e)⟩

/-- An update of neither trains, supply nor zones. -/
theorem Calm.of_eq {a b : Act} (hh : b.held = a.held) (hz : b.s.asc = a.s.asc) : Calm a b :=
  ⟨hh, fun e z => by rw [Act.zone, hz]; exact e z⟩

theorem Calm.noTrains {a b : Act} (h : Calm a b) (ha : a.NoTrains) : b.NoTrains := fun i => by
  rw [Act.train, show b.s.rrg = a.s.rrg from congrArg Prod.fst h.held]
  exact ha i

theorem holdStart_noTrains {a : Act} (h : a.NoTrains) (p : TpId) : holdStart p a = a := by
  have nobody : takenAt a.s p = [] := by
    refine List.filter_eq_nil_iff.mpr fun i _ => ?_
    rw [show a.s.rrg.trains.get i = none from h i]
    exact Bool.false_ne_true
  unfold holdStart
  split
  · rw [nobody]
  · rfl

theorem holdEnds_noTrains {a : Act} (h : a.NoTrains) (ps : List TpId) : holdEnds ps a = a := by
  have nobody (p : TpId) (b : Nat) (l : List TrainId) :
      l.foldl (fun x i => unholdTrain p b i x) (([] : List Wait), a) = ([], a) := by
    induction l with
    | nil => rfl
    | cons i l ih =>
      rw [List.foldl_cons, show unholdTrain p b i (([] : List Wait), a) = ([], a) by unfold unholdTrain; rw [h i], ih]
  have nowhere (b : Nat) : ps.foldl (fun x p => (indices 48).foldl (fun x i => unholdTrain p b i x) x)
      (([] : List Wait), a) = ([], a) := by
    induction ps with
    | nil => rfl
    | cons p ps ih => rw [List.foldl_cons, nobody, ih]
  unfold holdEnds
  split
  · rfl
  · rw [nowhere]

theorem calm_reckonHolds {m : Act → Act} (hm : ∀ a, Calm a (m a)) {a : Act} (h : a.NoTrains) : Calm a (reckonHolds m a) := by
  have starts (l : List TpId) {b : Act} (hb : b.NoTrains) : l.foldl (fun a p => holdStart p a) b = b := by
    induction l with
    | nil => rfl
    | cons p l ih => rw [List.foldl_cons, holdStart_noTrains hb, ih]
  have reckoned : Calm a { a with s.inc.underHold := Table.build 64 (underHold a.s) } := Calm.of_eq rfl rfl
  unfold reckonHolds
  dsimp only
  rw [starts _ (reckoned.noTrains h), holdEnds_noTrains ((hm _).noTrains (reckoned.noTrains h))]
  exact reckoned.trans (hm _)

theorem calm_announceIncident (r : Incident) (a : Act) : Calm a (announceIncident r a) := by
  refine ⟨?_, fun e => announceIncident_ofIncidents e r⟩
  unfold announceIncident
  split
  · rfl
  · exact foldl_keeps Act.held _ (fun a z => by
      obtain ⟨-, -, -, rrg, psv, -, requests, handOvers⟩ := Act.offAsc_fields (offAsc_placeEntry z _ a)
      rw [Act.held, rrg, psv, requests, handOvers]
      rfl) _ a

theorem calm_takeRecord {a b : Act} {i : IncId} (h : takeRecord a = some (i, b)) : Calm a b := by
  unfold takeRecord at h
  split at h
  · cases h; exact Calm.refl a
  · split at h
    · cases h
    · dsimp only at h
      split at h
      · cases h; exact Calm.of_eq rfl rfl
      · cases h; exact Calm.of_eq rfl rfl

/-- A raise in a part without trains. -/
theorem calm_handleRaise {a : Act} (h : a.NoTrains) (c : IncClass) (o : IncObject) (present : Bool) :
    Calm a (handleRaise c o present a) := by
  have reckoned {b : Act} (hb : Calm a b) {m : Act → Act} (hm : ∀ a, Calm a (m a)) : Calm a (reckonHolds m b) :=
    hb.trans (calm_reckonHolds hm (hb.noTrains h))
  unfold handleRaise
  split
  · split
    · split
      · unfold reopen
        refine reckoned ?_ (calm_announceIncident _)
        exact Calm.of_eq rfl rfl
      · unfold recur
        refine reckoned (m := id) ?_ Calm.refl
        exact Calm.of_eq rfl rfl
    · exact Calm.refl a
  · split
    · next i b hb =>
      unfold openRecord
      refine reckoned ?_ (calm_announceIncident _)
      exact (calm_takeRecord hb).trans (Calm.of_eq rfl rfl)
    · unfold refuseRaise
      dsimp only
      split
      · exact Calm.of_eq rfl rfl
      · exact Calm.of_eq rfl rfl

/-! ## The raises for what stands -/

/-- What holds while the raises of a WARM restart are made: the RRG is `g`, the PSV `p` and the prescaler `k`, nothing waits to
be worked off, every entry comes of an incident, and every record of a cause just raised. -/
structure Restarting (g : Rrg) (p : Psv) (k : Nat) (a : Act) : Prop where
  held : a.held = (g, p, [], [])
  entries : a.OfIncidents
  records : ∀ i r, a.books.records.get i = some r → r.level = 0 ∧ r.state = .raised ∧ r.cause = .present
  keys : KeyLaw a.books
  resolved : a.books.resolved = []
  edges : ∀ j, a.books.edges.get j = .unknown
  prescaler : a.books.prescaler = k

section
variable {g : Rrg} {p : Psv} {k : Nat} {a : Act}

theorem Restarting.idle (h : Restarting g p k a) : Idle a :=
  ⟨congrArg (·.2.2.1) h.held, congrArg (·.2.2.2) h.held⟩

theorem Restarting.noTrains (h : Restarting g p k a) (hg : ∀ i, g.trains.get i = none) : a.NoTrains := fun i => by
  rw [Act.train, show a.s.rrg = g from congrArg (·.1) h.held]
  exact hg i

theorem Restarting.handleRaise (h : Restarting g p k a) (hg : ∀ i, g.trains.get i = none) (c : IncClass) (o : IncObject) :
    Restarting g p k (handleRaise c o true a) := by
  have calm := calm_handleRaise (h.noTrains hg) c o true
  have held := calm.held.trans h.held
  have entries := calm.entries h.entries
  rcases books_handleRaise h.keys c o true with ⟨i, q, taken⟩ | refused
  · obtain ⟨-, edges, prescaler⟩ := taken.kept
    exact {
      held := held
      entries := entries
      keys := taken.keyLaw h.keys
      resolved := by rw [taken.resolved, h.resolved]; rfl
      edges := fun j => edges ▸ h.edges j
      prescaler := prescaler.trans h.prescaler
      records := fun j r hr => by
        rw [taken.get] at hr
        split at hr
        · cases hr
          refine ⟨?_, ?_, taken.cause rfl⟩
          · rcases taken.level with e | ⟨x, hx, e⟩
            · exact e
            · exact e.trans (h.records i x hx).1
          · rcases taken.live with e | ⟨x, hx, -, e⟩
            · exact e
            · exact e.trans (h.records i x hx).2.1
        · exact h.records j r hr }
  · have law := refused.keyLaw h.keys
    obtain ⟨x, e⟩ := refused
    exact {
      held := held
      entries := entries
      keys := law
      resolved := by rw [e]; exact h.resolved
      edges := fun j => by rw [e]; exact h.edges j
      prescaler := by rw [e]; exact h.prescaler
      records := fun j r hr => by rw [e] at hr; exact h.records j r hr }

theorem Restarting.request (h : Restarting g p k a) (hg : ∀ i, g.trains.get i = none) (c : IncClass) (o : IncObject) :
    Restarting g p k (a.request (.raise c o true)) := by
  have raised := h.handleRaise hg c o
  rw [request_idle h.idle (r := .raise c o true) raised.idle]
  exact raised

/-- What stands is raised. -/
theorem standingRaises_raise {s : State} {r : Request} (h : r ∈ standingRaises s) : ∃ c o, r = .raise c o true := by
  unfold standingRaises at h
  rcases List.mem_append.mp h with h | h
  · obtain ⟨b, -, hb⟩ := List.mem_flatMap.mp h
    split at hb
    · split at hb
      · exact ⟨_, _, List.mem_singleton.mp hb⟩
      · exact ⟨_, _, List.mem_singleton.mp hb⟩
      · exact absurd hb List.not_mem_nil
      · exact absurd hb List.not_mem_nil
    · exact absurd hb List.not_mem_nil
  · obtain ⟨x, -, hx⟩ := List.mem_flatMap.mp h
    split at hx
    · exact ⟨_, _, List.mem_singleton.mp hx⟩
    · exact absurd hx List.not_mem_nil

theorem Restarting.standing (h : Restarting g p k a) (hg : ∀ i, g.trains.get i = none) :
    Restarting g p k (Machine.standing a) := by
  have raises (l : List Request) (hl : ∀ r ∈ l, ∃ c o, r = .raise c o true) {b : Act} (hb : Restarting g p k b) :
      Restarting g p k (l.foldl (fun a r => a.request r) b) := by
    induction l generalizing b with
    | nil => exact hb
    | cons r l ih =>
      obtain ⟨c, o, rfl⟩ := hl r List.mem_cons_self
      exact ih (fun q hq => hl q (List.mem_cons_of_mem _ hq)) (hb.request hg c o)
  unfold Machine.standing
  split
  · exact h
  · refine raises _ (fun r hr => standingRaises_raise hr) ?_
    unfold raiseIfUnlocked
    split
    · exact h.request hg _ _
    · exact h

end

/-- Where nothing stands, nothing is raised. -/
theorem standing_nothing {a : Act} (h : tablesValid a.s = true → a.s.lck.lock ≠ .unlocked
      ∧ (∀ b, (a.s.tst.line.subs.get b).used = true → (a.s.psv.subs.get b).state ≠ .tripped ∧ (a.s.psv.subs.get b).state ≠ .stale)
      ∧ ∀ x, (a.s.psv.secs.get x).state ≠ some .dead) : standing a = a := by
  unfold standing
  split
  · rfl
  · next hm =>
    have valid : tablesValid a.s = true := by
      by_contra hv
      exact hm (if_neg hv)
    obtain ⟨lock, subs, secs⟩ := h valid
    have none_raised : standingRaises a.s = [] := by
      unfold standingRaises
      refine List.append_eq_nil_iff.mpr ⟨List.flatMap_eq_nil_iff.mpr fun b _ => ?_,
        List.flatMap_eq_nil_iff.mpr fun x _ => if_neg (secs x)⟩
      split
      · next hu =>
        obtain ⟨tripped, stale⟩ := subs b hu
        split
        · next e => exact absurd e tripped
        · next e => exact absurd e stale
        · rfl
        · rfl
      · rfl
    rw [none_raised, raiseIfUnlocked, if_neg lock]
    rfl

/-- The raises write neither the TIU, the clock nor the tables. -/
theorem residue_standing (a : Act) : (standing a).residue = a.residue := by
  unfold standing
  split
  · rfl
  · rw [foldl_keeps Act.residue _ fun a r => residue_request r a]
    unfold raiseIfUnlocked
    split
    · exact residue_request _ _
    · rfl

end Sys2Proof.Machine
end

