-- ==== Sys2Proof/Proofs/WarmKept.lean ====
section
/-! PROOFS. What a WARM restart keeps and clears, block by block. -/

namespace Sys2Proof.Machine

/-! ## The tables -/

theorem Tst.mark_line (t : Tst) (x : LoadTarget) (l : LineState) (k : SlotState) : (t.mark x l k).line = t.line := by
  cases x <;> rfl

theorem Tst.warm_line (t : Tst) : t.warm.line = t.line := by
  unfold Tst.warm Tst.abandonLoad
  split
  · rfl
  · exact Tst.mark_line t _ _ _

theorem Tst.warm_load (t : Tst) : t.warm.load = none := by
  unfold Tst.warm Tst.abandonLoad
  split
  · assumption
  · rfl

theorem Tst.warm_unloaded {t : Tst} (h : t.load = none) : t.warm.slots = t.slots ∧ t.warm.lineState = t.lineState := by
  unfold Tst.warm Tst.abandonLoad
  rw [h]
  exact ⟨rfl, rfl⟩

theorem Tst.warm_slot {t : Tst} {l : Load} {i : SlotId} (h : t.load = some l) (ht : l.target = .slot i) :
    t.warm.lineState = t.lineState ∧ t.warm.slots = t.slots.set i { state := .empty, profile := none } := by
  unfold Tst.warm Tst.abandonLoad
  rw [h]
  dsimp only
  rw [ht]
  exact ⟨rfl, rfl⟩

theorem Tst.warm_lineLoad {t : Tst} {l : Load} (h : t.load = some l) (ht : l.target = .line) :
    t.warm.lineState = .invalid ∧ t.warm.slots = t.slots := by
  unfold Tst.warm Tst.abandonLoad
  rw [h]
  dsimp only
  rw [ht]
  exact ⟨rfl, rfl⟩

/-- The prescaler is loaded from the tables. -/
theorem freshPrescaler_of_tst {s u : State} (h : s.tst = u.tst) : freshPrescaler s = freshPrescaler u := by
  unfold freshPrescaler cycles cycleLength params activeProfile activeSlot tablesValid
  rw [h]

theorem tablesValid_of_tst {s u : State} (h : s.tst = u.tst) : tablesValid s = tablesValid u := by
  unfold tablesValid
  rw [h]

/-! ## The state from which the raises are made -/

theorem warmState_tst (s : State) : (warmState s).tst = s.tst.warm := rfl

theorem warmState_psv_invalid {s : State} (h : tablesValid (warmState s) = false) : (warmState s).psv = Psv.start := by
  unfold warmState supplyWarm
  exact if_neg (by rw [← tablesValid_of_tst (warmState_tst s), h]; exact Bool.false_ne_true)

/-- The state whose supply a WARM restart derives afresh. -/
def warmSupplies (s : State) : State :=
  { s with tst := s.tst.warm, psv := { subs := s.psv.subs.map Supply.warm, secs := s.psv.secs, deadWaits := [] } }

theorem warmState_psv_valid {s : State} (h : tablesValid (warmState s) = true) :
    (warmState s).psv = derived (warmSupplies s) := by
  unfold warmState supplyWarm
  exact if_pos h

theorem warmState_picture {s : State} (h : tablesValid (warmState s) = true) : pictureStands (warmState s) := by
  have stands := pictureStands_derived (warmSupplies s)
  rw [← warmState_psv_valid h] at stands
  exact stands

/-- What a WARM restart keeps of a substation and what it clears. -/
theorem warmState_supply {s : State} (h : tablesValid (warmState s) = true) (b : SubId) :
    (warmState s).psv.subs.get b
      = { (s.psv.subs.get b).warm with capacity := ((warmState s).psv.subs.get b).capacity } := by
  rw [warmState_psv_valid h]
  simp [derived, warmSupplies]

theorem warmState_asc_invalid {s : State} (h : tablesValid (warmState s) = false) : (warmState s).asc = Asc.start := by
  unfold warmState
  exact if_neg (by rw [show tablesValid { s with tst := s.tst.warm } = tablesValid (warmState s) from rfl, h]
                   exact Bool.false_ne_true)

theorem warmState_zone {s : State} (h : tablesValid (warmState s) = true) (z : ZoneId) :
    (warmState s).asc.zones.get z = (s.asc.zones.get z).warm := by
  have e : (warmState s).asc = { zones := s.asc.zones.map Zone.warm } := if_pos h
  rw [e, Table.get_map]

theorem warmState_restarting (s : State) :
    Restarting { Rrg.start with refused := s.rrg.refused, unplanned := s.rrg.unplanned } (warmState s).psv
      (freshPrescaler (warmState s)) (Act.start (warmState s)) where
  held := rfl
  entries z := by
    rw [Act.zone, Act.start_s]
    cases h : tablesValid (warmState s) with
    | false =>
      rw [warmState_asc_invalid h, show Asc.start.zones.get z = Zone.start .off from Table.get_fill _ z]
      exact Zone.OfIncidents.empty rfl rfl
    | true =>
      rw [warmState_zone h]
      exact Zone.OfIncidents.empty rfl rfl
  records i r hr := by
    cases (Table.get_fill (none : Option Incident) i).symm.trans hr
  keys := {
    keys := fun i j r q hr => by cases (Table.get_fill (none : Option Incident) i).symm.trans hr
    once := List.nodup_nil
    resolved := fun i hi => absurd hi List.not_mem_nil }
  resolved := rfl
  edges j := Table.get_fill _ j
  prescaler := freshPrescaler_of_tst rfl

/-! ## The state after the raises -/

/-- The action of a WARM restart with its raises made. -/
def warmRaised (s : State) : Act := standing (Act.start (warmState s))

theorem warmRaised_restarting (s : State) :
    Restarting { Rrg.start with refused := s.rrg.refused, unplanned := s.rrg.unplanned } (warmState s).psv
      (freshPrescaler (warmState s)) (warmRaised s) :=
  (warmState_restarting s).standing fun i => Table.get_fill _ i

theorem restartWarmly_frame (s : State) :
    restartWarmly s = { (warmRaised s).s with tiu := (restartWarmly s).tiu } := by
  unfold restartWarmly Act.finish
  rw [enterMade_frame]
  rfl

/-- What of the TIU a WARM restart keeps. -/
theorem restartWarmly_tiu (s : State) :
    (restartWarmly s).tiu = { s.tiu with
      duplicates := Table.fill 256 .unknown
      orders := (restartWarmly s).tiu.orders
      room := (restartWarmly s).tiu.room
      counters := { s.tiu.counters with partRefused := (restartWarmly s).tiu.counters.partRefused } } := by
  obtain ⟨-, -, -, -, tiu, -⟩ := residue_outer (residue_standing (Act.start (warmState s)))
  unfold restartWarmly Act.finish
  rw [enterMade_frame, tiu]
  rfl

theorem restartWarmly_room (s : State) :
    ∃ reports : List RoomItem, (∀ x ∈ reports, x.kind = .report) ∧ (restartWarmly s).tiu.room = s.tiu.room ++ reports := by
  obtain ⟨-, -, -, -, tiu, -⟩ := residue_outer (residue_standing (Act.start (warmState s)))
  have room := room_enterMade (warmRaised s).s (warmRaised s).out
  rw [show (warmRaised s).s.tiu = (Act.start (warmState s)).s.tiu from tiu] at room
  exact ⟨_, fun x hx => madeReports_kind (List.mem_of_mem_take hx), room⟩

theorem restartWarmly_lck (s : State) : (restartWarmly s).lck = s.lck := by
  obtain ⟨-, -, -, -, -, lck, -⟩ := residue_outer (residue_standing (Act.start (warmState s)))
  rw [restartWarmly_frame]
  exact lck

theorem restartWarmly_tst (s : State) : (restartWarmly s).tst = s.tst.warm := by
  obtain ⟨-, -, -, -, -, -, tst, -⟩ := residue_outer (residue_standing (Act.start (warmState s)))
  rw [restartWarmly_frame]
  exact tst

theorem restartWarmly_rrg (s : State) :
    (restartWarmly s).rrg = { Rrg.start with refused := s.rrg.refused, unplanned := s.rrg.unplanned } := by
  rw [restartWarmly_frame]
  exact congrArg (·.1) (warmRaised_restarting s).held

theorem restartWarmly_psv (s : State) : (restartWarmly s).psv = (warmState s).psv := by
  rw [restartWarmly_frame]
  exact congrArg (·.2.1) (warmRaised_restarting s).held

theorem restartWarmly_valid (s : State) : tablesValid (warmState s) = tablesValid (restartWarmly s) :=
  tablesValid_of_tst ((warmState_tst s).trans (restartWarmly_tst s).symm)

/-- Where nothing stands a WARM restart makes nothing more. -/
theorem restartWarmly_nothing {s : State} (h : tablesValid (restartWarmly s) = true → s.lck.lock ≠ .unlocked
      ∧ (∀ b, ((restartWarmly s).tst.line.subs.get b).used = true →
          (s.psv.subs.get b).state ≠ .tripped ∧ (s.psv.subs.get b).state ≠ .stale)
      ∧ ∀ x, ((restartWarmly s).psv.secs.get x).state ≠ some .dead) : restartWarmly s = warmState s := by
  have nothing : standing (Act.start (warmState s)) = Act.start (warmState s) := by
    refine standing_nothing fun hv => ?_
    have valid : tablesValid (warmState s) = true := hv
    obtain ⟨lock, subs, secs⟩ := h ((restartWarmly_valid s).symm.trans valid)
    rw [restartWarmly_tst] at subs
    rw [restartWarmly_psv] at secs
    refine ⟨lock, fun b hu => ?_, secs⟩
    rw [Act.start_s, warmState_supply valid]
    exact subs b hu
  unfold restartWarmly
  rw [nothing]
  rfl

theorem exec_restartWarm {s : State} {t : Telegram} {rest : List Telegram} (h : TakenAs s t rest 0x11 [0]) :
    exec .restartWarm s = .next (settle (restartWarmly (replied t rest (.ok []) s))) := by
  have kind : restartKind t = some false := (restartKind_args h.args).trans rfl
  refine congrArg _ ((whenAwake_awake _ h.awake).trans (congrArg settle
    ((takeHead_taken h.toTaken (decide_eq_true ⟨h.code, .inl kind⟩)).trans ?_)))
  rw [kind]
  rfl

/-- Settles O52: the restart leaves no train in the part, so that the raises for what stands write neither trains nor supply;
each of them opens a RAISED record at level 0 whose cause is present, and announces it. -/
theorem warmRestartKeepsWhatWasTold : Obligations.WarmRestartKeepsWhatWasTold := by
  intro s t rest h
  have restarted := warmRaised_restarting (replied t rest (.ok []) s)
  have frame := restartWarmly_frame (replied t rest (.ok []) s)
  have tiu := restartWarmly_tiu (replied t rest (.ok []) s)
  have tst : (restartWarmly (replied t rest (.ok []) s)).tst = s.tst.warm := restartWarmly_tst _
  have rrg := restartWarmly_rrg (replied t rest (.ok []) s)
  have psv := restartWarmly_psv (replied t rest (.ok []) s)
  have inc : (restartWarmly (replied t rest (.ok []) s)).inc = (warmRaised (replied t rest (.ok []) s)).s.inc := by
    rw [frame]
  have asc : (restartWarmly (replied t rest (.ok []) s)).asc = (warmRaised (replied t rest (.ok []) s)).s.asc := by
    rw [frame]
  have valid := restartWarmly_valid (replied t rest (.ok []) s)
  refine ⟨_, exec_restartWarm h, ?_, (congrArg Tiu.manage tiu).trans rfl, fun a => ?_, (congrArg Tiu.forward tiu).trans rfl,
    (congrArg Tiu.roomBit tiu).trans rfl, (congrArg Tiu.fieldBit tiu).trans rfl, restartWarmly_lck _, ?_, ?_, ?_, ?_, ?_, fun hl => ?_,
    fun l i hl ht => ?_, fun l hl ht => ?_, fun hv => ?_, fun i => ?_, fun p => ?_, (congrArg Rrg.holdOff rrg).trans rfl,
    (congrArg Rrg.refused rrg).trans rfl, (congrArg Rrg.unplanned rrg).trans rfl, fun i r hr => ?_, ?_, fun k => ?_, fun hv hl => ?_,
    (congrArg Tiu.roomSending tiu).trans rfl, (congrArg Tiu.fieldSending tiu).trans rfl, (congrArg Tiu.counters tiu).trans rfl, ?_, fun z e he => ?_,
    fun hn => ?_⟩
  · exact restartWarmly_room _
  · rw [congrArg Tiu.duplicates tiu]; exact Table.get_fill _ a
  · rw [tst]; exact Tst.warm_load _
  · rw [tst]; rfl
  · rw [tst]; rfl
  · rw [tst]; rfl
  · rw [tst]; exact Tst.warm_line _
  · rw [tst]; exact Tst.warm_unloaded hl
  · obtain ⟨lineState, slots⟩ := Tst.warm_slot hl ht
    rw [tst, lineState, slots]
    exact ⟨rfl, Table.get_set_eq _ _ _, fun j hj => Table.get_set_ne _ _ hj.symm⟩
  · rw [tst]; exact Tst.warm_lineLoad hl ht
  · rw [psv]; exact warmState_psv_invalid (valid.trans hv)
  · rw [rrg]; exact Table.get_fill _ i
  · rw [rrg]; exact Table.get_fill _ p
  · rw [inc] at hr; exact restarted.records i r hr
  · rw [inc]; exact restarted.resolved
  · rw [inc]; exact restarted.edges k
  · have kept : s.tst.warm.lineState = s.tst.lineState := by
      cases hload : s.tst.load with
      | none => exact (Tst.warm_unloaded hload).2
      | some l =>
        cases ht : l.target with
        | line => exact absurd ht (hl l hload)
        | slot i => exact (Tst.warm_slot hload ht).1
    have warmValid : tablesValid (warmState (replied t rest (.ok []) s)) = true :=
      (congrArg (fun x => decide (x = LineState.valid)) kept).trans hv
    have picture := warmState_picture warmValid
    refine ⟨?_, fun b => ?_⟩
    · unfold pictureStands at picture ⊢
      rw [psv, tst]
      exact picture
    · rw [psv, warmState_supply warmValid b]
      exact ⟨rfl, rfl, rfl, rfl, rfl, rfl, rfl⟩
  · rw [inc]
    exact restarted.prescaler.trans (freshPrescaler_of_tst ((warmState_tst _).trans tst.symm))
  · rw [asc] at he
    rcases List.mem_append.mp he with he | he
    · exact (restarted.entries z).queue e he
    · exact (restarted.entries z).current e (Option.mem_toList.mp he)
  · have nothing := restartWarmly_nothing hn
    rw [nothing]
    refine ⟨rfl, rfl, rfl, fun i => Table.get_fill _ i, rfl, rfl, fun hv => warmState_asc_invalid hv, fun hv z => ?_⟩
    rw [warmState_zone hv, show (replied t rest (.ok []) s).asc = s.asc from rfl]
    obtain ⟨state⟩ := s.asc.zones.get z
    cases state <;> rfl

end Sys2Proof.Machine
end

