-- ==== Sys2Proof/Proofs/MarkerRefuted.lean ====
section
/-! PROOFS. What a boundary does to the zones does not follow from the states of the incident records alone: a record outside
the law of the INC can be freed and its place be taken by a CLOCK_LOSS that announces. -/

namespace Sys2Proof.Machine

/-- Line tables in which CLOCK_LOSS announces template 0 and zone 0 lies in an area. -/
def announcingLine : LineTables :=
  let effects : Effects := { suspend := false, hold := false, announce := true }
  { LineTables.standard with
    classes := LineTables.standard.classes.set 8
      { LineTables.standard.classes.get 8 with effects := effects, template0 := some 0 }
    zones := LineTables.standard.zones.set 0 { controller := 80, areas := 1, guard := 0, opens := true } }

/-- A record that is RAISED with a retention at its last count, which the law of the INC rules out. -/
def raisedRetained : Incident :=
  { number := 7, cls := .trainStalled, object := .train 240, areas := 0,
    effects := { suspend := false, hold := false, announce := false }, mandatory := false, template := none,
    state := .raised, cause := .present, level := 0, countdown := none, recurrences := 0, recurred := false,
    opened := none, ackTag := none, retention := some 1 }

/-- A part in PREPARED mode that has missed a marker, with that record at 0 and zone 0 OPEN. -/
def coastingPart : State :=
  { State.reset with
    links := { a := true, b := false, room := false }
    lck := { lock := .coasting, cycle := 4000, dayTime := 51000000, missed := 1, timeBase := 0, deadline := some 375 }
    tst := { State.reset.tst with lineState := .valid, line := announcingLine }
    inc := { State.reset.inc with records := State.reset.inc.records.set 0 (some raisedRetained), prescaler := 2 }
    asc := { zones := State.reset.asc.zones.set 0 (Zone.start .opened) } }

/-- The header of the marker that the part receives. -/
def markerHeader : Header := { dest := 255, src := 40, flags := 0 }

/-- The part after a marker with an unexpected number, which takes its clock to UNLOCKED. -/
def unlockedPart : State :=
  match exec (.cycleMarker .a markerHeader 3990 51000000) coastingPart with
  | .next u => u
  | _ => coastingPart

theorem coastingPart_accepts :
    Accepted coastingPart .a (markerTelegram markerHeader 3990 51000000) (.marker 3990 51000000) where
  awake := by decide +kernel
  link := by decide +kernel
  size := by decide +kernel
  foreign := by decide +kernel
  direct := by decide +kernel
  form := by decide +kernel
  fresh := by decide +kernel

/-- An OPEN zone with nothing in it is as the law of a zone wants it. -/
theorem zoneLaw_start_opened : ZoneLaw (Zone.start .opened) := by
  constructor <;> simp [Zone.start]

/-- With nothing in it an OPEN zone stays OPEN at a boundary. -/
theorem afterBoundary_start_opened (u : State) (z : ZoneId) : (Zone.afterBoundary u z (Zone.start .opened)).state = .opened := by
  simp [Zone.afterBoundary, Zone.start]

/-- The record freed and the record opened in its place are both RAISED. -/
theorem unlockedPart_records :
    ∀ i, (unlockedPart.inc.records.get i).map Incident.state = (coastingPart.inc.records.get i).map Incident.state := by
  decide +kernel

/-- The CLOCK_LOSS of the boundary is announced in zone 0. -/
theorem unlockedPart_zone : (unlockedPart.asc.zones.get 0).state = .playing := by decide +kernel

/-- Refutes O15: with a RAISED record whose retention runs out at the boundary, CLOCK_LOSS takes the place of that record, so
that every record's state is as before, and its announcement plays in a zone that the steps of R165 alone leave OPEN. -/
theorem not_markerOutcome : ¬ Obligations.MarkerOutcome := by
  intro h
  obtain ⟨u, hu, -, -, -, -, -, ⟨boundary, -, -⟩, -⟩ := h coastingPart .a markerHeader 3990 51000000 coastingPart_accepts
  have taken : BoundaryTaken coastingPart u := boundary (by decide +kernel) (by decide +kernel)
  have settled : unlockedPart = settle u := by rw [unlockedPart, hu]
  have inc : u.inc = unlockedPart.inc := by rw [settled, settle_outside]
  have asc : u.asc = unlockedPart.asc := by rw [settled, settle_outside]
  have records := unlockedPart_records
  rw [← inc] at records
  have zone := taken.zones records (.inl (by decide +kernel)) 0 zoneLaw_start_opened
  have opened : (u.asc.zones.get 0).state = .opened :=
    (congrArg Zone.state zone).trans (afterBoundary_start_opened u 0)
  rw [asc, unlockedPart_zone] at opened
  cases opened

end Sys2Proof.Machine
end

