-- ==== Sys2Proof/Proofs/ClockLaw.lean ====
section
/-! PROOFS. The law of the Line Clock over every step: boundaries and markers keep it, power-on and a FULL restart set it up
anew, and every other command leaves the LCK alone. -/

namespace Sys2Proof.Machine

/-- The LCK of an action's state. -/
def Act.lck (a : Act) : Lck := a.s.lck

/-! ## The LCK's own operations -/

/-- The numbers of the Line Clock stand in their ranges (R17). -/
structure Lck.Within (c : Lck) : Prop where
  cycle : c.cycle ≤ 65535
  dayTime : c.dayTime ≤ 107999999
  missed : c.missed ≤ 65535

theorem LckLaw.within {c : Lck} (h : LckLaw c) : c.Within := ⟨h.cycle, h.dayTime, h.missed⟩

theorem Lck.Within.take {c : Lck} (h : c.Within) {n d : Nat} (hn : n ≤ 65535) (hd : d ≤ 107999999) : (c.take n d).Within :=
  ⟨hn, hd, h.missed⟩

theorem Lck.within_advance (c : Lck) (tc : Nat) (l : Lock) : Lck.Within { c.advance tc with lock := l } where
  cycle := Nat.le_of_lt_succ (Nat.mod_lt _ (by decide))
  dayTime := Nat.min_le_right _ _
  missed := bump_le _

/-- A set clock whose timeout is restarted keeps the law. -/
theorem lckLaw_restart {c : Lck} (h : c.Within) (hl : c.lock ≠ .unset) (tc : Nat) : LckLaw (c.restart tc) where
  cycle := h.cycle
  dayTime := h.dayTime
  missed := h.missed
  unset hu := absurd hu hl
  running _ := rfl

theorem lckLaw_makeBoundary {c : Lck} (h : c.Within) (hl : c.lock ≠ .unset) (e : Option ClockEvent) (roll : Bool) (a : Act) :
    LckLaw (makeBoundary c e roll a).lck := by
  rw [Act.lck, lck_makeBoundary]
  exact lckLaw_restart h hl _

theorem Lock.missed_ne_unset {l : Lock} (h : l ≠ .unset) : l.missed ≠ .unset := by
  cases l
  · exact absurd rfl h
  all_goals exact Lock.noConfusion

theorem lckLaw_missBoundary {a : Act} (hl : a.s.lck.lock ≠ .unset) : LckLaw (missBoundary a).lck :=
  lckLaw_makeBoundary (Lck.within_advance _ _ _) (Lock.missed_ne_unset hl) _ _ a

theorem lckLaw_timeoutExpiry {a : Act} (h : LckLaw a.lck) : LckLaw (timeoutExpiry a).lck := by
  unfold timeoutExpiry
  split
  · split
    · next hd => exact lckLaw_missBoundary (of_decide_eq_true hd.2)
    · exact h
  · exact h

/-- A COASTING clock that hears its own cycle number is LOCKED again, and its timeout runs on (R21). -/
theorem lckLaw_relocked {c : Lck} (h : LckLaw c) (hl : c.lock ≠ .unset) {d : Nat} (hd : d ≤ 107999999) :
    LckLaw { c with lock := .locked, dayTime := d } where
  cycle := h.cycle
  dayTime := hd
  missed := h.missed
  unset hu := Lock.noConfusion hu
  running _ := h.running hl

theorem lckLaw_takeMarker {n d : Nat} (hn : n ≤ 65535) (hd : d ≤ 107999999) {a : Act} (h : LckLaw a.lck) :
    LckLaw (takeMarker n d a).1.lck := by
  have taken (e : Option ClockEvent) (roll sent : Bool) : LckLaw (makeBoundary (a.s.lck.take n d) e roll a, sent).1.lck :=
    lckLaw_makeBoundary (h.within.take hn hd) Lock.noConfusion e roll a
  have missed (hl : a.s.lck.lock ≠ .unset) (sent : Bool) : LckLaw (missBoundary a, sent).1.lck := lckLaw_missBoundary hl
  unfold takeMarker
  dsimp only
  split
  · exact taken _ _ _
  · split
    · exact taken _ _ _
    · split
      · exact h
      · exact taken _ _ _
    · next hl =>
      split
      · exact taken _ _ _
      · split
        · exact h
        · exact missed (by rw [hl]; exact Lock.noConfusion) _
    · next hl =>
      have isSet : a.s.lck.lock ≠ .unset := by rw [hl]; exact Lock.noConfusion
      split
      · exact taken _ _ _
      · split
        · exact lckLaw_relocked h isSet hd
        · exact missed isSet _

/-! ## What leaves the LCK alone -/

theorem lck_of_still {a b : Act} (h : a.still = b.still) : a.lck = b.lck :=
  show a.s.still.lck = b.s.still.lck from congrArg State.lck h

theorem lck_of_blank {a b : Act} (h : a.blank = b.blank) : a.lck = b.lck := lck_of_still (still_of_blank h)

theorem lck_of_residue {a b : Act} (h : a.residue = b.residue) : a.lck = b.lck := lck_of_blank (blank_of_residue h)

theorem lck_of_offAsc {a b : Act} (h : a.offAsc = b.offAsc) : a.lck = b.lck := lck_of_residue (residue_of_offAsc h)

theorem lck_enterMade (s : State) (l : List Made) : (enterMade s l).lck = s.lck := by rw [enterMade_frame]

theorem lck_settle (s : State) : (settle s).lck = s.lck := by rw [settle_outside]

theorem lck_offerRoom (c : RoomClass) (x : RoomItem) (s : State) : (offerRoom c x s).lck = s.lck := by
  unfold offerRoom; split <;> rfl

/-! ## Commands

Every command's function leaves the LCK alone: what it makes of the other blocks is the work of their own operations. -/

/-- A command's function that does so. -/
def SparesClock (f : Act → Act × Reply) : Prop := ∀ a, (f a).1.lck = a.lck

theorem sparesClock_loadOpen (x n k : Nat) : SparesClock (loadOpen x n k) := fun a => by
  unfold loadOpen
  split
  · rfl
  · repeat' split
    all_goals rfl

theorem sparesClock_loadAbort : SparesClock loadAbort := fun a => by
  unfold loadAbort; split <;> rfl

theorem lck_raiseIfUnlocked (a : Act) : (raiseIfUnlocked a).lck = a.lck := by
  unfold raiseIfUnlocked
  split
  · exact lck_of_residue (residue_request _ a)
  · rfl

theorem sparesClock_contentFault (l : Load) (x : Option (Nat × Nat)) : SparesClock (contentFault l x) := fun a => by
  unfold contentFault
  cases x <;> rfl

theorem sparesClock_complete (l : Load) : SparesClock (complete l) := fun a => by
  unfold complete validate
  dsimp only
  split
  · rfl
  · split
    · split
      · exact sparesClock_contentFault l _ a
      · exact lck_raiseIfUnlocked _
    · split
      · exact sparesClock_contentFault l _ a
      · rfl

theorem sparesClock_loadBlock (k : Nat) (bytes : List Byte) : SparesClock (loadBlock k bytes) := fun a => by
  unfold loadBlock
  split
  · rfl
  · split
    · rfl
    · dsimp only
      split
      · exact sparesClock_complete _ a
      · rfl

theorem sparesClock_blockCommand (t : Telegram) : SparesClock (blockCommand t) := fun a => by
  unfold blockCommand
  dsimp only
  split
  · exact sparesClock_loadBlock _ _ a
  · rfl

theorem sparesClock_profileActivate (k : Nat) : SparesClock (profileActivate k) := fun a => by
  unfold profileActivate
  split
  · rfl
  · split
    · rfl
    · split
      · rfl
      · dsimp only
        split
        · rfl
        · exact lck_of_still (still_activatePending _)

theorem lck_closeGroup (g : List HeldEdit) (a : Act) : (closeGroup g a).1.lck = a.lck := by
  unfold closeGroup
  split
  · rfl
  · exact lck_of_still (still_applyGroup g a)

theorem sparesClock_editHold : SparesClock editHold := fun a => by
  unfold editHold
  repeat' split
  all_goals rfl

theorem sparesClock_editRelease : SparesClock editRelease := fun a => by
  unfold editRelease
  split
  · rfl
  · split
    · rfl
    · split
      · rfl
      · split
        · rfl
        · exact lck_closeGroup _ _

theorem sparesClock_joinGroup (e : HeldEdit) (c : Bool) : SparesClock (joinGroup e c) := fun a => by
  unfold joinGroup
  split
  · split <;> rfl
  · split
    · exact lck_closeGroup _ a
    · rfl

theorem sparesClock_edit (t i f v : Nat) : SparesClock (edit t i f v) := fun a => by
  unfold edit
  split
  · rfl
  · split
    · rfl
    · split
      · rfl
      · split
        · rfl
        · split
          · rfl
          · exact sparesClock_joinGroup _ _ a

theorem sparesClock_bindCommand (x n : Nat) : SparesClock (bindCommand x n) := fun a => by
  unfold bindCommand
  split
  · rfl
  · split
    · rfl
    · split
      · exact lck_of_blank (blank_unschedule _ a)
      · split
        · rfl
        · split
          · rfl
          · split
            · rfl
            · exact lck_of_blank (blank_bindRun _ _ a)

theorem sparesClock_removeCommand (x : Nat) : SparesClock (removeCommand x) := fun a => by
  unfold removeCommand
  split
  · rfl
  · split
    · rfl
    · exact lck_of_blank (blank_removeTrain _ a)

theorem sparesClock_raiseCommand (x e r t m : Nat) : SparesClock (raiseCommand x e r t m) := fun a => by
  unfold raiseCommand
  split
  · rfl
  · split
    · split
      · rfl
      · split
        · rfl
        · next h => exact lck_of_residue ((residue_drain _).trans ((residue_openRecord _ _ _).trans (residue_takeRecord h)))
    · rfl

theorem sparesClock_ackCommand (t n r : Nat) : SparesClock (ackCommand t n r) := fun a => by
  unfold ackCommand
  split
  · rfl
  · split
    · rfl
    · split
      · rfl
      · dsimp only
        split
        · exact lck_of_residue (by simp)
        · rfl

theorem sparesClock_resolveCommand (n : Nat) : SparesClock (resolveCommand n) := fun a => by
  unfold resolveCommand
  split
  · rfl
  · split
    · rfl
    · split
      · rfl
      · split
        · rfl
        · exact lck_of_residue (by simp)

theorem sparesClock_zoneCommand (z st : Nat) : SparesClock (zoneCommand z st) := fun a => by
  unfold zoneCommand
  split
  · rfl
  · split
    · rfl
    · split
      · rfl
      · dsimp only
        split
        · exact lck_of_offAsc (offAsc_zoneOff _ a)
        · split
          · split
            · rfl
            · exact lck_of_offAsc (offAsc_zoneBar _ a)
          · exact lck_of_offAsc (offAsc_zoneOpen _ a)

theorem sparesClock_announceCommand (t : Telegram) : SparesClock (announceCommand t) := fun a => by
  have args (x : List Byte) : (announceArgs x a).1.lck = a.lck := by
    unfold announceArgs
    split
    · rfl
    · dsimp only
      split
      · rfl
      · split
        · rfl
        · exact lck_of_offAsc (offAsc_placeAll _ _ a)
  unfold announceCommand
  dsimp only
  split
  · exact args _
  · rfl

theorem sparesClock_queryCommand (t : Telegram) : SparesClock (queryCommand t) := fun a => by
  unfold queryCommand
  split <;> rfl

theorem sparesClock_clearCounters : SparesClock fun a => ({ a with s := clearCounters a.s }, .ok []) := fun _ => rfl

/-- A command with arguments of a length leaves alone what its function does. -/
theorem sparesClock_sized {n : Nat} {f : List Byte → Act → Act × Reply} (hf : ∀ x, SparesClock (f x)) (t : Telegram) :
    SparesClock (sized n f t) := fun a => by
  unfold sized
  split
  · exact hf _ a
  · rfl

/-! ## Changes of the state that keep the law -/

/-- A change of the state that keeps the law of the Line Clock. -/
def KeepsClock (f : State → State) : Prop := ∀ s, LckLaw s.lck → LckLaw (f s).lck

theorem keepsClock_of_eq {f : State → State} (h : ∀ s, (f s).lck = s.lck) : KeepsClock f := fun s hs => h s ▸ hs

theorem KeepsClock.settled {f : State → State} (h : KeepsClock f) : KeepsClock fun s => settle (f s) := fun s hs =>
  lck_settle (f s) ▸ h s hs

theorem KeepsClock.whenAwake {f : State → State} (h : KeepsClock f) : KeepsClock (whenAwake f) := fun s hs => by
  unfold Machine.whenAwake
  split
  · exact hs
  · exact h.settled s hs

theorem KeepsClock.ite {f g : State → State} {c : State → Prop} [DecidablePred c] (hf : KeepsClock f) (hg : KeepsClock g) :
    KeepsClock fun s => if c s then f s else g s := fun s hs => by
  dsimp only
  split
  · exact hf s hs
  · exact hg s hs

theorem keepsClock_count (f : Counters → Counters) : KeepsClock (count f) := keepsClock_of_eq fun _ => rfl

/-- Work that keeps the law, whose orders and reports then enter the queues. -/
theorem keepsClock_finish {work : Act → Act} (h : ∀ a, LckLaw a.lck → LckLaw (work a).lck) :
    KeepsClock fun s => (work (Act.start s)).finish := fun s hs => by
  unfold Act.finish
  rw [lck_enterMade]
  exact h (Act.start s) hs

/-- The expiry of a countdown whose work leaves the LCK alone. -/
theorem keepsClock_expiry {due : State → Bool} {work : Act → Act} (h : ∀ a, (work a).lck = a.lck) :
    KeepsClock fun s => if clockSet s ∧ due s then (work (Act.start s)).finish else s :=
  KeepsClock.ite (c := fun s => clockSet s ∧ due s) (keepsClock_finish fun a ha => h a ▸ ha) fun _ hs => hs

/-! ## The receive path -/

/-- A field of two bytes stands in 0–65535. -/
theorem field_two_le (p : List Byte) (k : Nat) : field p k 2 ≤ 65535 := by
  unfold field
  rcases p.drop k with _ | ⟨a, _ | ⟨b, l⟩⟩
  · decide
  · have := a.isLt
    simp only [List.take_succ_cons, List.take_nil, numOf_one]
    omega
  · have := a.isLt
    have := b.isLt
    simp only [List.take_succ_cons, List.take_zero, numOf_two]
    omega

/-- A marker that passes the form check has its numbers in range (R5). -/
theorem contents_marker_within {t : Telegram} {n d : Nat} (h : contents? t = some (.marker n d)) :
    n ≤ 65535 ∧ d ≤ 107999999 := by
  unfold contents? at h
  dsimp only at h
  split at h
  · cases h
  · split at h
    · split at h
      · next hp =>
        cases h
        exact ⟨field_two_le _ _, hp.2⟩
      · cases h
    · repeat' split at h
      all_goals simp at h

theorem lckLaw_dispatch {t : Telegram} {c : Contents} (hc : contents? t = some c) {a : Act} (h : LckLaw a.lck) :
    LckLaw (dispatch t c a).1.lck := by
  have spared {b : Act} (e : b.blank = a.blank) : LckLaw b.lck := lck_of_blank e ▸ h
  unfold dispatch
  split
  · obtain ⟨hn, hd⟩ := contents_marker_within hc
    exact lckLaw_takeMarker hn hd h
  · split
    · exact h
    · exact spared (blank_handlePassage _ a)
  · dsimp only
    split
    · exact h
    · exact spared (blank_statusReport _ _ _ _ a)
  · dsimp only
    split
    · exact h
    · exact spared (blank_equipmentReport _ _ a)
  · dsimp only
    split
    · exact h
    · exact spared (blank_paDone _ _ _ a)
  · exact h

theorem keepsClock_acceptField {t : Telegram} {c : Contents} (hc : contents? t = some c) : KeepsClock (acceptField t c) :=
  fun s hs => by
    have handled := lckLaw_dispatch hc (a := Act.start s) hs
    unfold acceptField forwardThenFinish
    split
    · rw [lck_enterMade]
      exact (lck_offerRoom _ _ _).symm ▸ handled
    · exact (lck_enterMade _ _).symm ▸ handled

theorem keepsClock_receiveField (p : FieldPort) (t : Telegram) : KeepsClock (receiveField p t) := fun s hs => by
  unfold receiveField
  split
  · exact hs
  · split
    · exact hs
    · split
      · exact hs
      · next hc =>
        split
        · exact keepsClock_acceptField hc s hs
        · split
          · exact hs
          · exact keepsClock_acceptField hc (remember t s) hs

theorem keepsClock_receiveRoom (t : Telegram) : KeepsClock (receiveRoom t) := by
  refine KeepsClock.ite (KeepsClock.ite (keepsClock_count _) (KeepsClock.ite (keepsClock_count _) ?_)) ?_
  · exact keepsClock_of_eq fun s => by unfold queueManage; split <;> rfl
  · exact keepsClock_of_eq fun s => by unfold queueForward; split <;> rfl

theorem keepsClock_receiveSound (p : Port) (t : Telegram) : KeepsClock (receiveSound p t) := by
  cases p
  · exact keepsClock_receiveField .a t
  · exact keepsClock_receiveField .b t
  · exact keepsClock_receiveRoom t

theorem keepsClock_receiveTelegram (p : Port) (t : Telegram) : KeepsClock (receiveTelegram p t) :=
  KeepsClock.ite (KeepsClock.ite (keepsClock_count _) (keepsClock_receiveSound p t)) fun _ hs => hs

theorem keepsClock_receiveFrame (p : Port) (f : List Byte) : KeepsClock (receiveFrame p f) := by
  refine KeepsClock.ite ?_ fun _ hs => hs
  cases readFrame f with
  | lengthFault => exact keepsClock_count _
  | checkFault => exact keepsClock_count _
  | sound t => exact keepsClock_receiveSound p t

/-! ## The management rows -/

theorem keepsClock_takeHead (belongs : Telegram → Bool) {run : Telegram → State → State} (h : ∀ t, KeepsClock (run t)) :
    KeepsClock (takeHead belongs run) := fun s hs => by
  unfold takeHead
  split
  · exact hs
  · next t rest _ =>
    split
    · exact h t (headTaken rest s) hs
    · exact hs

theorem keepsClock_answer (r : Reply) (t : Telegram) : KeepsClock (answer t r) := keepsClock_of_eq fun _ => rfl

theorem keepsClock_execute {f : Telegram → Act → Act × Reply} (h : ∀ t, SparesClock (f t)) (t : Telegram) :
    KeepsClock (execute f t) :=
  keepsClock_of_eq fun s => (lck_enterMade _ _).trans (h t (Act.start s))

theorem keepsClock_command (code : Nat) {f : Telegram → Act → Act × Reply} (h : ∀ t, SparesClock (f t)) :
    KeepsClock (command code f) :=
  keepsClock_takeHead _ (keepsClock_execute h)

theorem keepsClock_sized (code n : Nat) {f : List Byte → Act → Act × Reply} (h : ∀ x, SparesClock (f x)) :
    KeepsClock (command code (sized n f)) :=
  keepsClock_command code (sparesClock_sized h)

theorem keepsClock_query (q : Subject) : KeepsClock (query q) :=
  keepsClock_takeHead _ (keepsClock_execute sparesClock_queryCommand)

/-- A FULL restart sets the clock UNSET and keeps its time base (R186). -/
theorem keepsClock_restartFully : KeepsClock restartFully := fun _ _ => { lckLaw_start with }

theorem keepsClock_restart (full : Bool) : KeepsClock (restart full) := by
  refine keepsClock_takeHead _ fun t s hs => ?_
  split
  · exact hs
  · exact (restartWarmly_lck _).symm ▸ hs
  · exact keepsClock_restartFully _ hs

/-! ## Every command -/

/-- A command that is a change of the state which keeps the law of the Line Clock. -/
def ClockSafe (m : State → Answer) : Prop := ∃ f, KeepsClock f ∧ ∀ s, m s = .next (f s)

theorem KeepsClock.awake {f : State → State} (h : KeepsClock f) : ClockSafe fun s => .next (Machine.whenAwake f s) :=
  ⟨_, h.whenAwake, fun _ => rfl⟩

theorem clockSafe_expire (due : State → Bool) {work : Act → Act} (h : ∀ a, (work a).lck = a.lck) :
    ClockSafe (expire due work) :=
  (keepsClock_expiry h).awake

theorem clockSafe_telegram (p : Port) (t : Telegram) : ClockSafe fun s => .next (whenAwake (receiveTelegram p t) s) :=
  (keepsClock_receiveTelegram p t).awake

theorem clockSafe_query (q : Subject) : ClockSafe fun s => .next (whenAwake (query q) s) := (keepsClock_query q).awake

theorem clockSafe_command (code : Nat) {f : Telegram → Act → Act × Reply} (h : ∀ t, SparesClock (f t)) :
    ClockSafe fun s => .next (whenAwake (command code f) s) :=
  (keepsClock_command code h).awake

theorem clockSafe_sized (code n : Nat) {f : List Byte → Act → Act × Reply} (h : ∀ x, SparesClock (f x)) :
    ClockSafe fun s => .next (whenAwake (command code (sized n f)) s) :=
  (keepsClock_sized code n h).awake

theorem lck_settleAwake (s : State) : (settleAwake s).lck = s.lck := by
  unfold settleAwake
  split
  · rfl
  · exact lck_settle s

theorem lck_unlessSilent {work : Act → Act} (h : ∀ a, (work a).blank = a.blank) (i : TrainId) (a : Act) :
    (unlessSilent i work a).lck = a.lck := by
  unfold unlessSilent
  split
  · exact lck_of_blank (blank_removeTrain i a)
  · exact lck_of_blank (h a)

theorem lck_escalateAt (i : IncId) (a : Act) : (escalateAt i a).lck = a.lck := by
  unfold escalateAt
  split
  · exact lck_of_residue (residue_escalate _ _ a)
  · rfl

theorem lck_freeAt (i : IncId) (a : Act) : (freeAt i a).lck = a.lck := by
  unfold freeAt
  split <;> rfl

/-- The work of a zone once what of its entries' countdowns runs out has done so. -/
theorem lck_zoneWork {work : Act → Act} (h : ∀ a, (work a).offAsc = a.offAsc) (z : ZoneId) (a : Act) :
    (work (entriesRunOut z a)).lck = a.lck :=
  lck_of_offAsc (b := entriesRunOut z a) (h _)

theorem exec_clockSafe (c : Instr) : ClockSafe (exec c) := by
  cases c with
  | powerOn straps => exact ⟨powerOnState straps, fun _ _ => lckLaw_start, fun _ => rfl⟩
  | linkUp p => exact ⟨_, keepsClock_of_eq fun s => lck_settleAwake (raiseLink p s), fun _ => rfl⟩
  | linkDown p => exact ⟨_, keepsClock_of_eq fun s => lck_settleAwake (dropLink p s), fun _ => rfl⟩
  | resetAssertion => exact ⟨fun s => { s with inReset := true }, keepsClock_of_eq fun _ => rfl, fun _ => rfl⟩
  | roomTransmissionEnd => exact KeepsClock.awake (f := roomFreed) fun _ hs => hs
  | fieldTransmissionEnd => exact KeepsClock.awake (f := fieldFreed) fun _ hs => hs
  | cycleMarker _ _ _ _ => exact clockSafe_telegram _ _
  | passage _ _ _ _ _ _ _ => exact clockSafe_telegram _ _
  | substationStatus _ _ _ _ _ => exact clockSafe_telegram _ _
  | equipmentStatus _ _ _ => exact clockSafe_telegram _ _
  | paDone _ _ _ _ => exact clockSafe_telegram _ _
  | otherFieldTelegram _ _ => exact clockSafe_telegram _ _
  | roomTelegramForward _ => exact clockSafe_telegram _ _
  | manage _ _ _ _ => exact clockSafe_telegram _ _
  | telegramDiscarded _ _ => exact (keepsClock_receiveFrame _ _).awake
  | markerTimeoutExpiry => exact (keepsClock_finish fun _ => lckLaw_timeoutExpiry).awake
  | silenceExpiry i => exact clockSafe_expire _ fun a => lck_of_blank (blank_removeTrain i a)
  | overdueExpiry i => exact clockSafe_expire _ fun a => lck_unlessSilent (blank_overdueOut i) i a
  | powerWaitExpiry i => exact clockSafe_expire _ fun a => lck_unlessSilent (blank_powerWaitOut i) i a
  | reportHoldOffExpiry => exact clockSafe_expire _ (work := fun a => { a with s.rrg.holdOff := 0 }) fun _ => rfl
  | telemetryTimeoutExpiry b =>
    exact clockSafe_expire _ (work := fun a => deriveSupply (telemetryOut [b] a).1 [] (telemetryOut [b] a).2)
      fun a => lck_of_blank ((blank_deriveSupply _ _ _).trans (blank_telemetryOut _ a))
  | creditExpiry b =>
    exact clockSafe_expire _ (work := fun a => deriveSupply [] [] (creditOut [b] a))
      fun a => lck_of_blank ((blank_deriveSupply _ _ _).trans (blank_creditOut _ a))
  | slotExpiry i =>
    exact clockSafe_expire _ (work := fun a => deriveSupply [] [] (dropSlot i a))
      fun a => lck_of_blank ((blank_deriveSupply _ _ _).trans (blank_dropSlot i a))
  | escalationTick => exact clockSafe_expire _ fun a => lck_of_blank (blank_tick a)
  | escalation i => exact clockSafe_expire _ (lck_escalateAt i)
  | retentionExpiry i => exact clockSafe_expire _ (lck_freeAt i)
  | eligibleCountdownExpiry z k =>
    exact clockSafe_expire _ (work := fun a => issueTest z (entriesRunOut z a)) (lck_zoneWork (offAsc_issueTest z) z)
  | entryExpiry z k => exact clockSafe_expire _ (work := expireEntry z k) fun _ => rfl
  | playTimeoutExpiry z =>
    exact clockSafe_expire _ (work := fun a => playTimeout z (entriesRunOut z a)) (lck_zoneWork (offAsc_playTimeout z) z)
  | guardExpiry z =>
    exact clockSafe_expire _ (work := fun a => guardEnd z (entriesRunOut z a)) (lck_zoneWork (offAsc_guardEnd z) z)
  | manageUnknownCommand => exact (keepsClock_takeHead _ (keepsClock_answer _)).awake
  | loadOpen => exact clockSafe_sized _ _ fun _ => sparesClock_loadOpen _ _ _
  | loadBlock => exact clockSafe_command _ sparesClock_blockCommand
  | loadAbort => exact clockSafe_sized _ _ fun _ => sparesClock_loadAbort
  | profileActivate => exact clockSafe_sized _ _ fun _ => sparesClock_profileActivate _
  | editHold => exact clockSafe_sized _ _ fun _ => sparesClock_editHold
  | edit => exact clockSafe_sized _ _ fun _ => sparesClock_edit _ _ _ _
  | editRelease => exact clockSafe_sized _ _ fun _ => sparesClock_editRelease
  | incidentRaise => exact clockSafe_sized _ _ fun _ => sparesClock_raiseCommand _ _ _ _ _
  | incidentAck => exact clockSafe_command _ fun t => sparesClock_sized (fun _ => sparesClock_ackCommand _ _ _) t
  | incidentResolve => exact clockSafe_sized _ _ fun _ => sparesClock_resolveCommand _
  | zoneSet => exact clockSafe_sized _ _ fun _ => sparesClock_zoneCommand _ _
  | announce => exact clockSafe_command _ sparesClock_announceCommand
  | trainBind => exact clockSafe_sized _ _ fun _ => sparesClock_bindCommand _ _
  | trainRemove => exact clockSafe_sized _ _ fun _ => sparesClock_removeCommand _
  | queryTrain => exact clockSafe_query _
  | queryTimingPoint => exact clockSafe_query _
  | querySection => exact clockSafe_query _
  | querySubstation => exact clockSafe_query _
  | queryIncident => exact clockSafe_query _
  | queryZone => exact clockSafe_query _
  | queryClock => exact clockSafe_query _
  | queryProfile => exact clockSafe_query _
  | queryCounters => exact clockSafe_query _
  | queryIdentity => exact clockSafe_query _
  | queryMode => exact clockSafe_query _
  | countersClear => exact clockSafe_sized _ _ fun _ => sparesClock_clearCounters
  | restartWarm => exact (keepsClock_restart false).awake
  | restartFull => exact (keepsClock_restart true).awake

/-! ## Every step -/

theorem lckLaw_exec {c : Instr} {s u : State} (h : LckLaw s.lck) (e : exec c s = .next u) : LckLaw u.lck := by
  obtain ⟨f, keeps, hx⟩ := exec_clockSafe c
  rw [hx] at e
  cases e
  exact keeps s h

/-- The passing of a millisecond moves the time base alone. -/
theorem lckLaw_idle {s u : State} (h : LckLaw s.lck) (e : idle s = .next u) : LckLaw u.lck := by
  unfold idle at e
  split at e
  · cases e
    exact h
  · split at e
    · exact lckLaw_exec (c := .markerTimeoutExpiry) h e
    · cases e
      exact { h with }

/-- Settles O55: a step is the command at the front or the passing of time, and each keeps the law. -/
theorem stepKeepsLckLaw : Obligations.StepKeepsLckLaw := by
  intro s u h e
  unfold step at e
  split at e
  · exact lckLaw_idle h e
  · next c rest _ => exact lckLaw_exec (s := { s with pending := rest }) h e

end Sys2Proof.Machine
end

