-- ==== Sys2Proof/Proofs/LineTime.lean ====
section
/-! PROOFS. The passing of time on an empty queue, the duration rule, and the passage and boundary times. -/

namespace Sys2Proof.Machine

/-! ## An empty queue -/

theorem step_idle {s : State} (h : s.pending = []) : step s = idle s := by
  unfold step
  rw [h]

/-- Whether the marker deadline has come (R19). -/
theorem deadlineCome_iff {o : Option Nat} {now : Nat} :
    (o.map fun d => decide (d ≤ now)).getD false = true ↔ ∃ d, o = some d ∧ d ≤ now := by
  cases o <;> simp

theorem idle_reset {s : State} (h : s.inReset = true) : idle s = .next s := if_pos h

theorem idle_expires {s : State} (h : s.inReset = false) {d : Nat} (hd : s.lck.deadline = some d)
    (hle : d ≤ s.lck.timeBase) : idle s = exec .markerTimeoutExpiry s :=
  (if_neg (ne_true_of_eq_false h)).trans (if_pos (deadlineCome_iff.mpr ⟨d, hd, hle⟩))

theorem idle_waits {s : State} (h : s.inReset = false) (hd : ∀ d, s.lck.deadline = some d → s.lck.timeBase < d) :
    idle s = .next { s with lck.timeBase := s.lck.timeBase + 1 } := by
  refine (if_neg (ne_true_of_eq_false h)).trans (if_neg fun hc => ?_)
  obtain ⟨d, he, hle⟩ := deadlineCome_iff.mp hc
  exact absurd (hd d he) (Nat.not_lt.mpr hle)

/-- Settles O2: with no command waiting the step is the part's idling, by its three cases. -/
theorem emptyQueueLetsTimePass : Obligations.EmptyQueueLetsTimePass := fun _ h =>
  ⟨fun hr => (step_idle h).trans (idle_reset hr), fun hr hd => (step_idle h).trans (idle_waits hr hd),
    fun _ hr hd hle => (step_idle h).trans (idle_expires hr hd hle)⟩

/-! ## Durations (R32) -/

/-- The number of cycles that covers a duration: the quotient rounded up. -/
def coveringCycles (tc t : Nat) : Nat := (t * 100 + tc - 1) / tc

theorem cyclesAt_eq (tc t f : Nat) : cyclesAt tc t f = min (max (coveringCycles tc t) f) 65535 := rfl

/-- The quotient rounded up covers the duration. -/
theorem le_coveringCycles_mul {tc : Nat} (h : 0 < tc) (t : Nat) : t * 100 ≤ coveringCycles tc t * tc := by
  have covers : t * 100 + tc - 1 < (coveringCycles tc t + 1) * tc := (Nat.div_lt_iff_lt_mul h).mp (Nat.lt_succ_self _)
  rw [Nat.succ_mul] at covers
  omega

/-- No smaller number of cycles covers it. -/
theorem lt_of_lt_coveringCycles {tc : Nat} (h : 0 < tc) {t k : Nat} (hk : k < coveringCycles tc t) : k * tc < t * 100 := by
  have fits : (k + 1) * tc ≤ t * 100 + tc - 1 := (Nat.le_div_iff_mul_le h).mp hk
  rw [Nat.succ_mul] at fits
  omega

/-- The count of the duration rule: in range, at or above its floor, covering the duration unless it saturates, and no larger
than the floor or the least count that covers. -/
theorem cyclesAt_spec {tc f : Nat} (t : Nat) (h : 0 < tc) (hf : f ≤ 65535) :
    f ≤ cyclesAt tc t f ∧ cyclesAt tc t f ≤ 65535 ∧ (t * 100 ≤ cyclesAt tc t f * tc ∨ cyclesAt tc t f = 65535)
      ∧ (cyclesAt tc t f = f ∨ (cyclesAt tc t f - 1) * tc < t * 100) := by
  rw [cyclesAt_eq]
  refine ⟨by omega, by omega, ?_, ?_⟩
  · rcases Nat.lt_or_ge (max (coveringCycles tc t) f) 65535 with hlt | hge
    · refine .inl ((le_coveringCycles_mul h t).trans (Nat.mul_le_mul_right tc ?_))
      omega
    · exact .inr (Nat.min_eq_right hge)
  · rcases Nat.lt_or_ge f (coveringCycles tc t) with hlt | hge
    · refine .inr (lt_of_lt_coveringCycles h ?_)
      omega
    · refine .inl ?_
      omega

/-! ## Passage and boundary times (R30, R31) -/

theorem boundaryTime_set {s : State} (h : s.lck.lock ≠ .unset) : boundaryTime s = some (s.lck.dayTime / 100) :=
  if_pos (decide_eq_true h)

theorem boundaryTime_unset {s : State} (h : s.lck.lock = .unset) : boundaryTime s = none := by
  simp [boundaryTime, clockSet, h]

theorem passageTime_set {s : State} (h : s.lck.lock ≠ .unset) (offset : Nat) :
    passageTime s offset = some (min (s.lck.dayTime + min offset (cycleLength s - 1)) 107999999 / 100) :=
  if_pos (decide_eq_true h)

theorem passageTime_unset {s : State} (h : s.lck.lock = .unset) (offset : Nat) : passageTime s offset = none := by
  simp [passageTime, clockSet, h]

/-- Settles O17: the count is the quotient rounded up, held between its floor and 65535; the two times are read off the day
time of the last boundary. -/
theorem lineTimeArithmetic : Obligations.LineTimeArithmetic := by
  refine ⟨fun tc t f htc hf => cyclesAt_spec t htc hf, fun s offset => ⟨fun h => ?_, fun h => ?_⟩⟩
  · exact ⟨passageTime_unset h offset, boundaryTime_unset h⟩
  · refine ⟨boundaryTime_set h, _, passageTime_set h offset, ?_, fun hd => ?_, fun ho hd => ?_, fun ho hd => ?_,
      fun hd => ?_⟩
    · omega
    · omega
    · rw [Nat.min_eq_left (by omega : offset ≤ cycleLength s - 1), Nat.min_eq_left hd]
    · rw [Nat.min_eq_right (by omega : cycleLength s - 1 ≤ offset), Nat.min_eq_left hd]
    · rw [Nat.min_eq_right hd.le]

end Sys2Proof.Machine
end

