-- ==== Sys2Proof/Proofs/TimeoutRefuted.lean ====
section
/-! PROOFS. The boundary of a marker timeout meets the obstacle of a marker's boundary: a record outside the law of the INC
is freed, and the CLOCK_LOSS that takes its place announces. -/

namespace Sys2Proof.Machine

/-- The part in PREPARED mode that has missed a marker, when its deadline has come. -/
def overduePart : State := { coastingPart with lck.timeBase := 375 }

/-- The part after the marker timeout, which takes its clock to UNLOCKED. -/
def timedOutPart : State :=
  match exec .markerTimeoutExpiry overduePart with
  | .next u => u
  | _ => overduePart

/-- The record freed and the record opened in its place are both RAISED. -/
theorem timedOutPart_records :
    ∀ i, (timedOutPart.inc.records.get i).map Incident.state = (overduePart.inc.records.get i).map Incident.state := by
  decide +kernel

/-- The CLOCK_LOSS of the boundary is announced in zone 0. -/
theorem timedOutPart_zone : (timedOutPart.asc.zones.get 0).state = .playing := by decide +kernel

/-- Refutes O16: with a RAISED record whose retention runs out at the boundary, CLOCK_LOSS takes the place of that record, so
that every record's state is as before, and its announcement plays in a zone that the steps of R165 alone leave OPEN. -/
theorem not_markerTimeoutMisses : ¬ Obligations.MarkerTimeoutMisses := by
  intro h
  obtain ⟨u, hu, -, -, -, -, -, boundary, -⟩ := (h overduePart rfl).1 375 rfl le_rfl Lock.noConfusion
  have taken : BoundaryTaken overduePart u := boundary (by decide +kernel)
  have settled : timedOutPart = settle u := by rw [timedOutPart, hu]
  have inc : u.inc = timedOutPart.inc := by rw [settled, settle_outside]
  have asc : u.asc = timedOutPart.asc := by rw [settled, settle_outside]
  have records := timedOutPart_records
  rw [← inc] at records
  have zone := taken.zones records (.inl le_rfl) 0 zoneLaw_start_opened
  have opened : (u.asc.zones.get 0).state = .opened :=
    (congrArg Zone.state zone).trans (afterBoundary_start_opened u 0)
  rw [asc, timedOutPart_zone] at opened
  cases opened

end Sys2Proof.Machine
end

