-- ==== Sys2Proof/Proofs/EdgeMemory.lean ====
section
/-! PROOFS. Requests to the INC, and all that follows from them, leave the edge memories of the inputs alone (R126); and a
raise worked off at once leaves its cause present where it is not refused. -/

namespace Sys2Proof.Machine

/-- The edge memories of an action's state. -/
def Act.edges (a : Act) : Table Edge 64 := a.s.inc.edges

theorem Works.edges {a b : Act} (h : Works a b) : b.edges = a.edges :=
  show b.books.edges = a.books.edges from congrArg Inc.edges h.books

theorem edges_reckonHolds {m : Act → Act} (hm : ∀ a, Works a (m a)) (a : Act) : (reckonHolds m a).edges = a.edges :=
  (works_reckonHolds hm a).edges

theorem edges_takeRecord {a b : Act} {i : IncId} (h : takeRecord a = some (i, b)) : b.edges = a.edges := by
  unfold takeRecord at h
  split at h
  · cases h; rfl
  · split at h
    · cases h
    · dsimp only at h
      split at h <;> cases h <;> rfl

theorem edges_openRecord (o : Opening) (i : IncId) (a : Act) : (openRecord o i a).edges = a.edges := by
  unfold openRecord
  dsimp only
  rw [edges_reckonHolds (works_announceIncident _)]
  rfl

theorem edges_refuseRaise (c : IncClass) (o : IncObject) (a : Act) : (refuseRaise c o a).edges = a.edges := by
  unfold refuseRaise
  dsimp only
  split <;> rfl

theorem edges_recur (i : IncId) (r : Incident) (p : Bool) (a : Act) : (recur i r p a).edges = a.edges :=
  edges_reckonHolds Works.refl _

theorem edges_reopen (i : IncId) (r : Incident) (p : Bool) (a : Act) : (reopen i r p a).edges = a.edges := by
  unfold reopen
  dsimp only
  rw [edges_reckonHolds (works_announceIncident _)]
  rfl

theorem edges_handleRaise (c : IncClass) (o : IncObject) (p : Bool) (a : Act) : (handleRaise c o p a).edges = a.edges := by
  unfold handleRaise
  split
  · split
    · split
      · exact edges_reopen _ _ p a
      · exact edges_recur _ _ p a
    · rfl
  · split
    · next h => exact (edges_openRecord _ _ _).trans (edges_takeRecord h)
    · exact edges_refuseRaise c o a

theorem edges_resolve (i : IncId) (r : Incident) (a : Act) : (resolve i r a).edges = a.edges := by
  unfold resolve
  dsimp only
  rw [edges_reckonHolds (works_removeEntries _)]
  rfl

theorem edges_handleGone (c : IncClass) (o : IncObject) (a : Act) : (handleGone c o a).edges = a.edges := by
  unfold handleGone
  split
  · rfl
  · split
    · split
      · rfl
      · exact edges_resolve _ _ a
      · rfl
    · rfl

theorem edges_handleRequest (r : Request) (a : Act) : (handleRequest r a).edges = a.edges := by
  cases r with
  | raise c o p => exact edges_handleRaise c o p a
  | gone c o => exact edges_handleGone c o a

theorem edges_drainFor (k : Nat) (a : Act) : (drainFor k a).edges = a.edges := by
  induction k generalizing a with
  | zero => rfl
  | succ k ih =>
    unfold drainFor
    split
    · exact (ih _).trans (edges_handleRequest _ _)
    · exact (ih _).trans (works_placeHandOver _ _).edges
    · rfl

theorem edges_request (r : Request) (a : Act) : (a.request r).edges = a.edges := edges_drainFor 1000 (a.ask r)

/-! ## A raise worked off at once -/

theorem drainFor_request {a : Act} {r : Request} {rest : List Request} (h : a.requests = r :: rest) (k : Nat) :
    drainFor (k + 1) a = drainFor k (handleRequest r { a with requests := rest }) := by
  rw [drainFor, h]

/-- Where nothing else waits, a request is handled first, and then what follows from it is worked off. -/
theorem request_first {a : Act} (hn : a.requests = []) (r : Request) : a.request r = drainFor 999 (handleRequest r a) := by
  have asked : (a.ask r).requests = [r] := by rw [Act.ask_requests, hn]; rfl
  have left : { a.ask r with requests := [] } = a := by
    obtain ⟨s, out, requests, handOvers⟩ := a
    cases hn
    rfl
  rw [show a.request r = drainFor 1000 (a.ask r) from rfl, drainFor_request asked, left]

/-- A raise that is not refused leaves its cause present when all that follows from it has been worked off. -/
theorem request_causes {a : Act} (hn : a.requests = []) (hu : KeyLaw a.books) (hr : a.books.refused < 65535) {c : IncClass}
    {o : IncObject} (hc : c ≠ .powerWait) (he : (a.request (.raise c o true)).books.refused = a.books.refused) :
    (a.request (.raise c o true)).books.causes c o := by
  have asked : ∀ q ∈ (handleRequest (.raise c o true) a).requests, PowerWaitOver q := fun q hq =>
    ((speaks_handleRequest _ a).asks q hq).resolve_left (by rw [hn]; exact List.not_mem_nil)
  obtain ⟨causes, refused⟩ := drainFor_causes 999 (handleRequest_keyLaw hu _) asked
  rw [request_first hn] at he ⊢
  exact (causes c o hc).mpr (handleRaise_causes hu hr (refused.symm.trans he))

end Sys2Proof.Machine
end

