-- ==== Sys2Proof/Proofs/ImagesInForce.lean ====
section
/-! PROOFS. The last block of an image: its content is validated, and the image is put in force or its load fails (R46,
R47). -/

namespace Sys2Proof.Machine

/-! ## The last block (R45) -/

/-- The load once a block has joined its image. -/
def Load.joined (l : Load) (bytes : List Byte) : Load :=
  { l with remaining := l.remaining - 1, expected := l.expected + 1, image := l.image ++ bytes }

/-- The state after a MANAGE whose execution is the validation of a whole image. -/
def imageValidated (t : Telegram) (rest : List Telegram) (l : Load) (s : State) : State :=
  execute (fun _ => validate l) t (headTaken rest s)

theorem imageValidated_eq {t : Telegram} {rest : List Telegram} {l : Load} {s : State} {x : Act × Reply}
    (h : validate l (Act.start (headTaken rest s)) = x) :
    imageValidated t rest l s = enterMade (answer t x.2 x.1.s) x.1.out := by
  subst h
  rfl

theorem complete_checked {l : Load} (h : crc16 l.image = l.check) (a : Act) : complete l a = validate l a :=
  if_neg (not_not_intro h)

theorem loadBlock_last {l : Load} {a : Act} (h : a.s.tst.load = some l) (hr : l.remaining = 1) {bytes : List Byte}
    (hc : crc16 (l.image ++ bytes) = l.check) : loadBlock l.expected bytes a = validate (l.joined bytes) a := by
  have done : (l.joined bytes).remaining = 0 := by rw [Load.joined, hr]
  unfold loadBlock
  rw [h]
  dsimp only
  rw [if_neg (not_not_intro rfl)]
  exact (if_pos done).trans (complete_checked (l := l.joined bytes) hc a)

theorem blockCommand_args {t : Telegram} {x y : Byte} {bytes : List Byte} (h : argsOf t = [x, y] ++ bytes)
    (hb : bytes.length ≤ 232) (a : Act) : blockCommand t a = loadBlock (numOf [x, y]) bytes a := by
  have length : 2 ≤ ([x, y] ++ bytes).length ∧ ([x, y] ++ bytes).length ≤ 234 := by
    rw [List.length_append, show [x, y].length = 2 from rfl]
    omega
  unfold blockCommand
  rw [h]
  exact if_pos length

/-- The last block of an image with a matching check has the image validated. -/
theorem exec_lastBlock {s : State} {t : Telegram} {rest : List Telegram} {x y : Byte} {bytes : List Byte} {l : Load}
    (h : TakenAs s t rest 0x02 ([x, y] ++ bytes)) (hb : bytes.length ≤ 232) (hl : s.tst.load = some l)
    (hx : numOf [x, y] = l.expected) (hr : l.remaining = 1) (hc : crc16 (l.image ++ bytes) = l.check) :
    exec .loadBlock s = .next (settle (imageValidated t rest (l.joined bytes) s)) := by
  have validated : blockCommand t (Act.start (headTaken rest s))
      = validate (l.joined bytes) (Act.start (headTaken rest s)) := by
    rw [blockCommand_args h.args hb, hx]
    exact loadBlock_last hl hr hc
  refine congrArg _ ((whenAwake_awake _ h.awake).trans (congrArg settle ((command_taken h.toTaken h.code).trans ?_)))
  unfold imageValidated execute
  rw [validated]

/-! ## The outcomes of the validation (R46, R47) -/

section
variable {l : Load} {i : SlotId}

theorem validate_line {tables : LineTables} {n : Nat} (ht : l.target = .line) (hv : validateLine l.image = .valid tables n)
    (a : Act) : validate l a = (lineInForce tables a, clampReply n) := by
  unfold validate
  rw [ht]
  dsimp only
  rw [hv]

theorem validate_line_fault {x : Option (Nat × Nat)} (ht : l.target = .line) (hv : validateLine l.image = .fault x)
    (a : Act) : validate l a = contentFault l x a := by
  unfold validate
  rw [ht]
  dsimp only
  rw [hv]

theorem validate_slot {p : Profile} {n : Nat} (ht : l.target = .slot i) (hv : validateProfile l.check l.image = .valid p n)
    (a : Act) : validate l a = (profileInForce i p a, clampReply n) := by
  unfold validate
  rw [ht]
  dsimp only
  rw [hv]

theorem validate_slot_fault {x : Option (Nat × Nat)} (ht : l.target = .slot i)
    (hv : validateProfile l.check l.image = .fault x) (a : Act) : validate l a = contentFault l x a := by
  unfold validate
  rw [ht]
  dsimp only
  rw [hv]

variable {t : Telegram} {rest : List Telegram} {s : State}

/-- A valid profile image fills its slot, and the REPLY counts the clamps. -/
theorem imageValidated_slot {p : Profile} {n : Nat} (ht : l.target = .slot i)
    (hv : validateProfile l.check l.image = .valid p n) :
    imageValidated t rest l s = replied t rest (clampReply n)
      { s with tst.slots := s.tst.slots.set i { state := .ready, profile := some p }, tst.load := none } :=
  imageValidated_eq (validate_slot ht hv _)

/-- A content fault with an offending record fails the load and gives the record's ordinal and offset. -/
theorem imageValidated_fault {x : Nat × Nat} (hv : ∀ a, validate l a = contentFault l (some x) a) :
    imageValidated t rest l s = replied t rest { result := .refused, reason := .content, data := num4 x.1 ++ num4 x.2 }
      { s with tst := s.tst.failLoad l.target } :=
  imageValidated_eq (hv _)

/-- A content fault without one fails the load and gives a free value (log entry 1). -/
theorem imageValidated_free (hv : ∀ a, validate l a = contentFault l none a) :
    imageValidated t rest l s = replied t rest
      { result := .refused, reason := .content
        data := num4 (Config.freePosition s.freeCount).1 ++ num4 (Config.freePosition s.freeCount).2 }
      { s with tst := s.tst.failLoad l.target, freeCount := s.freeCount + 1 } :=
  imageValidated_eq (hv _)

end

theorem Tst.failLoad_line (t : Tst) : t.failLoad .line = { t with lineState := .failed, load := none } := rfl

theorem Tst.failLoad_slot (t : Tst) (i : SlotId) :
    t.failLoad (.slot i) = { t with slots := t.slots.set i { state := .failed, profile := none }, load := none } := rfl

/-! ## A LINE image in force (R47) -/

/-- The blocks with the tables of a LINE image, before CLOCK_LOSS is requested of an UNLOCKED clock. -/
def lineStanding (l : LineTables) (a : Act) : Act :=
  supplyValidated { a with
    s.tst := { a.s.tst with lineState := .valid, line := l, load := none }
    s.asc.zones := l.zones.map fun z => Zone.start (if z.opens then .opened else .off)
    s.inc.edges := Table.fill 64 .unknown }

theorem lineInForce_eq (l : LineTables) (a : Act) : lineInForce l a = raiseIfUnlocked (lineStanding l a) := rfl

theorem lineStanding_picture (l : LineTables) (a : Act) : pictureStands (lineStanding l a).s := pictureStands_derived _

theorem lineStanding_unknown (l : LineTables) (a : Act) (b : SubId) :
    ((lineStanding l a).s.psv.subs.get b).state = .unknown := by
  simp [lineStanding, supplyValidated, derived, Supply.start]

theorem raiseIfUnlocked_locked {a : Act} (h : a.s.lck.lock ≠ .unlocked) : raiseIfUnlocked a = a := if_neg h

theorem raiseIfUnlocked_unlocked {a : Act} (h : a.s.lck.lock = .unlocked) :
    raiseIfUnlocked a = a.request (.raise .clockLoss (.line 0) true) := if_pos h

theorem residue_raiseIfUnlocked (a : Act) : (raiseIfUnlocked a).residue = a.residue := by
  unfold raiseIfUnlocked
  split
  · exact residue_request _ a
  · rfl

theorem edges_raiseIfUnlocked (a : Act) : (raiseIfUnlocked a).edges = a.edges := by
  unfold raiseIfUnlocked
  split
  · exact edges_request _ a
  · rfl

/-- Where no raise is refused, CLOCK_LOSS is present of an UNLOCKED clock (R28). -/
theorem raiseIfUnlocked_causes {a : Act} (h : a.s.lck.lock = .unlocked) (hn : a.requests = []) (hu : KeyLaw a.books)
    (hr : a.books.refused < 65535) (he : (raiseIfUnlocked a).books.refused = a.books.refused) :
    (raiseIfUnlocked a).books.causes .clockLoss (.line 0) := by
  rw [raiseIfUnlocked_unlocked h] at he ⊢
  exact request_causes hn hu hr IncClass.noConfusion he

/-! ## The state after a LINE image -/

/-- The action of a LINE image, once the head of the management input queue has been taken. -/
def lineLoaded (l : LineTables) (rest : List Telegram) (s : State) : Act := lineInForce l (Act.start (headTaken rest s))

section
variable {tables : LineTables} {rest : List Telegram} {s : State}

theorem residue_lineLoaded :
    (lineLoaded tables rest s).residue = (lineStanding tables (Act.start (headTaken rest s))).residue :=
  residue_raiseIfUnlocked _

theorem lineLoaded_picture : pictureStands (lineLoaded tables rest s).s :=
  pictureStands_of_residue residue_lineLoaded (lineStanding_picture tables _)

theorem lineLoaded_unknown (b : SubId) : ((lineLoaded tables rest s).s.psv.subs.get b).state = .unknown :=
  (congrArg (·.1) (heard_of_residue residue_lineLoaded b)).trans (lineStanding_unknown tables _ b)

theorem lineLoaded_locked (h : s.lck.lock ≠ .unlocked) :
    lineLoaded tables rest s = lineStanding tables (Act.start (headTaken rest s)) :=
  raiseIfUnlocked_locked (a := lineStanding tables (Act.start (headTaken rest s))) h

theorem lineLoaded_edge (k : MapId) : (lineLoaded tables rest s).s.inc.edges.get k = .unknown := by
  have kept : (lineLoaded tables rest s).s.inc.edges = Table.fill 64 .unknown := edges_raiseIfUnlocked _
  rw [kept, Table.get_fill]

theorem lineLoaded_causes (h : s.lck.lock = .unlocked) (law : IncLaw s.inc) (below : s.inc.refused < 65535)
    (he : (lineLoaded tables rest s).s.inc.refused = s.inc.refused) :
    CausePresent (lineLoaded tables rest s).s .clockLoss (.line 0) :=
  have keys : KeyLaw (lineStanding tables (Act.start (headTaken rest s))).books :=
    ⟨law.keyLaw.keys, law.keyLaw.once, law.keyLaw.resolved⟩
  raiseIfUnlocked_causes (a := lineStanding tables (Act.start (headTaken rest s))) h rfl keys below he

variable {t : Telegram} {r : Reply}

/-- The state after the REPLY and the reports of an action differs from the action's in the queues alone. -/
theorem enterMade_answer_frame (a : Act) :
    enterMade (answer t r a.s) a.out = { a.s with tiu := (enterMade (answer t r a.s) a.out).tiu } := by
  rw [enterMade_frame]
  rfl

/-- The REPLY of an action that leaves the TIU and the address alone, then its reports. -/
theorem answered_enterMade {a : Act} (hroom : a.s.tiu.room = s.tiu.room) (haddress : a.s.address = s.address) :
    Answered s (enterMade (answer t r a.s) a.out) t r := by
  have item : replyTelegram a.s t r = replyTo s.address t r := by
    rw [replyTelegram, haddress]
    rfl
  have replied : (answer t r a.s).tiu.room
      = s.tiu.room ++ [{ kind := .reply, telegram := replyTo s.address t r }] := by
    rw [← item, ← hroom]
    rfl
  have room := room_enterMade (answer t r a.s) a.out
  rw [replied] at room
  exact ⟨_, fun x hx => madeReports_kind (List.mem_of_mem_take hx), room⟩

end

/-- With valid line tables and no ACTIVE slot the part is PREPARED (R56). -/
theorem mode_prepared {s : State} (hv : s.tst.lineState = .valid) (hn : activeSlot s = none) : mode s = .prepared := by
  simp [mode, tablesValid, hv, hn]

theorem activeSlot_of_slots {s u : State} (h : u.tst.slots = s.tst.slots) : activeSlot u = activeSlot s := by
  unfold activeSlot
  rw [h]

/-- Settles O44: the last block has the image validated; a LINE image in force writes the blocks, and the request it makes of
an UNLOCKED clock leaves the tables, the picture and the edge memories as they then stand. -/
theorem imagesPutInForce : Obligations.ImagesPutInForce := by
  intro s t rest x y bytes l h hb hl hx hr hc
  have last := exec_lastBlock h hb hl hx hr hc
  refine ⟨fun tables n ht hv hn => ?_, fun p n i ht hv => ?_, fun ordinal offset ht hv => ?_,
    fun i ht => ⟨fun ordinal offset hv => ?_, fun hv => ?_⟩⟩
  · have validated : imageValidated t rest (l.joined bytes) s
        = enterMade (answer t (clampReply n) (lineLoaded tables rest s).s) (lineLoaded tables rest s).out :=
      imageValidated_eq (validate_line (l := l.joined bytes) ht hv _)
    have frame := enterMade_answer_frame (t := t) (r := clampReply n) (lineLoaded tables rest s)
    have residue := residue_lineLoaded (tables := tables) (rest := rest) (s := s)
    obtain ⟨-, -, -, address, tiu, lck, tst, -⟩ := residue_outer residue
    rw [validated] at last
    have tables_stand := (congrArg State.tst frame).trans tst
    have inc := congrArg State.inc frame
    refine ⟨_, last, answered_enterMade ((congrArg Tiu.room tiu).trans rfl) (address.trans rfl), ?_, tables_stand,
      mode_prepared ?_ ?_, fun hlock z => ?_, fun k => ?_, ?_, fun b => ?_, (congrArg State.lck frame).trans lck,
      fun hlock hnone => ?_, fun hlock => ?_⟩
    · rw [enterMade_frame]
      exact (congrArg Tiu.manage tiu).trans rfl
    · rw [tables_stand]
      rfl
    · exact (activeSlot_of_slots (s := s) (by rw [tables_stand]; rfl)).trans hn
    · rw [frame, lineLoaded_locked hlock]
      exact Table.get_map _ _ _
    · rw [inc]
      exact lineLoaded_edge k
    · rw [frame]
      exact lineLoaded_picture
    · rw [frame]
      exact lineLoaded_unknown b
    · obtain ⟨law, below, same⟩ := hnone
      rw [inc] at same
      rw [frame]
      exact lineLoaded_causes hlock law below same
    · rw [frame, lineLoaded_locked hlock]
      rfl
  · rw [last, imageValidated_slot (l := l.joined bytes) ht hv]
    rfl
  · rw [last, imageValidated_fault (l := l.joined bytes) (x := (ordinal, offset))
      (validate_line_fault (l := l.joined bytes) ht hv), show (l.joined bytes).target = .line from ht, Tst.failLoad_line]
  · rw [last, imageValidated_fault (l := l.joined bytes) (x := (ordinal, offset))
      (validate_slot_fault (l := l.joined bytes) ht hv), show (l.joined bytes).target = .slot i from ht, Tst.failLoad_slot]
  · rw [last, imageValidated_free (l := l.joined bytes) (validate_slot_fault (l := l.joined bytes) ht hv),
      show (l.joined bytes).target = .slot i from ht, Tst.failLoad_slot]

end Sys2Proof.Machine
end

