-- ==== Sys2Proof/Proofs/Upholds.lean ====
section
/-! PROOFS. How a law of the blocks is carried over a step. The queues, the counters and the transmitters touch none of the
blocks, so that such a law is upheld by a command as soon as the work of the blocks upholds it. -/

namespace Sys2Proof.Machine

/-! ## What the queues leave alone -/

/-- What the blocks other than the TIU hold. -/
def State.blocks (s : State) : Lck × Tst × Rrg × Psv × Inc × Asc := (s.lck, s.tst, s.rrg, s.psv, s.inc, s.asc)

theorem blocks_enterMade (s : State) (l : List Made) : (enterMade s l).blocks = s.blocks := by
  rw [enterMade_frame]
  rfl

theorem blocks_settle (s : State) : (settle s).blocks = s.blocks := by
  rw [settle_outside]
  rfl

theorem blocks_settleAwake (s : State) : (settleAwake s).blocks = s.blocks := by
  unfold settleAwake
  split
  · rfl
  · exact blocks_settle s

theorem blocks_offerRoom (c : RoomClass) (x : RoomItem) (s : State) : (offerRoom c x s).blocks = s.blocks := by
  unfold offerRoom; split <;> rfl

theorem blocks_queueManage (t : Telegram) (s : State) : (queueManage t s).blocks = s.blocks := by
  unfold queueManage; split <;> rfl

theorem blocks_queueForward (t : Telegram) (s : State) : (queueForward t s).blocks = s.blocks := by
  unfold queueForward; split <;> rfl

/-! ## Laws that read the blocks alone -/

/-- A law that reads nothing of a state but its blocks. -/
def OffQueues (P : State → Prop) : Prop := ∀ s u : State, u.blocks = s.blocks → P s → P u

/-- A change of the state that upholds a law. -/
def Upholds (P : State → Prop) (f : State → State) : Prop := ∀ s, P s → P (f s)

section
variable {P : State → Prop} {f g : State → State}

theorem OffQueues.upholds (hP : OffQueues P) (h : ∀ s, (f s).blocks = s.blocks) : Upholds P f := fun s hs =>
  hP s (f s) (h s) hs

theorem Upholds.id : Upholds P fun s => s := fun _ hs => hs

theorem Upholds.ite {c : State → Prop} [DecidablePred c] (hf : Upholds P f) (hg : Upholds P g) :
    Upholds P fun s => if c s then f s else g s := fun s hs => by
  dsimp only
  split
  · exact hf s hs
  · exact hg s hs

theorem Upholds.whenAwake (hP : OffQueues P) (h : Upholds P f) : Upholds P (whenAwake f) := fun s hs => by
  unfold Machine.whenAwake
  split
  · exact hs
  · exact hP _ _ (blocks_settle _) (h s hs)

theorem OffQueues.count (hP : OffQueues P) (k : Counters → Counters) : Upholds P (count k) := hP.upholds fun _ => rfl

/-- Work that upholds the law, whose orders and reports then enter the queues. -/
theorem OffQueues.finish (hP : OffQueues P) {work : Act → Act} (h : ∀ a, P a.s → P (work a).s) :
    Upholds P fun s => (work (Act.start s)).finish := fun s hs =>
  hP _ _ (blocks_enterMade _ _) (h (Act.start s) hs)

/-- The expiry of a countdown. -/
theorem OffQueues.expiry (hP : OffQueues P) {due : State → Bool} {work : Act → Act} (h : ∀ a, P a.s → P (work a).s) :
    Upholds P fun s => if clockSet s ∧ due s then (work (Act.start s)).finish else s :=
  Upholds.ite (c := fun s => clockSet s ∧ due s) (hP.finish h) Upholds.id

/-! ## The receive path -/

/-- The handling of field telegrams upholds a law. -/
def DispatchUpholds (P : State → Prop) : Prop :=
  ∀ t c, contents? t = some c → ∀ a : Act, P a.s → P (dispatch t c a).1.s

theorem OffQueues.acceptField (hP : OffQueues P) (hd : DispatchUpholds P) {t : Telegram} {c : Contents}
    (hc : contents? t = some c) : Upholds P (acceptField t c) := fun s hs => by
  have handled := hd t c hc (Act.start s) hs
  unfold Machine.acceptField forwardThenFinish
  split
  · exact hP _ _ ((blocks_enterMade _ _).trans (blocks_offerRoom _ _ _)) handled
  · exact hP _ _ (blocks_enterMade _ _) handled

theorem OffQueues.receiveField (hP : OffQueues P) (hd : DispatchUpholds P) (p : FieldPort) (t : Telegram) :
    Upholds P (receiveField p t) := fun s hs => by
  unfold Machine.receiveField
  split
  · exact hs
  · split
    · exact hP.count _ s hs
    · split
      · exact hP.count _ s hs
      · next hc =>
        split
        · exact hP.acceptField hd hc s hs
        · split
          · exact hP.count _ s hs
          · exact hP.acceptField hd hc (remember t s) (hP s (remember t s) rfl hs)

theorem OffQueues.receiveRoom (hP : OffQueues P) (t : Telegram) : Upholds P (receiveRoom t) :=
  Upholds.ite (Upholds.ite (hP.count _) (Upholds.ite (hP.count _) (hP.upholds (blocks_queueManage t))))
    (hP.upholds (blocks_queueForward t))

theorem OffQueues.receiveSound (hP : OffQueues P) (hd : DispatchUpholds P) (p : Port) (t : Telegram) :
    Upholds P (receiveSound p t) := by
  cases p
  · exact hP.receiveField hd .a t
  · exact hP.receiveField hd .b t
  · exact hP.receiveRoom t

theorem OffQueues.receiveTelegram (hP : OffQueues P) (hd : DispatchUpholds P) (p : Port) (t : Telegram) :
    Upholds P (receiveTelegram p t) :=
  Upholds.ite (Upholds.ite (hP.count _) (hP.receiveSound hd p t)) Upholds.id

theorem OffQueues.receiveFrame (hP : OffQueues P) (hd : DispatchUpholds P) (p : Port) (bytes : List Byte) :
    Upholds P (receiveFrame p bytes) := by
  refine Upholds.ite ?_ Upholds.id
  cases readFrame bytes with
  | lengthFault => exact hP.count _
  | checkFault => exact hP.count _
  | sound t => exact hP.receiveSound hd p t

/-! ## The management rows -/

theorem OffQueues.takeHead (hP : OffQueues P) (belongs : Telegram → Bool) {run : Telegram → State → State}
    (h : ∀ t, Upholds P (run t)) : Upholds P (takeHead belongs run) := fun s hs => by
  unfold Machine.takeHead
  split
  · exact hs
  · next t rest _ =>
    split
    · exact h t (headTaken rest s) (hP s (headTaken rest s) rfl hs)
    · exact hs

theorem OffQueues.answer (hP : OffQueues P) (r : Reply) (t : Telegram) : Upholds P (answer t r) := hP.upholds fun _ => rfl

/-- A command's function that upholds a law. -/
def CommandUpholds (P : State → Prop) (f : Act → Act × Reply) : Prop := ∀ a : Act, P a.s → P (f a).1.s

/-- A command with arguments of a length upholds what its function does. -/
theorem CommandUpholds.sized {n : Nat} {f : List Byte → Act → Act × Reply} (h : ∀ x, CommandUpholds P (f x))
    (t : Telegram) : CommandUpholds P (sized n f t) := fun a ha => by
  unfold Machine.sized
  split
  · exact h _ a ha
  · exact ha

theorem OffQueues.execute (hP : OffQueues P) {f : Telegram → Act → Act × Reply} (h : ∀ t, CommandUpholds P (f t))
    (t : Telegram) : Upholds P (execute f t) := fun s hs =>
  hP (f t (Act.start s)).1.s _ ((blocks_enterMade _ _).trans rfl) (h t (Act.start s) hs)

/-! ## Commands -/

/-- A command that is a change of the state which upholds a law. -/
def Lawful (P : State → Prop) (m : State → Answer) : Prop := ∃ f, Upholds P f ∧ ∀ s, m s = .next (f s)

theorem Upholds.awake (hP : OffQueues P) (h : Upholds P f) : Lawful P fun s => .next (Machine.whenAwake f s) :=
  ⟨_, h.whenAwake hP, fun _ => rfl⟩

theorem OffQueues.expire (hP : OffQueues P) (due : State → Bool) {work : Act → Act} (h : ∀ a, P a.s → P (work a).s) :
    Lawful P (expire due work) := (hP.expiry h).awake hP

theorem OffQueues.telegram (hP : OffQueues P) (hd : DispatchUpholds P) (p : Port) (t : Telegram) :
    Lawful P fun s => .next (Machine.whenAwake (Machine.receiveTelegram p t) s) := (hP.receiveTelegram hd p t).awake hP

theorem OffQueues.command (hP : OffQueues P) (code : Nat) {f : Telegram → Act → Act × Reply}
    (h : ∀ t, CommandUpholds P (f t)) : Lawful P fun s => .next (Machine.whenAwake (Machine.command code f) s) :=
  (hP.takeHead _ (hP.execute h)).awake hP

theorem OffQueues.sizedCommand (hP : OffQueues P) (code n : Nat) {f : List Byte → Act → Act × Reply}
    (h : ∀ x, CommandUpholds P (f x)) :
    Lawful P fun s => .next (Machine.whenAwake (Machine.command code (Machine.sized n f)) s) :=
  hP.command code (CommandUpholds.sized h)

theorem OffQueues.query (hP : OffQueues P) (q : Subject) : Lawful P fun s => .next (Machine.whenAwake (Machine.query q) s) :=
  (hP.takeHead _ (hP.execute fun t a ha => by unfold queryCommand; split <;> exact ha)).awake hP

theorem OffQueues.restart (hP : OffQueues P) (full : Bool) (warm : Upholds P restartWarmly) (all : Upholds P restartFully) :
    Lawful P fun s => .next (Machine.whenAwake (Machine.restart full) s) := by
  refine (hP.takeHead _ fun t s hs => ?_).awake hP
  split
  · exact hP.answer _ _ s hs
  · exact warm _ (hP.answer _ _ s hs)
  · exact all _ (hP.answer _ _ s hs)

/-- A step upholds a law that every command does and the passing of a millisecond. -/
theorem OffQueues.step (hP : OffQueues P) (hc : ∀ c, Lawful P (exec c))
    (ht : Upholds P fun s => { s with lck.timeBase := s.lck.timeBase + 1 }) {s u : State} (h : P s) (e : step s = .next u) :
    P u := by
  have command {c : Instr} {s : State} (h : P s) (e : exec c s = .next u) : P u := by
    obtain ⟨f, keeps, hx⟩ := hc c
    rw [hx] at e
    cases e
    exact keeps s h
  unfold Machine.step at e
  split at e
  · unfold idle at e
    split at e
    · cases e
      exact h
    · split at e
      · exact command (c := .markerTimeoutExpiry) h e
      · cases e
        exact ht s h
  · next c rest _ => exact command (s := { s with pending := rest }) (hP s { s with pending := rest } rfl h) e

end

end Sys2Proof.Machine
end

