-- ==== Sys2Proof/Proofs/StoreLaw.lean ====
section
/-! PROOFS. The law of the Table Store: each of its own operations, load by load, group by group and at an activation, keeps
it. -/

namespace Sys2Proof.Machine

/-! ## What the law says of loads, slots and the mode -/

section
variable {t : Tst}

/-- A slot that is not EMPTY stands beside VALID line tables. -/
theorem TstLaw.valid_of_slot (h : TstLaw t) {i : SlotId} (hi : (t.slots.get i).state ≠ .empty) : t.lineState = .valid :=
  Decidable.byContradiction fun hv => hi ((h.bare hv).1 i)

/-- A slot whose load is open is LOADING. -/
theorem TstLaw.loading_slot (h : TstLaw t) {l : Load} (hl : t.load = some l) {i : SlotId} (e : l.target = .slot i) :
    (t.slots.get i).state = .loading := (h.slotLoading i).mpr ⟨l, hl, e⟩

/-- Without a load no slot is LOADING. -/
theorem TstLaw.unloaded_slot (h : TstLaw t) (hn : t.load = none) (i : SlotId) : (t.slots.get i).state ≠ .loading :=
  fun e => by
    obtain ⟨l, hl, -⟩ := (h.slotLoading i).mp e
    rw [hn] at hl
    cases hl

/-! ## Slots -/

/-- One slot is written, and the load with it: the slot is not ACTIVE afterwards, nor PENDING, and it is LOADING just when the
load is its own; no other slot is LOADING, before or after. -/
theorem TstLaw.setSlot (h : TstLaw t) {i : SlotId} {x : ProfileSlot} {o : Option Load} (hv : t.lineState = .valid)
    (hp : t.pendingSlot ≠ some i) (hx : x.profile.isSome = true ↔ x.state = .ready) (ha : x.state ≠ .active)
    (hl : x.state = .loading ↔ o.isSome = true) (ho : ∀ l, o = some l → l.target = .slot i)
    (hother : ∀ j, j ≠ i → (t.slots.get j).state ≠ .loading)
    (hb : ∀ l, o = some l → 1 ≤ l.remaining ∧ l.remaining + l.expected ≤ 1024) :
    TstLaw { t with slots := t.slots.set i x, load := o } where
  oneActive j k hj hk := by
    have apart (m : SlotId) (hm : ((t.slots.set i x).get m).state = .active) : (t.slots.get m).state = .active := by
      rw [Table.get_set] at hm
      split at hm
      · exact absurd hm ha
      · exact hm
    exact h.oneActive j k (apart j hj) (apart k hk)
  holds j := by
    rw [Table.get_set]
    split
    · exact hx.trans ⟨.inl, fun e => e.resolve_right ha⟩
    · exact h.holds j
  pending j hj := by
    rw [Table.get_set, if_neg (by rintro rfl; exact hp hj)]
    exact h.pending j hj
  lineLoading := by
    refine ⟨fun e => ?_, fun ⟨l, e, hline⟩ => ?_⟩
    · rw [hv] at e
      cases e
    · rw [ho l e] at hline
      cases hline
  slotLoading j := by
    rw [Table.get_set]
    split
    · next e =>
      subst e
      refine hl.trans ⟨fun hs => ?_, fun ⟨l, e, _⟩ => Option.isSome_iff_exists.mpr ⟨l, e⟩⟩
      obtain ⟨l, e⟩ := Option.isSome_iff_exists.mp hs
      exact ⟨l, e, ho l e⟩
    · next hne =>
      refine ⟨fun e => absurd e (hother j (Ne.symm hne)), fun ⟨l, e, hslot⟩ => ?_⟩
      rw [ho l e] at hslot
      exact absurd (LoadTarget.slot.inj hslot) hne
  blocks := hb
  openGroup := h.openGroup
  waiting := h.waiting
  groups := h.groups
  bare hn := absurd hv hn

/-- The state of the line tables changes while they are not VALID. -/
theorem TstLaw.setLineState (h : TstLaw t) (hv : t.lineState ≠ .valid) {x : LineState} {o : Option Load}
    (hl : x = .loading ↔ o.isSome = true) (ho : ∀ l, o = some l → l.target = .line)
    (hb : ∀ l, o = some l → 1 ≤ l.remaining ∧ l.remaining + l.expected ≤ 1024) :
    TstLaw { t with lineState := x, load := o } where
  oneActive := h.oneActive
  holds := h.holds
  pending := h.pending
  lineLoading := by
    refine hl.trans ⟨fun hs => ?_, fun ⟨l, e, _⟩ => Option.isSome_iff_exists.mpr ⟨l, e⟩⟩
    obtain ⟨l, e⟩ := Option.isSome_iff_exists.mp hs
    exact ⟨l, e, ho l e⟩
  slotLoading j := by
    refine ⟨fun e => ?_, fun ⟨l, e, hslot⟩ => ?_⟩
    · have empty := (h.bare hv).1 j
      rw [show (t.slots.get j).state = .loading from e] at empty
      cases empty
    · rw [ho l e] at hslot
      cases hslot
  blocks := hb
  openGroup := h.openGroup
  waiting := h.waiting
  groups := h.groups
  bare _ := h.bare hv

/-! ## Loads (R44–R48) -/

/-- A load that is opened (R44). -/
theorem TstLaw.loadOpened (h : TstLaw t) {l : Load} (hn : t.load = none)
    (hm : ∀ i, l.target = .slot i → t.lineState = .valid ∧ t.pendingSlot ≠ some i)
    (hline : l.target = .line → t.lineState ≠ .valid) (hb : 1 ≤ l.remaining ∧ l.remaining + l.expected ≤ 1024) :
    TstLaw { t.mark l.target .loading .loading with load := some l } := by
  have bounded : ∀ k, some l = some k → 1 ≤ k.remaining ∧ k.remaining + k.expected ≤ 1024 := by
    rintro k ⟨⟩
    exact hb
  cases e : l.target with
  | line =>
    refine h.setLineState (hline e) (x := .loading) (by simp) ?_ bounded
    rintro k ⟨⟩
    exact e
  | slot i =>
    obtain ⟨hv, hp⟩ := hm i e
    refine h.setSlot hv hp (x := { state := .loading, profile := none }) (by simp) SlotState.noConfusion (by simp) ?_
      (fun j _ => h.unloaded_slot hn j) bounded
    rintro k ⟨⟩
    exact e

/-- A load that is closed without an image: its target takes a state that holds nothing (R45, R46, R48). -/
theorem TstLaw.loadClosed (h : TstLaw t) {l : Load} (hl : t.load = some l) {x : LineState} {y : SlotState}
    (hx : x = .failed ∨ x = .invalid) (hy : y = .failed ∨ y = .empty) :
    TstLaw { t.mark l.target x y with load := none } := by
  cases e : l.target with
  | line =>
    have loading := h.lineLoading.mpr ⟨l, hl, e⟩
    refine h.setLineState (x := x) (by rw [loading]; exact LineState.noConfusion) ?_ (by simp) (by simp)
    rcases hx with rfl | rfl <;> simp
  | slot i =>
    have loading := h.loading_slot hl e
    have others : ∀ j, j ≠ i → (t.slots.get j).state ≠ .loading := fun j hne hj => by
      obtain ⟨k, hk, ek⟩ := (h.slotLoading j).mp hj
      rw [hl] at hk
      cases hk
      rw [e] at ek
      exact hne (LoadTarget.slot.inj ek).symm
    refine h.setSlot (x := { state := y, profile := none }) (h.valid_of_slot (by rw [loading]; exact SlotState.noConfusion)) ?_
      ?_ ?_ ?_ (by simp) others (by simp)
    · intro hp
      have ready := h.pending i hp
      rw [loading] at ready
      cases ready
    all_goals rcases hy with rfl | rfl <;> simp

theorem TstLaw.failLoad (h : TstLaw t) {l : Load} (hl : t.load = some l) : TstLaw (t.failLoad l.target) :=
  h.loadClosed hl (.inl rfl) (.inl rfl)

theorem TstLaw.abandonLoad (h : TstLaw t) : TstLaw t.abandonLoad := by
  unfold Tst.abandonLoad
  split
  · exact h
  · next l hl => exact h.loadClosed hl (.inr rfl) (.inr rfl)

/-- The open load goes on with the same target (R45). -/
theorem TstLaw.loadContinued (h : TstLaw t) {l k : Load} (hl : t.load = some l) (hk : k.target = l.target)
    (hb : 1 ≤ k.remaining ∧ k.remaining + k.expected ≤ 1024) : TstLaw { t with load := some k } where
  oneActive := h.oneActive
  holds := h.holds
  pending := h.pending
  lineLoading := by
    rw [h.lineLoading, hl]
    simp [hk]
  slotLoading i := by
    rw [h.slotLoading i, hl]
    simp [hk]
  blocks := by
    rintro x ⟨⟩
    exact hb
  openGroup := h.openGroup
  waiting := h.waiting
  groups := h.groups
  bare := h.bare

/-- A LINE image put in force (R47). -/
theorem TstLaw.lineInForce (h : TstLaw t) {l : Load} (hl : t.load = some l) (e : l.target = .line) (x : LineTables) :
    TstLaw { t with lineState := .valid, line := x, load := none } where
  oneActive := h.oneActive
  holds := h.holds
  pending := h.pending
  lineLoading := by simp
  slotLoading i := by
    refine ⟨fun hi => ?_, by simp⟩
    obtain ⟨k, hk, ek⟩ := (h.slotLoading i).mp hi
    rw [hl] at hk
    cases hk
    rw [e] at ek
    cases ek
  blocks := by simp
  openGroup := h.openGroup
  waiting := h.waiting
  groups := h.groups
  bare hn := absurd rfl hn

/-- A profile image that fills its slot (R47). -/
theorem TstLaw.profileInForce (h : TstLaw t) {l : Load} (hl : t.load = some l) {i : SlotId} (e : l.target = .slot i)
    (p : Profile) : TstLaw { t with slots := t.slots.set i { state := .ready, profile := some p }, load := none } := by
  have loading := h.loading_slot hl e
  refine h.setSlot (h.valid_of_slot (by rw [loading]; exact SlotState.noConfusion)) ?_ (by simp) (by simp) (by simp) (by simp)
    (fun j hne hj => ?_) (by simp)
  · intro hp
    have ready := h.pending i hp
    rw [loading] at ready
    cases ready
  · obtain ⟨k, hk, ek⟩ := (h.slotLoading j).mp hj
    rw [hl] at hk
    cases hk
    rw [e] at ek
    exact hne (LoadTarget.slot.inj ek).symm

/-! ## Profiles (R50, R51) -/

theorem TstLaw.madePending (h : TstLaw t) {i : SlotId} (hi : (t.slots.get i).state = .ready) :
    TstLaw { t with pendingSlot := some i } :=
  { h with pending := by rintro j ⟨⟩; exact hi }

theorem TstLaw.nonePending (h : TstLaw t) : TstLaw { t with pendingSlot := none } := { h with pending := by simp }

/-- The slots after an activation (R51). -/
theorem Tst.makeActive_get (t : Tst) (i j : SlotId) :
    (t.makeActive i).slots.get j = { t.slots.get j with
      state := if j = i then .active else if (t.slots.get j).state = .active then .ready else (t.slots.get j).state } := by
  unfold Tst.makeActive
  dsimp only
  rw [Table.get_set, Table.get_map, Table.get_map]
  by_cases e : j = i
  · subst e
    rw [if_pos rfl, if_pos rfl]
    split <;> rfl
  · rw [if_neg (Ne.symm e), if_neg e]
    split <;> rfl

/-- A READY slot made ACTIVE (R51). -/
theorem TstLaw.makeActive (h : TstLaw t) {i : SlotId} (hi : (t.slots.get i).state = .ready) : TstLaw (t.makeActive i) where
  oneActive j k hj hk := by
    have here (m : SlotId) (hm : ((t.makeActive i).slots.get m).state = .active) : m = i := by
      rw [Tst.makeActive_get] at hm
      dsimp only at hm
      split at hm
      · assumption
      · split at hm
        · cases hm
        · contradiction
    exact (here j hj).trans (here k hk).symm
  holds j := by
    rw [Tst.makeActive_get]
    refine (h.holds j).trans ?_
    dsimp only
    split
    · next e =>
      subst e
      simp [hi]
    · split
      · next ha => simp [ha]
      · exact Iff.rfl
  pending j hj := by cases hj
  lineLoading := h.lineLoading
  slotLoading j := by
    refine Iff.trans ?_ (h.slotLoading j)
    rw [Tst.makeActive_get]
    dsimp only
    split
    · next e =>
      subst e
      simp [hi]
    · split
      · next ha => simp [ha]
      · exact Iff.rfl
  blocks := h.blocks
  openGroup := h.openGroup
  waiting := h.waiting
  groups := h.groups
  bare hn := absurd (h.valid_of_slot (by rw [hi]; exact SlotState.noConfusion)) hn

/-! ## Groups (R52–R54) -/

/-- With VALID line tables the groups change within their numbers (R53). -/
theorem TstLaw.setGroups (h : TstLaw t) (hv : t.lineState = .valid) {o : Option (List HeldEdit)} {w : List (List HeldEdit)}
    (ho : ∀ g, o = some g → g.length ≤ 32) (hw : w.length ≤ 4) (hg : ∀ g ∈ w, g ≠ [] ∧ g.length ≤ 32) :
    TstLaw { t with openGroup := o, waiting := w } :=
  { h with openGroup := ho, waiting := hw, groups := hg, bare := fun hn => absurd hv hn }

/-- No group is held. -/
theorem TstLaw.noGroups (h : TstLaw t) : TstLaw { t with openGroup := none, waiting := [] } :=
  { h with
    openGroup := by simp
    waiting := Nat.zero_le _
    groups := by simp
    bare := fun hn => ⟨(h.bare hn).1, rfl, rfl, (h.bare hn).2.2.2⟩ }

theorem TstLaw.noneWaiting (h : TstLaw t) : TstLaw { t with waiting := [] } :=
  { h with
    waiting := Nat.zero_le _
    groups := by simp
    bare := fun hn => ⟨(h.bare hn).1, (h.bare hn).2.1, rfl, (h.bare hn).2.2.2⟩ }

theorem TstLaw.warm (h : TstLaw t) : TstLaw t.warm := h.abandonLoad.noGroups.nonePending

/-- What the writing of edits leaves of the Table Store: everything but the line tables and the contents of profiles. -/
structure Tst.Edited (t u : Tst) : Prop where
  rest : { u with line := t.line, slots := t.slots } = t
  state : ∀ i, (u.slots.get i).state = (t.slots.get i).state
  profile : ∀ i, (u.slots.get i).profile.isSome = (t.slots.get i).profile.isSome

theorem Tst.Edited.refl (t : Tst) : t.Edited t := ⟨rfl, fun _ => rfl, fun _ => rfl⟩

theorem Tst.Edited.trans {t u v : Tst} (h : t.Edited u) (k : u.Edited v) : t.Edited v :=
  ⟨(congrArg (fun x : Tst => { x with line := t.line, slots := t.slots }) k.rest).trans h.rest,
    fun i => (k.state i).trans (h.state i), fun i => (k.profile i).trans (h.profile i)⟩

theorem ProfileSlot.edit_frame (x : ProfileSlot) (e : HeldEdit) :
    (x.edit e).state = x.state ∧ (x.edit e).profile.isSome = x.profile.isSome := by
  unfold ProfileSlot.edit
  split
  · exact ⟨rfl, Option.isSome_map⟩
  · exact ⟨rfl, rfl⟩

theorem Tst.edited_write (t : Tst) (e : HeldEdit) : t.Edited (t.write e) := by
  unfold Tst.write
  split
  · next i _ _ =>
    refine ⟨rfl, fun j => ?_, fun j => ?_⟩ <;> dsimp only <;> rw [Table.get_set] <;> split
    · next hj =>
      subst hj
      exact (ProfileSlot.edit_frame _ e).1
    · rfl
    · next hj =>
      subst hj
      exact (ProfileSlot.edit_frame _ e).2
    · rfl
  · exact Tst.Edited.refl t
  · exact ⟨rfl, fun _ => rfl, fun _ => rfl⟩

theorem Tst.edited_writes (t : Tst) (g : List HeldEdit) : t.Edited (g.foldl Tst.write t) := by
  induction g generalizing t with
  | nil => exact Tst.Edited.refl t
  | cons e g ih => exact (t.edited_write e).trans (ih _)

theorem Tst.edited_writeGroup (t : Tst) (g : List HeldEdit) : t.Edited (t.writeGroup g) :=
  (t.edited_writes g).trans ⟨rfl, fun _ => rfl, fun _ => rfl⟩

/-- With VALID line tables the writing of edits keeps the law. -/
theorem TstLaw.edited {u : Tst} (h : TstLaw t) (hv : t.lineState = .valid) (he : t.Edited u) : TstLaw u := by
  obtain ⟨lineState, line, slots, load, openGroup, waiting, pendingSlot⟩ := u
  obtain ⟨rest, state, profile⟩ := he
  obtain ⟨⟩ := t
  cases rest
  dsimp only at state profile hv
  exact {
    oneActive := fun i j hi hj => h.oneActive i j ((state i).symm.trans hi) ((state j).symm.trans hj)
    holds := fun i => by
      dsimp only
      rw [profile, state]
      exact h.holds i
    pending := fun i hi => (state i).trans (h.pending i hi)
    lineLoading := h.lineLoading
    slotLoading := fun i => by
      dsimp only
      rw [state]
      exact h.slotLoading i
    blocks := h.blocks
    openGroup := h.openGroup
    waiting := h.waiting
    groups := h.groups
    bare := fun hn => absurd hv hn }

/-- The writing of edits leaves the state of the line tables. -/
theorem Tst.Edited.lineState {t u : Tst} (h : t.Edited u) : u.lineState = t.lineState :=
  show ({ u with line := t.line, slots := t.slots } : Tst).lineState = t.lineState from congrArg Tst.lineState h.rest

end

end Sys2Proof.Machine
end

