-- ==== Sys2Proof/Proofs/StoreSteps.lean ====
section
/-! PROOFS. The law of the Table Store over every step: the other blocks leave the store alone, and its own commands and its
work at a boundary keep the law. -/

namespace Sys2Proof.Machine

/-! ## What leaves the store alone -/

/-- The Table Store of an action's state. -/
def Act.store (a : Act) : Tst := a.s.tst

theorem store_of_blank {a b : Act} (h : a.blank = b.blank) : a.store = b.store :=
  show a.blank.tst = b.blank.tst from congrArg State.tst h

theorem store_of_residue {a b : Act} (h : a.residue = b.residue) : a.store = b.store :=
  store_of_blank (blank_of_residue h)

theorem store_of_offAsc {a b : Act} (h : a.offAsc = b.offAsc) : a.store = b.store := store_of_residue (residue_of_offAsc h)

theorem store_report (k : Nat) (x : List Byte) (a : Act) : (a.report k x).store = a.store := rfl

theorem store_raiseIfUnlocked (a : Act) : (raiseIfUnlocked a).store = a.store :=
  store_of_residue (residue_raiseIfUnlocked a)

theorem store_retentionOut (i : IncId) (a : Act) : (retentionOut i a).store = a.store := by
  unfold retentionOut; repeat' (first | split | rfl)

theorem store_incBoundary (a : Act) : (incBoundary a).store = a.store := by
  have freed : (forAll 32 retentionOut a).store = a.store := forAll_keeps Act.store _ store_retentionOut a
  unfold incBoundary
  dsimp only
  split
  · exact (store_of_blank (blank_tick _)).trans freed
  · exact freed

theorem store_clockRequest (r : Request) (a : Act) : (clockRequest r a).store = a.store := by
  unfold clockRequest
  split
  · rfl
  · exact store_of_blank (blank_request r a)

/-! ## A group applied (R54) -/

@[simp] theorem blank_inputConsequence (l : LineTables) (a : Act) : (inputConsequence l a).blank = a.blank := by
  unfold inputConsequence
  dsimp only
  rw [foldl_keeps Act.blank _ (fun a r => blank_ask _ a)]
  rfl

@[simp] theorem blank_supplyConsequence (l : LineTables) (a : Act) : (supplyConsequence l a).blank = a.blank := by
  unfold supplyConsequence
  dsimp only
  split
  · simp
  · rfl

@[simp] theorem blank_areaConsequence (l : LineTables) (a : Act) : (areaConsequence l a).blank = a.blank := by
  unfold areaConsequence
  dsimp only
  rw [blank_reckonHolds_id]
  rfl

/-- Nothing but its writing touches the store when a group is applied. -/
theorem store_applyGroup (g : List HeldEdit) (a : Act) : (applyGroup g a).store = a.store.writeGroup g := by
  unfold applyGroup
  refine (store_of_blank (b := { a with s.tst := a.s.tst.writeGroup g }) ?_).trans rfl
  simp

/-- A group applied to VALID line tables keeps the law. -/
theorem tstLaw_applyGroup {a : Act} (h : TstLaw a.store) (hv : a.store.lineState = .valid) (g : List HeldEdit) :
    TstLaw (applyGroup g a).store ∧ (applyGroup g a).store.lineState = .valid := by
  have edited := a.store.edited_writeGroup g
  rw [store_applyGroup]
  exact ⟨h.edited hv edited, edited.lineState.trans hv⟩

theorem tstLaw_applyGroups {a : Act} (h : TstLaw a.store) (hv : a.store.lineState = .valid) (l : List (List HeldEdit)) :
    TstLaw (l.foldl (fun a g => applyGroup g a) a).store := by
  induction l generalizing a with
  | nil => exact h
  | cons g l ih =>
    obtain ⟨law, valid⟩ := tstLaw_applyGroup h hv g
    exact ih law valid

/-! ## Activations (R51) -/

theorem store_activate (i : SlotId) (a : Act) : (activate i a).store = a.store.makeActive i := by
  unfold activate
  dsimp only
  rw [store_report, store_of_blank (blank_rebind _)]
  rfl

theorem tstLaw_activatePending {a : Act} (h : TstLaw a.store) : TstLaw (activatePending a).store := by
  unfold activatePending
  split
  · exact h
  · next i hi =>
    rw [store_activate]
    exact h.makeActive (h.pending i hi)

/-! ## Boundaries (R29, R54) -/

/-- Every waiting group is applied, which none is while the line tables are not VALID, and then a pending activation. -/
theorem tstLaw_tstBoundary {a : Act} (h : TstLaw a.store) : TstLaw (tstBoundary a).store := by
  unfold tstBoundary
  refine tstLaw_activatePending (TstLaw.noneWaiting ?_)
  by_cases hv : a.store.lineState = .valid
  · exact tstLaw_applyGroups h hv _
  · rw [show a.s.tst.waiting = [] from (h.bare hv).2.2.1]
    exact h

theorem tstLaw_blocksTake (roll : Bool) {a : Act} (h : TstLaw a.store) : TstLaw (blocksTake roll a).store := by
  have taken : TstLaw (forAll 24 zoneBoundary (tstBoundary { a with s := fallAll a.s })).store := by
    rw [forAll_keeps Act.store _ fun z a => store_of_blank (blank_zoneBoundary z a)]
    exact tstLaw_tstBoundary (a := { a with s := fallAll a.s }) h
  unfold blocksTake
  dsimp only
  rw [store_incBoundary, store_of_blank (blank_handOverDue _), store_of_blank (blank_supplyBoundary _),
    forAll_keeps Act.store _ fun i a => store_of_blank (blank_trainBoundary i a)]
  split
  · rw [store_of_blank (blank_dayRoll _)]
    exact taken
  · exact taken

theorem tstLaw_makeBoundary (c : Lck) (e : Option ClockEvent) (roll : Bool) {a : Act} (h : TstLaw a.store) :
    TstLaw (makeBoundary c e roll a).store := by
  have told : TstLaw (match e with
      | some e => Act.report 2 (clockContent e (c.restart (cycleLength a.s))) { a with s.lck := c.restart (cycleLength a.s) }
      | none => { a with s.lck := c.restart (cycleLength a.s) }).store := by cases e <;> exact h
  have taken := tstLaw_blocksTake roll told
  unfold makeBoundary
  dsimp only
  split
  · rw [store_clockRequest]
    exact taken
  · split
    · rw [store_clockRequest]
      exact taken
    · exact taken

theorem tstLaw_timeoutExpiry {a : Act} (h : TstLaw a.store) : TstLaw (timeoutExpiry a).store := by
  unfold timeoutExpiry
  split
  · split
    · exact tstLaw_makeBoundary _ _ _ h
    · exact h
  · exact h

theorem tstLaw_takeMarker (n d : Nat) {a : Act} (h : TstLaw a.store) : TstLaw (takeMarker n d a).1.store := by
  have boundary (c : Lck) (e : Option ClockEvent) (roll : Bool) : TstLaw (makeBoundary c e roll a).store :=
    tstLaw_makeBoundary c e roll h
  unfold takeMarker
  dsimp only
  split
  · exact boundary _ _ _
  · split
    · exact boundary _ _ _
    · split
      · exact h
      · exact boundary _ _ _
    · split
      · exact boundary _ _ _
      · split
        · exact h
        · exact boundary _ _ _
    · split
      · exact boundary _ _ _
      · split
        · exact h
        · exact boundary _ _ _

/-! ## The law as one of the blocks -/

/-- The law of the Table Store, said of a state. -/
def StoreLaw (s : State) : Prop := TstLaw s.tst

theorem storeLaw_offQueues : OffQueues StoreLaw := fun s u h hs => by
  have same : u.tst = s.tst := congrArg (·.2.1) h
  unfold StoreLaw
  rw [same]
  exact hs

/-- Work that leaves the store alone upholds the law. -/
theorem storeLaw_of_store {a b : Act} (h : a.store = b.store) (hb : StoreLaw b.s) : StoreLaw a.s :=
  show TstLaw a.store from h ▸ hb

theorem storeLaw_dispatch : DispatchUpholds StoreLaw := fun t c _ a h => by
  unfold dispatch
  split
  · exact tstLaw_takeMarker _ _ h
  · split
    · exact h
    · exact storeLaw_of_store (store_of_blank (blank_handlePassage _ a)) h
  · dsimp only
    split
    · exact h
    · exact storeLaw_of_store (store_of_blank (blank_statusReport _ _ _ _ a)) h
  · dsimp only
    split
    · exact h
    · exact storeLaw_of_store (store_of_blank (blank_equipmentReport _ _ a)) h
  · dsimp only
    split
    · exact h
    · exact storeLaw_of_store (store_of_blank (blank_paDone _ _ _ a)) h
  · exact h

/-! ## The store's own commands -/

theorem mode_ne_bare {s : State} (h : mode s ≠ .bare) : s.tst.lineState = .valid := by
  unfold mode at h
  split at h
  · next hv => exact of_decide_eq_true hv
  · exact absurd rfl h

theorem mode_eq_bare {s : State} (h : mode s = .bare) : s.tst.lineState ≠ .valid := by
  unfold mode at h
  split at h
  · split at h <;> cases h
  · next hv => exact fun e => hv (decide_eq_true e)

theorem storeLaw_loadOpen (x n k : Nat) : CommandUpholds StoreLaw (loadOpen x n k) := fun a h => by
  have law : TstLaw a.s.tst := h
  unfold loadOpen
  split
  · exact h
  · next target _ =>
    split
    · exact h
    · next hm =>
      split
      · exact h
      · next hload =>
        split
        · exact h
        · next hguard =>
          split
          · exact h
          · next hcount =>
            refine law.loadOpened (l :=
              { target := target, remaining := n, expected := 0, check := BitVec.ofNat 16 k, image := [] })
              (Option.not_isSome_iff_eq_none.mp hload) (fun i e => ?_) (fun e => ?_) ?_
            · cases e
              rw [loadMode, Bool.not_eq_false, decide_eq_true_eq] at hm
              rw [Tst.guarded, decide_eq_true_eq, not_or] at hguard
              exact ⟨mode_ne_bare hm, hguard.2⟩
            · cases e
              rw [loadMode, Bool.not_eq_false, decide_eq_true_eq] at hm
              exact mode_eq_bare hm
            · dsimp only
              omega

theorem storeLaw_loadAbort : CommandUpholds StoreLaw loadAbort := fun a h => by
  have law : TstLaw a.s.tst := h
  unfold loadAbort
  split
  · exact h
  · exact law.abandonLoad

/-- The completion of the open load, whose last block has come. -/
theorem storeLaw_complete {a : Act} (h : TstLaw a.s.tst) {l k : Load} (hl : a.s.tst.load = some l)
    (hk : k.target = l.target) : StoreLaw (complete k a).1.s := by
  have failed : TstLaw (a.s.tst.failLoad k.target) := hk ▸ h.failLoad hl
  have fault (x : Option (Nat × Nat)) : StoreLaw (contentFault k x a).1.s := by cases x <;> exact failed
  unfold complete validate
  dsimp only
  split
  · exact failed
  · split
    · next ht =>
      split
      · exact fault _
      · exact storeLaw_of_store (store_raiseIfUnlocked _) (h.lineInForce hl (hk.symm.trans ht) _)
    · next ht =>
      split
      · exact fault _
      · exact h.profileInForce hl (hk.symm.trans ht) _

theorem storeLaw_loadBlock (x : Nat) (bytes : List Byte) : CommandUpholds StoreLaw (loadBlock x bytes) := fun a h => by
  have law : TstLaw a.s.tst := h
  unfold loadBlock
  split
  · exact h
  · next l hl =>
    have bounds := law.blocks l hl
    split
    · exact law.failLoad hl
    · dsimp only
      split
      · exact storeLaw_complete law hl rfl
      · next hr =>
        refine law.loadContinued hl rfl ?_
        dsimp only
        omega

theorem storeLaw_blockCommand (t : Telegram) : CommandUpholds StoreLaw (blockCommand t) := fun a h => by
  unfold blockCommand
  dsimp only
  split
  · exact storeLaw_loadBlock _ _ a h
  · exact h

theorem storeLaw_profileActivate (n : Nat) : CommandUpholds StoreLaw (profileActivate n) := fun a h => by
  have law : TstLaw a.s.tst := h
  unfold profileActivate
  split
  · exact h
  · split
    · exact h
    · split
      · exact h
      · next hr =>
        have pending := law.madePending (Decidable.not_not.mp hr)
        dsimp only
        split
        · exact pending
        · exact tstLaw_activatePending pending

/-- A group that closes waits for the boundary, or is applied at once (R53). -/
theorem storeLaw_closeGroup {a : Act} (h : TstLaw a.s.tst) (hv : a.s.tst.lineState = .valid) (hw : a.s.tst.waiting.length < 4)
    {g : List HeldEdit} (hg : g ≠ [] ∧ g.length ≤ 32) : StoreLaw (closeGroup g a).1.s := by
  unfold closeGroup
  split
  · refine h.setGroups hv h.openGroup ?_ fun x hx => ?_
    · rw [List.length_append, List.length_singleton]
      omega
    · rcases List.mem_append.mp hx with hx | hx
      · exact h.groups x hx
      · exact List.mem_singleton.mp hx ▸ hg
  · exact (tstLaw_applyGroup (a := a) h hv g).1

theorem storeLaw_editHold : CommandUpholds StoreLaw editHold := fun a h => by
  have law : TstLaw a.s.tst := h
  unfold editHold
  split
  · exact h
  · next hm =>
    split
    · exact h
    · refine law.setGroups (mode_ne_bare hm) ?_ law.waiting law.groups
      rintro g ⟨⟩
      exact Nat.zero_le _

theorem storeLaw_editRelease : CommandUpholds StoreLaw editRelease := fun a h => by
  have law : TstLaw a.s.tst := h
  unfold editRelease
  split
  · exact h
  · next hm =>
    have valid := mode_ne_bare hm
    have closed : TstLaw { a.s.tst with openGroup := none } := law.setGroups valid (by simp) law.waiting law.groups
    split
    · exact h
    · next g hg =>
      split
      · exact closed
      · next hne =>
        split
        · exact h
        · next hw =>
          exact storeLaw_closeGroup (a := { a with s.tst.openGroup := none }) closed valid (Nat.not_le.mp hw)
            ⟨hne, law.openGroup g hg⟩

theorem storeLaw_joinGroup (e : HeldEdit) (clamped : Bool) {a : Act} (h : TstLaw a.s.tst) (hv : a.s.tst.lineState = .valid) :
    StoreLaw (joinGroup e clamped a).1.s := by
  unfold joinGroup
  split
  · next g hg =>
    split
    · next hlt =>
      refine h.setGroups hv ?_ h.waiting h.groups
      rintro x ⟨⟩
      rw [List.length_append, List.length_singleton]
      omega
    · exact h
  · split
    · next hw => exact storeLaw_closeGroup h hv hw ⟨List.cons_ne_nil _ _, by simp⟩
    · exact h

theorem storeLaw_edit (t i f v : Nat) : CommandUpholds StoreLaw (edit t i f v) := fun a h => by
  unfold edit
  split
  · exact h
  · next hm =>
    split
    · exact h
    · split
      · exact h
      · split
        · exact h
        · split
          · exact h
          · exact storeLaw_joinGroup _ _ h (mode_ne_bare hm)

/-! ## The other commands -/

/-- A command's function that leaves the store alone. -/
def SparesStore (f : Act → Act × Reply) : Prop := ∀ a, (f a).1.store = a.store

theorem SparesStore.upholds {f : Act → Act × Reply} (h : SparesStore f) : CommandUpholds StoreLaw f := fun a ha =>
  storeLaw_of_store (h a) ha

theorem sparesStore_bindCommand (x n : Nat) : SparesStore (bindCommand x n) := fun a => by
  unfold bindCommand
  split
  · rfl
  · split
    · rfl
    · split
      · exact store_of_blank (blank_unschedule _ a)
      · split
        · rfl
        · split
          · rfl
          · split
            · rfl
            · exact store_of_blank (blank_bindRun _ _ a)

theorem sparesStore_removeCommand (x : Nat) : SparesStore (removeCommand x) := fun a => by
  unfold removeCommand
  split
  · rfl
  · split
    · rfl
    · exact store_of_blank (blank_removeTrain _ a)

theorem sparesStore_raiseCommand (x e r t m : Nat) : SparesStore (raiseCommand x e r t m) := fun a => by
  unfold raiseCommand
  split
  · rfl
  · split
    · split
      · rfl
      · split
        · rfl
        · next h =>
          exact store_of_residue ((residue_drain _).trans ((residue_openRecord _ _ _).trans (residue_takeRecord h)))
    · rfl

theorem sparesStore_ackCommand (t n r : Nat) : SparesStore (ackCommand t n r) := fun a => by
  unfold ackCommand
  split
  · rfl
  · split
    · rfl
    · split
      · rfl
      · dsimp only
        split
        · exact store_of_residue (by simp)
        · rfl

theorem sparesStore_resolveCommand (n : Nat) : SparesStore (resolveCommand n) := fun a => by
  unfold resolveCommand
  split
  · rfl
  · split
    · rfl
    · split
      · rfl
      · split
        · rfl
        · exact store_of_residue (by simp)

theorem sparesStore_zoneCommand (z st : Nat) : SparesStore (zoneCommand z st) := fun a => by
  unfold zoneCommand
  split
  · rfl
  · split
    · rfl
    · split
      · rfl
      · dsimp only
        split
        · exact store_of_offAsc (offAsc_zoneOff _ a)
        · split
          · split
            · rfl
            · exact store_of_offAsc (offAsc_zoneBar _ a)
          · exact store_of_offAsc (offAsc_zoneOpen _ a)

theorem sparesStore_announceCommand (t : Telegram) : SparesStore (announceCommand t) := fun a => by
  have args (x : List Byte) : (announceArgs x a).1.store = a.store := by
    unfold announceArgs
    split
    · rfl
    · dsimp only
      split
      · rfl
      · split
        · rfl
        · exact store_of_offAsc (offAsc_placeAll _ _ a)
  unfold announceCommand
  dsimp only
  split
  · exact args _
  · rfl

/-! ## Expiries -/

theorem store_unlessSilent {work : Act → Act} (h : ∀ a, (work a).blank = a.blank) (i : TrainId) (a : Act) :
    (unlessSilent i work a).store = a.store := by
  unfold unlessSilent
  split
  · exact store_of_blank (blank_removeTrain i a)
  · exact store_of_blank (h a)

theorem store_escalateAt (i : IncId) (a : Act) : (escalateAt i a).store = a.store := by
  unfold escalateAt
  split
  · exact store_of_residue (residue_escalate _ _ a)
  · rfl

theorem store_freeAt (i : IncId) (a : Act) : (freeAt i a).store = a.store := by
  unfold freeAt
  split <;> rfl

theorem store_zoneWork {work : Act → Act} (h : ∀ a, (work a).offAsc = a.offAsc) (z : ZoneId) (a : Act) :
    (work (entriesRunOut z a)).store = a.store :=
  store_of_offAsc (b := entriesRunOut z a) (h _)

/-- The expiry of a countdown whose work leaves the store alone. -/
theorem lawful_expire (due : State → Bool) {work : Act → Act} (h : ∀ a, (work a).store = a.store) :
    Lawful StoreLaw (expire due work) :=
  storeLaw_offQueues.expire due fun a ha => storeLaw_of_store (h a) ha

theorem lawful_telegram (p : Port) (t : Telegram) : Lawful StoreLaw fun s => .next (whenAwake (receiveTelegram p t) s) :=
  storeLaw_offQueues.telegram storeLaw_dispatch p t

/-- A derivation leaves the store alone, as does what comes before it. -/
theorem store_deriveSupply {l : List Request} {ts : List SubId} {a b : Act} (h : b.blank = a.blank) :
    (deriveSupply l ts b).store = a.store :=
  store_of_blank ((blank_deriveSupply _ _ _).trans h)

theorem storeLaw_restartWarmly : Upholds StoreLaw restartWarmly := fun s hs =>
  show TstLaw (restartWarmly s).tst from (restartWarmly_tst s).symm ▸ TstLaw.warm hs

theorem storeLaw_restartFully : Upholds StoreLaw restartFully := fun _ _ => tstLaw_start

/-! ## Every command and every step -/

theorem exec_keepsStoreLaw (c : Instr) : Lawful StoreLaw (exec c) := by
  have law := storeLaw_offQueues
  cases c with
  | powerOn straps => exact ⟨powerOnState straps, fun _ _ => tstLaw_start, fun _ => rfl⟩
  | linkUp p => exact ⟨_, law.upholds fun s => blocks_settleAwake (raiseLink p s), fun _ => rfl⟩
  | linkDown p => exact ⟨_, law.upholds fun s => blocks_settleAwake (dropLink p s), fun _ => rfl⟩
  | resetAssertion => exact ⟨fun s => { s with inReset := true }, law.upholds fun _ => rfl, fun _ => rfl⟩
  | roomTransmissionEnd => exact Upholds.awake (f := roomFreed) law fun _ hs => hs
  | fieldTransmissionEnd => exact Upholds.awake (f := fieldFreed) law fun _ hs => hs
  | cycleMarker _ _ _ _ => exact lawful_telegram _ _
  | passage _ _ _ _ _ _ _ => exact lawful_telegram _ _
  | substationStatus _ _ _ _ _ => exact lawful_telegram _ _
  | equipmentStatus _ _ _ => exact lawful_telegram _ _
  | paDone _ _ _ _ => exact lawful_telegram _ _
  | otherFieldTelegram _ _ => exact lawful_telegram _ _
  | roomTelegramForward _ => exact lawful_telegram _ _
  | manage _ _ _ _ => exact lawful_telegram _ _
  | telegramDiscarded _ _ => exact (law.receiveFrame storeLaw_dispatch _ _).awake law
  | markerTimeoutExpiry => exact (law.finish fun _ => tstLaw_timeoutExpiry).awake law
  | silenceExpiry i => exact lawful_expire _ fun a => store_of_blank (blank_removeTrain i a)
  | overdueExpiry i => exact lawful_expire _ fun a => store_unlessSilent (blank_overdueOut i) i a
  | powerWaitExpiry i => exact lawful_expire _ fun a => store_unlessSilent (blank_powerWaitOut i) i a
  | reportHoldOffExpiry => exact lawful_expire _ (work := fun a => { a with s.rrg.holdOff := 0 }) fun _ => rfl
  | telemetryTimeoutExpiry b =>
    exact lawful_expire _ (work := fun a => deriveSupply (telemetryOut [b] a).1 [] (telemetryOut [b] a).2)
      fun a => store_deriveSupply (blank_telemetryOut [b] a)
  | creditExpiry b =>
    exact lawful_expire _ (work := fun a => deriveSupply [] [] (creditOut [b] a))
      fun a => store_deriveSupply (blank_creditOut [b] a)
  | slotExpiry i =>
    exact lawful_expire _ (work := fun a => deriveSupply [] [] (dropSlot i a))
      fun a => store_deriveSupply (blank_dropSlot i a)
  | escalationTick => exact lawful_expire _ fun a => store_of_blank (blank_tick a)
  | escalation i => exact lawful_expire _ (store_escalateAt i)
  | retentionExpiry i => exact lawful_expire _ (store_freeAt i)
  | eligibleCountdownExpiry z k =>
    exact lawful_expire _ (work := fun a => issueTest z (entriesRunOut z a)) (store_zoneWork (offAsc_issueTest z) z)
  | entryExpiry z k => exact lawful_expire _ (work := expireEntry z k) fun _ => rfl
  | playTimeoutExpiry z =>
    exact lawful_expire _ (work := fun a => playTimeout z (entriesRunOut z a)) (store_zoneWork (offAsc_playTimeout z) z)
  | guardExpiry z =>
    exact lawful_expire _ (work := fun a => guardEnd z (entriesRunOut z a)) (store_zoneWork (offAsc_guardEnd z) z)
  | manageUnknownCommand => exact (law.takeHead _ (law.answer _)).awake law
  | loadOpen => exact law.sizedCommand _ _ fun _ => storeLaw_loadOpen _ _ _
  | loadBlock => exact law.command _ storeLaw_blockCommand
  | loadAbort => exact law.sizedCommand _ _ fun _ => storeLaw_loadAbort
  | profileActivate => exact law.sizedCommand _ _ fun _ => storeLaw_profileActivate _
  | editHold => exact law.sizedCommand _ _ fun _ => storeLaw_editHold
  | edit => exact law.sizedCommand _ _ fun _ => storeLaw_edit _ _ _ _
  | editRelease => exact law.sizedCommand _ _ fun _ => storeLaw_editRelease
  | incidentRaise => exact law.sizedCommand _ _ fun _ => (sparesStore_raiseCommand _ _ _ _ _).upholds
  | incidentAck => exact law.command _ fun t => CommandUpholds.sized (fun _ => (sparesStore_ackCommand _ _ _).upholds) t
  | incidentResolve => exact law.sizedCommand _ _ fun _ => (sparesStore_resolveCommand _).upholds
  | zoneSet => exact law.sizedCommand _ _ fun _ => (sparesStore_zoneCommand _ _).upholds
  | announce => exact law.command _ fun t => (sparesStore_announceCommand t).upholds
  | trainBind => exact law.sizedCommand _ _ fun _ => (sparesStore_bindCommand _ _).upholds
  | trainRemove => exact law.sizedCommand _ _ fun _ => (sparesStore_removeCommand _).upholds
  | queryTrain => exact law.query _
  | queryTimingPoint => exact law.query _
  | querySection => exact law.query _
  | querySubstation => exact law.query _
  | queryIncident => exact law.query _
  | queryZone => exact law.query _
  | queryClock => exact law.query _
  | queryProfile => exact law.query _
  | queryCounters => exact law.query _
  | queryIdentity => exact law.query _
  | queryMode => exact law.query _
  | countersClear => exact law.sizedCommand _ _ fun _ _ h => h
  | restartWarm => exact law.restart false storeLaw_restartWarmly storeLaw_restartFully
  | restartFull => exact law.restart true storeLaw_restartWarmly storeLaw_restartFully

/-- Settles O56: every command keeps the law, and the passing of time does not touch the store. -/
theorem stepKeepsTstLaw : Obligations.StepKeepsTstLaw := by
  intro s u h e
  exact storeLaw_offQueues.step exec_keepsStoreLaw (fun _ hs => hs) h e

end Sys2Proof.Machine
end

