-- ==== Sys2Proof/Proofs/ImageRanges.lean ====
section
/-! PROOFS. What every valid LINE image guarantees: each row that the reader accepts is sound, the tables it gives are made of
such rows, and what a row refers to is described by a record that has been written too. -/

namespace Sys2Proof.Machine

/-! ## Sound rows (Tables 3-1 to 3-7) -/

/-- The quantities of the line defaults stand in their ranges (Table 3-1). -/
structure Defaults.InRange (d : Defaults) : Prop where
  tc : 100 ≤ d.tc ∧ d.tc ≤ 500
  w : 16 ≤ d.w ∧ d.w ≤ 56
  stall : 300 ≤ d.stall ∧ d.stall ≤ 6000
  hn : 300 ≤ d.hn ∧ d.hn ≤ 3000

/-- The quantities of a substation stand in their ranges, L2 at or above L1 (Table 3-4). -/
structure Sub.InRange (b : Sub) : Prop where
  cap : 1 ≤ b.cap ∧ b.cap ≤ 6
  l1 : 50 ≤ b.l1 ∧ b.l1 ≤ 200
  l2 : b.l1 ≤ b.l2 ∧ b.l2 ≤ 255
  telemetry : b.telemetry ≤ 600
  window : b.window ≤ 600

/-- The quantities of an incident class stand in their ranges (Table 3-7). -/
structure ClassRow.InRange (c : ClassRow) : Prop where
  reload : 1 ≤ c.reload ∧ c.reload ≤ 63
  retention : c.retention ≤ 36000
  repeats : 1 ≤ c.repeats ∧ c.repeats ≤ 8

/-- The quantities of a template stand in their ranges (Table 3-7). -/
structure TmplRow.InRange (t : TmplRow) : Prop where
  params : t.params ≤ 4
  duration : t.duration ≤ 1200
  interval : t.interval ≤ 6000
  repeats : 1 ≤ t.repeats ∧ t.repeats ≤ 8

/-- The quantities of a timing point stand in their ranges, and its departure section is one the image describes
(Table 3-2, R36). -/
structure Point.Sound (rs : List Rec) (p : Point) : Prop where
  minDwell : p.minDwell ≤ 600
  dwell : p.dwell ≤ 1200
  accel : p.accel ≤ 1200
  depart : ∀ x, p.depart = some x → describes rs 0x03 x.val = true

/-- A used section is fed by substations the image describes, from two feeds that differ (R37). -/
structure Sec.Sound (rs : List Rec) (x : Sec) : Prop where
  subA : x.used = true → describes rs 0x04 x.subA.val = true
  subB : x.used = true → ∀ b, x.subB = some b → describes rs 0x04 b.val = true
  apart : x.used = true → ¬(x.subB = some x.subA ∧ x.feederB = x.feederA)

/-- A row that a LINE image may give. -/
def LineRow.Sound (rs : List Rec) : LineRow → Prop
  | .defaults d => d.InRange
  | .point _ p => p.Sound rs
  | .sec _ x => x.used = true ∧ x.Sound rs
  | .sub _ b => b.used = true ∧ b.InRange
  | .zone _ z => z.guard ≤ 600
  | .map _ _ => True
  | .input _ _ => True
  | .cls _ c => c.InRange
  | .tmpl _ t => t.InRange

/-! ## Reading rows -/

theorem clampField_within {lo hi : Nat} (h : lo ≤ hi) (v : Nat) :
    lo ≤ (clampField lo hi v).1 ∧ (clampField lo hi v).1 ≤ hi := by
  simp only [clampField, clamp]
  omega

section
variable {rs : List Rec} {b : List Byte} {row : LineRow} {n : Nat}

theorem readDefaults_sound : LineRow.Sound rs (readDefaults b).1 where
  tc := clampField_within (by decide) _
  w := clampField_within (by decide) _
  stall := clampField_within (by decide) _
  hn := clampField_within (by decide) _

theorem readPoint_sound (h : readPoint rs b = some (row, n)) : row.Sound rs := by
  simp only [readPoint, bind, Option.bind_eq_some_iff, Option.ite_none_right_eq_some, Option.some.injEq, Prod.mk.injEq] at h
  obtain ⟨i, -, kind, -, area, -, depart, -, described, here, -, trig, -, rfl, -⟩ := h
  refine ⟨(clampField_within (by decide) _).2, (clampField_within (by decide) _).2, (clampField_within (by decide) _).2,
    fun x hx => ?_⟩
  have hx : depart = some x := hx
  subst hx
  exact described

theorem readSec_sound (h : readSec rs b = some (row, n)) :
    row.Sound rs ∧ ∃ i x, row = .sec i x ∧ i.val = field b 0 1 := by
  simp only [readSec, bind, Option.bind_eq_some_iff] at h
  obtain ⟨i, hi, area, -, subA, -, feederA, -, subB, -, h⟩ := h
  have sound (feederB : FeederId) (ok : describes rs 0x04 subA.val = true
      ∧ (subB.all fun x => describes rs 0x04 x.val) = true ∧ ¬(subB = some subA ∧ feederB = feederA)) :
      LineRow.Sound rs (.sec i { used := true, area := area, subA := subA, feederA := feederA, subB := subB,
                                 feederB := feederB }) := by
    obtain ⟨feedA, feedB, apart⟩ := ok
    refine ⟨rfl, fun _ => feedA, fun _ c hc => ?_, fun _ => apart⟩
    obtain rfl : subB = some c := hc
    exact feedB
  split at h <;>
    simp only [Option.bind_eq_some_iff, Option.some.injEq, exists_eq_left', Option.ite_none_right_eq_some, Prod.mk.injEq] at h
  · obtain ⟨feederB, -, ok, rfl, -⟩ := h
    exact ⟨sound feederB ok, i, _, rfl, index?_eq_some.mp hi⟩
  · obtain ⟨ok, rfl, -⟩ := h
    exact ⟨sound 0 ok, i, _, rfl, index?_eq_some.mp hi⟩

theorem readSub_sound (h : readSub b = some (row, n)) :
    row.Sound rs ∧ ∃ i x, row = .sub i x ∧ i.val = field b 0 1 := by
  simp only [readSub, bind, Option.bind_eq_some_iff, Option.some.injEq, Prod.mk.injEq] at h
  obtain ⟨i, hi, rfl, -⟩ := h
  have l1 := clampField_within (lo := 50) (hi := 200) (by decide) (field b 3 1)
  have l2 := clampField_within (lo := 50) (hi := 255) (by decide) (field b 4 1)
  refine ⟨⟨rfl, clampField_within (by decide) _, l1, ⟨le_max_right _ _, max_le l2.2 (l1.2.trans (by decide))⟩,
    (clampField_within (by decide) _).2, (clampField_within (by decide) _).2⟩, i, _, rfl, index?_eq_some.mp hi⟩

theorem readZone_sound (h : readZone b = some (row, n)) : row.Sound rs := by
  simp only [readZone, bind, Option.bind_eq_some_iff, Option.some.injEq, Prod.mk.injEq] at h
  obtain ⟨i, -, opens, -, rfl, -⟩ := h
  exact (clampField_within (by decide) _).2

theorem readMap_sound (h : readMap rs b = some (row, n)) : row.Sound rs := by
  simp only [readMap, bind, Option.bind_eq_some_iff, Option.ite_none_left_eq_some] at h
  obtain ⟨i, -, input, -, cls, -, area, -, equipment, -, -, h⟩ := h
  split at h <;> simp only [Option.bind_eq_some_iff, Option.some.injEq, exists_eq_left', Prod.mk.injEq] at h
  · obtain ⟨rfl, -⟩ := h
    trivial
  · obtain ⟨object, -, rfl, -⟩ := h
    trivial

theorem readInput_sound (h : readInput b = some (row, n)) : row.Sound rs := by
  simp only [readInput, bind, Option.bind_eq_some_iff, Option.some.injEq, Prod.mk.injEq] at h
  obtain ⟨i, -, sens, -, cls, -, rfl, -⟩ := h
  trivial

theorem readClass_sound (h : readClass b = some (row, n)) : row.Sound rs := by
  simp only [readClass, bind, Option.bind_eq_some_iff, Option.ite_none_right_eq_some, Option.some.injEq, Prod.mk.injEq] at h
  obtain ⟨i, -, mandatory, -, t0, -, t1, -, t2, -, t3, -, -, rfl, -⟩ := h
  exact ⟨clampField_within (by decide) _, (clampField_within (by decide) _).2, clampField_within (by decide) _⟩

theorem readTmpl_sound (h : readTmpl b = some (row, n)) : row.Sound rs := by
  simp only [readTmpl, bind, Option.bind_eq_some_iff, Option.some.injEq, Prod.mk.injEq] at h
  obtain ⟨i, -, priority, -, rfl, -⟩ := h
  exact ⟨(clampField_within (by decide) _).2, (clampField_within (by decide) _).2, (clampField_within (by decide) _).2,
    clampField_within (by decide) _⟩

end

/-- Every row that the reader accepts is sound. -/
theorem readLineRow_sound {rs : List Rec} {r : Rec} {row : LineRow} {n : Nat} (h : readLineRow rs r = some (row, n)) :
    row.Sound rs := by
  unfold readLineRow at h
  split at h
  · split at h
    · cases h
      exact readDefaults_sound
    · exact readPoint_sound h
    · exact (readSec_sound h).1
    · exact (readSub_sound h).1
    · exact readZone_sound h
    · exact readMap_sound h
    · exact readInput_sound h
    · exact readClass_sound h
    · exact readTmpl_sound h
    · cases h
  · cases h

/-! ## Taking the records in order (R46) -/

/-- What every row written keeps, a valid image's tables have. -/
theorem takeLine_keeps {rs : List Rec} {Q : LineTables → Prop}
    (step : ∀ (row : LineRow) l, row.Sound rs → Q l → Q (row.write l)) {earlier : List LineRow}
    {l u : LineTables} {k n : Nat}
    {recs : List Rec} (h : takeLine rs earlier l k recs = .valid u n) (hl : Q l) : Q u := by
  induction recs generalizing earlier l k with
  | nil =>
    cases h
    exact hl
  | cons r recs ih =>
    unfold takeLine at h
    split at h
    · cases h
    · next row m hr =>
      split at h
      · cases h
      · exact ih h (step row l (readLineRow_sound hr) hl)

/-- What the row of a record makes so, and every other keeps, a valid image's tables have. -/
theorem takeLine_writes {rs : List Rec} {Q : LineTables → Prop}
    (step : ∀ (row : LineRow) l, row.Sound rs → Q l → Q (row.write l)) {r : Rec}
    (here : ∀ row n l, readLineRow rs r = some (row, n) → Q (row.write l)) {earlier : List LineRow} {l u : LineTables}
    {k n : Nat} {recs : List Rec} (hr : r ∈ recs) (h : takeLine rs earlier l k recs = .valid u n) : Q u := by
  induction recs generalizing earlier l k with
  | nil => cases hr
  | cons q recs ih =>
    unfold takeLine at h
    split at h
    · cases h
    · next row m hq =>
      split at h
      · cases h
      · rcases List.mem_cons.mp hr with rfl | hr
        · exact takeLine_keeps step h (here row m l hq)
        · exact ih hr h

/-! ## The tables of a valid image -/

/-- Line tables whose records are sound for the records of an image. -/
structure LineTables.Sound (rs : List Rec) (l : LineTables) : Prop where
  defaults : l.defaults.InRange
  points : ∀ p, (l.points.get p).Sound rs
  secs : ∀ x, (l.secs.get x).Sound rs
  subs : ∀ b, (l.subs.get b).InRange
  zones : ∀ z, (l.zones.get z).guard ≤ 600
  classes : ∀ c, (l.classes.get c).InRange
  templates : ∀ m, (l.templates.get m).InRange

theorem LineTables.standard_sound (rs : List Rec) : LineTables.standard.Sound rs where
  defaults := ⟨by decide, by decide, by decide, by decide⟩
  points p := by
    rw [show LineTables.standard.points.get p = _ from Table.get_fill _ p]
    exact ⟨by decide, by decide, by decide, by simp⟩
  secs x := by
    rw [show LineTables.standard.secs.get x = _ from Table.get_fill _ x]
    exact ⟨by simp, by simp, by simp⟩
  subs b := by
    rw [show LineTables.standard.subs.get b = _ from Table.get_fill _ b]
    exact ⟨by decide, by decide, by decide, by decide, by decide⟩
  zones z := by
    rw [show LineTables.standard.zones.get z = _ from Table.get_fill _ z]
    decide
  classes c := by
    rw [show LineTables.standard.classes.get c = _ from Table.get_fill _ c]
    exact ⟨by decide, by decide, by decide⟩
  templates m := by
    rw [show LineTables.standard.templates.get m = _ from Table.get_fill _ m]
    exact ⟨by decide, by decide, by decide, by decide⟩

/-- A property of every row of a table is one of every row after a write of a row that has it. -/
theorem Table.forall_get_set {α : Type} {n : Nat} {Q : α → Prop} {t : Table α n} (h : ∀ i, Q (t.get i)) {a : α}
    (ha : Q a) (i j : Fin n) : Q ((t.set i a).get j) := by
  rw [Table.get_set]
  split
  · exact ha
  · exact h j

theorem LineTables.Sound.write {rs : List Rec} {row : LineRow} {l : LineTables} (hr : row.Sound rs) (h : l.Sound rs) :
    (row.write l).Sound rs := by
  cases row with
  | defaults d => exact { h with defaults := hr }
  | point i p => exact { h with points := Table.forall_get_set h.points hr i }
  | sec i x => exact { h with secs := Table.forall_get_set h.secs hr.2 i }
  | sub i b => exact { h with subs := Table.forall_get_set h.subs hr.2 i }
  | zone i z => exact { h with zones := Table.forall_get_set (Q := fun z : ZoneRow => z.guard ≤ 600) h.zones hr i }
  | map i m => exact { h with }
  | input i r => exact { h with }
  | cls i c => exact { h with classes := Table.forall_get_set h.classes hr i }
  | tmpl i t => exact { h with templates := Table.forall_get_set h.templates hr i }

/-- A record once used stays used, whatever row is written. -/
theorem LineRow.write_used {rs : List Rec} {row : LineRow} (hr : row.Sound rs) (l : LineTables) :
    (∀ x, (l.secs.get x).used = true → ((row.write l).secs.get x).used = true)
      ∧ ∀ b, (l.subs.get b).used = true → ((row.write l).subs.get b).used = true := by
  cases row with
  | sec i x =>
    refine ⟨fun y hy => ?_, fun _ hb => hb⟩
    simp only [LineRow.write, Table.get_set]
    split
    · exact hr.1
    · exact hy
  | sub i b =>
    refine ⟨fun _ hx => hx, fun c hc => ?_⟩
    simp only [LineRow.write, Table.get_set]
    split
    · exact hr.1
    · exact hc
  | _ => exact ⟨fun _ hx => hx, fun _ hb => hb⟩

section
variable {image : List Byte} {l : LineTables} {n : Nat}

/-- What a LINE image describes of a kind and index is the work of one of its records. -/
theorem describes_record {rs : List Rec} {kind index : Nat} (h : describes rs kind index = true) :
    ∃ r ∈ rs, r.lineForm = true ∧ r.kind = kind ∧ field r.body 0 1 = index := by
  obtain ⟨r, hr, hk⟩ := List.any_eq_true.mp h
  rw [Bool.and_eq_true, decide_eq_true_eq] at hk
  exact ⟨r, hr, hk.1, hk.2.1, hk.2.2⟩

/-- A substation that a valid image describes is used. -/
theorem describedSub_used (h : validateLine image = .valid l n) {b : SubId}
    (hb : describes (splitImage image) 0x04 b.val = true) : (l.subs.get b).used = true := by
  obtain ⟨r, hr, form, kind, index⟩ := describes_record hb
  refine takeLine_writes (Q := fun l => (l.subs.get b).used = true) (fun row l hs => (LineRow.write_used hs l).2 b)
    (fun row m l hrow => ?_) hr h
  simp only [readLineRow, form, kind, if_true] at hrow
  obtain ⟨sound, i, x, rfl, hi⟩ := readSub_sound (rs := splitImage image) hrow
  obtain rfl : i = b := Fin.ext (hi.trans index)
  rw [LineRow.write, Table.get_set_eq]
  exact sound.1

/-- A section that a valid image describes is used. -/
theorem describedSec_used (h : validateLine image = .valid l n) {x : SecId}
    (hx : describes (splitImage image) 0x03 x.val = true) : (l.secs.get x).used = true := by
  obtain ⟨r, hr, form, kind, index⟩ := describes_record hx
  refine takeLine_writes (Q := fun l => (l.secs.get x).used = true) (fun row l hs => (LineRow.write_used hs l).1 x)
    (fun row m l hrow => ?_) hr h
  simp only [readLineRow, form, kind, if_true] at hrow
  obtain ⟨sound, i, y, rfl, hi⟩ := readSec_sound hrow
  obtain rfl : i = x := Fin.ext (hi.trans index)
  rw [LineRow.write, Table.get_set_eq]
  exact sound.1

end

/-- Settles O45: the tables of a valid image are made of sound rows, and what they refer to is described and so used. -/
theorem validImagesKeepRanges : Obligations.ValidImagesKeepRanges := by
  intro image l n h
  have sound : l.Sound (splitImage image) :=
    takeLine_keeps (fun row l => LineTables.Sound.write) h (LineTables.standard_sound _)
  refine ⟨?_, fun p => ?_, fun b => ?_, sound.zones, fun x hx => ?_, fun c => ?_, fun m => ?_⟩
  · obtain ⟨⟨tc, tc'⟩, ⟨w, w'⟩, ⟨stall, stall'⟩, ⟨hn, hn'⟩⟩ := sound.defaults
    exact ⟨tc, tc', w, w', stall, stall', hn, hn'⟩
  · obtain ⟨minDwell, dwell, accel, depart⟩ := sound.points p
    exact ⟨minDwell, dwell, accel, fun x hx => describedSec_used h (depart x hx)⟩
  · obtain ⟨⟨cap, cap'⟩, ⟨l1, l1'⟩, ⟨l2, l2'⟩, telemetry, window⟩ := sound.subs b
    exact ⟨cap, cap', l1, l1', l2, l2', telemetry, window⟩
  · obtain ⟨subA, subB, apart⟩ := sound.secs x
    exact ⟨describedSub_used h (subA hx), fun b hb => describedSub_used h (subB hx b hb), apart hx⟩
  · obtain ⟨⟨reload, reload'⟩, retention, ⟨repeats, repeats'⟩⟩ := sound.classes c
    exact ⟨reload, reload', retention, repeats, repeats'⟩
  · obtain ⟨params, duration, interval, ⟨repeats, repeats'⟩⟩ := sound.templates m
    exact ⟨params, duration, interval, repeats, repeats'⟩

end Sys2Proof.Machine
end

