-- ==== Sys2Proof/Proofs/Loads.lean ====
section
/-! PROOFS. LOAD_OPEN by its tests in their order, LOAD_BLOCK before an image is whole, and LOAD_ABORT. -/

namespace Sys2Proof.Machine

/-! ## A command that writes the store and makes nothing -/

section
variable {c : Instr} {code n : Nat} {s u : State} {t : Telegram} {rest : List Telegram} {args : List Byte} {r : Reply}

/-- A command whose function makes nothing has its REPLY appended to what it writes. -/
theorem execute_written {f : Telegram → Act → Act × Reply}
    (h : f t (Act.start (headTaken rest s)) = (Act.start (headTaken rest u), r)) :
    execute f t (headTaken rest s) = replied t rest r u := by
  rw [execute, h]
  rfl

/-- The execution of a command with arguments of the length it must have. -/
theorem exec_sized {f : List Byte → Act → Act × Reply}
    (hc : ∀ s, exec c s = .next (whenAwake (command code (sized n f)) s)) (h : TakenAs s t rest code args)
    (hn : args.length = n) : exec c s = .next (settle (execute (fun _ => f args) t (headTaken rest s))) := by
  have right : sized n f t (Act.start (headTaken rest s)) = f args (Act.start (headTaken rest s)) := by
    rw [sized_right (h.args ▸ hn), h.args]
  refine (hc s).trans (congrArg _ ((whenAwake_awake _ h.awake).trans (congrArg settle
    ((command_taken h.toTaken h.code).trans ?_))))
  rw [execute, execute, right]

theorem exec_written {f : List Byte → Act → Act × Reply}
    (hc : ∀ s, exec c s = .next (whenAwake (command code (sized n f)) s)) (h : TakenAs s t rest code args)
    (hn : args.length = n) (hf : f args (Act.start (headTaken rest s)) = (Act.start (headTaken rest u), r)) :
    exec c s = .next (settle (replied t rest r u)) := by
  rw [exec_sized hc h hn, execute_written hf]

end

theorem field_head (x : Byte) (bs : List Byte) : field (x :: bs) 0 1 = x.toNat := numOf_one x

/-! ## LOAD_OPEN (R44) -/

section
variable {x n k : Nat} {a : Act} {target : LoadTarget}

theorem loadTarget?_slot (i : SlotId) : loadTarget? i.val = some (.slot i) := by
  rw [loadTarget?, if_neg (by have := i.isLt; omega), index?_val]
  rfl

theorem loadTarget?_none (h : 2 < x) (h' : x ≠ 255) : loadTarget? x = none := by
  rw [loadTarget?, if_neg h', index?_none h]
  rfl

theorem loadOpen_badTarget (ht : loadTarget? x = none) : loadOpen x n k a = (a, .no .badIndex) := by
  simp only [loadOpen, ht]

variable (ht : loadTarget? x = some target)
include ht

theorem loadOpen_mode (hm : loadMode (mode a.s) target = false) : loadOpen x n k a = (a, .no .mode) := by
  simp only [loadOpen, ht, hm, if_true]

variable (hm : loadMode (mode a.s) target = true)
include hm

theorem loadOpen_busy (hl : a.s.tst.load ≠ none) : loadOpen x n k a = (a, .no .busy) := by
  simp only [loadOpen, ht, hm, Option.isSome_iff_ne_none.mpr hl, if_true, Bool.true_eq_false, if_false]

variable (hl : a.s.tst.load = none)
include hl

theorem loadOpen_guarded (hg : a.s.tst.guarded target = true) : loadOpen x n k a = (a, .no .state) := by
  simp only [loadOpen, ht, hm, hl, hg, Option.isSome_none, if_true, Bool.true_eq_false, Bool.false_eq_true, if_false]

variable (hg : a.s.tst.guarded target = false)
include hg

theorem loadOpen_count (hn : n = 0 ∨ 1024 < n) : loadOpen x n k a = (a, .no .badIndex) := by
  simp only [loadOpen, ht, hm, hl, hg, hn, Option.isSome_none, if_true, Bool.true_eq_false, Bool.false_eq_true, if_false]

theorem loadOpen_opens (hn : 1 ≤ n) (hn' : n ≤ 1024) :
    loadOpen x n k a = ({ a with s.tst := { a.s.tst.mark target .loading .loading with
        load := some { target := target, remaining := n, expected := 0, check := BitVec.ofNat 16 k, image := [] } } },
      .ok []) := by
  have hn : ¬(n = 0 ∨ 1024 < n) := by omega
  simp only [loadOpen, ht, hm, hl, hg, hn, Option.isSome_none, Bool.true_eq_false, Bool.false_eq_true, if_false]

end

/-! ## LOAD_BLOCK (R45) -/

theorem exec_loadBlock {s u : State} {t : Telegram} {rest : List Telegram} {x y : Byte} {bytes : List Byte} {r : Reply}
    (h : TakenAs s t rest 0x02 ([x, y] ++ bytes)) (hb : bytes.length ≤ 232)
    (hf : loadBlock (numOf [x, y]) bytes (Act.start (headTaken rest s)) = (Act.start (headTaken rest u), r)) :
    exec .loadBlock s = .next (settle (replied t rest r u)) := by
  refine congrArg _ ((whenAwake_awake _ h.awake).trans (congrArg settle ((command_taken h.toTaken h.code).trans ?_)))
  exact execute_written ((blockCommand_args h.args hb _).trans hf)

section
variable {x : Nat} {bytes : List Byte} {a : Act} {l : Load}

theorem loadBlock_unopened (h : a.s.tst.load = none) : loadBlock x bytes a = (a, .no .state) := by
  simp only [loadBlock, h]

theorem loadBlock_sequence (h : a.s.tst.load = some l) (hx : x ≠ l.expected) :
    loadBlock x bytes a = ({ a with s.tst := a.s.tst.failLoad l.target },
      { result := .refused, reason := .sequence, data := num2 l.expected }) := by
  simp only [loadBlock, h]
  exact if_pos hx

theorem loadBlock_continues (h : a.s.tst.load = some l) (hx : x = l.expected) (hr : 2 ≤ l.remaining) :
    loadBlock x bytes a
      = ({ a with s.tst := { a.s.tst with load := some (l.joined bytes) } }, .ok (num2 (l.remaining - 1))) := by
  simp only [loadBlock, h, hx, ne_eq, not_true_eq_false, if_false]
  exact if_neg (by omega)

theorem loadBlock_wrongCheck (h : a.s.tst.load = some l) (hx : x = l.expected) (hr : l.remaining = 1)
    (hc : crc16 (l.image ++ bytes) ≠ l.check) :
    loadBlock x bytes a = ({ a with s.tst := a.s.tst.failLoad l.target },
      { result := .refused, reason := .check, data := num2 (crc16 (l.image ++ bytes)).toNat }) := by
  simp only [loadBlock, h, hx, hr, ne_eq, not_true_eq_false, if_false, complete]
  exact if_pos hc

end

/-- Settles O43: each command is run by the test that decides it. -/
theorem loadsOpenAndClose : Obligations.LoadsOpenAndClose := by
  intro s t rest
  refine ⟨fun x c1 c0 k1 k0 h => ?_, fun x y bytes h hb => ?_, fun h => ?_⟩
  · have row (v : State) : exec .loadOpen v = .next (whenAwake (command 0x01
        (sized 5 fun x => loadOpen (field x 0 1) (field x 1 2) (field x 3 2))) v) := rfl
    have opens {u : State} {r : Reply} (hf : loadOpen x.toNat (numOf [c1, c0]) (numOf [k1, k0])
        (Act.start (headTaken rest s)) = (Act.start (headTaken rest u), r)) :
        exec .loadOpen s = .next (settle (replied t rest r u)) := by
      refine exec_written row h rfl ?_
      rw [field_head]
      exact hf
    refine ⟨fun hx hx' => ?_, fun hx => ?_, fun i hi => ?_⟩
    · exact opens (loadOpen_badTarget (loadTarget?_none hx fun e => hx' (BitVec.eq_of_toNat_eq e)))
    · have target : loadTarget? x.toNat = some .line := by rw [hx]; rfl
      have admitted (hm : mode s = .bare) : loadMode (mode s) .line = true := decide_eq_true hm
      refine ⟨fun hm => ?_, fun hm hl => ?_, fun hm hl hn => ?_, fun hm hl hn hn' => ?_⟩
      · exact opens (loadOpen_mode target (decide_eq_false hm))
      · exact opens (loadOpen_busy target (admitted hm) hl)
      · exact opens (loadOpen_count target (admitted hm) hl rfl hn)
      · exact opens (loadOpen_opens target (admitted hm) hl rfl hn hn')
    · have target : loadTarget? x.toNat = some (.slot i) := hi ▸ loadTarget?_slot i
      have admitted (hm : mode s ≠ .bare) : loadMode (mode s) (.slot i) = true := decide_eq_true hm
      refine ⟨fun hm => ?_, fun hm hl => ?_, fun hm hl hg => ?_, fun hm hl hg hn => ?_, fun hm hl hg hn hn' => ?_⟩
      · exact opens (loadOpen_mode target (decide_eq_false (not_not_intro hm)))
      · exact opens (loadOpen_busy target (admitted hm) hl)
      · exact opens (loadOpen_guarded target (admitted hm) hl (decide_eq_true hg))
      · exact opens (loadOpen_count target (admitted hm) hl (decide_eq_false hg) hn)
      · exact opens (loadOpen_opens target (admitted hm) hl (decide_eq_false hg) hn hn')
  · refine ⟨fun hl => exec_loadBlock h hb (loadBlock_unopened hl), fun l hl => ?_⟩
    refine ⟨fun hx => ?_, fun hx hr => exec_loadBlock h hb (loadBlock_continues hl hx hr), fun hx hr hc => ?_⟩
    · refine exec_loadBlock h hb ((loadBlock_sequence hl hx).trans ?_)
      cases l.target <;> rfl
    · refine exec_loadBlock h hb ((loadBlock_wrongCheck hl hx hr hc).trans ?_)
      cases l.target <;> rfl
  · have row (v : State) : exec .loadAbort v = .next (whenAwake (command 0x03 (sized 0 fun _ => loadAbort)) v) := rfl
    refine ⟨fun hl => exec_written row h rfl ?_, fun l hl => exec_written row h rfl ?_⟩
    · rw [loadAbort, show (Act.start (headTaken rest s)).s.tst.load = none from hl]
    · rw [loadAbort, show (Act.start (headTaken rest s)).s.tst.load = some l from hl]
      dsimp only
      rw [Tst.abandonLoad, show (Act.start (headTaken rest s)).s.tst.load = some l from hl]
      dsimp only
      cases l.target <;> rfl

end Sys2Proof.Machine
end

