-- ==== Sys2Proof/Proofs/EditGroups.lean ====
section
/-! PROOFS. EDIT_HOLD, EDIT and EDIT_RELEASE: which values a field admits and what is then written, and how edits gather in
groups. -/

namespace Sys2Proof.Machine

/-! ## The values a field admits (R43, R52) -/

theorem isUsedSec_iff {l : LineTables} {v : Nat} :
    isUsedSec l v = true ↔ ∃ x : SecId, x.val = v ∧ (l.secs.get x).used = true := by
  constructor
  · intro h
    cases hi : index? 32 v with
    | none => simp [isUsedSec, hi] at h
    | some x => exact ⟨x, index?_eq_some.mp hi, by simpa [isUsedSec, hi] using h⟩
  · rintro ⟨x, rfl, h⟩
    simp [isUsedSec, index?_val, h]

theorem isUsedSub_iff {l : LineTables} {v : Nat} :
    isUsedSub l v = true ↔ ∃ b : SubId, b.val = v ∧ (l.subs.get b).used = true := by
  constructor
  · intro h
    cases hi : index? 8 v with
    | none => simp [isUsedSub, hi] at h
    | some b => exact ⟨b, index?_eq_some.mp hi, by simpa [isUsedSub, hi] using h⟩
  · rintro ⟨b, rfl, h⟩
    simp [isUsedSub, index?_val, h]

theorem ofInputCode_isSome {v : Nat} : (IncClass.ofInputCode v).isSome = true ↔ v = 1 ∨ v = 2 ∨ v = 10 := by
  unfold IncClass.ofInputCode
  split <;> simp_all

/-- The range of every quantity is one. -/
theorem fieldKind_range {t : EditTable} {f lo hi : Nat} (h : fieldKind t f = some (.quantity lo hi)) : lo ≤ hi := by
  unfold fieldKind at h
  split at h <;> cases h <;> decide

theorem clamp_eq {lo hi : Nat} (h : lo ≤ hi) (v : Nat) : clamp lo hi v = if v < lo then lo else if hi < v then hi else v := by
  unfold clamp
  split
  · omega
  · split <;> omega

/-- An EDIT that a field admits writes the value of R52. -/
theorem editValue_admitted {l : LineTables} {t : EditTable} {f v : Nat} {kind : FieldKind} (hk : fieldKind t f = some kind)
    (h : kind.admits l v) : editValue l v kind = some (kind.written v) := by
  cases kind with
  | quantity lo hi => exact congrArg some (clamp_eq (fieldKind_range hk) v)
  | below n => exact if_pos h
  | belowOrNone n => exact if_pos h
  | inputIncident => exact if_pos (ofInputCode_isSome.mpr h)
  | usedSecOrNone => exact if_pos (h.symm.imp_left isUsedSec_iff.mpr)
  | usedSub => exact if_pos (isUsedSub_iff.mpr h)
  | usedSubOrNone => exact if_pos (h.symm.imp_left isUsedSub_iff.mpr)

/-- An EDIT that a field does not admit is faulty. -/
theorem editValue_faulty {l : LineTables} {v : Nat} {kind : FieldKind} (h : ¬kind.admits l v) : editValue l v kind = none := by
  cases kind with
  | quantity lo hi => exact absurd trivial h
  | below n => exact if_neg h
  | belowOrNone n => exact if_neg h
  | inputIncident => exact if_neg (mt ofInputCode_isSome.mp h)
  | usedSecOrNone => exact if_neg fun hv => h (hv.symm.imp_right isUsedSec_iff.mp)
  | usedSub => exact if_neg (mt isUsedSub_iff.mp h)
  | usedSubOrNone => exact if_neg fun hv => h (hv.symm.imp_right isUsedSub_iff.mp)

/-! ## EDIT (R52) -/

theorem activeSlot_prepared {s : State} (h : mode s = .prepared) : activeSlot s = none := by
  unfold mode at h
  split at h
  · split at h
    · cases h
    · next hn => exact Option.not_isSome_iff_eq_none.mp hn
  · cases h

section
variable {code i f v : Nat} {a : Act} {tab : EditTable} {kind : FieldKind} (hm : mode a.s ≠ .bare)
include hm

theorem edit_noTable (ht : EditTable.ofCode code = none) : edit code i f v a = (a, .no .badIndex) := by
  simp only [edit, hm, ht, if_false]

variable (ht : EditTable.ofCode code = some tab)
include ht

theorem edit_noField (h : tab.count ≤ i ∨ fieldKind tab f = none) : edit code i f v a = (a, .no .badIndex) := by
  have missing : (if i < tab.count then fieldKind tab f else none) = none := by
    rcases h with h | h
    · exact if_neg (Nat.not_lt.mpr h)
    · rw [h, ite_self]
  simp only [edit, hm, ht, missing, if_false]

variable (hi : i < tab.count) (hk : fieldKind tab f = some kind)
include hi hk

theorem edit_noProfile (hp : tab = .profile ∧ activeSlot a.s = none) : edit code i f v a = (a, .no .state) := by
  simp only [edit, hm, ht, hi, hk, if_true, if_false]
  exact if_pos hp

variable (hp : ¬(tab = .profile ∧ activeSlot a.s = none))
include hp

theorem edit_faulty (h : ¬kind.admits a.s.tst.line v) : edit code i f v a = (a, .no .badIndex) := by
  simp only [edit, hm, ht, hi, hk, hp, if_true, if_false, editValue_faulty h]

theorem edit_joins (h : kind.admits a.s.tst.line v) :
    edit code i f v a = joinGroup
      { table := tab, index := i, field := f, value := kind.written v
        slot := if tab = .profile then activeSlot a.s else none } (decide (kind.written v ≠ v)) a := by
  simp only [edit, hm, ht, hi, hk, hp, if_true, if_false, editValue_admitted hk h]

end

/-! ## Groups (R53) -/

section
variable {e : HeldEdit} {clamped : Bool} {a : Act} {g : List HeldEdit}

theorem closeGroup_waits (h : clockSet a.s = true) (g : List HeldEdit) :
    closeGroup g a = ({ a with s.tst.waiting := a.s.tst.waiting ++ [g] }, false) := if_pos h

theorem joinGroup_open (ho : a.s.tst.openGroup = some g) (hg : g.length < 32) :
    joinGroup e clamped a = ({ a with s.tst.openGroup := some (g ++ [e]) }, .okClamped clamped []) := by
  simp only [joinGroup, ho, hg, if_true]

theorem joinGroup_openFull (ho : a.s.tst.openGroup = some g) (hg : 32 ≤ g.length) :
    joinGroup e clamped a = (a, .no .full) := by
  simp only [joinGroup, ho, Nat.not_lt.mpr hg, if_false]

theorem joinGroup_waits (ho : a.s.tst.openGroup = none) (hw : a.s.tst.waiting.length < 4) (hc : clockSet a.s = true) :
    joinGroup e clamped a = ({ a with s.tst.waiting := a.s.tst.waiting ++ [[e]] }, .okClamped clamped []) := by
  simp only [joinGroup, ho, hw, closeGroup_waits hc, if_true, Bool.or_false]

theorem joinGroup_full (ho : a.s.tst.openGroup = none) (hw : 4 ≤ a.s.tst.waiting.length) :
    joinGroup e clamped a = (a, .no .full) := by
  simp only [joinGroup, ho, Nat.not_lt.mpr hw, if_false]

end

section
variable {a : Act} {g : List HeldEdit} (hm : mode a.s ≠ .bare)
include hm

theorem editHold_busy (h : a.s.tst.openGroup ≠ none) : editHold a = (a, .no .busy) := by
  simp only [editHold, hm, Option.isSome_iff_ne_none.mpr h, if_true, if_false]

theorem editHold_opens (h : a.s.tst.openGroup = none) :
    editHold a = ({ a with s.tst.openGroup := some [] }, .ok []) := by
  simp only [editHold, hm, h, Option.isSome_none, Bool.false_eq_true, if_false]

theorem editRelease_none (h : a.s.tst.openGroup = none) : editRelease a = (a, .no .state) := by
  simp only [editRelease, hm, h, if_false]

theorem editRelease_empty (h : a.s.tst.openGroup = some []) :
    editRelease a = ({ a with s.tst.openGroup := none }, .ok []) := by
  simp only [editRelease, hm, h, if_true, if_false]

theorem editRelease_full (h : a.s.tst.openGroup = some g) (hg : g ≠ []) (hw : 4 ≤ a.s.tst.waiting.length) :
    editRelease a = (a, .no .full) := by
  simp only [editRelease, hm, h, hg, hw, if_true, if_false]

theorem editRelease_waits (h : a.s.tst.openGroup = some g) (hg : g ≠ []) (hw : a.s.tst.waiting.length < 4)
    (hc : clockSet a.s = true) :
    editRelease a = ({ a with s.tst.openGroup := none, s.tst.waiting := a.s.tst.waiting ++ [g] }, .ok []) := by
  simp only [editRelease, hm, h, hg, Nat.not_le.mpr hw, if_false]
  rw [closeGroup_waits (a := { a with s.tst.openGroup := none }) hc]
  rfl

end

theorem clockSet_iff {s : State} : clockSet s = true ↔ s.lck.lock ≠ .unset := decide_eq_true_iff

/-- Settles O47: each command is run by the test that decides it, and an EDIT writes what its field admits. -/
theorem editsGatherInGroups : Obligations.EditsGatherInGroups := by
  intro s t rest hm
  refine ⟨fun h => ?_, fun h => ?_, fun a b c v3 v2 v1 v0 h => ?_⟩
  · have row (v : State) : exec .editHold v = .next (whenAwake (command 0x05 (sized 0 fun _ => editHold)) v) := rfl
    exact ⟨fun ho => exec_written row h rfl (editHold_busy hm ho), fun ho => exec_written row h rfl (editHold_opens hm ho)⟩
  · have row (v : State) : exec .editRelease v = .next (whenAwake (command 0x07 (sized 0 fun _ => editRelease)) v) := rfl
    refine ⟨fun ho => exec_written row h rfl (editRelease_none hm ho),
      fun ho => exec_written row h rfl (editRelease_empty hm ho), fun g ho hg => ⟨fun hw => ?_, fun hw hc => ?_⟩⟩
    · exact exec_written row h rfl (editRelease_full hm ho hg hw)
    · exact exec_written row h rfl (editRelease_waits hm ho hg hw (clockSet_iff.mpr hc))
  · have row (v : State) : exec .edit v = .next (whenAwake (command 0x06
        (sized 7 fun x => edit (field x 0 1) (field x 1 1) (field x 2 1) (field x 3 4))) v) := rfl
    have edits {u : State} {r : Reply} (hf : edit a.toNat b.toNat c.toNat (numOf [v3, v2, v1, v0])
        (Act.start (headTaken rest s)) = (Act.start (headTaken rest u), r)) :
        exec .edit s = .next (settle (replied t rest r u)) := by
      refine exec_written row h rfl ?_
      rw [field_head]
      exact (congrArg₂ (fun i f => edit a.toNat i f (numOf [v3, v2, v1, v0]) _) (numOf_one b) (numOf_one c)).trans hf
    refine ⟨fun ht => edits (edit_noTable hm ht), fun tab ht => ⟨fun hi => edits (edit_noField hm ht hi),
      fun kind hi hk => ?_⟩⟩
    have profile (hp : ¬(tab = .profile ∧ mode s = .prepared)) : ¬(tab = .profile ∧ activeSlot s = none) :=
      fun ⟨et, ea⟩ => hp ⟨et, mode_prepared (mode_ne_bare hm) ea⟩
    refine ⟨fun et hp => edits (edit_noProfile hm ht hi hk ⟨et, activeSlot_prepared hp⟩),
      fun hp hv => edits (edit_faulty hm ht hi hk (profile hp) hv), fun hp hv => ?_⟩
    have joins := edit_joins (a := Act.start (headTaken rest s)) hm ht hi hk (profile hp) hv
    refine ⟨fun g ho hg => ?_, fun g ho hg => ?_, fun ho hw hc => ?_, fun ho hw => ?_⟩
    · exact edits (joins.trans (joinGroup_open ho hg))
    · exact edits (joins.trans (joinGroup_openFull ho hg))
    · exact edits (joins.trans (joinGroup_waits ho hw (clockSet_iff.mpr hc)))
    · exact edits (joins.trans (joinGroup_full ho hw))

end Sys2Proof.Machine
end

