-- ==== Sys2Proof/Proofs/Activation.lean ====
section
/-! PROOFS. PROFILE_ACTIVATE: a READY slot waits for the boundary, or, while the clock is UNSET, is made ACTIVE at once and the
trains are rebound. An UNSET clock moves no train at a hold end, so that the rebinding reports incidents and nothing else. -/

namespace Sys2Proof.Machine

/-! ## Causes taken as gone while the clock is UNSET -/

/-- Every report among what an action made is an INCIDENT report (kind 0). -/
def IncidentsTold (l : List Made) : Prop := ∀ content, .report content ∈ l → content.head? = some 0

/-- While the clock is UNSET, an action that asks for causes to be taken as gone, hands over no trains and reports incidents
alone. -/
structure Unclocked (a : Act) : Prop where
  unset : a.s.lck.lock = .unset
  gone : ∀ r ∈ a.requests, ∃ c o, r = .gone c o
  handOvers : a.handOvers = []
  told : IncidentsTold a.out

theorem IncidentsTold.order {l : List Made} (h : IncidentsTold l) (o : Order) : IncidentsTold (l ++ [.order o]) :=
  fun content hc => by
    rcases List.mem_append.mp hc with hc | hc
    · exact h content hc
    · cases List.mem_singleton.mp hc

theorem IncidentsTold.report {l : List Made} (h : IncidentsTold l) (content : List Byte) :
    IncidentsTold (l ++ [.report (num1 0 ++ content)]) := fun x hx => by
  rcases List.mem_append.mp hx with hx | hx
  · exact h x hx
  · cases List.mem_singleton.mp hx
    rfl

section
variable {a : Act}

theorem clockSet_unset {s : State} (h : s.lck.lock = .unset) : clockSet s = false := by simp [clockSet, h]

/-- An INCIDENT report leaves all this so. -/
theorem Unclocked.record (h : Unclocked a) (e : IncEvent) (i : IncId) (r : Incident) : Unclocked (a.record e i r) :=
  ⟨h.unset, h.gone, h.handOvers, h.told.report _⟩

theorem Unclocked.zoneRemove (h : Unclocked a) (x : Source) (z : ZoneId) : Unclocked (zoneRemove x z a) := by
  obtain ⟨-, lck, -, -, -, -, requests, handOvers⟩ := Act.offAsc_fields (offAsc_zoneRemove x z a)
  refine ⟨lck ▸ h.unset, requests ▸ h.gone, handOvers ▸ h.handOvers, ?_⟩
  unfold Machine.zoneRemove cutCurrent
  dsimp only
  split
  · split
    · exact h.told.order _
    · exact h.told
  · exact h.told

theorem Unclocked.removeEntries (h : Unclocked a) (x : Source) : Unclocked (forAll 24 (Machine.zoneRemove x) a) := by
  have all (l : List ZoneId) : Unclocked (l.foldl (fun a z => Machine.zoneRemove x z a) a) := by
    induction l generalizing a with
    | nil => exact h
    | cons z l ih => exact ih (h.zoneRemove x z)
  exact all _

/-- While the clock is UNSET the coverage is reckoned and no train record changes (R151, R152). -/
theorem reckonHolds_unset {m : Act → Act} (ha : a.s.lck.lock = .unset)
    (hm : ∀ b, b.s.lck.lock = .unset → (m b).s.lck.lock = .unset) :
    reckonHolds m a = m { a with s.inc.underHold := Table.build 64 (underHold a.s) } := by
  have starts (l : List TpId) (b : Act) (hb : b.s.lck.lock = .unset) : l.foldl (fun a p => holdStart p a) b = b := by
    induction l with
    | nil => rfl
    | cons p l ih =>
      rw [List.foldl_cons, holdStart, clockSet_unset hb]
      exact ih
  have ends (l : List TpId) (b : Act) (hb : b.s.lck.lock = .unset) : holdEnds l b = b := by
    rw [holdEnds, boundaryTime_unset hb]
  unfold reckonHolds
  dsimp only
  rw [starts _ { a with s.inc.underHold := Table.build 64 (underHold a.s) } ha]
  exact ends _ _ (hm _ ha)

/-- The entries of an incident are taken from the zones and the coverage is reckoned again. -/
theorem Unclocked.reckonRemoved (h : Unclocked a) (x : Source) :
    Unclocked (reckonHolds (forAll 24 (Machine.zoneRemove x)) a) := by
  rw [reckonHolds_unset h.unset fun b hb => ?_]
  · exact Unclocked.removeEntries (a := { a with s.inc.underHold := Table.build 64 (underHold a.s) })
      ⟨h.unset, h.gone, h.handOvers, h.told⟩ x
  · have same : (forAll 24 (Machine.zoneRemove x) b).s.lck = b.s.lck :=
      forAll_keeps (fun a => a.s.lck) _ (fun z a => lck_of_offAsc (offAsc_zoneRemove x z a)) b
    exact (congrArg Lck.lock same).trans hb

theorem Unclocked.handleGone (h : Unclocked a) (c : IncClass) (o : IncObject) : Unclocked (handleGone c o a) := by
  unfold Machine.handleGone
  split
  · exact h
  · split
    · split
      · exact h.record _ _ _
      · unfold resolve
        refine Unclocked.reckonRemoved ?_ _
        exact ⟨h.unset, h.gone, h.handOvers, h.told.report _⟩
      · exact h
    · exact h

theorem Unclocked.drainFor (k : Nat) (h : Unclocked a) : Unclocked (drainFor k a) := by
  induction k generalizing a with
  | zero => exact h
  | succ k ih =>
    unfold Machine.drainFor
    split
    · next r rest hr =>
      obtain ⟨c, o, rfl⟩ := h.gone r (hr ▸ List.mem_cons_self)
      exact ih (Unclocked.handleGone (a := { a with requests := rest })
        ⟨h.unset, fun q hq => h.gone q (hr ▸ List.mem_cons_of_mem _ hq), h.handOvers, h.told⟩ c o)
    · next hw =>
      rw [h.handOvers] at hw
      cases hw
    · exact h

theorem Unclocked.drain (h : Unclocked a) : Unclocked (Machine.drain a) := by
  unfold Machine.drain
  exact h.drainFor _

/-! ## Rebinding (R72) -/

theorem Unclocked.rebindOne (h : Unclocked a) (i : TrainId) : Unclocked (rebindOne i a) := by
  have unbound : Unclocked (unbind i a) := by
    unfold unbind
    split
    · exact h
    · next t _ =>
      dsimp only
      split
      · refine ⟨h.unset, fun r hr => ?_, h.handOvers, h.told⟩
        rcases List.mem_append.mp hr with hr | hr
        · exact h.gone r hr
        · exact ⟨.lateRunning, .train t.set, List.mem_singleton.mp hr⟩
      · exact ⟨h.unset, h.gone, h.handOvers, h.told⟩
  unfold Machine.rebindOne
  split
  · exact h
  · split
    · exact ⟨h.unset, h.gone, h.handOvers, h.told⟩
    · exact unbound

theorem Unclocked.rebind (h : Unclocked a) : Unclocked (rebind a) := by
  have all (l : List TrainId) : Unclocked (l.foldl (fun a i => Machine.rebindOne i a) a) := by
    induction l generalizing a with
    | nil => exact h
    | cons i l ih => exact ih (h.rebindOne i)
  unfold Machine.rebind
  exact (all _).drain

/-- The record of a train has no step index, or no run. -/
def Act.Unstepped (i : TrainId) (a : Act) : Prop := ∀ r, a.train i = some r → r.step = none ∨ r.run = none

theorem rebindOne_unstepped (i : TrainId) (a : Act) : Act.Unstepped i (rebindOne i a) := by
  intro r hr
  unfold rebindOne at hr
  split at hr
  · next hn =>
    rw [hr] at hn
    exact .inr hn
  · split at hr
    · rw [Act.onTrain_train, if_pos rfl] at hr
      obtain ⟨t, -, rfl⟩ := Option.map_eq_some_iff.mp hr
      exact .inl rfl
    · cases ht : a.train i with
      | none =>
        rw [unbind, ht] at hr
        cases ht.symm.trans hr
      | some t =>
        cases (unbind_train_self ht).symm.trans hr
        exact .inr rfl

theorem rebindOne_train_other {i j : TrainId} (h : j ≠ i) (a : Act) : (rebindOne j a).train i = a.train i := by
  unfold rebindOne
  split
  · rfl
  · split
    · rw [Act.onTrain_train, if_neg h]
    · exact unbind_train_other h a

/-- What one step of a fold brings about and every other keeps, the fold brings about. -/
theorem foldl_reaches {α β : Type} {Q : α → Prop} {f : α → β → α} {b : β} (here : ∀ a, Q (f a b))
    (keeps : ∀ a c, c ≠ b → Q a → Q (f a c)) {l : List β} (hb : b ∈ l) (a : α) : Q (l.foldl f a) := by
  have kept (l : List β) (a : α) (ha : Q a) : Q (l.foldl f a) := by
    induction l generalizing a with
    | nil => exact ha
    | cons c l ih =>
      refine ih _ ?_
      by_cases e : c = b
      · exact e ▸ here a
      · exact keeps a c e ha
  induction l generalizing a with
  | nil => cases hb
  | cons c l ih =>
    rcases List.mem_cons.mp hb with rfl | hb
    · exact kept l _ (here a)
    · exact ih hb _

/-- Once the trains are rebound no record has a step index beside a run. -/
theorem rebind_unstepped (i : TrainId) (a : Act) : Act.Unstepped i (rebind a) := by
  have bound : Act.Unstepped i (forAll 48 rebindOne a) :=
    foldl_reaches (Q := Act.Unstepped i) (f := fun a j => rebindOne j a) (rebindOne_unstepped i)
      (fun b j hj hb r hr => hb r ((rebindOne_train_other hj b).symm.trans hr)) (mem_indices i) a
  intro r hr
  have told := map_told_drain (forAll 48 rebindOne a) i
  rw [show (drain (forAll 48 rebindOne a)).train i = some r from hr] at told
  obtain ⟨t, ht, same⟩ := Option.map_eq_some_iff.mp told.symm
  simp only [Train.told, Prod.mk.injEq] at same
  obtain ⟨-, run, step, -⟩ := same
  exact (bound t ht).imp (step ▸ ·) (run ▸ ·)

end

/-! ## PROFILE_ACTIVATE (R50) -/

section
variable {n : Nat} {a : Act} {i : SlotId} (hm : mode a.s ≠ .bare)
include hm

theorem profileActivate_badIndex (hn : 2 < n) : profileActivate n a = (a, .no .badIndex) := by
  simp only [profileActivate, hm, index?_none (Nat.succ_le_of_lt hn), if_false]

theorem profileActivate_state (h : (a.s.tst.slots.get i).state ≠ .ready) : profileActivate i.val a = (a, .no .state) := by
  simp only [profileActivate, hm, index?_val, h, ne_eq, not_false_eq_true, if_true, if_false]

variable (h : (a.s.tst.slots.get i).state = .ready)
include h

theorem profileActivate_pending (hc : clockSet a.s = true) :
    profileActivate i.val a = ({ a with s.tst.pendingSlot := some i }, .ok []) := by
  have set : clockSet { a.s with tst.pendingSlot := some i } = true := hc
  simp only [profileActivate, hm, index?_val, h, set, ne_eq, not_true_eq_false, if_true, if_false]

theorem profileActivate_atOnce (hc : clockSet a.s = false) :
    profileActivate i.val a = (activate i { a with s.tst.pendingSlot := some i }, .ok []) := by
  have unset : clockSet { a.s with tst.pendingSlot := some i } = false := hc
  simp only [profileActivate, hm, index?_val, h, unset, ne_eq, not_true_eq_false, Bool.false_eq_true, if_false,
    activatePending]

end

/-- The mode of a part with VALID line tables and an ACTIVE slot (R56). -/
theorem mode_service {s : State} (hv : s.tst.lineState = .valid) {i : SlotId} (hi : (s.tst.slots.get i).state = .active) :
    mode s = .service := by
  have active : (activeSlot s).isSome = true :=
    List.find?_isSome.mpr ⟨i, mem_indices i, decide_eq_true hi⟩
  simp [mode, tablesValid, hv, active]

/-- REPORTs join the room-bound queue while there is room, the last of them where it still finds a place. -/
theorem take_append_last {α : Type} {n : Nat} (hn : n ≤ 64) (l : List α) (x : α) :
    (l ++ [x]).take (64 - n) = l.take (64 - n) ++ if n + (l.take (64 - n)).length < 64 then [x] else [] := by
  rcases Nat.lt_or_ge l.length (64 - n) with h | h
  · have room : n + (l.take (64 - n)).length < 64 := by
      rw [List.take_of_length_le h.le]
      omega
    rw [if_pos room, List.take_of_length_le h.le, List.take_of_length_le]
    rw [List.length_append, List.length_singleton]
    omega
  · have full : ¬n + (l.take (64 - n)).length < 64 := by
      rw [List.length_take]
      omega
    rw [if_neg full, List.append_nil, List.take_append_of_le_length h]

/-! ## The activation at once -/

/-- The action of a PROFILE_ACTIVATE once the head of the management input queue is taken and the slot is pending. -/
def activationPending (i : SlotId) (rest : List Telegram) (s : State) : Act :=
  { Act.start (headTaken rest s) with s.tst.pendingSlot := some i }

/-- The slot is ACTIVE and the trains are rebound; the PROFILE report is still to come. -/
def activationBound (i : SlotId) (rest : List Telegram) (s : State) : Act :=
  rebind { activationPending i rest s with s.tst := (activationPending i rest s).s.tst.makeActive i }

/-- The action of a PROFILE_ACTIVATE that is carried out while the clock is UNSET. -/
def activatedAtOnce (i : SlotId) (rest : List Telegram) (s : State) : Act := activate i (activationPending i rest s)

section
variable {i : SlotId} {rest : List Telegram} {s : State}

theorem activatedAtOnce_eq : activatedAtOnce i rest s = (activationBound i rest s).report 3
    (profileContent i (activeSlot s) ((s.tst.makeActive i).slots.get i).profile) := rfl

theorem activatedAtOnce_tst : (activatedAtOnce i rest s).s.tst = { s.tst with pendingSlot := some i }.makeActive i :=
  store_activate i (activationPending i rest s)

theorem activatedAtOnce_shell :
    (activatedAtOnce i rest s).s.shell = (activationPending i rest s).s.shell
      ∧ (activatedAtOnce i rest s).s.tiu = (activationPending i rest s).s.tiu := by
  unfold activatedAtOnce
  exact shell_of_outer (outer_of_still (still_activate i _))

theorem activatedAtOnce_tiu : (activatedAtOnce i rest s).s.tiu = (headTaken rest s).tiu := by
  rw [activatedAtOnce_shell.2]
  rfl

theorem activatedAtOnce_queue : (activatedAtOnce i rest s).s.tiu.room = s.tiu.room := by
  rw [activatedAtOnce_tiu]
  rfl

theorem activatedAtOnce_manage : (activatedAtOnce i rest s).s.tiu.manage = rest := by
  rw [activatedAtOnce_tiu]
  rfl

theorem activatedAtOnce_address : (activatedAtOnce i rest s).s.address = s.address := by
  have shell := activatedAtOnce_shell (i := i) (rest := rest) (s := s).1
  simp only [State.shell, Prod.mk.injEq] at shell
  obtain ⟨-, -, -, address, -⟩ := shell
  exact address

theorem activatedAtOnce_rrg : (activatedAtOnce i rest s).s.rrg = (activationBound i rest s).s.rrg := by
  rw [activatedAtOnce_eq]
  exact congrArg State.rrg (Act.report_s _ _ _)

theorem activationBound_unclocked (h : s.lck.lock = .unset) : Unclocked (activationBound i rest s) := by
  refine Unclocked.rebind ?_
  exact { unset := h, gone := (fun _ hr => nomatch hr), handOvers := rfl, told := (fun _ hc => nomatch hc) }

theorem activationBound_unstepped (j : TrainId) : Act.Unstepped j (activationBound i rest s) := by
  unfold activationBound
  exact rebind_unstepped j _

/-- The reports of the rebinding, then the PROFILE report. -/
theorem activatedAtOnce_out {p : Profile} (hp : (s.tst.slots.get i).profile = some p) :
    (activatedAtOnce i rest s).out = (activationBound i rest s).out ++ [.report (profileTold s i p)] := by
  have profile : ((s.tst.makeActive i).slots.get i).profile = some p := by
    rw [Tst.makeActive_get]
    exact hp
  rw [activatedAtOnce_eq, profile]
  rfl

end

theorem tst_answered {t : Telegram} {r : Reply} {a : Act} : (enterMade (answer t r a.s) a.out).tst = a.s.tst := by
  rw [enterMade_answer_frame]

theorem rrg_answered {t : Telegram} {r : Reply} {a : Act} : (enterMade (answer t r a.s) a.out).rrg = a.s.rrg := by
  rw [enterMade_answer_frame]

theorem manage_answered {t : Telegram} {r : Reply} {a : Act} :
    (enterMade (answer t r a.s) a.out).tiu.manage = a.s.tiu.manage := by
  rw [enterMade_frame]
  rfl

theorem address_answer {t : Telegram} {r : Reply} {a : Act} : (answer t r a.s).address = a.s.address := rfl

/-- The REPLY of an action that leaves the room-bound queue and the address alone. -/
theorem room_answer {t : Telegram} {r : Reply} {a : Act} {s : State} (hroom : a.s.tiu.room = s.tiu.room)
    (haddress : a.s.address = s.address) :
    (answer t r a.s).tiu.room = s.tiu.room ++ [{ kind := .reply, telegram := replyTo s.address t r }] := by
  have item : replyTelegram a.s t r = replyTo s.address t r := by
    rw [replyTelegram, haddress]
    rfl
  rw [← item, ← hroom]
  rfl

/-- The room-bound queue after the REPLY: INCIDENT reports of the rebinding, and the PROFILE report behind them. -/
theorem activatedAtOnce_room {i : SlotId} {rest : List Telegram} {s : State} {t : Telegram} {p : Profile}
    (hc : s.lck.lock = .unset) (hp : (s.tst.slots.get i).profile = some p) (hq : s.tiu.room.length < 64) :
    ∃ more : List RoomItem, (∀ x ∈ more, x.kind = .report ∧ x.telegram.payload.head? = some 0) ∧
      let before := s.tiu.room ++ [{ kind := .reply, telegram := replyTo s.address t (.ok []) }] ++ more
      (enterMade (answer t (.ok []) (activatedAtOnce i rest s).s) (activatedAtOnce i rest s).out).tiu.room
        = before ++ if before.length < 64 then [reportItem s.address (profileTold s i p)] else [] := by
  have replied := room_answer (t := t) (r := .ok []) (a := activatedAtOnce i rest s) (s := s) activatedAtOnce_queue
    activatedAtOnce_address
  have sent := (address_answer (t := t) (r := .ok []) (a := activatedAtOnce i rest s)).trans activatedAtOnce_address
  have queue := room_enterMade (answer t (.ok []) (activatedAtOnce i rest s).s) (activatedAtOnce i rest s).out
  have told : madeReports s.address (activatedAtOnce i rest s).out
      = madeReports s.address (activationBound i rest s).out ++ [reportItem s.address (profileTold s i p)] := by
    rw [activatedAtOnce_out hp, madeReports_append]
    rfl
  rw [replied, sent, told, take_append_last (by simp; omega)] at queue
  rw [← List.append_assoc, ← List.length_append] at queue
  refine ⟨_, fun x hx => ?_, queue⟩
  obtain ⟨content, hc', rfl⟩ := mem_madeReports.mp (List.mem_of_mem_take hx)
  exact ⟨rfl, (activationBound_unclocked hc).told content hc'⟩

/-- Settles O46: an activation at once writes the slots, rebinds the trains and is reported last. -/
theorem profileActivated : Obligations.ProfileActivated := by
  intro s t rest x h hm
  have row (v : State) : exec .profileActivate v = .next (whenAwake (command 0x04
      (sized 1 fun x => profileActivate (field x 0 1))) v) := rfl
  have run := exec_sized row h rfl
  simp only [field_head] at run
  refine ⟨fun hx => run.trans ?_, fun i hi => ?_⟩
  · rw [execute_written (s := s) (u := s) (profileActivate_badIndex (a := Act.start (headTaken rest s)) hm hx)]
  rw [← hi] at run
  refine ⟨fun hr => run.trans ?_, fun hr hc => run.trans ?_, fun hr hc => ?_⟩
  · rw [execute_written (s := s) (u := s) (profileActivate_state (a := Act.start (headTaken rest s)) hm hr)]
  · rw [execute_written (s := s) (u := { s with tst.pendingSlot := some i })
      (profileActivate_pending (a := Act.start (headTaken rest s)) hm hr (clockSet_iff.mpr hc))]
  have atOnce : profileActivate i.val (Act.start (headTaken rest s)) = (activatedAtOnce i rest s, .ok []) := by
    unfold activatedAtOnce activationPending
    exact profileActivate_atOnce hm hr (clockSet_unset hc)
  have tst := tst_answered (t := t) (r := .ok []) (a := activatedAtOnce i rest s)
  rw [activatedAtOnce_tst] at tst
  have slot (j : SlotId) : (enterMade (answer t (.ok []) (activatedAtOnce i rest s).s)
      (activatedAtOnce i rest s).out).tst.slots.get j = { s.tst.slots.get j with
        state := if j = i then .active else if (s.tst.slots.get j).state = .active then .ready
          else (s.tst.slots.get j).state } := by
    rw [tst]
    exact Tst.makeActive_get _ i j
  refine ⟨enterMade (answer t (.ok []) (activatedAtOnce i rest s).s) (activatedAtOnce i rest s).out,
    run.trans (by rw [execute, atOnce]), ?_, ?_, ?_, ?_, fun j hj => ?_, ?_, fun j r hr => ?_, fun p hp => ?_⟩
  · exact answered_enterMade activatedAtOnce_queue activatedAtOnce_address
  · rw [manage_answered, activatedAtOnce_manage]
  · rw [tst]
    rfl
  · rw [slot, if_pos rfl]
  · rw [slot, if_neg hj]
  · refine mode_service (i := i) ?_ (by rw [slot, if_pos rfl])
    rw [tst]
    exact mode_ne_bare hm
  · rw [rrg_answered, activatedAtOnce_rrg] at hr
    exact activationBound_unstepped j r hr
  · exact activatedAtOnce_room hc hp h.place

end Sys2Proof.Machine
end

