-- ==== Sys2Proof/Proofs/CrowdedGroups.lean ====
section
/-! PROOFS. A written group and a waiting list longer than the work one drain does. The statement on written groups asks the law
of the incident table of the state before, and not that of the slot pools (`PoolLaw`), under which a train stands in one waiting
list once. Where one train stands two thousand times in the list of a substation with as many slots free, the derivation grants
two thousand times, and each grant asks for the end of the power wait. The two drains of the group work off a thousand requests
each: the request that R129 makes for a changed input class stands behind them, and its cause stays PRESENT. -/

namespace Sys2Proof.Machine

/-! ## Requests for the end of a power wait that no record answers -/

/-- A request for the end of the power wait of a train set. -/
def waitOver (set : Nat) : Request := .gone .powerWait (.train set)

section
variable {a : Act} {set : Nat}

/-- Without a record of the power wait the request changes nothing. -/
theorem handleRequest_waitOver (h : findKey a.s .powerWait (.train set) = none) : handleRequest (waitOver set) a = a := by
  rw [waitOver, handleRequest, handleGone, h]
  rfl

/-- Each such request takes one piece of the work of a drain and does nothing else. -/
theorem drainFor_waitOver {k : Nat} {l : List Request} (h : findKey a.s .powerWait (.train set) = none)
    (hr : a.requests = List.replicate k (waitOver set) ++ l) : drainFor k a = { a with requests := l } := by
  induction k generalizing a with
  | zero =>
    rw [drainFor, ← show a.requests = l from hr]
  | succ k ih =>
    rw [List.replicate_succ, List.cons_append] at hr
    rw [drainFor_request hr]
    refine (congrArg (drainFor k) (handleRequest_waitOver
      (a := { a with requests := List.replicate k (waitOver set) ++ l }) h)).trans ?_
    exact ih (a := { a with requests := List.replicate k (waitOver set) ++ l }) h rfl

theorem drain_waitOver {l : List Request} (h : findKey a.s .powerWait (.train set) = none)
    (hr : a.requests = List.replicate 1000 (waitOver set) ++ l) : drain a = { a with requests := l } := by
  unfold drain
  exact drainFor_waitOver h hr

end

/-! ## Grants to one train many times over (R110) -/

/-- From `a` to `b` the incident records and the tables stand, and `l` is asked besides. -/
structure Asked (l : List Request) (a b : Act) : Prop where
  records : b.s.inc.records = a.s.inc.records
  tst : b.s.tst = a.s.tst
  requests : b.requests = a.requests ++ l

theorem Asked.refl (a : Act) : Asked [] a a := ⟨rfl, rfl, (List.append_nil _).symm⟩

theorem Asked.trans {l m : List Request} {a b c : Act} (h : Asked l a b) (k : Asked m b c) : Asked (l ++ m) a c :=
  ⟨k.records.trans h.records, k.tst.trans h.tst, by rw [k.requests, h.requests, List.append_assoc]⟩

theorem Asked.underHold {l : List Request} {a b : Act} (h : Asked l a b) (p : TpId) : underHold b.s p = underHold a.s p := by
  rw [Machine.underHold, Machine.underHold, incidents, incidents, h.records, h.tst]

theorem Asked.findKey {l : List Request} {a b : Act} (h : Asked l a b) (c : IncClass) (o : IncObject) :
    findKey b.s c o = findKey a.s c o := by
  rw [Machine.findKey, Machine.findKey, h.records]

section
variable {a : Act} {b : SubId} {w : Wait} {t : Train}

theorem asked_grantSlot (ht : a.train w.train = some t) : Asked [waitOver t.set] a (grantSlot b w a) := by
  rw [grantSlot, ht]
  exact ⟨rfl, rfl, rfl⟩

theorem grantSlot_train (ht : a.train w.train = some t) :
    ∃ u, (grantSlot b w a).train w.train = some u ∧ u.set = t.set := by
  have told := map_told_of_core (residue_train (residue_grantSlot b w a) w.train)
  rw [show a.s.rrg.trains.get w.train = some t from ht] at told
  obtain ⟨u, hu, same⟩ := Option.map_eq_some_iff.mp told
  exact ⟨u, hu, congrArg (·.1) same⟩

theorem grantSlot_supply (ht : a.train w.train = some t) (c : SubId) :
    (grantSlot b w a).supply c = if b = c then { a.supply c with held := (a.supply c).held + 1 } else a.supply c := by
  rw [grantSlot, ht]
  exact Act.onSupply_supply b c (fun v => { v with held := v.held + 1 }) a

/-- A list of one train many times over is granted through while slots are free. -/
theorem grantFrom_replicate (n : Nat) (ht : a.train w.train = some t) (hh : underHold a.s w.point = false)
    (hc : (a.supply b).held + n ≤ (a.supply b).capacity) :
    Asked (List.replicate n (waitOver t.set)) a (grantFrom b (List.replicate n w) a)
      ∧ ∀ c, ((grantFrom b (List.replicate n w) a).supply c).waits = if b = c then [] else (a.supply c).waits := by
  induction n generalizing a t with
  | zero =>
    refine ⟨⟨rfl, rfl, (List.append_nil _).symm⟩, fun c => ?_⟩
    refine (congrArg Supply.waits (Act.onSupply_supply b c _ a)).trans ?_
    split <;> rfl
  | succ n ih =>
    have step : grantFrom b (List.replicate (n + 1) w) a = grantFrom b (List.replicate n w) (grantSlot b w a) := by
      rw [List.replicate_succ, grantFrom, if_pos (by omega), if_neg (by rw [hh]; exact Bool.false_ne_true)]
    have one := asked_grantSlot (b := b) ht
    obtain ⟨u, hu, set⟩ := grantSlot_train (b := b) ht
    have free : ((grantSlot b w a).supply b).held + n ≤ ((grantSlot b w a).supply b).capacity := by
      rw [grantSlot_supply ht, if_pos rfl]
      dsimp only
      omega
    obtain ⟨asked, waits⟩ := ih hu ((one.underHold w.point).trans hh) free
    rw [set] at asked
    rw [step]
    refine ⟨one.trans asked, fun c => (waits c).trans ?_⟩
    rw [grantSlot_supply ht]
    split <;> rfl

/-- A substation without a waiting train makes no grant. -/
theorem grants_empty {c : SubId} (h : (a.supply c).waits = []) : grants c a = a := by
  have same : a.s.psv.subs.set c { a.supply c with waits := [] } = a.s.psv.subs := Table.ext_get fun d => by
    rw [Table.get_set]
    split
    · next e =>
      subst e
      rw [← h]
      rfl
    · rfl
  rw [grants, h, grantFrom, Act.onSupply, same]

/-- Where every other step leaves the start alone, and every step the outcome, a fold takes its one step. -/
theorem foldl_once {α β : Type} [DecidableEq β] {f : α → β → α} {a : α} {b : β} (before : ∀ c, c ≠ b → f a c = a)
    (after : ∀ c, f (f a b) c = f a b) {l : List β} (hb : b ∈ l) : l.foldl f a = f a b := by
  induction l with
  | nil => cases hb
  | cons c l ih =>
    rw [List.foldl_cons]
    by_cases e : c = b
    · rw [e]
      exact List.foldl_fixed' after l
    · rw [before c e]
      exact ih ((List.mem_cons.mp hb).resolve_left (Ne.symm e))

/-- One substation's list holds one train `n` times, of a section it supplies, and has as many slots free; nobody else waits. -/
structure Crowd (n : Nat) (b : SubId) (w : Wait) (set : Nat) (a : Act) : Prop where
  train : ∃ t, a.train w.train = some t ∧ t.set = set
  uncovered : underHold a.s w.point = false
  source : sourceOf a.s w.sec = some b
  free : (a.supply b).held + n ≤ (a.supply b).capacity
  list : (a.supply b).waits = List.replicate n w
  others : ∀ c, b ≠ c → (a.supply c).waits = []
  dead : a.s.psv.deadWaits = []

variable {n set : Nat}

theorem Crowd.replaceList (h : Crowd n b w set a) (c : SubId) : replaceList c a = a := by
  by_cases e : b = c
  · subst e
    have stays : replaceOne b w a = a := if_pos h.source
    rw [Machine.replaceList, h.list]
    clear h
    induction n with
    | zero => rfl
    | succ n ih => rw [List.replicate_succ, List.foldl_cons, stays, ih]
  · rw [Machine.replaceList, h.others c e]
    rfl

theorem Crowd.grants (h : Crowd n b w set a) :
    Asked (List.replicate n (waitOver set)) a (grants b a) ∧ ∀ c, ((grants b a).supply c).waits = [] := by
  obtain ⟨t, ht, rfl⟩ := h.train
  rw [Machine.grants, h.list]
  obtain ⟨asked, waits⟩ := grantFrom_replicate n ht h.uncovered h.free
  refine ⟨asked, fun c => (waits c).trans ?_⟩
  split
  · rfl
  · next e => exact h.others c e

theorem Crowd.grantAll (h : Crowd n b w set a) : grantAll a = Machine.grants b a :=
  foldl_once (f := fun a c => Machine.grants c a) (fun c hc => grants_empty (h.others c (Ne.symm hc)))
    (fun c => grants_empty (h.grants.2 c)) (mem_indices b)

/-- The list stays where it is, and the grants ask `n` times for the end of the power wait. -/
theorem Crowd.replaceAndGrant (h : Crowd n b w set a) :
    Asked (List.replicate n (waitOver set)) a (replaceAndGrant [] a) := by
  have placed : forAll 8 Machine.replaceList a = a := List.foldl_fixed' (fun c => h.replaceList c) _
  have granted : Machine.replaceAndGrant [] a = Machine.grants b a := by
    simp only [Machine.replaceAndGrant, List.foldl_nil, placed, h.dead, List.filter_nil, h.grantAll]
  rw [granted]
  exact h.grants.1

end

/-! ## The group (R54) -/

theorem resectionWaits_same (a : Act) : resectionWaits (fun _ => false) a = a := by
  have subs : a.s.psv.subs.map (fun v => v) = a.s.psv.subs := Table.ext_get fun b => Table.get_map _ _ b
  simp only [resectionWaits, Bool.false_and, List.filter_false, List.foldl_nil, Bool.false_eq_true, if_false, List.map_id']
  rw [subs]

/-- While the clock is UNSET and every record is an EQUIPMENT one, the area sets and the records stand. -/
theorem areaConsequence_equipment {a : Act} (old : LineTables) (ha : a.s.lck.lock = .unset)
    (h : ∀ i r, a.s.inc.records.get i = some r → ∃ x, r.object = .equipment x) :
    ∃ u, areaConsequence old a = { a with s.inc.underHold := u } := by
  have records : a.s.inc.records.map (fun r => r.map (Incident.reArea { a.s with tst.line := old } a.s))
      = a.s.inc.records := Table.ext_get fun i => by
    rw [Table.get_map]
    cases hr : a.s.inc.records.get i with
    | none => rfl
    | some r =>
      obtain ⟨x, hx⟩ := h i r hr
      rw [Option.map_some, Incident.reArea, hx]
  refine ⟨Table.build 64 (underHold a.s), ?_⟩
  rw [areaConsequence]
  dsimp only
  rw [records]
  exact reckonHolds_unset (m := id) (a := a) ha fun b hb => hb

/-- What follows for the inputs leaves the records and what is asked so far. -/
theorem inputConsequence_records (old : LineTables) (a : Act) :
    (inputConsequence old a).s.inc.records = a.s.inc.records
      ∧ ∃ l, (inputConsequence old a).requests = a.requests ++ l := by
  have all (l : List Incident) (b : Act) :
      (l.foldl (fun a r => a.ask (.gone r.cls r.object)) b).s = b.s
        ∧ ∃ m, (l.foldl (fun a r => a.ask (.gone r.cls r.object)) b).requests = b.requests ++ m := by
    induction l generalizing b with
    | nil => exact ⟨rfl, [], (List.append_nil _).symm⟩
    | cons r l ih =>
      obtain ⟨s, m, hm⟩ := ih (b.ask (.gone r.cls r.object))
      refine ⟨s, .gone r.cls r.object :: m, hm.trans ?_⟩
      rw [Act.ask_requests, List.append_assoc]
      rfl
  obtain ⟨s, m, hm⟩ := all _ _
  exact ⟨congrArg (·.inc.records) s, m, hm⟩

/-- The state before a group, and the tables after it, that make a crowd of two thousand. -/
structure CrowdedGroup (b : SubId) (w : Wait) (set : Nat) (g : List HeldEdit) (s : State) : Prop where
  unset : s.lck.lock = .unset
  equipment : ∀ i r, s.inc.records.get i = some r → ∃ x, r.object = .equipment x
  noWait : findKey s .powerWait (.train set) = none
  supply : supplyChanged s.tst.line (s.tst.writeGroup g).line = true
  depart : ∀ p, departChanged s.tst.line (s.tst.writeGroup g).line p = false
  alive : sectionRequests { s with tst := s.tst.writeGroup g } = []
  crowd : Crowd (1000 + 1000) b w set
    { Act.start s with s.tst := s.tst.writeGroup g, s.psv := derived { s with tst := s.tst.writeGroup g } }

theorem supplyConsequence_changed {a : Act} {old : LineTables} (hs : supplyChanged old a.s.tst.line = true)
    (hd : ∀ p, departChanged old a.s.tst.line p = false) (hr : sectionRequests a.s = []) :
    supplyConsequence old a = drain (replaceAndGrant [] { a with s.psv := derived a.s }) := by
  rw [supplyConsequence]
  dsimp only
  rw [if_pos hs, funext hd, resectionWaits_same, deriveSupply_eq, pictureTold, hr]
  rfl

/-- Two thousand requests take all the work of both drains: what the inputs ask stands behind them. -/
theorem drained_records {a b : Act} {set : Nat} (h : Asked (List.replicate (1000 + 1000) (waitOver set)) a b)
    (hn : a.requests = []) (hk : findKey a.s .powerWait (.train set) = none) (old : LineTables) :
    (drain (inputConsequence old (drain b))).s.inc.records = a.s.inc.records := by
  have asked : b.requests = List.replicate 1000 (waitOver set) ++ List.replicate 1000 (waitOver set) := by
    rw [h.requests, hn, List.nil_append, List.replicate_add]
  rw [drain_waitOver ((h.findKey _ _).trans hk) asked]
  obtain ⟨records, l, more⟩ :=
    inputConsequence_records old { b with requests := List.replicate 1000 (waitOver set) }
  have key : findKey (inputConsequence old { b with requests := List.replicate 1000 (waitOver set) }).s .powerWait
      (.train set) = none := by
    rw [findKey, records]
    exact (h.findKey _ _).trans hk
  rw [drain_waitOver key more]
  exact records.trans h.records

theorem CrowdedGroup.records {b : SubId} {w : Wait} {set : Nat} {g : List HeldEdit} {s : State}
    (h : CrowdedGroup b w set g s) : (applyGroup g (Act.start s)).s.inc.records = s.inc.records := by
  obtain ⟨u, areas⟩ := areaConsequence_equipment (a := { Act.start s with s.tst := s.tst.writeGroup g }) s.tst.line
    h.unset h.equipment
  have written := supplyConsequence_changed
    (a := { Act.start s with s.tst := s.tst.writeGroup g, s.inc.underHold := u }) h.supply h.depart h.alive
  have crowd : Crowd (1000 + 1000) b w set { Act.start s with
      s.tst := s.tst.writeGroup g, s.inc.underHold := u, s.psv := derived { s with tst := s.tst.writeGroup g } } :=
    ⟨h.crowd.train, h.crowd.uncovered, h.crowd.source, h.crowd.free, h.crowd.list, h.crowd.others, h.crowd.dead⟩
  have drained := drained_records crowd.replaceAndGrant rfl h.noWait s.tst.line
  have group : applyGroup g (Act.start s) = drain (inputConsequence s.tst.line (drain (replaceAndGrant [] { Act.start s with
      s.tst := s.tst.writeGroup g, s.inc.underHold := u, s.psv := derived { s with tst := s.tst.writeGroup g } }))) := by
    unfold applyGroup
    exact congrArg (fun a => drain (inputConsequence s.tst.line a)) ((congrArg _ areas).trans written)
  rw [group]
  exact drained

/-! ## A state and a group with such a crowd -/

/-- The place at which train record 0 stands two thousand times. -/
def crowdedWait : Wait := { train := 0, target := 0, point := 0, sec := 0 }

/-- An incident of the equipment of station 0, its cause PRESENT. -/
def crowdedIncident : Incident :=
  { number := 1, cls := .equipmentInput, object := .equipment 0, areas := 0
    effects := { suspend := false, hold := false, announce := false }, mandatory := false, template := none
    state := .raised, cause := .present, level := 0, countdown := none, recurrences := 0, recurred := false
    opened := none, ackTag := none, retention := none }

/-- Section 0 fed by substation 0, which has three thousand slots, and one input of station 0. -/
def crowdedLine : LineTables :=
  { LineTables.standard with
    secs := LineTables.standard.secs.set 0
      { used := true, area := 0, subA := 0, feederA := 0, subB := none, feederB := 0 }
    subs := LineTables.standard.subs.set 0
      { used := true, unit := 0, cap := 3000, l1 := 50, l2 := 50, telemetry := 0, window := 0 }
    inputMap := LineTables.standard.inputMap.set 0
      (some { equipment := 0, input := 0, inputClass := 0, object := .equipment, area := 0 }) }

/-- The part after reset with these tables, the incident, and train set 1 two thousand times in the list of substation 0. -/
def crowded : State :=
  { State.reset with
    tst := { Tst.start with lineState := .valid, line := crowdedLine }
    rrg := { Rrg.start with trains := Rrg.start.trains.set 0 (some (newTrain 1)) }
    psv := { Psv.start with
      subs := Psv.start.subs.set 0 { Supply.start with
        state := .online, feeders := Table.fill 8 .closed, waits := List.replicate (1000 + 1000) crowdedWait } }
    inc := { Inc.start with records := Inc.start.records.set 0 (some crowdedIncident), nextNumber := 2 } }

/-- The group: the sensitivity of input class 0, which has the incident's class, and the L1 of substation 0. -/
def crowdedEdits : List HeldEdit :=
  [{ table := .input, index := 0, field := 0, value := 0, slot := none },
    { table := .sub, index := 0, field := 2, value := 60, slot := none }]

theorem crowded_record {i : IncId} {r : Incident} (h : crowded.inc.records.get i = some r) :
    i = 0 ∧ r = crowdedIncident := by
  rw [show crowded.inc.records = (Table.fill 32 none).set 0 (some crowdedIncident) from rfl, Table.get_set] at h
  split at h
  · next e => exact ⟨e.symm, (Option.some.inj h).symm⟩
  · rw [Table.get_fill] at h
    cases h

/-- One record, number 1, with number 2 next. -/
theorem crowded_incLaw : IncLaw crowded.inc where
  numbers i j r q hr hq _ := (crowded_record hr).1.trans (crowded_record hq).1.symm
  keys i j r q hr hq _ _ := (crowded_record hr).1.trans (crowded_record hq).1.symm
  own i r n hr hc _ := by
    rw [(crowded_record hr).2] at hc
    cases hc
  numberRange i r hr := by
    rw [(crowded_record hr).2]
    decide
  next := ⟨by decide, by decide, fun i r hr => by
    rw [(crowded_record hr).2]
    decide⟩
  resolvedOnce := List.nodup_nil
  resolved i := by
    refine ⟨fun h => absurd h List.not_mem_nil, fun ⟨r, hr, hs⟩ => ?_⟩
    rw [(crowded_record hr).2] at hs
    cases hs
  retention i r hr h := by
    rw [(crowded_record hr).2] at h
    cases h
  level i r hr := by
    rw [(crowded_record hr).2]
    decide
  refused := by decide

theorem derived_waits (s : State) (b : SubId) : ((derived s).subs.get b).waits = (s.psv.subs.get b).waits := by
  simp [derived]

theorem crowded_others {b : SubId} (h : 0 ≠ b) : (crowded.psv.subs.get b).waits = [] := by
  rw [show crowded.psv.subs = (Table.fill 8 Supply.start).set 0 _ from rfl, Table.get_set, if_neg h, Table.get_fill]
  rfl

theorem crowdedGroup : CrowdedGroup 0 crowdedWait 1 crowdedEdits crowded where
  unset := rfl
  equipment i r hr := ⟨0, by rw [(crowded_record hr).2]; rfl⟩
  noWait := by decide
  supply := by decide
  depart := by decide
  alive := by decide
  crowd :=
    { train := ⟨newTrain 1, rfl, rfl⟩
      uncovered := by decide
      source := by decide
      free := by decide
      list := derived_waits { crowded with tst := crowded.tst.writeGroup crowdedEdits } 0
      others := fun c hc =>
        (derived_waits { crowded with tst := crowded.tst.writeGroup crowdedEdits } c).trans (crowded_others hc)
      dead := rfl }

/-- Refutes O48: the statement asks no law of the slot pools, and in the state `crowded`, in which a train stands two thousand
times in one waiting list, the cause of the incident whose input class the group changes stays PRESENT. -/
theorem not_writtenGroupsAreWhole : ¬ Obligations.WrittenGroupsAreWhole := by
  rintro ⟨-, -, applied, -⟩
  obtain ⟨written, entries, -⟩ := applied crowded crowdedEdits
  obtain ⟨-, -, gone⟩ := entries 0 _ rfl
  have changed : crowded.tst.line.inputs.get 0
      ≠ (applyGroup crowdedEdits (Act.start crowded)).s.tst.line.inputs.get 0 := by
    rw [written]
    decide
  refine (gone changed crowded_incLaw).1 ⟨0, crowdedIncident, ?_, rfl, rfl, IncState.noConfusion, rfl⟩
  rw [crowdedGroup.records]
  rfl

end Sys2Proof.Machine
end

