-- ==== Sys2Proof/Proofs/TrainTable.lean ====
section
/-! PROOFS. The law of the train table as a law of single records and of pairs of them, with a floor for the silence countdown: a
boundary lowers every countdown, and lets it stand at 0 until the RRG takes its records. What the law reads of the table, and
how each kind of write keeps it. -/

namespace Sys2Proof.Machine

/-! ## The law of one record and of the table -/

/-- What the law asks of one record, with a floor for its silence countdown. -/
structure Train.Fits (lo : Nat) (t : Train) : Prop where
  set : 1 ≤ t.set ∧ t.set ≤ 999
  run : ∀ n, t.run = some n → n ≠ 0
  dev : -32767 ≤ t.dev ∧ t.dev ≤ 32767
  silence : lo ≤ t.silence ∧ t.silence ≤ 480

/-- The law of the train table with a floor for the silence countdowns. -/
structure RosterLaw (lo : Nat) (r : Rrg) : Prop where
  sets : ∀ i j t u, r.trains.get i = some t → r.trains.get j = some u → t.set = u.set → i = j
  runs : ∀ i j t u n, r.trains.get i = some t → r.trains.get j = some u → t.run = some n → u.run = some n → i = j
  fits : ∀ i t, r.trains.get i = some t → t.Fits lo
  counts : r.refused ≤ 65535 ∧ r.unplanned ≤ 65535 ∧ r.holdOff ≤ 60

theorem rosterLaw_one_iff {r : Rrg} : RosterLaw 1 r ↔ RrgLaw r := by
  constructor
  · intro h
    exact { sets := h.sets, runs := h.runs, counts := h.counts
            setRange := fun i t ht => (h.fits i t ht).set
            runRange := fun i t n ht => (h.fits i t ht).run n
            devRange := fun i t ht => (h.fits i t ht).dev
            silence := fun i t ht => (h.fits i t ht).silence }
  · intro h
    exact { sets := h.sets, runs := h.runs, counts := h.counts
            fits := fun i t ht =>
              ⟨h.setRange i t ht, fun n => h.runRange i t n ht, h.devRange i t ht, h.silence i t ht⟩ }

/-- A record that stands for the same train set and is bound to no run but the one before. -/
def Train.Follows (t u : Train) : Prop := u.set = t.set ∧ ∀ n, u.run = some n → t.run = some n

theorem Train.Follows.of_eq {t u : Train} (hs : u.set = t.set) (hr : u.run = t.run) : t.Follows u :=
  ⟨hs, fun _ h => hr ▸ h⟩

theorem Train.Follows.refl (t : Train) : t.Follows t := .of_eq rfl rfl

/-- The record of a matched train keeps its set and its run, and its deviation saturates. -/
theorem Train.matched_roll (t : Train) (m : Option (Nat × Run × List Leg)) (time : Option Nat) :
    (t.matched m time).set = t.set ∧ (t.matched m time).run = t.run ∧ (t.matched m time).silence = t.silence
      ∧ ((t.matched m time).dev = t.dev ∨ ∃ d, (t.matched m time).dev = saturateDev d) := by
  cases m with
  | none => exact ⟨rfl, rfl, rfl, .inl rfl⟩
  | some m =>
    cases time with
    | none => exact ⟨rfl, rfl, rfl, .inl rfl⟩
    | some now => exact ⟨rfl, rfl, rfl, .inr ⟨_, rfl⟩⟩

theorem saturateDev_range (d : Int) : -32767 ≤ saturateDev d ∧ saturateDev d ≤ 32767 :=
  ⟨le_max_left _ _, max_le (by decide) (min_le_left _ _)⟩

section
variable {lo : Nat} {t : Train}

theorem Train.Fits.matched (h : t.Fits lo) (m : Option (Nat × Run × List Leg)) (time : Option Nat) :
    (t.matched m time).Fits lo := by
  obtain ⟨set, run, silence, dev⟩ := t.matched_roll m time
  refine ⟨set ▸ h.set, fun n hn => h.run n (run ▸ hn), ?_, silence ▸ h.silence⟩
  rcases dev with e | ⟨d, e⟩
  · exact e ▸ h.dev
  · exact e ▸ saturateDev_range d

theorem Train.follows_matched (t : Train) (m : Option (Nat × Run × List Leg)) (time : Option Nat) :
    t.Follows (t.matched m time) := .of_eq (t.matched_roll m time).1 (t.matched_roll m time).2.1

theorem Train.Fits.of_core {u : Train} (h : t.Fits lo) (e : u.core = t.core) : u.Fits lo := by
  have f {γ : Type} (g : Train → γ) : g u.core = g t.core := congrArg g e
  have set : u.set = t.set := f (·.set)
  have run : u.run = t.run := f (·.run)
  have dev : u.dev = t.dev := f (·.dev)
  have silence : u.silence = t.silence := f (·.silence)
  exact ⟨set ▸ h.set, fun n hn => h.run n (run ▸ hn), dev ▸ h.dev, silence ▸ h.silence⟩

end

theorem newTrain_fits {n : Nat} (h : 1 ≤ n ∧ n ≤ 999) : (newTrain n).Fits 1 :=
  ⟨h, (fun _ e => nomatch e), ⟨(by decide : (-32767 : Int) ≤ 0), (by decide : (0 : Int) ≤ 32767)⟩,
    (by decide : 1 ≤ 480), le_refl 480⟩

/-! ## Tables that hold no more than before -/

section
variable {lo : Nat} {r v : Rrg}

/-- A table each of whose records follows the one that stood in its place keeps the law, with the floor its records keep. -/
theorem RosterLaw.narrowed {hi : Nat} (h : RosterLaw lo r)
    (hv : ∀ i u, v.trains.get i = some u → u.Fits hi ∧ ∃ t, r.trains.get i = some t ∧ t.Follows u)
    (hc : v.refused ≤ 65535 ∧ v.unplanned ≤ 65535 ∧ v.holdOff ≤ 60) : RosterLaw hi v where
  sets i j t u ht hu e := by
    obtain ⟨-, t', ht', set, -⟩ := hv i t ht
    obtain ⟨-, u', hu', set', -⟩ := hv j u hu
    exact h.sets i j t' u' ht' hu' (set ▸ set' ▸ e)
  runs i j t u n ht hu e e' := by
    obtain ⟨-, t', ht', -, run⟩ := hv i t ht
    obtain ⟨-, u', hu', -, run'⟩ := hv j u hu
    exact h.runs i j t' u' n ht' hu' (run n e) (run' n e')
  fits i t ht := (hv i t ht).1
  counts := hc

/-- What the law reads of a train table. -/
def Rrg.roster (r : Rrg) : Table (Option Train) 48 × Nat × Nat × Nat :=
  (r.trains.map (Option.map Train.core), r.holdOff, r.refused, r.unplanned)

theorem RosterLaw.of_roster (h : RosterLaw lo r) (e : v.roster = r.roster) : RosterLaw lo v := by
  simp only [Rrg.roster, Prod.mk.injEq] at e
  obtain ⟨trains, holdOff, refused, unplanned⟩ := e
  refine h.narrowed (fun i u hu => ?_) (by rw [holdOff, refused, unplanned]; exact h.counts)
  have core := congrArg (fun t : Table (Option Train) 48 => t.get i) trains
  simp only [Table.get_map, hu, Option.map_some] at core
  obtain ⟨t, ht, same⟩ := Option.map_eq_some_iff.mp core.symm
  have f {γ : Type} (g : Train → γ) : g u.core = g t.core := congrArg g same.symm
  exact ⟨(h.fits i t ht).of_core same.symm, t, ht,
    .of_eq (f (·.set)) (f (·.run))⟩

end

/-! ## What leaves the roster alone -/

/-- The roster of an action's state. -/
def Act.roster (a : Act) : Table (Option Train) 48 × Nat × Nat × Nat := a.s.rrg.roster

theorem roster_of_residue {a b : Act} (h : a.residue = b.residue) : a.roster = b.roster :=
  congrArg (fun s : State => (s.rrg.trains, s.rrg.holdOff, s.rrg.refused, s.rrg.unplanned)) h

theorem roster_of_offAsc {a b : Act} (h : a.offAsc = b.offAsc) : a.roster = b.roster := roster_of_residue (residue_of_offAsc h)

/-- The law of the train table in an action. -/
def Act.Rolls (lo : Nat) (a : Act) : Prop := RosterLaw lo a.s.rrg

section
variable {lo : Nat} {a b : Act}

theorem Act.Rolls.of_roster (h : a.Rolls lo) (e : b.roster = a.roster) : b.Rolls lo := RosterLaw.of_roster h e

theorem Act.Rolls.of_residue (h : a.Rolls lo) (e : b.residue = a.residue) : b.Rolls lo := h.of_roster (roster_of_residue e)

theorem Act.Rolls.drain (h : a.Rolls lo) : (drain a).Rolls lo := h.of_residue (residue_drain a)

theorem Act.Rolls.request (h : a.Rolls lo) (r : Request) : (a.request r).Rolls lo := h.of_residue (residue_request r a)

theorem Act.Rolls.releaseSlot (h : a.Rolls lo) (i : TrainId) : (releaseSlot i a).Rolls lo :=
  h.of_residue (residue_releaseSlot i a)

theorem Act.Rolls.withdraw (h : a.Rolls lo) (i : TrainId) : (withdraw i a).Rolls lo := h.of_residue (residue_withdraw i a)

theorem Act.Rolls.forAll {n : Nat} {f : Fin n → Act → Act} (hf : ∀ i a, a.Rolls lo → (f i a).Rolls lo) (h : a.Rolls lo) :
    (forAll n f a).Rolls lo := by
  have all (l : List (Fin n)) (b : Act) (hb : b.Rolls lo) : (l.foldl (fun a i => f i a) b).Rolls lo := by
    induction l generalizing b with
    | nil => exact hb
    | cons i l ih => exact ih _ (hf i b hb)
  exact all _ a h

/-! ## Writes of a record -/

/-- A record that follows the one in its place is written. -/
theorem Act.Rolls.putTrain (h : a.Rolls lo) {i : TrainId} {t u : Train} (ht : a.train i = some t) (hf : t.Follows u)
    (hu : u.Fits lo) : (a.putTrain i (some u)).Rolls lo := by
  refine RosterLaw.narrowed h (fun j v hv => ?_) h.counts
  replace hv : (a.putTrain i (some u)).train j = some v := hv
  rw [Act.putTrain_train] at hv
  split at hv
  · next e =>
    subst e
    cases hv
    exact ⟨hu, t, ht, hf⟩
  · exact ⟨h.fits j v hv, v, hv, .refl v⟩

theorem Act.Rolls.onTrain (h : a.Rolls lo) (i : TrainId) {f : Train → Train} (hf : ∀ t : Train, t.Follows (f t))
    (hu : ∀ t : Train, t.Fits lo → (f t).Fits lo) : (a.onTrain i f).Rolls lo := by
  refine RosterLaw.narrowed h (fun j v hv => ?_) h.counts
  replace hv : (a.onTrain i f).train j = some v := hv
  rw [Act.onTrain_train] at hv
  split at hv
  · obtain ⟨t, ht, rfl⟩ := Option.map_eq_some_iff.mp hv
    exact ⟨hu t (h.fits j t ht), t, ht, hf t⟩
  · exact ⟨h.fits j v hv, v, hv, .refl v⟩

/-- A write that keeps set, run, deviation and silence. -/
theorem Act.Rolls.onTrain_apart (h : a.Rolls lo) (i : TrainId) {f : Train → Train}
    (hf : ∀ t, (f t).set = t.set ∧ (f t).run = t.run ∧ (f t).dev = t.dev ∧ (f t).silence = t.silence) :
    (a.onTrain i f).Rolls lo :=
  h.onTrain i (fun t => .of_eq (hf t).1 (hf t).2.1) fun t ht => by
    obtain ⟨set, run, dev, silence⟩ := hf t
    exact ⟨set ▸ ht.set, fun n hn => ht.run n (run ▸ hn), dev ▸ ht.dev, silence ▸ ht.silence⟩

theorem Act.Rolls.freed (h : a.Rolls lo) (i : TrainId) : (a.putTrain i none).Rolls lo := by
  refine RosterLaw.narrowed h (fun j v hv => ?_) h.counts
  replace hv : (a.putTrain i none).train j = some v := hv
  rw [Act.putTrain_train] at hv
  split at hv
  · cases hv
  · exact ⟨h.fits j v hv, v, hv, .refl v⟩

theorem findTrain_none {s : State} {n : Nat} (h : findTrain s n = none) {i : TrainId} {t : Train}
    (ht : s.rrg.trains.get i = some t) : t.set ≠ n := by
  have := List.find?_eq_none.mp h i (mem_indices i)
  simpa [ht] using this

/-- A record is created for a train set that none holds. -/
theorem Act.Rolls.created (h : a.Rolls 1) {n : Nat} (hn : 1 ≤ n ∧ n ≤ 999) (hf : findTrain a.s n = none) (i : TrainId) :
    (a.putTrain i (some (newTrain n))).Rolls 1 := by
  have get {j : TrainId} {t : Train} (ht : (a.putTrain i (some (newTrain n))).train j = some t) :
      (i = j ∧ t = newTrain n) ∨ (a.train j = some t ∧ t.set ≠ n) := by
    rw [Act.putTrain_train] at ht
    split at ht
    · next e => exact .inl ⟨e, (Option.some.inj ht).symm⟩
    · exact .inr ⟨ht, findTrain_none hf ht⟩
  refine { sets := fun j k t u ht hu e => ?_, runs := fun j k t u m ht hu e e' => ?_, fits := fun j t ht => ?_
           counts := h.counts }
  · rcases get ht with ⟨rfl, rfl⟩ | ⟨ht, apart⟩ <;> rcases get hu with ⟨rfl, rfl⟩ | ⟨hu, apart'⟩
    · rfl
    · exact absurd e.symm apart'
    · exact absurd e apart
    · exact h.sets j k t u ht hu e
  · rcases get ht with ⟨-, rfl⟩ | ⟨ht, -⟩
    · cases e
    · rcases get hu with ⟨-, rfl⟩ | ⟨hu, -⟩
      · cases e'
      · exact h.runs j k t u m ht hu e e'
  · rcases get ht with ⟨-, rfl⟩ | ⟨ht, -⟩
    · exact newTrain_fits hn
    · exact h.fits j t ht

/-! ## Binding (R62, R71, R72) -/

theorem Act.Rolls.unbind (h : a.Rolls lo) (i : TrainId) : (unbind i a).Rolls lo := by
  unfold Machine.unbind
  split
  · exact h
  · next t ht =>
    have fits := h.fits i t ht
    have unbound : (a.putTrain i (some { t with run := none, step := none, late := false })).Rolls lo :=
      h.putTrain ht ⟨rfl, fun _ e => nomatch e⟩ ⟨fits.set, (fun _ e => nomatch e), fits.dev, fits.silence⟩
    dsimp only
    split
    · exact unbound
    · exact unbound

theorem Act.Rolls.unschedule (h : a.Rolls lo) (i : TrainId) : (unschedule i a).Rolls lo := (h.unbind i).drain

theorem boundElsewhere_none {s : State} {i j : TrainId} {n : Nat} (h : boundElsewhere s i n = none) (hj : j ≠ i) :
    (s.rrg.trains.get j).bind (·.run) ≠ some n := by
  have := List.find?_eq_none.mp h j (mem_indices j)
  simpa [hj] using this

theorem boundElsewhere_some {s : State} {i j : TrainId} {n : Nat} (h : boundElsewhere s i n = some j) :
    j ≠ i ∧ (s.rrg.trains.get j).bind (·.run) = some n := by
  have := List.find?_some h
  simpa using this

/-- A record takes a run that no other holds any more; the other records follow those that stood in their places. -/
theorem RosterLaw.taken {r v : Rrg} (h : RosterLaw lo r) {i : TrainId} {n : Nat} (hn : n ≠ 0)
    (hi : ∀ u, v.trains.get i = some u → ∃ t, r.trains.get i = some t ∧ u = { t with run := some n, step := none })
    (hv : ∀ j u, j ≠ i → v.trains.get j = some u →
      u.Fits lo ∧ u.run ≠ some n ∧ ∃ t, r.trains.get j = some t ∧ t.Follows u)
    (hc : v.refused ≤ 65535 ∧ v.unplanned ≤ 65535 ∧ v.holdOff ≤ 60) : RosterLaw lo v where
  sets j k t u ht hu e := by
    have before {j : TrainId} {t : Train} (ht : v.trains.get j = some t) :
        ∃ w, r.trains.get j = some w ∧ w.set = t.set := by
      by_cases hj : j = i
      · subst hj
        obtain ⟨w, hw, rfl⟩ := hi t ht
        exact ⟨w, hw, rfl⟩
      · obtain ⟨-, -, w, hw, set, -⟩ := hv j t hj ht
        exact ⟨w, hw, set.symm⟩
    obtain ⟨t', ht', set⟩ := before ht
    obtain ⟨u', hu', set'⟩ := before hu
    exact h.sets j k t' u' ht' hu' (set.trans (e.trans set'.symm))
  runs j k t u m ht hu e e' := by
    have run {t : Train} (ht : v.trains.get i = some t) : t.run = some n := by
      obtain ⟨w, -, rfl⟩ := hi t ht
      rfl
    by_cases hj : j = i <;> by_cases hk : k = i
    · exact hj.trans hk.symm
    · subst hj
      exact absurd (e'.trans (e.symm.trans (run ht))) (hv k u hk hu).2.1
    · subst hk
      exact absurd (e.trans (e'.symm.trans (run hu))) (hv j t hj ht).2.1
    · obtain ⟨-, -, t', ht', -, run⟩ := hv j t hj ht
      obtain ⟨-, -, u', hu', -, run'⟩ := hv k u hk hu
      exact h.runs j k t' u' m ht' hu' (run m e) (run' m e')
  fits j t ht := by
    by_cases hj : j = i
    · subst hj
      obtain ⟨w, hw, rfl⟩ := hi t ht
      have fits := h.fits _ w hw
      exact ⟨fits.set, fun m e => Option.some.inj e ▸ hn, fits.dev, fits.silence⟩
    · exact (hv j t hj ht).1
  counts := hc

theorem Act.Rolls.bindRun (h : a.Rolls lo) (i : TrainId) {n : Nat} (hn : n ≠ 0) : (bindRun i n a).Rolls lo := by
  have self {b : Act} (same : b.train i = (a.train i).map fun t => { t with run := some n, step := none }) (u : Train)
      (hu : b.train i = some u) : ∃ t, a.train i = some t ∧ u = { t with run := some n, step := none } := by
    obtain ⟨t, ht, e⟩ := Option.map_eq_some_iff.mp (same.symm.trans hu)
    exact ⟨t, ht, e.symm⟩
  have written (j : TrainId) : (a.onTrain i fun t => { t with run := some n, step := none }).train j
      = if i = j then (a.train j).map fun t => { t with run := some n, step := none } else a.train j := Act.onTrain_train _ _ _ _
  unfold Machine.bindRun
  dsimp only
  split
  · next k hk =>
    obtain ⟨ne, bound⟩ := boundElsewhere_some hk
    obtain ⟨w, hw, run⟩ := Option.bind_eq_some_iff.mp bound
    refine Act.Rolls.drain (RosterLaw.taken (i := i) h hn (self ?_) (fun j u hj hu => ?_) ?_)
    · rw [unbind_train_other ne, written, if_pos rfl]
    · replace hu : (Machine.unbind k (a.onTrain i fun t => { t with run := some n, step := none })).train j = some u := hu
      by_cases e : j = k
      · subst e
        have there : (a.onTrain i fun t => { t with run := some n, step := none }).train j = some w := by
          rw [written, if_neg (Ne.symm hj)]
          exact hw
        cases (unbind_train_self there).symm.trans hu
        have fits := h.fits j w hw
        exact ⟨⟨fits.set, (fun _ e => nomatch e), fits.dev, fits.silence⟩, (nomatch ·), w, hw, rfl, fun _ e => nomatch e⟩
      · rw [unbind_train_other (Ne.symm e), written, if_neg (Ne.symm hj)] at hu
        exact ⟨h.fits j u hu, fun hn' => e (h.runs j k u w n hu hw hn' run), u, hu, .refl u⟩
    · unfold Machine.unbind
      split
      · exact h.counts
      · dsimp only
        split <;> exact h.counts
  · next hk =>
    refine RosterLaw.taken (i := i) h hn (self (by rw [written, if_pos rfl])) (fun j u hj hu => ?_) h.counts
    replace hu : (a.onTrain i fun t => { t with run := some n, step := none }).train j = some u := hu
    rw [written, if_neg (Ne.symm hj)] at hu
    refine ⟨h.fits j u hu, fun e => boundElsewhere_none hk hj ?_, u, hu, .refl u⟩
    rw [show a.s.rrg.trains.get j = some u from hu]
    exact e

theorem Act.Rolls.applyRun (h : a.Rolls lo) (i : TrainId) (n : Nat) : (applyRun i n a).Rolls lo := by
  unfold Machine.applyRun
  split
  · exact h
  · next hn =>
    split
    · exact h.bindRun i fun e => hn (.inl e)
    · split
      · exact h.unschedule i
      · exact h

theorem Act.Rolls.rebindOne (h : a.Rolls lo) (i : TrainId) : (rebindOne i a).Rolls lo := by
  unfold Machine.rebindOne
  split
  · exact h
  · split
    · exact h.onTrain_apart i fun _ => ⟨rfl, rfl, rfl, rfl⟩
    · exact h.unbind i

theorem Act.Rolls.rebind (h : a.Rolls lo) : (rebind a).Rolls lo :=
  (Act.Rolls.forAll (fun i _ hb => hb.rebindOne i) h).drain

end

end Sys2Proof.Machine
end

