-- ==== Sys2Proof/Proofs/TrainSteps.lean ====
section
/-! PROOFS. Every step keeps the law of the train table: the work of the other blocks leaves the roster alone, the RRG's events
write records that follow those before them, and a boundary removes every record whose silence it has brought to 0. -/

namespace Sys2Proof.Machine

/-! ## Supply and tables leave the roster alone -/

section
variable (a : Act)

theorem roster_deriveSupply (l : List Request) (ts : List SubId) : (deriveSupply l ts a).roster = a.roster :=
  (roster_of_residue (b := { a with s.psv := derived a.s }) (residue_deriveSupply l ts a)).trans rfl

theorem roster_giveCredit (p : TpId) : (giveCredit p a).roster = a.roster := by
  rcases giveCredit_cases p a with e | ⟨b, f, e⟩
  · rw [e]
  · rw [e, roster_deriveSupply]
    rfl

theorem roster_telemetryOut (l : List SubId) : (telemetryOut l a).2.roster = a.roster :=
  foldl_keeps Act.roster (fun a b => a.onSupply b Supply.silent) (fun _ _ => rfl) l a

theorem roster_creditOut (l : List SubId) : (creditOut l a).roster = a.roster :=
  foldl_keeps Act.roster (fun a b => a.onSupply b fun v => { v with credit := none }) (fun _ _ => rfl) l a

theorem roster_statusReport (src : Byte) (closed : Bool) (load : Nat) (feeders : List Bool) :
    (statusReport src closed load feeders a).roster = a.roster := by
  unfold statusReport
  split
  · rfl
  · dsimp only
    rw [roster_deriveSupply, foldl_keeps Act.roster]
    exact fun _ _ => rfl

theorem roster_supplyBoundary : (supplyBoundary a).roster = a.roster := by
  unfold supplyBoundary
  dsimp only
  rw [roster_deriveSupply, foldl_keeps Act.roster _ fun a i => roster_of_residue (residue_dropSlot i a), roster_creditOut,
    roster_telemetryOut]

theorem residue_unwait (w : Wait) : (unwait w a).residue = a.residue := by
  unfold unwait
  dsimp only
  rw [residue_hold]
  exact (residue_onTrain _ _ _ (by intro _; rfl)).trans (residue_withdraw _ _)

theorem roster_resectionWaits (changed : TpId → Bool) : (resectionWaits changed a).roster = a.roster := by
  have leaving (l : List Wait) : (l.foldl (fun a w => unwait w a) a).roster = a.roster :=
    foldl_keeps Act.roster _ (fun a w => roster_of_residue (residue_unwait a w)) l a
  unfold resectionWaits
  exact leaving _

theorem roster_applyGroup (g : List HeldEdit) : (applyGroup g a).roster = a.roster := by
  have inputs (l : LineTables) (b : Act) : (inputConsequence l b).roster = b.roster := by
    unfold inputConsequence
    dsimp only
    rw [foldl_keeps Act.roster]
    · rfl
    · exact fun _ _ => rfl
  have supply (l : LineTables) (b : Act) : (supplyConsequence l b).roster = b.roster := by
    unfold supplyConsequence
    dsimp only
    split
    · rw [roster_deriveSupply, roster_resectionWaits]
    · rfl
  have areas (l : LineTables) (b : Act) : (areaConsequence l b).roster = b.roster := by
    unfold areaConsequence
    dsimp only
    rw [roster_of_residue (residue_reckonHolds_id _)]
    rfl
  unfold applyGroup
  dsimp only
  rw [roster_of_residue (residue_drain _), inputs, supply, areas]
  rfl

theorem roster_retentionOut (i : IncId) : (retentionOut i a).roster = a.roster := by
  unfold retentionOut
  split
  · split <;> rfl
  · rfl

theorem roster_incBoundary : (incBoundary a).roster = a.roster := by
  have freed : (forAll 32 retentionOut a).roster = a.roster :=
    forAll_keeps Act.roster _ (fun i a => roster_retentionOut a i) a
  unfold incBoundary
  dsimp only
  split
  · exact (roster_of_residue (residue_tick _)).trans freed
  · exact freed

theorem roster_handOverDue : (handOverDue a).roster = a.roster := by
  unfold handOverDue
  split
  · rfl
  · split
    · rfl
    · exact roster_of_residue ((residue_drain _).trans (residue_placeHandOver _ _))

theorem roster_clockRequest (r : Request) : (clockRequest r a).roster = a.roster := by
  unfold clockRequest
  split
  · rfl
  · exact roster_of_residue (residue_request r a)

theorem roster_report (k : Nat) (c : List Byte) : (a.report k c).roster = a.roster := rfl

theorem roster_rollWaits (b : Nat) : (a.rollWaits b).roster = a.roster := rfl

theorem roster_serviceAnnouncement (i : TrainId) (p : TpId) (time : Option Nat) (standing : Bool) :
    (serviceAnnouncement i p time standing a).roster = a.roster := by
  unfold serviceAnnouncement
  dsimp only
  split
  · split
    · split
      · exact roster_of_residue (residue_placeEntry _ _ _)
      · rfl
    · rfl
  · rfl

end

/-! ## Passages -/

section
variable {lo : Nat} {a : Act}

theorem Act.Rolls.endAnyStop (h : a.Rolls lo) (i : TrainId) : (endAnyStop i a).Rolls lo := by
  unfold Machine.endAnyStop
  split
  · unfold endStop
    split
    · exact h
    · have counted : Act.Rolls lo { a with s.rrg.unplanned := bump a.s.rrg.unplanned } :=
        RosterLaw.narrowed h (fun i u hu => ⟨h.fits i u hu, u, hu, .refl u⟩) ⟨h.counts.1, bump_le _, h.counts.2.2⟩
      refine Act.Rolls.request (Act.Rolls.onTrain_apart ?_ i ?_) _
      · exact counted.withdraw i
      · exact fun _ => ⟨rfl, rfl, rfl, rfl⟩
  · exact h

theorem Act.Rolls.stallGone (h : a.Rolls lo) (n : Nat) : (stallGone n a).Rolls lo := h.request _

/-- A record matched to its step, with what else an event writes of it. -/
theorem Act.Rolls.putMatched (h : a.Rolls lo) {i : TrainId} {t u : Train} (ht : a.train i = some t)
    (m : Option (Nat × Run × List Leg)) (time : Option Nat)
    (hu : u.set = t.set ∧ u.run = t.run ∧ u.dev = (t.matched m time).dev ∧ u.silence = t.silence) :
    (a.putTrain i (some u)).Rolls lo := by
  obtain ⟨set, run, dev, silence⟩ := hu
  have fits := h.fits i t ht
  exact h.putTrain ht (.of_eq set run)
    ⟨set ▸ fits.set, fun n hn => fits.run n (run ▸ hn), dev ▸ (fits.matched m time).dev, silence ▸ fits.silence⟩

theorem Act.Rolls.putApart (h : a.Rolls lo) {i : TrainId} {t u : Train} (ht : a.train i = some t)
    (hu : u.set = t.set ∧ u.run = t.run ∧ u.dev = t.dev ∧ u.silence = t.silence) : (a.putTrain i (some u)).Rolls lo :=
  h.putMatched ht none none hu

theorem Act.Rolls.regulate (h : a.Rolls lo) (i : TrainId) (p : TpId) (now : Nat) : (regulate i p now a).1.Rolls lo := by
  unfold Machine.regulate
  split
  · exact h
  · next t ht =>
    obtain ⟨set, run, silence, -⟩ := t.matched_roll (matchStep a.s t p) (some now)
    dsimp only
    split
    · exact h.putMatched ht (matchStep a.s t p) (some now) ⟨set, run, rfl, silence⟩
    · exact h.putMatched ht (matchStep a.s t p) (some now) ⟨set, run, rfl, silence⟩

theorem Act.Rolls.arrive (h : a.Rolls lo) (i : TrainId) (p : TpId) (time : Option Nat) : (arrive i p time a).1.Rolls lo := by
  unfold Machine.arrive
  split
  · exact h
  · next t _ =>
    dsimp only
    split
    · exact h
    · have ended := ((h.endAnyStop i).releaseSlot i).drain
      have here := (ended.onTrain_apart i (f := fun t => { t with overdue := none, point := some p, time := time })
        fun _ => ⟨rfl, rfl, rfl, rfl⟩).stallGone t.set
      split
      · exact here.regulate i p _
      · exact here.onTrain_apart i (f := fun t => { t with state := .dwelling, target := none })
          fun _ => ⟨rfl, rfl, rfl, rfl⟩

/-- The record a PASS or a DEPART writes: the train has left `p`, matched with a time or without (R65, R66, R69). -/
def Train.sentOff (s : State) (p : TpId) (time measured : Option Nat) (t : Train) : Train :=
  let t := { t with point := some p, time := time, target := none, state := .running }
  let t := if time.isSome then t.matched (matchStep s t p) measured else t
  if time.isSome then { t with overdue := some (overdueCount s t) } else t

theorem Train.sentOff_roll (s : State) (p : TpId) (time measured : Option Nat) (t : Train) :
    ∃ m k, (t.sentOff s p time measured).set = t.set ∧ (t.sentOff s p time measured).run = t.run
      ∧ (t.sentOff s p time measured).dev = (t.matched m k).dev ∧ (t.sentOff s p time measured).silence = t.silence := by
  let v : Train := { t with point := some p, time := time, target := none, state := .running }
  cases time with
  | none => exact ⟨none, none, rfl, rfl, rfl, rfl⟩
  | some now =>
    obtain ⟨set, run, silence, -⟩ := v.matched_roll (matchStep s v p) measured
    refine ⟨matchStep s v p, measured, set, run, ?_, silence⟩
    cases hm : matchStep s v p with
    | none => simp [Train.sentOff, v, hm, Train.matched]
    | some m => cases measured <;> simp [Train.sentOff, v, hm, Train.matched]

theorem Act.Rolls.sentOff (h : a.Rolls lo) {i : TrainId} {t : Train} (ht : a.train i = some t) (s : State) (p : TpId)
    (time measured : Option Nat) : (a.putTrain i (some (t.sentOff s p time measured))).Rolls lo := by
  obtain ⟨m, k, roll⟩ := t.sentOff_roll s p time measured
  exact h.putMatched ht m k roll

theorem Act.Rolls.passThrough (h : a.Rolls lo) (i : TrainId) (p : TpId) (time : Option Nat) :
    (passThrough i p time a).Rolls lo := by
  have ended := ((h.endAnyStop i).releaseSlot i).drain
  unfold Machine.passThrough
  dsimp only
  split
  · exact ended
  · next t ht => exact (ended.sentOff ht _ p time time).stallGone _

theorem Act.Rolls.departTrain (h : a.Rolls lo) (i : TrainId) (p : TpId) (time : Option Nat) :
    (departTrain i p time a).Rolls lo := by
  have ended := h.endAnyStop i
  unfold Machine.departTrain
  dsimp only
  split
  · exact ended
  · next t ht => exact (ended.sentOff ht _ p time none).stallGone _

theorem Act.Rolls.eventWork (h : a.Rolls lo) (i : TrainId) (x : Passage) (time : Option Nat) :
    (eventWork i x time a).1.Rolls lo := by
  unfold Machine.eventWork
  split
  · split
    · exact h.arrive i _ _
    · exact h.passThrough i _ _
  · exact h.passThrough i _ _
  · exact h.departTrain i _ _
  · exact h.of_roster (roster_giveCredit a _)

theorem Act.Rolls.lateTest (h : a.Rolls lo) (i : TrainId) : (lateTest i a).Rolls lo := by
  unfold Machine.lateTest
  split
  · exact h
  · next t ht =>
    have flagged (b : Bool) : (a.putTrain i (some { t with late := b })).Rolls lo :=
      h.putApart ht ⟨rfl, rfl, rfl, rfl⟩
    dsimp only
    split
    · exact (flagged true).request _
    · split
      · exact (flagged false).request _
      · exact h

theorem Act.Rolls.removeTrain (h : a.Rolls lo) (i : TrainId) : (removeTrain i a).Rolls lo := by
  unfold Machine.removeTrain
  split
  · exact h
  · exact ((((((h.releaseSlot i).drain).withdraw i).freed i).request _).request _).request _

theorem Act.Rolls.passageFor (h : a.Rolls 1) (i : TrainId) (x : Passage) : (passageFor i x a).1.Rolls 1 := by
  have bound := h.applyRun i x.run
  have heard : ((Machine.applyRun i x.run a).onTrain i fun t => { t with silence := 480 }).Rolls 1 :=
    bound.onTrain i (fun t => .of_eq rfl rfl) fun t ht => ⟨ht.set, ht.run, ht.dev, (by decide : 1 ≤ 480), le_refl 480⟩
  unfold Machine.passageFor
  dsimp only
  split
  · exact bound.removeTrain i
  · refine Act.Rolls.of_roster ?_ (roster_serviceAnnouncement _ _ _ _ _)
    split
    · exact heard.eventWork i x _
    · exact (heard.eventWork i x _).lateTest i

theorem Act.Rolls.refuseCreation (h : a.Rolls lo) (n : Nat) (p : TpId) : (refuseCreation n p a).Rolls lo := by
  have counted (k : Nat) (hk : k ≤ 60) : Act.Rolls lo { a with s.rrg.refused := bump a.s.rrg.refused, s.rrg.holdOff := k } :=
    RosterLaw.narrowed h (fun i u hu => ⟨h.fits i u hu, u, hu, .refl u⟩) ⟨bump_le _, h.counts.2.1, hk⟩
  unfold Machine.refuseCreation
  dsimp only
  split
  · exact counted 60 (le_refl _)
  · exact counted a.s.rrg.holdOff h.counts.2.2

theorem Act.Rolls.handlePassage (h : a.Rolls 1) (x : Passage) (hx : 1 ≤ x.set ∧ x.set ≤ 999) :
    (handlePassage x a).1.Rolls 1 := by
  unfold Machine.handlePassage
  split
  · exact h.passageFor _ x
  · next hf =>
    split
    · exact h
    · split
      · exact (h.created hx hf _).passageFor _ x
      · dsimp only
        split
        · exact (h.refuseCreation _ _).of_roster (roster_giveCredit _ _)
        · exact h.refuseCreation _ _

/-! ## Boundaries -/

theorem Act.Rolls.overdueOut (h : a.Rolls lo) (i : TrainId) : (overdueOut i a).Rolls lo := by
  unfold Machine.overdueOut
  split
  · exact h
  · next t ht =>
    refine Act.Rolls.request ?_ _
    exact h.putApart ht ⟨rfl, rfl, rfl, rfl⟩

theorem Act.Rolls.powerWaitOut (h : a.Rolls lo) (i : TrainId) : (powerWaitOut i a).Rolls lo := by
  unfold Machine.powerWaitOut
  split
  · exact h
  · next t ht =>
    refine Act.Rolls.request ?_ _
    exact h.putApart ht ⟨rfl, rfl, rfl, rfl⟩

theorem Act.Rolls.trainBoundary (h : a.Rolls lo) (i : TrainId) : (trainBoundary i a).Rolls lo := by
  unfold Machine.trainBoundary
  split
  · exact h
  · split
    · exact h.removeTrain i
    · dsimp only
      split
      · split
        · exact (h.overdueOut i).powerWaitOut i
        · exact h.overdueOut i
      · split
        · exact h.powerWaitOut i
        · exact h

/-- The record of a train, if it is in use, has not reached the end of its silence. -/
def Act.NotSilent (i : TrainId) (a : Act) : Prop := ∀ t, a.train i = some t → 1 ≤ t.silence

theorem Act.NotSilent.of_told {i : TrainId} {b : Act} (h : a.NotSilent i)
    (e : (b.train i).map Train.told = (a.train i).map Train.told) : b.NotSilent i := by
  intro u hu
  rw [hu] at e
  obtain ⟨t, ht, same⟩ := Option.map_eq_some_iff.mp e.symm
  have silence : t.silence = u.silence := congrArg (fun x => x.2.2.2.2.2.2.2) same
  exact silence ▸ h t ht

theorem Act.NotSilent.of_residue {i : TrainId} {b : Act} (h : a.NotSilent i) (e : b.residue = a.residue) : b.NotSilent i :=
  h.of_told (map_told_of_core (residue_train e i))

theorem removeTrain_residue {i : TrainId} {t : Train} (h : a.train i = some t) :
    (removeTrain i a).residue = ((withdraw i (drain (releaseSlot i a))).putTrain i none).residue := by
  unfold removeTrain
  rw [h]
  exact ((residue_request _ _).trans (residue_request _ _)).trans (residue_request _ _)

/-- What passages write of another record stands through a removal. -/
theorem removeTrain_other {i j : TrainId} (h : j ≠ i) (a : Act) :
    ((removeTrain i a).train j).map Train.told = (a.train j).map Train.told := by
  cases ht : a.train i with
  | none =>
    unfold removeTrain
    rw [ht]
  | some t =>
    refine (map_told_of_core (residue_train (removeTrain_residue ht) j)).trans ?_
    have released : (withdraw i (drain (releaseSlot i a))).residue = a.residue :=
      ((residue_withdraw _ _).trans (residue_drain _)).trans (residue_releaseSlot _ _)
    have written : ((withdraw i (drain (releaseSlot i a))).putTrain i none).train j
        = (withdraw i (drain (releaseSlot i a))).train j := (Act.putTrain_train _ _ _ _).trans (if_neg (Ne.symm h))
    exact (congrArg (Option.map Train.told) written).trans (map_told_of_core (residue_train released j))

/-- An overdue countdown that has run out writes no silence. -/
theorem Act.NotSilent.overdueOut {i j : TrainId} (h : a.NotSilent j) : (overdueOut i a).NotSilent j := by
  unfold Machine.overdueOut
  split
  · exact h
  · next t ht =>
    refine Act.NotSilent.of_residue (fun u hu => ?_) (residue_request _ _)
    rw [Act.putTrain_train] at hu
    split at hu
    · next e =>
      subst e
      cases hu
      exact h t ht
    · exact h u hu

theorem Act.NotSilent.powerWaitOut {i j : TrainId} (h : a.NotSilent j) : (powerWaitOut i a).NotSilent j := by
  unfold Machine.powerWaitOut
  split
  · exact h
  · next t ht =>
    refine Act.NotSilent.of_residue (fun u hu => ?_) (residue_request _ _)
    rw [Act.putTrain_train] at hu
    split at hu
    · next e =>
      subst e
      cases hu
      exact h t ht
    · exact h u hu

theorem trainBoundary_notSilent {i : TrainId} (j : TrainId) (h : i = j ∨ a.NotSilent j) : (trainBoundary i a).NotSilent j := by
  unfold trainBoundary
  split
  · next hn =>
    rcases h with rfl | h
    · exact fun t ht => by rw [hn] at ht; cases ht
    · exact h
  · next t ht =>
    split
    · rcases h with rfl | h
      · intro u hu
        rw [removeTrain_frees] at hu
        cases hu
      · by_cases e : j = i
        · subst e
          intro u hu
          rw [removeTrain_frees] at hu
          cases hu
        · exact h.of_told (removeTrain_other e a)
    · next hs =>
      have here : a.NotSilent j := by
        rcases h with rfl | h
        · intro u hu
          cases ht.symm.trans hu
          exact Nat.pos_of_ne_zero hs
        · exact h
      dsimp only
      split
      · split
        · exact here.overdueOut.powerWaitOut
        · exact here.overdueOut
      · split
        · exact here.powerWaitOut
        · exact here

/-- Once the RRG has taken its expiries no record stays whose silence has run out (R68). -/
theorem Act.Rolls.trainsTaken (h : a.Rolls 0) : (Machine.forAll 48 Machine.trainBoundary a).Rolls 1 := by
  have kept := Act.Rolls.forAll (fun i _ hb => hb.trainBoundary i) h
  have heard (i : TrainId) : (Machine.forAll 48 Machine.trainBoundary a).NotSilent i :=
    foldl_reaches (Q := Act.NotSilent i) (f := fun a j => Machine.trainBoundary j a)
      (fun b => trainBoundary_notSilent i (.inl rfl)) (fun b j _ hb => trainBoundary_notSilent i (.inr hb)) (mem_indices i) a
  exact ⟨kept.sets, kept.runs, fun i t ht =>
    have fits := kept.fits i t ht
    ⟨fits.set, fits.run, fits.dev, heard i t ht, fits.silence.2⟩, kept.counts⟩

theorem Act.Rolls.fallen (h : a.Rolls 1) : Act.Rolls 0 { a with s := fallAll a.s } := by
  refine RosterLaw.narrowed h (fun i u hu => ?_) ⟨h.counts.1, h.counts.2.1, (Nat.sub_le _ _).trans h.counts.2.2⟩
  replace hu : (a.s.rrg.trains.map fun t => t.map Train.fall).get i = some u := hu
  rw [Table.get_map] at hu
  obtain ⟨t, ht, rfl⟩ := Option.map_eq_some_iff.mp hu
  have fits := h.fits i t ht
  exact ⟨⟨fits.set, fits.run, fits.dev, Nat.zero_le _, (Nat.sub_le _ _).trans fits.silence.2⟩, t, ht, .of_eq rfl rfl⟩

theorem Act.Rolls.activate (h : a.Rolls lo) (i : SlotId) : (activate i a).Rolls lo := by
  have bound : (Machine.rebind { a with s.tst := a.s.tst.makeActive i }).Rolls lo :=
    Act.Rolls.rebind (a := { a with s.tst := a.s.tst.makeActive i }) h
  unfold Machine.activate
  exact bound.of_roster (roster_report _ _ _)

theorem Act.Rolls.activatePending (h : a.Rolls lo) : (activatePending a).Rolls lo := by
  unfold Machine.activatePending
  split
  · exact h
  · exact h.activate _

theorem Act.Rolls.tstBoundary (h : a.Rolls lo) : (tstBoundary a).Rolls lo := by
  have groups : (a.s.tst.waiting.foldl (fun a g => applyGroup g a) a).Rolls lo :=
    h.of_roster (foldl_keeps Act.roster _ (fun a g => roster_applyGroup a g) _ a)
  exact Act.Rolls.activatePending (a := { a.s.tst.waiting.foldl (fun a g => applyGroup g a) a with s.tst.waiting := [] })
    groups

theorem Act.Rolls.dayRoll (h : a.Rolls lo) : (dayRoll a).Rolls lo := by
  have unbound : (Machine.forAll 48 Machine.unbind a.emptyMemories).Rolls lo :=
    Act.Rolls.forAll (fun i _ hb => hb.unbind i) (h.of_roster (b := a.emptyMemories) rfl)
  unfold Machine.dayRoll
  dsimp only
  refine Act.Rolls.drain (Act.Rolls.of_roster ?_ (roster_rollWaits _ _))
  refine Act.Rolls.forAll (fun i b hb => ?_) unbound
  unfold rollTrain
  exact hb.onTrain_apart i fun _ => ⟨rfl, rfl, rfl, rfl⟩

theorem Act.Rolls.blocksTake (h : a.Rolls 1) (roll : Bool) : (blocksTake roll a).Rolls 1 := by
  have zones : (Machine.forAll 24 zoneBoundary (Machine.tstBoundary { a with s := fallAll a.s })).Rolls 0 :=
    h.fallen.tstBoundary.of_roster
      (forAll_keeps Act.roster _ (fun z a => roster_of_offAsc (offAsc_zoneBoundary z a)) _)
  have rolled : (if roll then Machine.dayRoll (Machine.forAll 24 zoneBoundary (Machine.tstBoundary { a with s := fallAll a.s }))
      else Machine.forAll 24 zoneBoundary (Machine.tstBoundary { a with s := fallAll a.s })).Rolls 0 := by
    split
    · exact zones.dayRoll
    · exact zones
  unfold Machine.blocksTake
  dsimp only
  exact rolled.trainsTaken.of_roster
    ((roster_incBoundary _).trans ((roster_handOverDue _).trans (roster_supplyBoundary _)))

theorem Act.Rolls.makeBoundary (h : a.Rolls 1) (c : Lck) (e : Option ClockEvent) (roll : Bool) :
    (makeBoundary c e roll a).Rolls 1 := by
  have told : (match e with
      | some e => Act.report 2 (clockContent e (c.restart (cycleLength a.s))) { a with s.lck := c.restart (cycleLength a.s) }
      | none => { a with s.lck := c.restart (cycleLength a.s) }).Rolls 1 := by
    cases e <;> exact h
  have taken := told.blocksTake roll
  unfold Machine.makeBoundary
  dsimp only
  split
  · exact taken.of_roster (roster_clockRequest _ _)
  · split
    · exact taken.of_roster (roster_clockRequest _ _)
    · exact taken

theorem Act.Rolls.timeoutExpiry (h : a.Rolls 1) : (timeoutExpiry a).Rolls 1 := by
  unfold Machine.timeoutExpiry
  split
  · split
    · exact h.makeBoundary _ _ _
    · exact h
  · exact h

theorem Act.Rolls.takeMarker (h : a.Rolls 1) (n d : Nat) : (takeMarker n d a).1.Rolls 1 := by
  unfold Machine.takeMarker
  dsimp only
  split
  · exact h.makeBoundary _ _ _
  · split
    · exact h.makeBoundary _ _ _
    · split
      · exact h
      · exact h.makeBoundary _ _ _
    · split
      · exact h.makeBoundary _ _ _
      · split
        · exact h
        · exact h.makeBoundary _ _ _
    · split
      · exact h.makeBoundary _ _ _
      · split
        · exact h
        · exact h.makeBoundary _ _ _

end

/-! ## The law as one of the blocks -/

/-- The law of the train table, said of a state. -/
def TrainLaw (s : State) : Prop := RosterLaw 1 s.rrg

theorem trainLaw_offQueues : OffQueues TrainLaw := fun s u h hs => by
  have same : u.rrg = s.rrg := congrArg (·.2.2.1) h
  unfold TrainLaw
  rw [same]
  exact hs

/-- The train set of a PASSAGE that passes the form check (R5). -/
theorem contents?_passageSet {t : Telegram} {x : Passage} (h : contents? t = some (.passage x)) : 1 ≤ x.set ∧ x.set ≤ 999 := by
  have form {p : List Byte} (h : passage? p = some x) : 1 ≤ x.set ∧ x.set ≤ 999 := by
    unfold passage? at h
    split at h
    · next hp =>
      split at h
      · cases h
        exact ⟨hp.2.1, hp.2.2.1⟩
      · cases h
    · cases h
  unfold contents? at h
  dsimp only at h
  split at h
  · cases h
  · split at h
    · split at h <;> cases h
    · split at h
      · obtain ⟨y, hy, e⟩ := Option.map_eq_some_iff.mp h
        cases e
        exact form hy
      · split at h
        · split at h
          · obtain ⟨y, -, e⟩ := Option.map_eq_some_iff.mp h
            cases e
          · cases h
        · split at h
          · split at h
            · obtain ⟨y, -, e⟩ := Option.map_eq_some_iff.mp h
              cases e
            · cases h
          · split at h
            · split at h
              · obtain ⟨y, -, e⟩ := Option.map_eq_some_iff.mp h
                cases e
              · cases h
            · cases h

theorem trainLaw_dispatch : DispatchUpholds TrainLaw := fun t c hc a h => by
  have law : a.Rolls 1 := h
  unfold dispatch
  split
  · exact law.takeMarker _ _
  · split
    · exact h
    · exact law.handlePassage _ (contents?_passageSet hc)
  · dsimp only
    split
    · exact h
    · exact law.of_roster (roster_statusReport _ _ _ _ _)
  · dsimp only
    split
    · exact h
    · exact law.of_residue (residue_equipmentReport _ _ _)
  · dsimp only
    split
    · exact h
    · exact law.of_roster (roster_of_offAsc (offAsc_paDone _ _ _ _))
  · exact h

/-! ## Commands -/

/-- A command's function that leaves the roster alone. -/
def SparesRoster (f : Act → Act × Reply) : Prop := ∀ a, (f a).1.roster = a.roster

theorem SparesRoster.upholds {f : Act → Act × Reply} (h : SparesRoster f) : CommandUpholds TrainLaw f := fun a ha =>
  Act.Rolls.of_roster (a := a) ha (h a)

theorem trainLaw_bindCommand (x n : Nat) : CommandUpholds TrainLaw (bindCommand x n) := fun a h => by
  have law : a.Rolls 1 := h
  unfold bindCommand
  split
  · exact h
  · split
    · exact h
    · split
      · exact law.unschedule _
      · next hn =>
        split
        · exact h
        · split
          · exact h
          · split
            · exact h
            · exact law.bindRun _ hn

theorem trainLaw_removeCommand (x : Nat) : CommandUpholds TrainLaw (removeCommand x) := fun a h => by
  have law : a.Rolls 1 := h
  unfold removeCommand
  split
  · exact h
  · split
    · exact h
    · exact law.removeTrain _

theorem trainLaw_activatePending {a : Act} (h : TrainLaw a.s) : TrainLaw (activatePending a).s := Act.Rolls.activatePending h

theorem trainLaw_profileActivate (n : Nat) : CommandUpholds TrainLaw (profileActivate n) := fun a h => by
  unfold profileActivate
  split
  · exact h
  · split
    · exact h
    · split
      · exact h
      · next i _ _ =>
        have pending : TrainLaw { a.s with tst.pendingSlot := some i } := h
        dsimp only
        split
        · exact pending
        · exact trainLaw_activatePending pending

theorem sparesRoster_loadOpen (x n k : Nat) : SparesRoster (loadOpen x n k) := fun a => by
  unfold loadOpen
  split
  · rfl
  · split
    · rfl
    · split
      · rfl
      · split
        · rfl
        · split <;> rfl

theorem sparesRoster_loadAbort : SparesRoster loadAbort := fun a => by
  unfold loadAbort
  split <;> rfl

theorem sparesRoster_complete (l : Load) : SparesRoster (complete l) := fun a => by
  have fault (x : Option (Nat × Nat)) : (contentFault l x a).1.roster = a.roster := by cases x <;> rfl
  unfold complete validate
  dsimp only
  split
  · rfl
  · split
    · split
      · exact fault _
      · exact (roster_of_residue (residue_raiseIfUnlocked _)).trans rfl
    · split
      · exact fault _
      · rfl

theorem sparesRoster_blockCommand (t : Telegram) : SparesRoster (blockCommand t) := fun a => by
  unfold blockCommand loadBlock
  dsimp only
  split
  · split
    · rfl
    · split
      · rfl
      · split
        · exact sparesRoster_complete _ a
        · rfl
  · rfl

theorem roster_closeGroup (g : List HeldEdit) (a : Act) : (closeGroup g a).1.roster = a.roster := by
  unfold closeGroup
  split
  · rfl
  · exact roster_applyGroup a g

theorem sparesRoster_editHold : SparesRoster editHold := fun a => by
  unfold editHold
  split
  · rfl
  · split <;> rfl

theorem sparesRoster_editRelease : SparesRoster editRelease := fun a => by
  unfold editRelease
  split
  · rfl
  · split
    · rfl
    · split
      · rfl
      · split
        · rfl
        · exact roster_closeGroup _ { a with s.tst.openGroup := none }

theorem sparesRoster_edit (t i f v : Nat) : SparesRoster (edit t i f v) := fun a => by
  have joined (e : HeldEdit) (clamped : Bool) : (joinGroup e clamped a).1.roster = a.roster := by
    unfold joinGroup
    split
    · split <;> rfl
    · split
      · exact roster_closeGroup _ a
      · rfl
  unfold edit
  split
  · rfl
  · split
    · rfl
    · split
      · rfl
      · split
        · rfl
        · split
          · rfl
          · exact joined _ _

theorem sparesRoster_raiseCommand (x e r t m : Nat) : SparesRoster (raiseCommand x e r t m) := fun a => by
  unfold raiseCommand
  split
  · rfl
  · split
    · split
      · rfl
      · split
        · rfl
        · next h =>
          exact roster_of_residue ((residue_drain _).trans ((residue_openRecord _ _ _).trans (residue_takeRecord h)))
    · rfl

theorem sparesRoster_ackCommand (t n r : Nat) : SparesRoster (ackCommand t n r) := fun a => by
  unfold ackCommand
  split
  · rfl
  · split
    · rfl
    · split
      · rfl
      · dsimp only
        split
        · exact roster_of_residue (by simp)
        · rfl

theorem sparesRoster_resolveCommand (n : Nat) : SparesRoster (resolveCommand n) := fun a => by
  unfold resolveCommand
  split
  · rfl
  · split
    · rfl
    · split
      · rfl
      · split
        · rfl
        · exact roster_of_residue (by simp)

theorem sparesRoster_zoneCommand (z st : Nat) : SparesRoster (zoneCommand z st) := fun a => by
  unfold zoneCommand
  split
  · rfl
  · split
    · rfl
    · split
      · rfl
      · dsimp only
        split
        · exact roster_of_offAsc (offAsc_zoneOff _ a)
        · split
          · split
            · rfl
            · exact roster_of_offAsc (offAsc_zoneBar _ a)
          · exact roster_of_offAsc (offAsc_zoneOpen _ a)

theorem sparesRoster_announceCommand (t : Telegram) : SparesRoster (announceCommand t) := fun a => by
  unfold announceCommand announceArgs
  dsimp only
  split
  · split
    · rfl
    · split
      · rfl
      · split
        · rfl
        · exact roster_of_offAsc (offAsc_placeAll _ _ a)
  · rfl

/-! ## Expiries and restarts -/

theorem Act.Rolls.unlessSilent {a : Act} (h : a.Rolls 1) {work : Act → Act} {i : TrainId} (hw : (work a).Rolls 1) :
    (unlessSilent i work a).Rolls 1 := by
  unfold Machine.unlessSilent
  split
  · exact h.removeTrain i
  · exact hw

/-- The expiry of a countdown whose work leaves the roster alone. -/
theorem trainLaw_expire (due : State → Bool) {work : Act → Act} (h : ∀ a, (work a).roster = a.roster) :
    Lawful TrainLaw (expire due work) :=
  trainLaw_offQueues.expire due fun a ha => Act.Rolls.of_roster (a := a) ha (h a)

theorem roster_escalateAt (i : IncId) (a : Act) : (escalateAt i a).roster = a.roster := by
  unfold escalateAt
  split
  · exact roster_of_residue (residue_escalate _ _ a)
  · rfl

theorem roster_freeAt (i : IncId) (a : Act) : (freeAt i a).roster = a.roster := by
  unfold freeAt
  split <;> rfl

theorem roster_zoneWork {work : Act → Act} (h : ∀ a, (work a).offAsc = a.offAsc) (z : ZoneId) (a : Act) :
    (work (entriesRunOut z a)).roster = a.roster :=
  roster_of_offAsc (b := entriesRunOut z a) (h _)

/-- The train table is empty after a restart, and keeps its counts over a WARM one (R77). -/
theorem rosterLaw_of_empty {r : Rrg} (h : ∀ i, r.trains.get i = none)
    (hc : r.refused ≤ 65535 ∧ r.unplanned ≤ 65535 ∧ r.holdOff ≤ 60) : RosterLaw 1 r :=
  rosterLaw_one_iff.mpr (rrgLaw_of_empty h hc)

theorem rosterLaw_start : RosterLaw 1 Rrg.start := rosterLaw_of_empty (fun i => Table.get_fill _ i) (by decide)

theorem trainLaw_restartWarmly : Upholds TrainLaw restartWarmly := fun s hs => by
  unfold TrainLaw
  rw [restartWarmly_rrg]
  exact rosterLaw_of_empty (fun i => Table.get_fill _ i) ⟨hs.counts.1, hs.counts.2.1, Nat.zero_le _⟩

theorem trainLaw_restartFully : Upholds TrainLaw restartFully := fun _ _ => rosterLaw_start

/-! ## Every command and every step -/

theorem exec_keepsTrainLaw (c : Instr) : Lawful TrainLaw (exec c) := by
  have law := trainLaw_offQueues
  have telegram (p : Port) (t : Telegram) := law.telegram trainLaw_dispatch p t
  cases c with
  | powerOn straps => exact ⟨powerOnState straps, fun _ _ => rosterLaw_start, fun _ => rfl⟩
  | linkUp p => exact ⟨_, law.upholds fun s => blocks_settleAwake (raiseLink p s), fun _ => rfl⟩
  | linkDown p => exact ⟨_, law.upholds fun s => blocks_settleAwake (dropLink p s), fun _ => rfl⟩
  | resetAssertion => exact ⟨fun s => { s with inReset := true }, law.upholds fun _ => rfl, fun _ => rfl⟩
  | roomTransmissionEnd => exact Upholds.awake (f := roomFreed) law fun _ hs => hs
  | fieldTransmissionEnd => exact Upholds.awake (f := fieldFreed) law fun _ hs => hs
  | cycleMarker _ _ _ _ => exact telegram _ _
  | passage _ _ _ _ _ _ _ => exact telegram _ _
  | substationStatus _ _ _ _ _ => exact telegram _ _
  | equipmentStatus _ _ _ => exact telegram _ _
  | paDone _ _ _ _ => exact telegram _ _
  | otherFieldTelegram _ _ => exact telegram _ _
  | roomTelegramForward _ => exact telegram _ _
  | manage _ _ _ _ => exact telegram _ _
  | telegramDiscarded _ _ => exact (law.receiveFrame trainLaw_dispatch _ _).awake law
  | markerTimeoutExpiry => exact (law.finish fun _ ha => Act.Rolls.timeoutExpiry ha).awake law
  | silenceExpiry i => exact law.expire _ fun _ ha => Act.Rolls.removeTrain ha i
  | overdueExpiry i => exact law.expire _ fun _ ha => Act.Rolls.unlessSilent ha (Act.Rolls.overdueOut ha i)
  | powerWaitExpiry i => exact law.expire _ fun _ ha => Act.Rolls.unlessSilent ha (Act.Rolls.powerWaitOut ha i)
  | reportHoldOffExpiry =>
    exact law.expire _ (work := fun a => { a with s.rrg.holdOff := 0 }) fun a ha =>
      RosterLaw.narrowed (r := a.s.rrg) ha (fun i u hu => ⟨RosterLaw.fits ha i u hu, u, hu, .refl u⟩)
        ⟨ha.counts.1, ha.counts.2.1, Nat.zero_le _⟩
  | telemetryTimeoutExpiry b =>
    exact trainLaw_expire _ (work := fun a => deriveSupply (telemetryOut [b] a).1 [] (telemetryOut [b] a).2)
      fun a => (roster_deriveSupply _ _ _).trans (roster_telemetryOut a [b])
  | creditExpiry b =>
    exact trainLaw_expire _ (work := fun a => deriveSupply [] [] (creditOut [b] a))
      fun a => (roster_deriveSupply _ _ _).trans (roster_creditOut a [b])
  | slotExpiry i =>
    exact trainLaw_expire _ (work := fun a => deriveSupply [] [] (dropSlot i a))
      fun a => (roster_deriveSupply _ _ _).trans (roster_of_residue (residue_dropSlot i a))
  | escalationTick => exact trainLaw_expire _ fun a => roster_of_residue (residue_tick a)
  | escalation i => exact trainLaw_expire _ (roster_escalateAt i)
  | retentionExpiry i => exact trainLaw_expire _ (roster_freeAt i)
  | eligibleCountdownExpiry z k =>
    exact trainLaw_expire _ (work := fun a => issueTest z (entriesRunOut z a)) (roster_zoneWork (offAsc_issueTest z) z)
  | entryExpiry z k => exact trainLaw_expire _ (work := expireEntry z k) fun _ => rfl
  | playTimeoutExpiry z =>
    exact trainLaw_expire _ (work := fun a => playTimeout z (entriesRunOut z a)) (roster_zoneWork (offAsc_playTimeout z) z)
  | guardExpiry z =>
    exact trainLaw_expire _ (work := fun a => guardEnd z (entriesRunOut z a)) (roster_zoneWork (offAsc_guardEnd z) z)
  | manageUnknownCommand => exact (law.takeHead _ (law.answer _)).awake law
  | loadOpen => exact law.sizedCommand _ _ fun _ => (sparesRoster_loadOpen _ _ _).upholds
  | loadBlock => exact law.command _ fun t => (sparesRoster_blockCommand t).upholds
  | loadAbort => exact law.sizedCommand _ _ fun _ => sparesRoster_loadAbort.upholds
  | profileActivate => exact law.sizedCommand _ _ fun _ => trainLaw_profileActivate _
  | editHold => exact law.sizedCommand _ _ fun _ => sparesRoster_editHold.upholds
  | edit => exact law.sizedCommand _ _ fun _ => (sparesRoster_edit _ _ _ _).upholds
  | editRelease => exact law.sizedCommand _ _ fun _ => sparesRoster_editRelease.upholds
  | incidentRaise => exact law.sizedCommand _ _ fun _ => (sparesRoster_raiseCommand _ _ _ _ _).upholds
  | incidentAck => exact law.command _ fun t => CommandUpholds.sized (fun _ => (sparesRoster_ackCommand _ _ _).upholds) t
  | incidentResolve => exact law.sizedCommand _ _ fun _ => (sparesRoster_resolveCommand _).upholds
  | zoneSet => exact law.sizedCommand _ _ fun _ => (sparesRoster_zoneCommand _ _).upholds
  | announce => exact law.command _ fun t => (sparesRoster_announceCommand t).upholds
  | trainBind => exact law.sizedCommand _ _ fun _ => trainLaw_bindCommand _ _
  | trainRemove => exact law.sizedCommand _ _ fun _ => trainLaw_removeCommand _
  | queryTrain => exact law.query _
  | queryTimingPoint => exact law.query _
  | querySection => exact law.query _
  | querySubstation => exact law.query _
  | queryIncident => exact law.query _
  | queryZone => exact law.query _
  | queryClock => exact law.query _
  | queryProfile => exact law.query _
  | queryCounters => exact law.query _
  | queryIdentity => exact law.query _
  | queryMode => exact law.query _
  | countersClear =>
    exact law.sizedCommand _ _ fun _ a ha =>
      RosterLaw.narrowed (r := a.s.rrg) ha (fun i u hu => ⟨RosterLaw.fits ha i u hu, u, hu, .refl u⟩)
        ⟨Nat.zero_le _, Nat.zero_le _, ha.counts.2.2⟩
  | restartWarm => exact law.restart false trainLaw_restartWarmly trainLaw_restartFully
  | restartFull => exact law.restart true trainLaw_restartWarmly trainLaw_restartFully

/-- Settles O57: every command keeps the law, and the passing of time does not touch the train table. -/
theorem stepKeepsRrgLaw : Obligations.StepKeepsRrgLaw := by
  intro s u h e
  exact rosterLaw_one_iff.mp
    (trainLaw_offQueues.step exec_keepsTrainLaw (fun _ hs => hs) (rosterLaw_one_iff.mpr h) e)

end Sys2Proof.Machine
end

