-- ==== Sys2Proof/Proofs/TrainExpiries.lean ====
section
/-! PROOFS. The expiries of a train record: the work an expiry does where it is due, and what stands elsewhere. -/

namespace Sys2Proof.Machine

/-! ## Where an expiry is due (log entry 11) -/

section
variable {due : State → Bool} {work : Act → Act} {s : State}

/-- Where it is due and the clock is set, an expiry does its work as one action. -/
theorem expire_due (hr : s.inReset = false) (hc : s.lck.lock ≠ .unset) (hd : due s = true) :
    expire due work s = .next (settle (work (Act.start s)).finish) := by
  rw [expire, whenAwake_awake _ hr, if_pos ⟨clockSet_iff.mpr hc, hd⟩]

/-- Elsewhere it does nothing. -/
theorem expire_rests (hr : s.inReset = false) (h : s.lck.lock = .unset ∨ due s = false) :
    expire due work s = .next (settle s) := by
  rw [expire, whenAwake_awake _ hr, if_neg]
  rintro ⟨hc, hd⟩
  rcases h with h | h
  · exact clockSet_iff.mp hc h
  · exact Bool.noConfusion (h.symm.trans hd)

end

theorem atLast_some (n : Nat) : atLast (some n) = decide (n ≤ 1) := rfl

/-- A countdown that stands above its last count, or does not run, is not at its last count. -/
theorem atLast_false {o : Option Nat} (h : ∀ n, o = some n → 2 ≤ n) : atLast o = false := by
  cases o with
  | none => rfl
  | some n => exact decide_eq_false (by have := h n rfl; omega)

/-! ## Silence (R68) -/

/-- What an action made enters the queues and leaves the blocks alone. -/
theorem finish_blocks (a : Act) :
    a.finish.lck = a.s.lck ∧ a.finish.tst = a.s.tst ∧ a.finish.rrg = a.s.rrg ∧ a.finish.psv = a.s.psv := by
  rw [Act.finish, enterMade_frame]
  exact ⟨rfl, rfl, rfl, rfl⟩

theorem told_of_supply_core {v w : Supply} (h : v.core = w.core) : v.told = w.told :=
  show v.core.told = w.core.told from congrArg Supply.told h

/-- A removal leaves the picture of the sections, and what the slot pools do not write of the substations. -/
theorem removeTrain_supply (i : TrainId) (a : Act) :
    (removeTrain i a).s.psv.secs = a.s.psv.secs ∧ ∀ b, ((removeTrain i a).supply b).told = (a.supply b).told := by
  cases h : a.train i with
  | none =>
    have stays : removeTrain i a = a := by
      unfold removeTrain
      rw [h]
    rw [stays]
    exact ⟨rfl, fun _ => rfl⟩
  | some t =>
    have before : (withdraw i (drain (releaseSlot i a))).residue = a.residue :=
      ((residue_withdraw _ _).trans (residue_drain _)).trans (residue_releaseSlot _ _)
    obtain ⟨-, -, -, secs⟩ := residue_rest before
    obtain ⟨-, -, -, secs'⟩ := residue_rest (removeTrain_residue h)
    exact ⟨secs'.trans secs, fun b => (told_of_supply_core (residue_supply (removeTrain_residue h) b)).trans
      (told_of_supply_core (residue_supply before b))⟩

/-- The silence expiry of a record at its last count removes it. -/
theorem exec_silenceExpiry {s : State} {i : TrainId} {t : Train} (hr : s.inReset = false) (hc : s.lck.lock ≠ .unset)
    (ht : s.rrg.trains.get i = some t) (hs : t.silence ≤ 1) :
    exec (.silenceExpiry i) s = .next (settle (removeTrain i (Act.start s)).finish) :=
  expire_due hr hc (by rw [ht]; exact decide_eq_true hs)

/-- Settles O24: the removal, read block by block. -/
theorem silenceFreesRecord : Obligations.SilenceFreesRecord := by
  intro s i t hr hc ht hs
  obtain ⟨lck, tst, rrg, psv⟩ := finish_blocks (removeTrain i (Act.start s))
  obtain ⟨-, lck', tst', -⟩ := blank_fields (blank_removeTrain i (Act.start s))
  obtain ⟨secs, supply⟩ := removeTrain_supply i (Act.start s)
  refine ⟨_, exec_silenceExpiry hr hc ht (by omega), ?_, fun j hj => ?_, lck.trans lck', tst.trans tst', ?_, fun b => ?_⟩
  · rw [rrg]
    exact removeTrain_frees i _
  · rw [rrg]
    exact removeTrain_other hj _
  · rw [psv]
    exact secs
  · rw [psv]
    exact supply b

/-! ## The other countdowns of a record (R61, R69, R112, R120) -/

section
variable {s : State} {i : TrainId} {t : Train} {work : Act → Act}

/-- A record whose silence lasts on has the work of the other expiry done. -/
theorem unlessSilent_heard (ht : s.rrg.trains.get i = some t) (hs : 2 ≤ t.silence) :
    unlessSilent i work (Act.start s) = work (Act.start s) := by
  refine if_neg ?_
  rw [show (Act.start s).train i = some t from ht, Option.map_some, atLast_some, decide_eq_true_eq]
  omega

/-- A record whose silence is at its last count is removed instead. -/
theorem unlessSilent_silent (ht : s.rrg.trains.get i = some t) (hs : t.silence ≤ 1) :
    unlessSilent i work (Act.start s) = removeTrain i (Act.start s) := by
  refine if_pos ?_
  rw [show (Act.start s).train i = some t from ht, Option.map_some, atLast_some, decide_eq_true_eq]
  exact hs

theorem overdueOut_start (ht : s.rrg.trains.get i = some t) :
    overdueOut i (Act.start s) = Act.request (.raise .trainStalled (.train t.set) true)
      (Act.start { s with rrg.trains := s.rrg.trains.set i (some { t with overdue := none }) }) := by
  unfold overdueOut
  rw [show (Act.start s).train i = some t from ht]
  rfl

theorem powerWaitOut_start (ht : s.rrg.trains.get i = some t) :
    powerWaitOut i (Act.start s) = Act.request (.raise .powerWait (.train t.set) true)
      (Act.start { s with rrg.trains := s.rrg.trains.set i (some { t with powerWait := none }) }) := by
  unfold powerWaitOut
  rw [show (Act.start s).train i = some t from ht]
  rfl

/-- A slot given up: its substation holds one fewer and the train none. -/
theorem dropSlot_start {h : HeldSlot} (ht : s.rrg.trains.get i = some t) (hh : t.slot = some h) :
    dropSlot i (Act.start s) = Act.start { s with
      rrg.trains := s.rrg.trains.set i (some { t with slot := none })
      psv.subs := s.psv.subs.set h.sub { s.psv.subs.get h.sub with held := (s.psv.subs.get h.sub).held - 1 } } := by
  have slot : ((Act.start s).train i).bind (·.slot) = some h := by
    rw [show (Act.start s).train i = some t from ht]
    exact hh
  unfold dropSlot
  rw [slot]
  simp [Act.onTrain, Act.onSupply, Act.putTrain, Act.start, Act.train, Act.supply, ht]

end

theorem exec_reportHoldOffExpiry {s : State} (hr : s.inReset = false) (hc : s.lck.lock ≠ .unset) (hh : s.rrg.holdOff = 1) :
    exec .reportHoldOffExpiry s = .next (settle { s with rrg.holdOff := 0 }) := by
  have row : exec .reportHoldOffExpiry s
      = expire (fun s => decide (s.rrg.holdOff = 1)) (fun a => { a with s.rrg.holdOff := 0 }) s := rfl
  rw [row, expire_due hr hc (decide_eq_true hh)]
  rfl

theorem exec_slotExpiry_expire (i : TrainId) (s : State) :
    exec (.slotExpiry i) s = expire (fun s => atLast (((s.rrg.trains.get i).bind (·.slot)).map (·.left)))
      (fun a => deriveSupply [] [] (dropSlot i a)) s := rfl

theorem exec_slotExpiry {s : State} {i : TrainId} {t : Train} {b : SubId} (hr : s.inReset = false)
    (hc : s.lck.lock ≠ .unset) (ht : s.rrg.trains.get i = some t) (hb : t.slot = some { sub := b, left := 1 }) :
    exec (.slotExpiry i) s = .next (settle (deriveSupply [] [] (Act.start { s with
      rrg.trains := s.rrg.trains.set i (some { t with slot := none })
      psv.subs := s.psv.subs.set b
        { s.psv.subs.get b with held := (s.psv.subs.get b).held - 1 } })).finish) := by
  rw [exec_slotExpiry_expire, expire_due hr hc (by simp [ht, hb, atLast_some]), dropSlot_start ht hb]

theorem exec_slotExpiry_rests {s : State} {i : TrainId} (hr : s.inReset = false)
    (h : s.lck.lock = .unset ∨ atLast (((s.rrg.trains.get i).bind (·.slot)).map (·.left)) = false) :
    exec (.slotExpiry i) s = .next (settle s) := by
  rw [exec_slotExpiry_expire, expire_rests hr h]

/-- Settles O23: each expiry where it is due, by the record's silence, and where it is not. -/
theorem trainCountdownsExpire : Obligations.TrainCountdownsExpire := by
  intro s i hr
  refine ⟨fun t hc ht => ⟨fun ho hs => ?_, fun hp hs => ?_, fun ho hs => ?_, fun hp hs => ?_, fun b hb => ?_⟩,
    fun hc hh => ?_, fun h => ?_⟩
  · refine (expire_due hr hc ?_).trans ?_
    · simp [ht, ho, atLast_some]
    · rw [unlessSilent_heard ht hs, overdueOut_start ht]
  · refine (expire_due hr hc ?_).trans ?_
    · simp [ht, hp, atLast_some]
    · rw [unlessSilent_heard ht hs, powerWaitOut_start ht]
  · rw [exec_silenceExpiry hr hc ht hs]
    refine (expire_due hr hc ?_).trans ?_
    · simp [ht, ho, atLast_some]
    · rw [unlessSilent_silent ht hs]
  · rw [exec_silenceExpiry hr hc ht hs]
    refine (expire_due hr hc ?_).trans ?_
    · simp [ht, hp, atLast_some]
    · rw [unlessSilent_silent ht hs]
  · exact exec_slotExpiry hr hc ht hb
  · exact exec_reportHoldOffExpiry hr hc hh
  · have none_due {o : Train → Option Nat}
        (ho : ∀ t, s.rrg.trains.get i = some t → ∀ n, o t = some n → 2 ≤ n) :
        atLast ((s.rrg.trains.get i).bind o) = false :=
      atLast_false fun n hn => by
        obtain ⟨t, ht, hn⟩ := Option.bind_eq_some_iff.mp hn
        exact ho t ht n hn
    refine ⟨expire_rests hr (h.imp id fun h => none_due fun t ht => (h t ht).1),
      expire_rests hr (h.imp id fun h => none_due fun t ht => (h t ht).2.1),
      exec_slotExpiry_rests hr (h.imp id fun h => ?_)⟩
    rw [Option.map_bind]
    refine none_due fun t ht n hn => ?_
    obtain ⟨held, hheld, rfl⟩ := Option.map_eq_some_iff.mp hn
    exact (h t ht).2.2 held hheld

end Sys2Proof.Machine
end

