-- ==== Sys2Proof/Proofs/TrainCommands.lean ====
section
/-! PROOFS. The commands on trains: a run bound to a record or taken from it, and a record removed. -/

namespace Sys2Proof.Machine

/-! ## Binding (R62, R71) -/

theorem told_of_train_core {t u : Train} (h : t.core = u.core) : t.told = u.told :=
  show t.core.told = u.core.told from congrArg Train.told h

section
variable {a : Act} {i j : TrainId} {n : Nat} {t : Train}

/-- What unscheduling writes of its record is the run and the step, and the late flag goes. -/
theorem unschedule_train_self (h : a.train i = some t) :
    ∃ v, (unschedule i a).train i = some v ∧ v.told = { t with run := none, step := none }.told ∧ v.late = false := by
  have core := residue_train (residue_drain (unbind i a)) i
  rw [show (unbind i a).s.rrg.trains.get i = _ from unbind_train_self h, Option.map_some] at core
  obtain ⟨v, hv, same⟩ := Option.map_eq_some_iff.mp core
  exact ⟨v, hv, (told_of_train_core same).trans rfl, (congrArg Train.late same :)⟩

theorem unschedule_train_other (h : j ≠ i) :
    ((unschedule i a).train j).map Train.told = (a.train j).map Train.told := by
  rw [unschedule, map_told_drain, unbind_train_other (Ne.symm h)]

/-- Binding takes the run from the other record bound to it, if there is one. -/
theorem bindRun_train_self (h : a.train i = some t) :
    ((bindRun i n a).train i).map Train.told = some { t with run := some n, step := none }.told := by
  unfold bindRun
  dsimp only
  split
  · next j hj =>
    rw [unschedule_train_other (boundElsewhere_ne hj).symm, Act.onTrain_train, if_pos rfl, h]
    rfl
  · rw [Act.onTrain_train, if_pos rfl, h]
    rfl

theorem bindRun_train_other (hj : j ≠ i) (hn : (a.train j).bind (·.run) ≠ some n) :
    ((bindRun i n a).train j).map Train.told = (a.train j).map Train.told := by
  unfold bindRun
  dsimp only
  split
  · next k hk =>
    have apart : j ≠ k := fun e => hn (e ▸ (boundElsewhere_some hk).2)
    rw [unschedule_train_other apart, Act.onTrain_train, if_neg (Ne.symm hj)]
  · rw [Act.onTrain_train, if_neg (Ne.symm hj)]

theorem bindRun_train_unbound (h : boundElsewhere a.s i n = some j) : ((bindRun i n a).train j).bind (·.run) = none := by
  obtain ⟨hj, bound⟩ := boundElsewhere_some h
  obtain ⟨t, ht, -⟩ := Option.bind_eq_some_iff.mp bound
  have stands : (a.onTrain i fun t => { t with run := some n, step := none }).train j = some t :=
    (Act.onTrain_train _ _ _ _).trans ((if_neg (Ne.symm hj)).trans ht)
  obtain ⟨v, hv, told, -⟩ := unschedule_train_self stands
  have run : v.run = none := congrArg (fun x => x.2.1) told
  unfold bindRun
  rw [h]
  dsimp only
  rw [hv]
  exact run

end

/-! ## The two commands, case by case (R76) -/

section
variable {a : Act} {set run : Nat} {i : TrainId} (hm : mode a.s ≠ .bare)
include hm

theorem bindCommand_unknown (hf : findTrain a.s set = none) : bindCommand set run a = (a, .no .badIndex) := by
  rw [bindCommand, if_neg hm, hf]

theorem bindCommand_off (hf : findTrain a.s set = some i) (h0 : run = 0) :
    bindCommand set run a = (unschedule i a, .ok []) := by
  rw [bindCommand, if_neg hm, hf]
  exact if_pos h0

theorem bindCommand_prepared (hf : findTrain a.s set = some i) (h0 : run ≠ 0) (hp : mode a.s = .prepared) :
    bindCommand set run a = (a, .no .state) := by
  rw [bindCommand, if_neg hm, hf]
  exact (if_neg h0).trans (if_pos hp)

theorem bindCommand_noRun (hf : findTrain a.s set = some i) (h0 : run ≠ 0) (hp : mode a.s ≠ .prepared)
    (hr : activeRun a.s run = none) : bindCommand set run a = (a, .no .badIndex) := by
  rw [bindCommand, if_neg hm, hf]
  exact (if_neg h0).trans ((if_neg hp).trans (if_pos (by rw [hr]; rfl)))

theorem bindCommand_same (hf : findTrain a.s set = some i) (h0 : run ≠ 0) (hp : mode a.s ≠ .prepared)
    (hr : activeRun a.s run ≠ none) (he : (a.train i).bind (·.run) = some run) :
    bindCommand set run a = (a, .ok []) := by
  rw [bindCommand, if_neg hm, hf]
  exact (if_neg h0).trans ((if_neg hp).trans ((if_neg (by simpa using hr)).trans (if_pos he)))

theorem bindCommand_binds (hf : findTrain a.s set = some i) (h0 : run ≠ 0) (hp : mode a.s ≠ .prepared)
    (hr : activeRun a.s run ≠ none) (he : (a.train i).bind (·.run) ≠ some run) :
    bindCommand set run a = (bindRun i run a, .ok []) := by
  rw [bindCommand, if_neg hm, hf]
  exact (if_neg h0).trans ((if_neg hp).trans ((if_neg (by simpa using hr)).trans (if_neg he)))

theorem removeCommand_unknown (hf : findTrain a.s set = none) : removeCommand set a = (a, .no .badIndex) := by
  rw [removeCommand, if_neg hm, hf]

theorem removeCommand_found (hf : findTrain a.s set = some i) : removeCommand set a = (removeTrain i a, .ok []) := by
  rw [removeCommand, if_neg hm, hf]

end

/-! ## A command whose work keeps to the blocks -/

/-- The state that a command leaves whose function answers `r` after the work of `a`. -/
def commandDone (t : Telegram) (r : Reply) (a : Act) : State := enterMade (answer t r a.s) a.out

theorem execute_done {f : Telegram → Act → Act × Reply} {t : Telegram} {s : State} {a : Act} {r : Reply}
    (h : f t (Act.start s) = (a, r)) : execute f t s = commandDone t r a := by
  rw [execute, h]
  rfl

theorem commandDone_train (t : Telegram) (r : Reply) (a : Act) (i : TrainId) :
    (commandDone t r a).rrg.trains.get i = a.train i :=
  congrArg (fun v => v.trains.get i) rrg_answered

/-- Work that writes only the blocks leaves the queue as it was, and its REPLY stands before its reports. -/
theorem commandDone_answered {t : Telegram} {rest : List Telegram} {r : Reply} {a : Act} {s : State}
    (h : a.blank = (Act.start (headTaken rest s)).blank) :
    Answered s (commandDone t r a) t r ∧ (commandDone t r a).tiu.manage = rest := by
  obtain ⟨tiu, -, -, address⟩ := blank_fields h
  exact ⟨answered_enterMade ((congrArg Tiu.room tiu).trans rfl) address, manage_answered.trans (congrArg Tiu.manage tiu)⟩

/-- Settles O25: each command in each state of its record. -/
theorem trainCommandsBindAndRemove : Obligations.TrainCommandsBindAndRemove := by
  intro s t rest x y z w hm
  have set4 : field [x, y, z, w] 0 2 = numOf [x, y] := rfl
  have run4 : field [x, y, z, w] 2 2 = numOf [z, w] := rfl
  have set2 : field [x, y] 0 2 = numOf [x, y] := rfl
  have binds (h : TakenAs s t rest 0x0D [x, y, z, w]) := exec_sized (c := .trainBind)
    (f := fun x => bindCommand (field x 0 2) (field x 2 2)) (fun _ => rfl) h rfl
  have removes (h : TakenAs s t rest 0x0E [x, y]) := exec_sized (c := .trainRemove)
    (f := fun x => removeCommand (field x 0 2)) (fun _ => rfl) h rfl
  simp only [set4, run4] at binds
  simp only [set2] at removes
  have mode' : mode (Act.start (headTaken rest s)).s ≠ .bare := hm
  have service (h : mode s = .service) : mode (Act.start (headTaken rest s)).s ≠ .prepared := fun e =>
    Mode.noConfusion (h.symm.trans e)
  refine ⟨fun hf => ⟨fun h => ?_, fun h => ?_⟩, fun i r hf hr => ⟨fun h => ⟨fun h0 => ?_, fun h0 hp => ?_,
    fun h0 hv ha => ?_, fun h0 hv ha he => ?_, fun h0 hv ha he => ?_⟩, fun h => ?_⟩⟩
  · rw [binds h, execute_replied (bindCommand_unknown mode' hf)]
  · rw [removes h, execute_replied (removeCommand_unknown mode' hf)]
  · obtain ⟨v, hv, told, late⟩ := unschedule_train_self (a := Act.start (headTaken rest s)) hr
    obtain ⟨replied, taken⟩ := commandDone_answered (t := t) (r := .ok [])
      (blank_unschedule i (Act.start (headTaken rest s)))
    refine ⟨_, v, (binds h).trans (by rw [execute_done (bindCommand_off mode' hf h0)]), replied, taken,
      (commandDone_train _ _ _ i).trans hv, told, late, fun j hj => ?_⟩
    rw [commandDone_train]
    exact unschedule_train_other hj
  · rw [binds h, execute_replied (bindCommand_prepared mode' hf h0 hp)]
  · rw [binds h, execute_replied (bindCommand_noRun mode' hf h0 (service hv) ha)]
  · rw [binds h, execute_replied (bindCommand_same mode' hf h0 (service hv) ha
      (by rw [show (Act.start (headTaken rest s)).train i = some r from hr]; exact he))]
  · have self := bindRun_train_self (a := Act.start (headTaken rest s)) (n := numOf [z, w]) hr
    obtain ⟨v, hv', told⟩ := Option.map_eq_some_iff.mp self
    obtain ⟨replied, taken⟩ := commandDone_answered (t := t) (r := .ok [])
      (blank_bindRun i (numOf [z, w]) (Act.start (headTaken rest s)))
    have work := bindCommand_binds mode' hf h0 (service hv) ha
      (by rw [show (Act.start (headTaken rest s)).train i = some r from hr]; exact he)
    refine ⟨_, v, (binds h).trans (by rw [execute_done work]), replied, taken, (commandDone_train _ _ _ i).trans hv', told,
      fun j hj hn => ?_, fun j hj => ?_⟩
    · rw [commandDone_train]
      exact bindRun_train_other hj hn
    · rw [commandDone_train]
      exact bindRun_train_unbound (a := Act.start (headTaken rest s)) hj
  · obtain ⟨replied, taken⟩ := commandDone_answered (t := t) (r := .ok [])
      (blank_removeTrain i (Act.start (headTaken rest s)))
    refine ⟨_, (removes h).trans (by rw [execute_done (removeCommand_found mode' hf)]), replied, taken,
      (commandDone_train _ _ _ i).trans (removeTrain_frees i _), fun j hj => ?_⟩
    rw [commandDone_train]
    exact removeTrain_other hj _

end Sys2Proof.Machine
end

