-- ==== Sys2Proof/Proofs/HoldEnds.lean ====
section
/-! PROOFS. The hold end at a timing point: what it writes of each record, the trains it gathers for the hand-over and their
order, and the orders it makes. -/

namespace Sys2Proof.Machine

/-! ## The order of a hand-over (R86, R107) -/

theorem Wait.before_iff {x y : Wait} : x.before y = true ↔ x.target < y.target
    ∨ (x.target = y.target ∧ (x.point.val < y.point.val ∨ (x.point = y.point ∧ x.joined < y.joined))) :=
  decide_eq_true_iff

theorem Wait.before_asymm {x y : Wait} (h : x.before y = true) : y.before x = false := by
  rw [Bool.eq_false_iff]
  intro h'
  rw [Wait.before_iff, Fin.ext_iff] at h h'
  omega

theorem Wait.before_trans {x y z : Wait} (h : x.before y = true) (k : y.before z = true) : x.before z = true := by
  rw [Wait.before_iff, Fin.ext_iff] at *
  omega

theorem insertWait_perm (w : Wait) (l : List Wait) : (insertWait w l).Perm (w :: l) := by
  induction l with
  | nil => exact .refl _
  | cons x l ih =>
    unfold insertWait
    split
    · exact .refl _
    · exact (ih.cons x).trans (.swap w x l)

/-- A train put in its place keeps the order of the list. -/
theorem insertWait_pairwise (w : Wait) {l : List Wait} (h : l.Pairwise fun x y => y.before x = false) :
    (insertWait w l).Pairwise fun x y => y.before x = false := by
  induction l with
  | nil => exact List.pairwise_singleton _ _
  | cons x l ih =>
    obtain ⟨head, tail⟩ := List.pairwise_cons.mp h
    unfold insertWait
    split
    · next hw =>
      refine List.pairwise_cons.mpr ⟨fun y hy => ?_, h⟩
      rcases List.mem_cons.mp hy with rfl | hy
      · exact Wait.before_asymm hw
      · exact Bool.eq_false_iff.mpr fun e => Bool.eq_false_iff.mp (head y hy) (Wait.before_trans e hw)
    · next hw =>
      refine List.pairwise_cons.mpr ⟨fun y hy => ?_, ih tail⟩
      rcases List.mem_cons.mp ((insertWait_perm w l).mem_iff.mp hy) with rfl | hy
      · exact Bool.eq_false_iff.mpr hw
      · exact head y hy

theorem sortWaits_perm (l : List Wait) : (sortWaits l).Perm l := by
  have sorted (l q : List Wait) : (l.foldl (fun q w => insertWait w q) q).Perm (l ++ q) := by
    induction l generalizing q with
    | nil => exact .refl _
    | cons w l ih =>
      exact (ih _).trans (((insertWait_perm w q).append_left l).trans List.perm_middle)
  have all := sorted l []
  rwa [List.append_nil] at all

theorem sortWaits_pairwise (l : List Wait) : (sortWaits l).Pairwise fun x y => y.before x = false := by
  have sorted (l q : List Wait) (hq : q.Pairwise fun x y => y.before x = false) :
      (l.foldl (fun q w => insertWait w q) q).Pairwise fun x y => y.before x = false := by
    induction l generalizing q with
    | nil => exact hq
    | cons w l ih => exact ih _ (insertWait_pairwise w hq)
  exact sorted l [] .nil

/-! ## What a hold end does with one record (R91) -/

/-- A train that a hold end at `p` finds there. -/
def Train.heldAt (p : TpId) (t : Train) : Bool := decide (t.state = .held ∧ t.point = some p)

/-- Whether a train, given its Td, is due for a hand-over from a timing point. -/
def Train.dueAt (row : Point) (b : Nat) (t : Train) : Bool :=
  decide (heldTarget b row.minDwell t ≤ b) && row.depart.isSome

/-- The record of a train after a hold end at `p`, whose row is `row`. -/
def endedHold (row : Point) (p : TpId) (b : Nat) (t : Train) : Train :=
  if t.heldAt p then
    { t with target := some (heldTarget b row.minDwell t), state := if t.dueAt row b then t.state else .dwelling }
  else t

/-- The request that a hold end gathers of a record. -/
def endedWait (row : Point) (p : TpId) (b : Nat) (i : TrainId) (t : Train) : Option Wait :=
  if t.heldAt p && t.dueAt row b && t.silence != 0 then
    row.depart.map fun sec => { train := i, target := heldTarget b row.minDwell t, point := p, sec := sec }
  else none

/-- The HOLD_ORDER that a hold end makes of a record. -/
def endedOrder (row : Point) (p : TpId) (b : Nat) (t : Train) : Option Made :=
  if t.heldAt p && !t.dueAt row b then
    some (.order (.hold row.controller p (t.run.getD 0) (holdSeconds (heldTarget b row.minDwell t - b)) .regulation))
  else none

theorem Act.putTrain_same (i : TrainId) (a : Act) : a.putTrain i (a.train i) = a := by
  have same : a.s.rrg.trains.set i (a.train i) = a.s.rrg.trains := Table.ext_get fun j => by
    rw [Table.get_set]
    split
    · next e => rw [← e]; rfl
    · rfl
  rw [Act.putTrain, same]

/-- One record of a hold end: what it writes, gathers and makes. -/
theorem unholdTrain_eq (p : TpId) (b : Nat) (i : TrainId) (x : List Wait × Act) :
    unholdTrain p b i x = (x.1 ++ ((x.2.train i).bind (endedWait (x.2.s.tst.line.points.get p) p b i)).toList,
      { x.2.putTrain i ((x.2.train i).map (endedHold (x.2.s.tst.line.points.get p) p b)) with
        out := x.2.out ++ ((x.2.train i).bind (endedOrder (x.2.s.tst.line.points.get p) p b)).toList }) := by
  have untouched {v : Option Train} {w : Option Wait} {o : Option Made} (hv : v = x.2.train i) (hw : w = none)
      (ho : o = none) : x = (x.1 ++ w.toList, { x.2.putTrain i v with out := x.2.out ++ o.toList }) := by
    rw [hv, hw, ho, Act.putTrain_same]
    simp
  unfold unholdTrain
  split
  · next h => exact untouched (by rw [h]; rfl) (by rw [h]; rfl) (by rw [h]; rfl)
  · next t h =>
    split
    · next here =>
      have held : t.heldAt p = true := decide_eq_true here
      dsimp only
      split
      · next sec hd =>
        split
        · next due =>
          by_cases hs : t.silence = 0
          · simp [endedWait, endedOrder, endedHold, h, held, Train.dueAt, hd, due, hs, Act.putTrain]
          · simp [endedWait, endedOrder, endedHold, h, held, Train.dueAt, hd, due, hs, Act.putTrain]
        · next due =>
          simp [endedWait, endedOrder, endedHold, h, held, Train.dueAt, hd, due, Act.putTrain, Act.hold, Act.order]
      · next hd =>
        simp [endedWait, endedOrder, endedHold, h, held, Train.dueAt, hd, Act.putTrain, Act.hold, Act.order]
    · next here =>
      have apart : t.heldAt p = false := decide_eq_false here
      exact untouched (by rw [h]; simp [endedHold, apart]) (by simp [endedWait, h, apart])
        (by simp [endedOrder, h, apart])

/-! ## What it does with all of them (R152) -/

/-- The trains that a hold end gathers of the records `l`. -/
def waitsOf (a : Act) (p : TpId) (b : Nat) (l : List TrainId) : List Wait :=
  l.filterMap fun i => (a.train i).bind (endedWait (a.s.tst.line.points.get p) p b i)

/-- The orders that a hold end makes of the records `l`. -/
def ordersOf (a : Act) (p : TpId) (b : Nat) (l : List TrainId) : List Made :=
  l.filterMap fun i => (a.train i).bind (endedOrder (a.s.tst.line.points.get p) p b)

theorem filterMap_concat {α β : Type} (f : α → Option β) (l : List α) (i : α) :
    (l ++ [i]).filterMap f = l.filterMap f ++ (f i).toList := by
  rw [List.filterMap_append]
  cases h : f i <;> simp [h]

/-- The hold end at `p` has taken the records `l` of the action `a`. -/
structure Unheld (p : TpId) (b : Nat) (l : List TrainId) (a : Act) (x : List Wait × Act) : Prop where
  waits : x.1 = waitsOf a p b l
  out : x.2.out = a.out ++ ordersOf a p b l
  frame : x.2 = { a with out := x.2.out, s.rrg.trains := x.2.s.rrg.trains }
  done : ∀ j ∈ l, x.2.train j = (a.train j).map (endedHold (a.s.tst.line.points.get p) p b)
  rest : ∀ j ∉ l, x.2.train j = a.train j

section
variable {p : TpId} {b : Nat} {a : Act} {i : TrainId} {l : List TrainId} {x : List Wait × Act}

theorem Unheld.step (h : Unheld p b l a x) (hi : i ∉ l) : Unheld p b (l ++ [i]) a (unholdTrain p b i x) := by
  have tst : x.2.s.tst = a.s.tst := by rw [h.frame]
  rw [unholdTrain_eq, tst, h.rest i hi]
  exact {
    waits := by rw [h.waits, waitsOf, waitsOf, filterMap_concat]
    out := by
      dsimp only
      rw [h.out, ordersOf, ordersOf, filterMap_concat, List.append_assoc]
    frame := by
      have frame := h.frame
      generalize x.2 = y at frame ⊢
      rw [frame]
      rfl
    done := fun j hj => by
      refine (Act.putTrain_train _ _ _ _).trans ?_
      split
      · next e => rw [e]
      · next e => exact h.done j ((List.mem_append.mp hj).resolve_right (by simpa using Ne.symm e))
    rest := fun j hj => by
      have apart := not_or.mp (mt List.mem_append.mpr hj)
      refine (Act.putTrain_train _ _ _ _).trans ((if_neg ?_).trans (h.rest j apart.1))
      rintro rfl
      exact apart.2 (List.mem_singleton.mpr rfl) }

theorem Unheld.steps {k : List TrainId} (h : Unheld p b l a x) (hk : (l ++ k).Nodup) :
    Unheld p b (l ++ k) a (k.foldl (fun x i => unholdTrain p b i x) x) := by
  induction k generalizing l x with
  | nil => rwa [List.append_nil]
  | cons i k ih =>
    have apart : i ∉ l := fun hi => (List.nodup_append.mp hk).2.2 i hi i List.mem_cons_self rfl
    rw [List.append_cons] at hk ⊢
    exact ih (h.step apart) hk

theorem unheld_all (p : TpId) (b : Nat) (a : Act) :
    Unheld p b (indices 48) a ((indices 48).foldl (fun x i => unholdTrain p b i x) (([] : List Wait), a)) := by
  have start : Unheld p b [] a (([] : List Wait), a) :=
    { waits := rfl, out := (List.append_nil _).symm, frame := rfl, done := fun j hj => (nomatch hj),
      rest := fun _ _ => rfl }
  exact start.steps (List.nodup_finRange 48)

end

/-- The hand-over of the trains gathered, if there are any. -/
def handOverOf (ws : List Wait) : List (List Wait) := if ws = [] then [] else [sortWaits ws]

/-- The hold end at one timing point, and nothing besides, leads from `a` to `u`. -/
structure HoldEnded (p : TpId) (b : Nat) (a u : Act) : Prop where
  frame : u = { a with
    out := a.out ++ ordersOf a p b (indices 48)
    handOvers := a.handOvers ++ handOverOf (waitsOf a p b (indices 48))
    s.rrg.trains := u.s.rrg.trains }
  train : ∀ j, u.train j = (a.train j).map (endedHold (a.s.tst.line.points.get p) p b)

theorem holdEnds_none {ps : List TpId} {a : Act} (h : boundaryTime a.s = none) : holdEnds ps a = a := by
  rw [holdEnds, h]

theorem holdEnds_one (p : TpId) {b : Nat} {a : Act} (h : boundaryTime a.s = some b) :
    HoldEnded p b a (holdEnds [p] a) := by
  obtain ⟨waits, out, frame, done, -⟩ := unheld_all p b a
  have run : holdEnds [p] a = { ((indices 48).foldl (fun x i => unholdTrain p b i x) (([] : List Wait), a)).2 with
      handOvers := a.handOvers ++ handOverOf (waitsOf a p b (indices 48)) } := by
    rw [holdEnds, h]
    dsimp only [List.foldl_cons, List.foldl_nil]
    generalize (indices 48).foldl (fun x i => unholdTrain p b i x) (([] : List Wait), a) = x at waits frame ⊢
    have kept : x.2.handOvers = a.handOvers := by rw [frame]
    rw [← waits]
    split
    · next e => rw [e, handOverOf, if_pos rfl, List.append_nil, ← kept]
    · next _ e =>
      rw [handOverOf, if_neg e, kept]
  rw [run]
  generalize (indices 48).foldl (fun x i => unholdTrain p b i x) (([] : List Wait), a) = x at out frame done ⊢
  exact ⟨by rw [← out, frame], fun j => done j (mem_indices j)⟩

end Sys2Proof.Machine
end

