-- ==== Sys2Proof/Proofs/CausesGone.lean ====
section
/-! PROOFS. A cause-gone request by the state of its record, and the hold end that a resolution can bring. -/

namespace Sys2Proof.Machine

/-! ## The zones of a resolved incident (R167) -/

/-- A zone has no entry from a source, the current one among them. -/
def Zone.FreeOf (x : Source) (q : Zone) : Prop := ∀ e ∈ q.queue ++ q.current.toList, e.source ≠ x

theorem cutCurrent_zone (y z : ZoneId) (a : Act) : (cutCurrent y a).zone z = a.zone z := by
  unfold cutCurrent
  split <;> rfl

theorem putZone_zone_self (z : ZoneId) (q : Zone) (a : Act) : (a.putZone z q).zone z = q := Table.get_set_eq _ _ _

theorem putZone_zone_other {y z : ZoneId} (h : y ≠ z) (q : Zone) (a : Act) : (a.putZone y q).zone z = a.zone z :=
  Table.get_set_ne _ _ h

theorem zoneRemove_zone_other {y z : ZoneId} (h : y ≠ z) (x : Source) (a : Act) :
    (zoneRemove x y a).zone z = a.zone z := by
  unfold zoneRemove
  dsimp only
  split
  · exact (putZone_zone_other h _ _).trans (cutCurrent_zone y z a)
  · exact putZone_zone_other h _ _

theorem zoneRemove_free (x : Source) (z : ZoneId) (a : Act) : ((zoneRemove x z a).zone z).FreeOf x := by
  unfold zoneRemove
  dsimp only
  split
  · rw [enterGuard, putZone_zone_self]
    intro e he
    simpa using (List.mem_filter.mp ((List.mem_append.mp he).resolve_right (by simp))).2
  · next h =>
    rw [putZone_zone_self]
    intro e he
    rcases List.mem_append.mp he with he | he
    · simpa using (List.mem_filter.mp he).2
    · rintro rfl
      exact h (by rw [Option.mem_toList.mp he]; rfl)

/-- Once every zone has given up the entries of a source, none has one left. -/
theorem removeEntries_free (x : Source) (z : ZoneId) (a : Act) : ((forAll 24 (zoneRemove x) a).zone z).FreeOf x :=
  foldl_reaches (Q := fun a => (a.zone z).FreeOf x) (f := fun a y => zoneRemove x y a) (zoneRemove_free x z)
    (fun b y hy hb => by rw [zoneRemove_zone_other hy]; exact hb) (mem_indices z) a

theorem holdEnds_asc (ps : List TpId) (a : Act) : (holdEnds ps a).s.asc = a.s.asc := by
  unfold holdEnds
  split
  · rfl
  · next b _ =>
    have kept := foldl_keeps (fun x : List Wait × Act => x.2.s.asc) (fun x p => (indices 48).foldl
        (fun x i => unholdTrain p b i x) x)
      (fun x p => foldl_keeps (fun x : List Wait × Act => x.2.s.asc) (fun x i => unholdTrain p b i x)
        (fun x i => by rw [unholdTrain_eq]; rfl) (indices 48) x) ps (([] : List Wait), a)
    dsimp only
    split <;> exact kept

/-! ## Resolution (R138) -/

/-- A RESOLVED record with its retention running. -/
def Incident.ended (s : State) (r : Incident) : Incident :=
  { r with state := .resolved, retention := some (cyclesAt (cycleLength s) (classRow s r.cls).retention 1) }

theorem books_records (a : Act) (j : IncId) : a.books.records.get j = a.incident j := rfl

theorem books_resolved (a : Act) : a.books.resolved = a.s.inc.resolved := rfl

section
variable {i : IncId} {r : Incident} {a : Act}

/-- What a resolution writes of the incident table, before the holds are reckoned. -/
theorem resolve_books : (resolve i r a).books
    = { a.books with records := a.s.inc.records.set i (some (r.ended a.s)), resolved := a.s.inc.resolved ++ [i] } := by
  rw [resolve, books_reckonHolds (works_removeEntries _)]
  rfl

theorem resolve_incident (j : IncId) :
    (resolve i r a).incident j = if i = j then some (r.ended a.s) else a.incident j := by
  rw [← books_records, resolve_books]
  exact Table.get_set _ _ _ _

theorem resolve_resolved : (resolve i r a).s.inc.resolved = a.s.inc.resolved ++ [i] := by
  rw [← books_resolved, resolve_books]

theorem resolve_out : ∃ rest, (resolve i r a).out
    = a.out ++ [.report ([0] ++ incidentContent .resolved (r.ended a.s))] ++ rest := by
  obtain ⟨rest, h⟩ := (works_reckonHolds (works_removeEntries (.incident r.number))
    (Act.record .resolved i (r.ended a.s) { a with s.inc.resolved := a.s.inc.resolved ++ [i] })).out
  exact ⟨rest, h.symm⟩

theorem resolve_zone (z : ZoneId) : ((resolve i r a).zone z).FreeOf (.incident r.number) := by
  rw [resolve, reckonHolds, Act.zone, holdEnds_asc]
  exact removeEntries_free _ z _

end

/-! ## A cause gone (R134) -/

section
variable {cls : IncClass} {o : IncObject} {i : IncId} {r : Incident} {a : Act}

theorem handleGone_unknown (h : findKey a.s cls o = none) : handleGone cls o a = a := by
  rw [handleGone, h]
  rfl

variable (hk : findKey a.s cls o = some i) (hr : a.incident i = some r)
include hk hr

theorem handleGone_untaken (h : r.cause ≠ .present ∨ r.state = .resolved) : handleGone cls o a = a := by
  rw [handleGone, hk, Option.bind_some, hr]
  dsimp only [Option.map_some]
  rcases h with h | h
  · exact if_neg h
  · rw [h]
    exact ite_self a

theorem handleGone_raised (hc : r.cause = .present) (hs : r.state = .raised) :
    handleGone cls o a = a.record .causeGone i { r with cause := .gone } := by
  rw [handleGone, hk, Option.bind_some, hr]
  dsimp only [Option.map_some]
  rw [if_pos hc, hs]

theorem handleGone_acknowledged (hc : r.cause = .present) (hs : r.state = .acknowledged) :
    handleGone cls o a = resolve i { r with cause := .gone } a := by
  rw [handleGone, hk, Option.bind_some, hr]
  dsimp only [Option.map_some]
  rw [if_pos hc, hs]

end

/-! ## A hold end at a timing point, read record by record (R91, R152) -/

/-- The Td that the hold end gives, where the record has one or a last passage time. -/
theorem heldTarget_known {b m x : Nat} {t : Train} (h : (match t.target, t.time with
    | some x, _ => some x
    | none, some last => some (max b (last + m))
    | none, none => none) = some x) : heldTarget b m t = x := by
  unfold heldTarget
  split at h
  · next e => rw [e]; exact Option.some.inj h
  · next e e' => rw [e, e']; exact Option.some.inj h
  · cases h

section
variable {row : Point} {p : TpId} {b x : Nat} {i : TrainId} {t : Train}

theorem endedHold_apart (h : ¬(t.state = .held ∧ t.point = some p)) : endedHold row p b t = t := by
  simp [endedHold, Train.heldAt, h]

theorem endedWait_apart (h : ¬(t.state = .held ∧ t.point = some p)) : endedWait row p b i t = none := by
  simp [endedWait, Train.heldAt, h]

theorem endedOrder_apart (h : ¬(t.state = .held ∧ t.point = some p)) : endedOrder row p b t = none := by
  simp [endedOrder, Train.heldAt, h]

theorem endedWait_train {w : Wait} (h : endedWait row p b i t = some w) : w.train = i ∧ t.silence ≠ 0 := by
  unfold endedWait at h
  split at h
  · next c =>
    obtain ⟨sec, -, rfl⟩ := Option.map_eq_some_iff.mp h
    simp only [Bool.and_eq_true, bne_iff_ne] at c
    exact ⟨rfl, c.2⟩
  · cases h

variable (hx : heldTarget b row.minDwell t = x)
include hx

theorem not_dueAt (hl : b < x ∨ row.depart = none) : t.dueAt row b = false := by
  rcases hl with h | h
  · simp [Train.dueAt, hx, h]
  · simp [Train.dueAt, h]

theorem endedWait_later (hl : b < x ∨ row.depart = none) : endedWait row p b i t = none := by
  simp [endedWait, not_dueAt hx hl]

variable (hh : t.state = .held ∧ t.point = some p)
include hh

theorem endedHold_due (hd : x ≤ b) (hs : row.depart.isSome) : endedHold row p b t = { t with target := some x } := by
  simp [endedHold, Train.heldAt, Train.dueAt, hh, hx, hd, hs]

theorem endedWait_due {sec : SecId} (hd : x ≤ b) (hs : row.depart = some sec) (h0 : t.silence ≠ 0) :
    endedWait row p b i t = some { train := i, target := x, point := p, sec := sec } := by
  simp [endedWait, Train.heldAt, Train.dueAt, hh, hx, hd, hs, h0]

variable (hl : b < x ∨ row.depart = none)
include hl

theorem endedHold_later : endedHold row p b t = { t with target := some x, state := .dwelling } := by
  simp [endedHold, Train.heldAt, hh, hx, not_dueAt hx hl]

theorem endedOrder_later : endedOrder row p b t
    = some (.order (.hold row.controller p (t.run.getD 0) (min ((x - b + 9) / 10) 254) .regulation)) := by
  simp [endedOrder, Train.heldAt, hh, hx, not_dueAt hx hl, holdSeconds]

end

/-- A list that gives something at one place alone gives just that. -/
theorem filterMap_alone {α β : Type} {f : α → Option β} {l : List α} {j : α} {y : β} (hl : l.Nodup) (hj : j ∈ l)
    (hy : f j = some y) (h : ∀ i, i ≠ j → f i = none) : l.filterMap f = [y] := by
  induction l with
  | nil => cases hj
  | cons i l ih =>
    obtain ⟨hi, hl⟩ := List.nodup_cons.mp hl
    by_cases e : i = j
    · subst e
      have rest : l.filterMap f = [] := List.filterMap_eq_nil_iff.mpr fun k hk => h k fun e => hi (e ▸ hk)
      rw [List.filterMap_cons, hy, rest]
    · rw [List.filterMap_cons, h i e]
      exact ih hl ((List.mem_cons.mp hj).resolve_left (Ne.symm e))

theorem mem_waitsOf {a : Act} {p : TpId} {b : Nat} {l : List TrainId} {w : Wait} :
    w ∈ waitsOf a p b l
      ↔ ∃ i ∈ l, ∃ t, a.train i = some t ∧ endedWait (a.s.tst.line.points.get p) p b i t = some w := by
  simp only [waitsOf, List.mem_filterMap, Option.bind_eq_some_iff]

theorem handOverOf_some {ws : List Wait} {w : Wait} (h : w ∈ ws) : ∃ v, handOverOf ws = [v] ∧ w ∈ v :=
  ⟨sortWaits ws, if_neg (List.ne_nil_of_mem h), (sortWaits_perm ws).mem_iff.mpr h⟩

theorem mem_handOverOf {ws v : List Wait} (h : v ∈ handOverOf ws) : v = sortWaits ws := by
  unfold handOverOf at h
  split at h
  · cases h
  · exact List.mem_singleton.mp h

section
variable {p : TpId} {b : Nat} {a u : Act} (h : HoldEnded p b a u)
include h

theorem HoldEnded.handOvers : u.handOvers = a.handOvers ++ handOverOf (waitsOf a p b (indices 48)) := by
  rw [h.frame]

theorem HoldEnded.out : u.out = a.out ++ ordersOf a p b (indices 48) := by
  rw [h.frame]

theorem HoldEnded.train_some {j : TrainId} {t : Train} (ht : a.train j = some t) :
    u.train j = some (endedHold (a.s.tst.line.points.get p) p b t) := by
  rw [h.train, ht]
  rfl

/-- Where no train is HELD at the timing point nothing changes. -/
theorem HoldEnded.unheld (hn : ∀ j t, a.train j = some t → ¬(t.state = .held ∧ t.point = some p)) : u = a := by
  have waits : waitsOf a p b (indices 48) = [] := List.filterMap_eq_nil_iff.mpr fun j _ => by
    cases ht : a.train j with
    | none => rfl
    | some t => exact endedWait_apart (hn j t ht)
  have orders : ordersOf a p b (indices 48) = [] := List.filterMap_eq_nil_iff.mpr fun j _ => by
    cases ht : a.train j with
    | none => rfl
    | some t => exact endedOrder_apart (hn j t ht)
  have trains : u.s.rrg.trains = a.s.rrg.trains := Table.ext_get fun j => by
    refine (h.train j).trans ?_
    cases ht : a.train j with
    | none => exact ht.symm
    | some t => exact (congrArg some (endedHold_apart (hn j t ht))).trans ht.symm
  rw [h.frame, waits, orders, trains, handOverOf, if_pos rfl, List.append_nil, List.append_nil]

/-- A train HELD alone at the timing point that is not due has the only HOLD_ORDER, and there is no hand-over. -/
theorem HoldEnded.alone {j : TrainId} {t : Train} {x : Nat} (ht : a.train j = some t)
    (hh : t.state = .held ∧ t.point = some p) (hx : heldTarget b (a.s.tst.line.points.get p).minDwell t = x)
    (hl : b < x ∨ (a.s.tst.line.points.get p).depart = none)
    (hn : ∀ i v, a.train i = some v → v.state = .held ∧ v.point = some p → i = j) :
    u.handOvers = a.handOvers
      ∧ u.out = a.out ++ [.order (.hold (a.s.tst.line.points.get p).controller p (t.run.getD 0)
        (min ((x - b + 9) / 10) 254) .regulation)] := by
  have waits : waitsOf a p b (indices 48) = [] := List.filterMap_eq_nil_iff.mpr fun i _ => by
    cases hv : a.train i with
    | none => rfl
    | some v =>
      by_cases held : v.state = .held ∧ v.point = some p
      · obtain rfl := hn i v hv held
        cases ht.symm.trans hv
        exact endedWait_later hx hl
      · exact endedWait_apart held
  have order := (congrArg (Option.bind · (endedOrder (a.s.tst.line.points.get p) p b)) ht).trans
    (endedOrder_later hx hh hl)
  have orders := filterMap_alone
    (f := fun i => (a.train i).bind (endedOrder (a.s.tst.line.points.get p) p b)) (List.nodup_finRange 48)
    (mem_indices j) order fun i hi => by
    cases hv : a.train i with
    | none => rfl
    | some v => exact endedOrder_apart fun held => hi (hn i v hv held)
  exact ⟨by rw [h.handOvers, waits, handOverOf, if_pos rfl, List.append_nil], h.out.trans (congrArg _ orders)⟩

end

/-- Settles O32: the request by the state of its record, and the hold end by what it does with each record. -/
theorem causeGoneByRecordState : Obligations.CauseGoneByRecordState := by
  refine ⟨fun a cls o => ⟨handleGone_unknown, fun i r hk hr => ⟨handleGone_untaken hk hr, fun hc hs => ?_,
    fun hc hs => ?_⟩⟩, fun p a => ⟨holdEnds_none, fun b hb => ?_⟩⟩
  · rw [handleGone_raised hk hr hc hs]
    exact ⟨rfl, rfl⟩
  · rw [handleGone_acknowledged hk hr hc hs]
    exact ⟨(resolve_incident i).trans (if_pos rfl), fun j hj => (resolve_incident j).trans (if_neg (Ne.symm hj)),
      resolve_resolved, resolve_zone, resolve_out⟩
  have ended := holdEnds_one p hb
  have kept {γ : Type} (f : Act → γ) := congrArg f ended.frame
  refine ⟨kept (·.s.psv), kept (·.s.rrg.memory), kept (·.requests), fun j t ht hn => ?_, fun j t x ht hh hx =>
    ⟨fun hd hs => ?_, fun hl => ?_, fun sec hd hs h0 => ?_, fun hl hn => ?_⟩, fun j t ws ht h0 hu v hv w hw e => ?_,
    ended.unheld, fun ws hu => ?_⟩
  · rw [ended.train_some ht, endedHold_apart hn]
  · rw [ended.train_some ht, endedHold_due (heldTarget_known hx) hh hd hs]
  · rw [ended.train_some ht, endedHold_later (heldTarget_known hx) hh hl]
  · obtain ⟨ws, one, mem⟩ := handOverOf_some (mem_waitsOf.mpr
      ⟨j, mem_indices j, t, ht, endedWait_due (heldTarget_known hx) hh hd hs h0⟩)
    exact ⟨ws, by rw [ended.handOvers, one], mem⟩
  · exact ended.alone ht hh (heldTarget_known hx) hl hn
  · rw [ended.handOvers] at hu
    obtain rfl := mem_handOverOf (List.append_cancel_left hu ▸ hv)
    obtain ⟨i, -, t', ht', made⟩ := mem_waitsOf.mp ((sortWaits_perm _).mem_iff.mp hw)
    obtain ⟨rfl, heard⟩ := endedWait_train made
    rw [e] at ht'
    cases ht.symm.trans ht'
    exact heard h0
  · rw [ended.handOvers] at hu
    have mem : ws ∈ handOverOf (waitsOf a p b (indices 48)) := by
      rw [List.append_cancel_left hu]
      exact List.mem_singleton.mpr rfl
    rw [mem_handOverOf mem]
    exact sortWaits_pairwise _

end Sys2Proof.Machine
end

