-- ==== Sys2Proof/Proofs/CrowdedPassages.lean ====
section
/-! PROOFS. A passage that releases a slot, and a waiting list longer than the work its drains do. The statement on passages
asks the law of the supply for some of its parts, but not where it says that LATE_RUNNING is present once a train is late.
Where one train stands three thousand times in the list of a substation with as many slots free, the release of a slot grants
three thousand times, and each grant asks for the end of the power wait. The three drains of a PASS work off a thousand
requests each: the raise of the late test stands behind them, unhandled, when the passage ends. -/

namespace Sys2Proof.Machine

/-! ## Requests that wait behind others -/

/-- `k` requests that no record answers are handed on before `l`, and the incidents stand as in `a`. -/
structure Behind (k set : Nat) (l : List Request) (a c : Act) : Prop where
  books : c.books = a.books
  requests : c.requests = List.replicate k (waitOver set) ++ l

section
variable {k set : Nat} {l : List Request} {a c : Act}

/-- A drain works off the first thousand of them. -/
theorem Behind.drained (h : Behind (1000 + k) set l a c) (hk : findKey a.s .powerWait (.train set) = none) :
    Behind k set l a (drain c) := by
  have records : c.s.inc.records = a.s.inc.records :=
    show c.books.records = a.books.records from congrArg Inc.records h.books
  have key : findKey c.s .powerWait (.train set) = none := by
    rw [findKey, records]
    exact hk
  have asked : c.requests = List.replicate 1000 (waitOver set) ++ (List.replicate k (waitOver set) ++ l) := by
    rw [h.requests, List.replicate_add, List.append_assoc]
  rw [drain_waitOver key asked]
  exact ⟨h.books, rfl⟩

/-- A request made meanwhile stands behind them. -/
theorem Behind.requested (h : Behind (1000 + k) set l a c) (hk : findKey a.s .powerWait (.train set) = none)
    (r : Request) : Behind k set (l ++ [r]) a (c.request r) := by
  refine Behind.drained ⟨h.books, ?_⟩ hk
  rw [Act.ask_requests, h.requests, List.append_assoc]

theorem Behind.putTrain (h : Behind k set l a c) (i : TrainId) (t : Option Train) : Behind k set l a (c.putTrain i t) :=
  ⟨h.books, h.requests⟩

/-- The late test changes no incident while a thousand requests stand before its own. -/
theorem Behind.lateTest (h : Behind (1000 + 0) set l a c) (hk : findKey a.s .powerWait (.train set) = none)
    (i : TrainId) : (lateTest i c).books = a.books := by
  unfold Machine.lateTest
  split
  · exact h.books
  · dsimp only
    split
    · exact ((h.putTrain i _).requested hk _).books
    · split
      · exact ((h.putTrain i _).requested hk _).books
      · exact h.books

end

/-! ## A PASS that frees a slot beside a crowd (R65, R70, R110) -/

/-- Record `i` runs with a slot, and when it gives the slot up a crowd of three thousand is granted. -/
structure PassCrowd (i : TrainId) (b : SubId) (w : Wait) (set : Nat) (a : Act) : Prop where
  train : ∃ t, a.train i = some t ∧ t.state = .running ∧ t.slot.isSome
  nothing : a.requests = []
  noWait : findKey a.s .powerWait (.train set) = none
  crowd : Crowd (1000 + (1000 + (1000 + 0))) b w set (dropSlot i a)

section
variable {i : TrainId} {b : SubId} {w : Wait} {set : Nat} {a : Act}

theorem works_dropSlot (i : TrainId) (a : Act) : Works a (dropSlot i a) := by
  unfold dropSlot
  split
  · exact Works.refl a
  · exact (works_onSupply _ _ a).trans (works_onTrain _ _ _)

theorem dropSlot_requests (i : TrainId) (a : Act) : (dropSlot i a).requests = a.requests := by
  unfold dropSlot
  split <;> rfl

theorem works_serviceAnnouncement (i : TrainId) (p : TpId) (time : Option Nat) (b : Bool) (a : Act) :
    Works a (serviceAnnouncement i p time b a) := by
  unfold serviceAnnouncement
  dsimp only
  split
  · split
    · split
      · exact works_placeEntry _ _ a
      · exact Works.refl a
    · exact Works.refl a
  · exact Works.refl a

/-- The release of the slot leaves three thousand requests. -/
theorem PassCrowd.released (h : PassCrowd i b w set a) :
    Behind (1000 + (1000 + (1000 + 0))) set [] a (releaseSlot i (endAnyStop i a)) := by
  obtain ⟨t, ht, running, slot⟩ := h.train
  have runs : endAnyStop i a = a := by
    refine if_neg ?_
    rw [ht, Option.map_some, running]
    decide
  have held : ((a.train i).bind (·.slot)).isSome = true := by
    rw [ht]
    exact slot
  rw [runs, releaseSlot, if_pos held]
  refine ⟨((works_dropSlot i a).trans (works_grantAll _)).books, ?_⟩
  rw [h.crowd.grantAll, h.crowd.grants.1.requests, dropSlot_requests, h.nothing, List.nil_append, List.append_nil]

/-- A thousand of them stand when the event's work is done. -/
theorem PassCrowd.passThrough (h : PassCrowd i b w set a) (p : TpId) (time : Option Nat) :
    ∃ l, Behind (1000 + 0) set l a (passThrough i p time a) := by
  have drained := h.released.drained h.noWait
  obtain ⟨t, ht, -⟩ := h.train
  have used : (drain (releaseSlot i (endAnyStop i a))).inUse i = true := by
    rw [inUse_drain, inUse_releaseSlot, inUse_endAnyStop, Act.inUse, ht]
    rfl
  obtain ⟨v, hv⟩ := train_of_inUse used
  unfold Machine.passThrough
  dsimp only
  rw [hv]
  exact ⟨_, (drained.putTrain i _).requested h.noWait _⟩

/-- The whole PASS changes no incident. -/
theorem PassCrowd.passageFor {x : Passage} (h : PassCrowd i b w set (a.onTrain i fun t => { t with silence := 480 }))
    (he : x.event = .pass) (hn : x.run = 0) (hr : removes a.s x = false) :
    (passageFor i x a).1.books = a.books := by
  obtain ⟨l, behind⟩ := h.passThrough x.point (passageTime a.s x.offset)
  have bound : applyRun i x.run a = a := if_pos (.inl hn)
  unfold Machine.passageFor eventWork
  dsimp only
  rw [bound, hr, if_neg Bool.false_ne_true, he]
  dsimp only
  rw [(works_serviceAnnouncement _ _ _ _ _).books]
  split
  · exact behind.books
  · exact behind.lateTest h.noWait i

end

/-! ## A state with such a crowd -/

/-- The place at which train record 1 stands three thousand times. -/
def awaited : Wait := { train := 1, target := 0, point := 0, sec := 0 }

/-- A profile of one run, which is due at timing point 0 at the start of the day. -/
def earlyProfile : Profile :=
  { name := [], params := preparedParams, patterns := Table.fill 16 [{ point := 0, runTime := 0, dwell := 0 }]
    runs := [{ number := 1, pattern := 0, origin := 0, destination := 0 }], check := 0 }

/-- Train set 1, bound to the run and holding a slot of substation 0. -/
def lateTrain : Train := { newTrain 1 with run := some 1, slot := some { sub := 0, left := 1 } }

/-- The part late in the day with this profile and train, and with train set 2 three thousand times in the list of a
substation of three thousand slots, which supplies section 0. -/
def passedState : State :=
  { State.reset with
    links := { a := true, b := false, room := false }
    lck := { Lck.start with lock := .locked, dayTime := 107999999 }
    tst := { Tst.start with
      lineState := .valid, slots := Tst.start.slots.set 0 { state := .active, profile := some earlyProfile } }
    rrg := { Rrg.start with trains := (Rrg.start.trains.set 0 (some lateTrain)).set 1 (some (newTrain 2)) }
    psv :=
      { subs := Psv.start.subs.set 0 { Supply.start with
          capacity := 3000, held := 1, waits := List.replicate (1000 + (1000 + (1000 + 0))) awaited }
        secs := Psv.start.secs.set 0 { state := some .energized, source := some (0, .a) }
        deadWaits := [] } }

/-- The PASS of train set 1 at timing point 0. -/
def latePass : Passage := { set := 1, run := 0, point := 0, event := .pass, offset := 0 }

def passingHead : Header := { dest := 1, src := 9, flags := 0 }

theorem passedState_accepted :
    Accepted passedState .a (passageTelegram passingHead 1 0 0 2 0) (.passage latePass) where
  awake := rfl
  link := rfl
  size := by decide
  foreign := by decide
  direct := by decide
  form := by decide
  fresh := .inr (by decide)

theorem passedState_record : passageRecord passedState 1 0 lateTrain := .inl ⟨by decide, rfl⟩

theorem passedState_waits {c : SubId} (h : 0 ≠ c) : (passedState.psv.subs.get c).waits = [] := by
  rw [show passedState.psv.subs = (Table.fill 8 Supply.start).set 0 _ from rfl, Table.get_set, if_neg h, Table.get_fill]
  rfl

/-- The act in which the handling of the PASS begins. -/
def passingAct : Act := recorded (remember (passageTelegram passingHead 1 0 0 2 0) passedState) 0 lateTrain

/-- Record 0 heard again, its slot given up. -/
def slotFreed : Act := dropSlot 0 (passingAct.onTrain 0 fun t => { t with silence := 480 })

theorem slotFreed_supply {c : SubId} (h : 0 ≠ c) : slotFreed.supply c = passedState.psv.subs.get c :=
  Table.get_set_ne passedState.psv.subs _ h

theorem passingAct_crowd : PassCrowd 0 0 awaited 2 (passingAct.onTrain 0 fun t => { t with silence := 480 }) where
  train := ⟨{ lateTrain with silence := 480 }, rfl, rfl, rfl⟩
  nothing := rfl
  noWait := by decide
  crowd :=
    { train := ⟨newTrain 2, rfl, rfl⟩
      uncovered := by decide
      source := by decide
      free := by decide
      list := rfl
      others := fun c hc => (congrArg Supply.waits (slotFreed_supply hc)).trans (passedState_waits hc)
      dead := rfl }

theorem forwardThenFinish_inc (a : Act) (t : Telegram) : (forwardThenFinish (a, some t)).inc = a.s.inc := by
  rw [forwardThenFinish_frame]

theorem tables_of_books {a : Act} {u : Inc} (h : a.books = u) :
    a.s.inc.records = u.records ∧ a.s.inc.refused = u.refused := by
  subst h
  exact ⟨rfl, rfl⟩

theorem passing_books : (passageFor 0 latePass passingAct).1.books = passedState.inc :=
  passingAct_crowd.passageFor rfl rfl (by decide)

theorem passing_handled :
    handlePassage latePass (Act.start (remember (passageTelegram passingHead 1 0 0 2 0) passedState))
      = ((passageFor 0 latePass passingAct).1, some (passageFor 0 latePass passingAct).2) :=
  handlePassage_recorded (by decide) (.inl ⟨by decide, rfl⟩)

/-- The PASS leads to a state whose incident table is the one before it. -/
theorem exec_passing : ∃ v, exec (.passage .a passingHead 1 0 0 2 0) passedState = .next (settle v)
    ∧ v.inc.records = passedState.inc.records ∧ v.inc.refused = passedState.inc.refused := by
  refine ⟨_, exec_passage_accepted passedState_accepted (by decide), ?_⟩
  rw [passing_handled, forwardThenFinish_inc]
  dsimp only
  exact tables_of_books passing_books

theorem passedState_incLaw : IncLaw passedState.inc :=
  incLaw_of_empty (fun i => Table.get_fill _ i) rfl ⟨by decide, by decide⟩ (by decide)

theorem passedState_dev : (lateTrain.heard passedState latePass).dev = 32767 := by decide

/-- Refutes O18: the clause on LATE_RUNNING asks no law of the supply. In `passedState` the PASS makes train set 1 late and no
raise is refused, yet no record holds its cause. -/
theorem not_passageWritesRecord : ¬ Obligations.PassageWritesRecord := by
  intro h
  obtain ⟨u, r, run, -, told, -, -, -, -, ⟨late, raised, -⟩, -⟩ := h passedState .a passingHead 1 0 0 2 0 latePass 0
    lateTrain passedState_accepted (by decide) (by decide) passedState_record (fun e => nomatch e.1)
  obtain ⟨v, run', records, refused⟩ := exec_passing
  have inc : u.inc = v.inc := by
    have same : settle u = settle v := Host.Outcome.next.inj (run.symm.trans run')
    have blocks := (blocks_settle u).symm.trans ((congrArg State.blocks same).trans (blocks_settle v))
    exact congrArg (fun x => x.2.2.2.2.1) blocks
  have dev : r.dev = 32767 := (congrArg (fun x => x.2.2.2.2.2.1) told).trans passedState_dev
  have newlyLate : r.late = true := by
    rw [late, dev, if_neg (by decide)]
    exact .inl (by decide)
  have unrefused : NoneRefused passedState u := ⟨passedState_incLaw, by decide, by rw [inc, refused]⟩
  obtain ⟨j, c, hc, -⟩ := raised (fun kept => nomatch kept.1) newlyLate unrefused
  rw [inc, records] at hc
  cases (Table.get_fill none j).symm.trans hc

end Sys2Proof.Machine
end

