-- ==== Sys2Proof/Proofs/DepartureTarget.lean ====
section
/-! PROOFS. Departure regulation: what each stage of the departure computation gives, and what an arrival writes of its train
from it. -/

namespace Sys2Proof.Machine

section
variable {x : Inputs} {p : Nat}

/-! ## The timetable and the headway (R79, R80) -/

theorem Inputs.lastRelease_some (h : x.released = some p) (hp : p ≤ x.time) : x.lastRelease = some p := by
  simp [Inputs.lastRelease, h, hp]

theorem Inputs.lastRelease_none (h : x.released = none ∨ ∃ p, x.released = some p ∧ x.time < p) : x.lastRelease = none := by
  obtain h | ⟨p, h, hp⟩ := h
  · simp [Inputs.lastRelease, h]
  · simp [Inputs.lastRelease, h, hp]

theorem Inputs.headway_scheduled {m : Matched} {sp : Nat} (hm : x.sched = some m) (hsp : x.releasedSched = some sp)
    (h : sp < m.departure) : x.headway = (m.departure : Int) - sp := by
  simp [Inputs.headway, hm, hsp, h]

theorem Inputs.headway_default (h : x.sched = none ∨ x.releasedSched = none
    ∨ ∃ m sp, x.sched = some m ∧ x.releasedSched = some sp ∧ m.departure ≤ sp) : x.headway = x.hn := by
  unfold Inputs.headway
  obtain h | h | ⟨m, sp, hm, hsp, hle⟩ := h
  · rw [h]
  · rw [h]
    cases x.sched <;> rfl
  · rw [hm, hsp]
    exact if_neg (Nat.not_lt.mpr hle)

theorem Inputs.spacing_none (h : x.lastRelease = none) : x.spacing = none := by
  simp [Inputs.spacing, h]

theorem Inputs.spacing_some (h : x.lastRelease = some p) : x.spacing = some ((p : Int) + x.headway) := by
  simp [Inputs.spacing, h]

/-! ## The blend (R81) -/

/-- Adding half the divisor and rounding down is rounding with a half upward. -/
theorem Inputs.blend_weighted {tt th : Int} (ht : x.timetable = some tt) (hs : x.spacing = some th) :
    x.blend = tt + Int.fdiv ((th - tt) * x.w + 8) 16 := by
  rw [Int.fdiv_eq_ediv_of_nonneg _ (by decide)]
  simp [Inputs.blend, ht, hs]

theorem Inputs.blend_timetable {tt : Int} (ht : x.timetable = some tt) (hs : x.spacing = none) : x.blend = tt := by
  simp [Inputs.blend, ht, hs]

theorem Inputs.blend_spacing {th : Int} (ht : x.timetable = none) (hs : x.spacing = some th) : x.blend = th := by
  simp [Inputs.blend, ht, hs]

theorem Inputs.blend_dwell (ht : x.timetable = none) (hs : x.spacing = none) : x.blend = x.time + x.defDwell := by
  simp [Inputs.blend, ht, hs]

/-! ## The bounds (R82) -/

theorem Inputs.lower_of_release (h : x.lastRelease = some p) : x.lower = max (x.time + x.minDwell) (p + x.hmin) := by
  simp [Inputs.lower, h]

theorem Inputs.lower_of_none (h : x.lastRelease = none) : x.lower = x.time + x.minDwell := by
  simp [Inputs.lower, h]

theorem Inputs.minDwell_le_lower (x : Inputs) : x.time + x.minDwell ≤ x.lower := by
  cases h : x.lastRelease with
  | none => exact (Inputs.lower_of_none h).ge
  | some p => exact (Inputs.lower_of_release h).ge.trans' (le_max_left _ _)

theorem Inputs.conflict_iff : x.conflict = true ↔ x.upper < x.lower := decide_eq_true_iff

theorem Inputs.conflict_eq_false (h : x.lower ≤ x.upper) : x.conflict = false := decide_eq_false (Nat.not_lt.mpr h)

theorem Inputs.bounded_of_conflict (h : x.upper < x.lower) : x.bounded = x.lower :=
  if_pos (Inputs.conflict_iff.mpr h)

theorem Inputs.bounded_of_ordered (h : x.lower ≤ x.upper) :
    (x.bounded : Int) = max (x.lower : Int) (min x.upper x.blend) := by
  rw [Inputs.bounded, Inputs.conflict_eq_false h, if_neg Bool.false_ne_true]
  exact Int.toNat_of_nonneg (le_max_of_le_left (Int.natCast_nonneg _))

theorem Inputs.bounded_mem (h : x.lower ≤ x.upper) : x.lower ≤ x.bounded ∧ x.bounded ≤ x.upper := by
  have := Inputs.bounded_of_ordered h
  omega

theorem Inputs.bounded_eq_blend (h : x.lower ≤ x.upper) (hlo : (x.lower : Int) ≤ x.blend) (hup : x.blend ≤ x.upper) :
    (x.bounded : Int) = x.blend := by
  rw [Inputs.bounded_of_ordered h, min_eq_right hup, max_eq_right hlo]

theorem Inputs.lower_le_bounded (x : Inputs) : x.lower ≤ x.bounded := by
  obtain h | h := Nat.lt_or_ge x.upper x.lower
  · exact (Inputs.bounded_of_conflict h).ge
  · exact (Inputs.bounded_mem h).1

/-! ## The overrides (R83) -/

theorem Inputs.target_held (x : Inputs) (prepared free : Bool) : x.target true prepared free = (none, false) := rfl

theorem Inputs.target_prepared (x : Inputs) (free : Bool) :
    (x.target false true free).1 = some (x.time + max x.defDwell x.minDwell) :=
  congrArg some (Nat.add_max_add_left ..)

theorem Inputs.target_free (x : Inputs) : (x.target false false true).1 = some (x.time + max x.dwell x.minDwell) :=
  congrArg some (Nat.add_max_add_left ..)

theorem Inputs.target_bounded (x : Inputs) : x.target false false false = (some x.bounded, x.conflict) := rfl

end

/-- Settles O21: the bounds are those of stage 5, and each clause is what one stage gives. -/
theorem departureTargetKeepsBounds : Obligations.DepartureTargetKeepsBounds := by
  intro x lo up
  have lower : lo = x.lower := by
    cases h : x.released with
    | none => simp only [lo, h, Inputs.lower_of_none (Inputs.lastRelease_none (.inl h))]
    | some p =>
      obtain hp | hp := Nat.lt_or_ge x.time p
      · simp only [lo, h, if_neg (Nat.not_le.mpr hp), Inputs.lower_of_none (Inputs.lastRelease_none (.inr ⟨p, h, hp⟩))]
      · simp only [lo, h, if_pos hp, Inputs.lower_of_release (Inputs.lastRelease_some h hp)]
  have upper : up = x.upper := by
    cases h : x.sched <;> simp only [up, Inputs.upper, Inputs.dwell, h]
  rw [lower, upper, Inputs.target_bounded]
  refine ⟨rfl, fun h => Inputs.spacing_none (Inputs.lastRelease_none h), fun p h hp => ?_,
    fun _ _ => Inputs.blend_weighted, fun _ => Inputs.blend_timetable, fun _ => Inputs.blend_spacing, Inputs.blend_dwell,
    fun _ _ _ _ => rfl, rfl, fun h => ⟨Inputs.bounded_of_conflict h, Inputs.conflict_iff.mpr h⟩,
    fun h => ⟨Inputs.bounded_mem h, Inputs.conflict_eq_false h, Inputs.bounded_eq_blend h⟩,
    x.minDwell_le_lower.trans x.lower_le_bounded, fun p h hp => ?_⟩
  · have released := Inputs.spacing_some (Inputs.lastRelease_some h hp)
    exact ⟨fun m sp hm hsp hlt => by rw [released, Inputs.headway_scheduled hm hsp hlt],
      fun hn => by rw [released, Inputs.headway_default hn]⟩
  · have bound := Inputs.lower_of_release (Inputs.lastRelease_some h hp)
    exact (bound.ge.trans' (le_max_right _ _)).trans x.lower_le_bounded

/-! ## What an arrival writes (R83, R84) -/

section
variable {i : TrainId} {p : TpId} {now : Nat} {a : Act} {t : Train}

theorem regulate_of_no_target (ht : a.train i = some t) (h : (departureTarget a.s p now t).1 = none) :
    (regulate i p now a).1
      = (a.putTrain i (some { t.matched (matchStep a.s t p) (some now) with target := none, state := .held })).order
          (.hold (a.s.tst.line.points.get p).controller p (t.run.getD 0) 255 .incident) := by
  have run := (t.matched_roll (matchStep a.s t p) (some now)).2.1
  unfold departureTarget at h
  simp only [regulate, ht, h, Act.hold, run]
  rfl

theorem regulate_of_target {td : Nat} (ht : a.train i = some t) (h : (departureTarget a.s p now t).1 = some td) :
    (regulate i p now a).1
      = (a.putTrain i (some { t.matched (matchStep a.s t p) (some now) with target := some td, state := .dwelling })).order
          (.hold (a.s.tst.line.points.get p).controller p (t.run.getD 0) (min ((td - now + 9) / 10) 254) .regulation) := by
  have run := (t.matched_roll (matchStep a.s t p) (some now)).2.1
  unfold departureTarget at h
  simp only [regulate, ht, h, Act.hold, run]
  rfl

end

section
variable {s : State} {p : TpId} (now : Nat) (t : Train)

theorem departureTarget_held (h : underHold s p = true) : (departureTarget s p now t).1 = none := by
  rw [departureTarget, h, Inputs.target_held]

theorem departureTarget_prepared (h : underHold s p = false) (hm : mode s = .prepared) :
    (departureTarget s p now t).1
      = some (now + max (s.tst.line.points.get p).dwell (s.tst.line.points.get p).minDwell) := by
  rw [departureTarget, h, decide_eq_true hm, Inputs.target_prepared]
  rfl

theorem departureTarget_free (h : underHold s p = false) (hm : mode s ≠ .prepared)
    (hf : s.lck.lock = .unlocked ∨ underSuspend s p = true) :
    (departureTarget s p now t).1
      = some (now + max (regulationInputs s p now (matchStep s t p)).dwell (s.tst.line.points.get p).minDwell) := by
  have free : (decide (s.lck.lock = .unlocked) || underSuspend s p) = true := by simpa using hf
  rw [departureTarget, h, decide_eq_false hm, free, Inputs.target_free]
  rfl

theorem departureTarget_bounded (h : underHold s p = false) (hm : mode s ≠ .prepared) (hl : s.lck.lock ≠ .unlocked)
    (hs : underSuspend s p = false) :
    (departureTarget s p now t).1 = some (regulationInputs s p now (matchStep s t p)).bounded := by
  rw [departureTarget, h, decide_eq_false hm, decide_eq_false hl, hs, Bool.or_false, Inputs.target_bounded]

end

/-- Settles O22: HOLD leaves no target; otherwise the overrides are taken in order, and each leaves one. -/
theorem arrivalGivesTarget : Obligations.ArrivalGivesTarget := by
  intro i p now a t ht m x u row
  refine ⟨fun h => regulate_of_no_target ht (departureTarget_held now t h), fun h => ?_⟩
  by_cases hm : mode a.s = .prepared
  · exact ⟨_, regulate_of_target ht (departureTarget_prepared now t h hm), fun _ => rfl, fun hn => absurd hm hn,
      fun hn => absurd hm hn⟩
  · by_cases hf : a.s.lck.lock = .unlocked ∨ underSuspend a.s p = true
    · exact ⟨_, regulate_of_target ht (departureTarget_free now t h hm hf), fun hp => absurd hp hm, fun _ _ => rfl,
        fun _ hl hs => (hf.elim hl fun e => Bool.false_ne_true (hs.symm.trans e)).elim⟩
    · have hl : a.s.lck.lock ≠ .unlocked := fun e => hf (.inl e)
      have hs : underSuspend a.s p = false := Bool.eq_false_iff.mpr fun e => hf (.inr e)
      exact ⟨_, regulate_of_target ht (departureTarget_bounded now t h hm hl hs), fun hp => absurd hp hm,
        fun _ hfree => absurd hfree hf, fun _ _ _ => rfl⟩

end Sys2Proof.Machine
end

