-- ==== Sys2Proof/Proofs/SectionPicture.lean ====
section
/-! PROOFS. The table of feeds, and the state and slot source of a section by the judgements of its feeds. -/

namespace Sys2Proof.Machine

/-- The picture of a section with feed A alone, by its judgement. -/
def pictureOfOne (a : SubId) : Feed → Picture
  | .available => { state := some .energized, source := some (a, .a) }
  | .uncertain => { state := some .uncertain, source := some (a, .a) }
  | .unavailable => { state := some .dead, source := none }

/-- The picture of a section with two feeds, by their judgements. -/
def pictureOfTwo (a b : SubId) : Feed → Feed → Picture
  | .available, .available => { state := some .energized, source := some (a, .a) }
  | .available, _ => { state := some .singleFed, source := some (a, .a) }
  | _, .available => { state := some .singleFed, source := some (b, .b) }
  | .uncertain, _ => { state := some .uncertain, source := some (a, .a) }
  | .unavailable, .uncertain => { state := some .uncertain, source := some (b, .b) }
  | .unavailable, .unavailable => { state := some .dead, source := none }

theorem pictureOf_unused {psv : Psv} {x : Sec} (h : x.used = false) : pictureOf psv x = { state := none, source := none } := by
  rw [pictureOf, h]
  rfl

theorem pictureOf_one {psv : Psv} {x : Sec} (h : x.used = true) (hb : x.subB = none) :
    pictureOf psv x = pictureOfOne x.subA (feedOf psv x.subA x.feederA) := by
  rw [pictureOf, h, sectionFeeds, hb]
  cases feedOf psv x.subA x.feederA <;> rfl

theorem pictureOf_two {psv : Psv} {x : Sec} {b : SubId} (h : x.used = true) (hb : x.subB = some b) :
    pictureOf psv x = pictureOfTwo x.subA b (feedOf psv x.subA x.feederA) (feedOf psv b x.feederB) := by
  have feeds : sectionFeeds psv x = [(x.subA, .a, feedOf psv x.subA x.feederA), (b, .b, feedOf psv b x.feederB)] := by
    rw [sectionFeeds, hb]
  rw [pictureOf, h, feeds]
  cases feedOf psv x.subA x.feederA <;> cases feedOf psv b x.feederB <;> rfl

/-- A feeder beyond the reported list keeps its memory. -/
theorem report_feeders_beyond (v : Supply) (closed : Bool) (load : Nat) {feeders : List Bool} (n : Nat) {f : FeederId}
    (h : feeders.length ≤ f.val) : (v.report closed load feeders n).feeders.get f = v.feeders.get f := by
  rw [Supply.report, reportFeeders, Table.get_build, List.getElem?_eq_none h]

/-- Right after validation every substation is at its start. -/
theorem supplyValidated_heard (a : Act) (b : SubId) :
    ((supplyValidated a).supply b).state = .unknown ∧ ((supplyValidated a).supply b).feeders = Supply.start.feeders := by
  simp [supplyValidated, derived, Act.supply, Supply.start]

/-- Right after validation every feed is uncertain. -/
theorem supplyValidated_feedOf (a : Act) (b : SubId) (f : FeederId) : feedOf (supplyValidated a).s.psv b f = .uncertain := by
  obtain ⟨state, feeders⟩ := supplyValidated_heard a b
  rw [feedOf, show ((supplyValidated a).s.psv.subs.get b).state = _ from state,
    show ((supplyValidated a).s.psv.subs.get b).feeders = _ from feeders, Supply.start, Table.get_fill]
  rfl

/-- Where every feed is uncertain, the source of a section is the substation of its feed A. -/
theorem pictureOf_uncertain {psv : Psv} {x : Sec} (h : x.used = true) (all : ∀ b f, feedOf psv b f = .uncertain) :
    pictureOf psv x = { state := some .uncertain, source := some (x.subA, .a) } := by
  cases hb : x.subB with
  | none => rw [pictureOf_one h hb, all]; rfl
  | some b => rw [pictureOf_two h hb, all, all]; rfl

theorem supplyValidated_picture (a : Act) {i : SecId} (h : (a.s.tst.line.secs.get i).used = true) :
    (supplyValidated a).s.psv.secs.get i
      = { state := some .uncertain, source := some ((a.s.tst.line.secs.get i).subA, .a) } := by
  have stands : pictureStands (supplyValidated a).s := pictureStands_derived _
  obtain ⟨-, sections⟩ := stands
  rw [sections]
  exact pictureOf_uncertain h (supplyValidated_feedOf a)

/-- Settles O26: the picture of a section with one feed and with two is read off a table of judgements, and right after
validation every feed is uncertain. -/
theorem sectionPictureFromFeeds : Obligations.SectionPictureFromFeeds := by
  refine ⟨⟨rfl, rfl, rfl, ?_, fun m => by cases m <;> rfl⟩, fun _ _ _ => rfl,
    fun v closed load feeders n f h => report_feeders_beyond v closed load n h, fun _ _ h => pictureOf_unused h,
    fun psv x hx => ?_, fun image l n h p x hp => ?_, fun a => ⟨fun b => ?_, fun i hi => ?_⟩⟩
  · rintro st (rfl | rfl) <;> exact ⟨rfl, rfl, rfl⟩
  · cases hb : x.subB with
    | none =>
      rw [pictureOf_one hx hb]
      cases feedOf psv x.subA x.feederA <;> simp [pictureOfOne]
    | some b =>
      rw [pictureOf_two hx hb]
      cases feedOf psv x.subA x.feederA <;> cases hB : feedOf psv b x.feederB <;> simp [pictureOfTwo, hB]
  · obtain ⟨-, points, -⟩ := validImagesKeepRanges image l n h
    obtain ⟨-, -, -, depart⟩ := points p
    exact depart x hp
  · obtain ⟨state, feeders⟩ := supplyValidated_heard a b
    exact ⟨state, fun f => by rw [feeders, Supply.start, Table.get_fill]⟩
  · exact supplyValidated_picture a hi

end Sys2Proof.Machine
end

