-- ==== Sys2Proof/Proofs/SupplyCountdowns.lean ====
section
/-! PROOFS. The telemetry and credit expiries of a substation: one substation is written, the picture is derived, and the causes
of what changed follow. -/

namespace Sys2Proof.Machine

/-! ## One substation written -/

/-- The derivation after one substation has been written. -/
@[irreducible] def supplyWritten (b : SubId) (f : Supply → Supply) (a : Act) : Act :=
  deriveSupply (tripRequests b (a.supply b) (f (a.supply b))) [] (a.onSupply b f)

section
variable {b c : SubId} {f : Supply → Supply} {a : Act} {r : Request}

theorem supplyWritten_heard (b : SubId) (f : Supply → Supply) (a : Act) (c : SubId) :
    ((supplyWritten b f a).supply c).heard = (if b = c then f (a.supply c) else a.supply c).heard := by
  unfold supplyWritten
  rw [Act.supply, heard_deriveSupply, ← Act.supply, Act.onSupply_supply]

theorem supplyWritten_secs (b : SubId) (f : Supply → Supply) (a : Act) :
    (supplyWritten b f a).s.psv.secs = (derived (a.onSupply b f).s).secs := by
  unfold supplyWritten
  exact secs_deriveSupply _ _ _

/-- A substation whose state stands has nothing asked of the INC. -/
theorem tripRequests_same {old new : Supply} (h : new.state = old.state) : tripRequests b old new = [] := by
  rw [tripRequests, h]
  cases old.state <;> simp

/-- Of a substation that is STALE the silence is raised. -/
theorem tripRequests_stale {old new : Supply} (hs : new.state = .stale) (h : r ∈ tripRequests b old new)
    (hk : r.key = (.telemetryLoss, .substation b)) : r = .raise .telemetryLoss (.substation b) true := by
  simp only [tripRequests, List.mem_append, List.mem_ite_nil_right, List.mem_singleton] at h
  rcases h with ((⟨⟨-, hn⟩, rfl⟩ | ⟨-, rfl⟩) | ⟨-, rfl⟩) | ⟨-, rfl⟩
  · exact absurd hs hn
  · cases hk
  · cases hk
  · rfl

/-- The requests of a substation's key are those of its own change. -/
theorem written_asked_substation {cls : IncClass} {s : State} {old new : Supply}
    (hr : r ∈ tripRequests b old new ++ sectionRequests s) (hk : r.key = (cls, .substation c)) :
    r ∈ tripRequests b old new := by
  rcases List.mem_append.mp hr with h | h
  · exact h
  · obtain ⟨x, -, hx⟩ := List.mem_flatMap.mp h
    cases (congrArg Prod.snd (deadRequests_key hx)).symm.trans (congrArg Prod.snd hk)

/-- The requests of a section's key are those of its own change. -/
theorem written_asked_section {x : SecId} {s : State} {old new : Supply}
    (hr : r ∈ tripRequests b old new ++ sectionRequests s) (hk : r.key = (.powerLoss, .sec x)) :
    r ∈ deadRequests x (s.psv.secs.get x) ((derived s).secs.get x) := by
  rcases List.mem_append.mp hr with h | h
  · rcases tripRequests_key h with e | e
    · cases (congrArg Prod.snd e).symm.trans (congrArg Prod.snd hk)
    · cases (congrArg Prod.snd e).symm.trans (congrArg Prod.snd hk)
  · obtain ⟨y, -, hy⟩ := List.mem_flatMap.mp h
    have same : IncObject.sec y = .sec x := (congrArg Prod.snd (deadRequests_key hy)).symm.trans (congrArg Prod.snd hk)
    cases same
    exact hy

theorem mem_written_section {x : SecId} {s : State} (l : List Request)
    (h : r ∈ deadRequests x (s.psv.secs.get x) ((derived s).secs.get x)) : r ∈ l ++ sectionRequests s :=
  List.mem_append_right _ (List.mem_flatMap.mpr ⟨x, mem_indices x, h⟩)

/-- A substation whose state has changed is the one written, and has the state written. -/
theorem state_supplyWritten (h : ((supplyWritten b f a).supply c).state ≠ (a.supply c).state) :
    c = b ∧ ((supplyWritten b f a).supply c).state = (f (a.supply b)).state := by
  have state := state_of_heard (supplyWritten_heard b f a c)
  split at state
  · next e =>
    subst e
    exact ⟨rfl, state⟩
  · exact absurd state h

section
variable {cls : IncClass} {o : IncObject}

/-- What the writing of one substation asks of the INC. -/
def writtenAsked (b : SubId) (f : Supply → Supply) (a : Act) : List Request :=
  tripRequests b (a.supply b) (f (a.supply b)) ++ sectionRequests (a.onSupply b f).s

theorem written_raised (hn : a.requests = []) (law : KeyLaw a.books) (below : a.books.refused < 65535)
    (refused : (supplyWritten b f a).books.refused = a.books.refused) (hc : cls ≠ .powerWait)
    (hall : ∀ r ∈ writtenAsked b f a, r.key = (cls, o) → r = .raise cls o true) (h : .raise cls o true ∈ writtenAsked b f a) :
    (supplyWritten b f a).books.causes cls o := by
  unfold supplyWritten at refused ⊢
  exact deriveSupply_raised [] (a := a.onSupply b f) law hn below refused hc hall h

theorem written_gone (hn : a.requests = []) (law : KeyLaw a.books) (hc : cls ≠ .powerWait)
    (hall : ∀ r ∈ writtenAsked b f a, r.key = (cls, o) → r = .gone cls o) (h : .gone cls o ∈ writtenAsked b f a) :
    ¬(supplyWritten b f a).books.causes cls o := by
  unfold supplyWritten
  exact deriveSupply_gone [] (a := a.onSupply b f) law hn hc hall h

end

/-- Where no raise is refused, the causes follow from what the writing of one substation changed. -/
theorem causesFollow_supplyWritten (hn : a.requests = []) (none_refused : NoneRefused a.s (supplyWritten b f a).s) :
    CausesFollow a.s (supplyWritten b f a).s := by
  obtain ⟨law, below, refused⟩ := none_refused
  have law := keyLaw_books law.keyLaw
  have changed (c : SubId) :
      ((supplyWritten b f a).s.psv.subs.get c).state ≠ (a.s.psv.subs.get c).state →
      c = b ∧ ((supplyWritten b f a).s.psv.subs.get c).state = (f (a.supply b)).state := state_supplyWritten
  have secs (x : SecId) : (supplyWritten b f a).s.psv.secs.get x = (derived (a.onSupply b f).s).secs.get x := by
    rw [supplyWritten_secs]
  exact {
    trip := fun c hs ht hu => by
      obtain ⟨rfl, state⟩ := changed c fun e => hs (e.symm.trans hu)
      have tripped := state.symm.trans hu
      refine causePresent_iff.mpr ?_
      refine written_raised hn law below refused IncClass.noConfusion (fun r hr hk => ?_) (List.mem_append_left _ ?_)
      · exact tripRequests_tripped tripped (written_asked_substation hr hk) hk
      · simp [tripRequests, tripped, show (a.supply c).state ≠ _ from hs, show (a.supply c).trip = _ from ht]
    restored := fun c hs ht hu => by
      obtain ⟨rfl, state⟩ := changed c fun e => hs (e.symm.trans hu)
      have online := state.symm.trans hu
      refine mt causePresent_iff.mp ?_
      refine written_gone hn law IncClass.noConfusion (fun r hr hk => ?_) (List.mem_append_left _ ?_)
      · exact tripRequests_online online (written_asked_substation hr hk) hk
      · simp [tripRequests, online, show (a.supply c).state ≠ _ from hs, show (a.supply c).trip = _ from ht]
    silent := fun c hs hu => by
      obtain ⟨rfl, state⟩ := changed c fun e => hs (e.symm.trans hu)
      have stale := state.symm.trans hu
      refine causePresent_iff.mpr ?_
      refine written_raised hn law below refused IncClass.noConfusion (fun r hr hk => ?_) (List.mem_append_left _ ?_)
      · exact tripRequests_stale stale (written_asked_substation hr hk) hk
      · simp [tripRequests, stale, show (a.supply c).state ≠ _ from hs]
    heard := fun c hs hu => by
      obtain ⟨rfl, state⟩ := changed c fun e => hu (e.trans hs)
      have heard : (f (a.supply c)).state ≠ .stale := fun e => hu (state.trans e)
      refine mt causePresent_iff.mp ?_
      refine written_gone hn law IncClass.noConfusion (fun r hr hk => ?_) (List.mem_append_left _ ?_)
      · exact tripRequests_heard heard (written_asked_substation hr hk) hk
      · simp [tripRequests, heard, show (a.supply c).state = _ from hs]
    dead := fun x hs hu => by
      rw [secs] at hu
      refine causePresent_iff.mpr ?_
      refine written_raised hn law below refused IncClass.noConfusion (fun r hr hk => ?_) (mem_written_section (x := x) _ ?_)
      · exact deadRequests_dead hu (written_asked_section hr hk)
      · rw [deadRequests, if_pos ⟨hu, hs⟩]
        exact List.mem_singleton_self _
    alive := fun x hs hu => by
      rw [secs] at hu
      refine mt causePresent_iff.mp ?_
      refine written_gone hn law IncClass.noConfusion (fun r hr hk => ?_) (mem_written_section (x := x) _ ?_)
      · exact deadRequests_alive hu (written_asked_section hr hk)
      · rw [deadRequests, if_neg fun e => hu e.1, if_pos ⟨hs, hu⟩]
        exact List.mem_singleton_self _ }

end

/-! ## The two expiries -/

/-- The work of a telemetry expiry. -/
theorem telemetryOut_one (b : SubId) (a : Act) :
    deriveSupply (telemetryOut [b] a).1 [] (telemetryOut [b] a).2 = supplyWritten b Supply.silent a := by
  rw [telemetryOut, List.flatMap_singleton]
  unfold supplyWritten
  rfl

/-- The work of a credit expiry. -/
theorem creditOut_one (b : SubId) (a : Act) :
    deriveSupply [] [] (creditOut [b] a) = supplyWritten b (fun v => { v with credit := none }) a := by
  unfold supplyWritten
  rw [tripRequests_same (old := a.supply b) (new := { a.supply b with credit := none }) rfl]
  rfl

/-- The capacity is read from what the slot pool does not write. -/
theorem effectiveCapacity_of_heard (row : Sub) {v w : Supply} (h : v.heard = w.heard) :
    effectiveCapacity row v = effectiveCapacity row w := by
  have f {γ : Type} (g : SubState × Option Bool × Option Nat × Table FeederMemory 8 × Option Nat × Option Nat × Bool → γ) :
      g v.heard = g w.heard := congrArg g h
  have state : v.state = w.state := f (·.1)
  have load : v.load = w.load := f (·.2.2.1)
  have credit : v.credit = w.credit := f (·.2.2.2.2.2.1)
  rw [effectiveCapacity, effectiveCapacity, creditOf, creditOf, state, load, credit]

theorem finish_inc (a : Act) : a.finish.inc = a.s.inc := by
  rw [Act.finish, enterMade_frame]

/-- What an expiry that writes one substation leaves, whatever it wrote. -/
theorem supplyWritten_settles (b : SubId) (f : Supply → Supply) (s : State) :
    let u := (supplyWritten b f (Act.start s)).finish
    (u.psv.subs.get b).heard = (f (s.psv.subs.get b)).heard
      ∧ (u.psv.subs.get b).capacity = effectiveCapacity (s.tst.line.subs.get b) (f (s.psv.subs.get b))
      ∧ (∀ c, c ≠ b → (u.psv.subs.get c).heard = (s.psv.subs.get c).heard)
      ∧ pictureStands u ∧ sameTrains s u ∧ u.lck = s.lck ∧ u.tst = s.tst ∧ Reported s u
      ∧ (NoneRefused s u → CausesFollow s u) := by
  intro u
  obtain ⟨lck, tst, rrg, psv⟩ := finish_blocks (supplyWritten b f (Act.start s))
  have inc : u.inc = (supplyWritten b f (Act.start s)).s.inc := finish_inc _
  have blank : (supplyWritten b f (Act.start s)).blank = s.blank := by
    unfold supplyWritten
    exact blank_deriveSupply _ _ _
  obtain ⟨tiu, lck', tst', -⟩ := blank_fields blank
  have heard := supplyWritten_heard b f (Act.start s)
  have stands : pictureStands u := by
    have derived : pictureStands (supplyWritten b f (Act.start s)).s := by
      unfold supplyWritten
      exact pictureStands_deriveSupply _ _ _
    unfold pictureStands at derived ⊢
    rwa [psv, tst]
  have own : (u.psv.subs.get b).heard = (f (s.psv.subs.get b)).heard := by
    rw [psv]
    exact (heard b).trans (by rw [if_pos rfl]; rfl)
  refine ⟨own, ?_, fun c hc => ?_, stands, ?_, lck.trans lck', tst.trans tst', ?_, fun hn => ?_⟩
  · obtain ⟨capacity, -⟩ := stands
    rw [capacity, effectiveCapacity_of_heard _ own, tst, tst']
  · rw [psv]
    exact (heard c).trans (by rw [if_neg hc.symm]; rfl)
  · have same : sameTrains s (supplyWritten b f (Act.start s)).s := by
      unfold supplyWritten
      exact sameTrains_deriveSupply _ _ _
    unfold sameTrains at same ⊢
    rwa [rrg]
  · have room : u.tiu.room = _ := room_enterMade _ _
    rw [tiu] at room
    exact ⟨_, fun x hx => madeReports_kind (List.mem_of_mem_take hx), room⟩
  · have follow := causesFollow_supplyWritten (b := b) (f := f) (a := Act.start s) rfl
      (by unfold NoneRefused at hn ⊢; rwa [← inc])
    obtain ⟨trip, restored, silent, heard, dead, alive⟩ := follow
    unfold CausePresent at *
    rw [← inc, ← psv] at *
    exact ⟨trip, restored, silent, heard, dead, alive⟩

theorem exec_telemetryTimeoutExpiry {s : State} {b : SubId} (hr : s.inReset = false) (hc : s.lck.lock ≠ .unset)
    (hd : (s.psv.subs.get b).telemetry = some 1) :
    exec (.telemetryTimeoutExpiry b) s
      = .next (settle (supplyWritten b Supply.silent (Act.start s)).finish) := by
  have row : exec (.telemetryTimeoutExpiry b) s = execTelemetryTimeoutExpiry b s := rfl
  rw [row, execTelemetryTimeoutExpiry, expire_due hr hc (by rw [hd]; rfl), telemetryOut_one]

theorem exec_creditExpiry {s : State} {b : SubId} (hr : s.inReset = false) (hc : s.lck.lock ≠ .unset)
    (hd : (s.psv.subs.get b).credit = some 1) :
    exec (.creditExpiry b) s
      = .next (settle (supplyWritten b (fun v => { v with credit := none }) (Act.start s)).finish) := by
  have row : exec (.creditExpiry b) s = execCreditExpiry b s := rfl
  rw [row, execCreditExpiry, expire_due hr hc (by rw [hd]; rfl), creditOut_one]

/-- A silent substation that is used offers one slot. -/
theorem effectiveCapacity_silent {row : Sub} (h : row.used = true) (v : Supply) : effectiveCapacity row v.silent = 1 := by
  rw [effectiveCapacity, if_pos h]
  rfl

/-- An ONLINE substation without a credit is at its base. -/
theorem effectiveCapacity_base {row : Sub} (h : row.used = true) {v : Supply} {k : Nat} (hs : v.state = .online)
    (hk : v.load = some k) : effectiveCapacity row { v with credit := none } = baseCapacity row k := by
  rw [effectiveCapacity, if_pos h, hs, hk]
  rfl

/-- Settles O28: either expiry writes one substation and has the picture derived, which asks the INC for what that changed. -/
theorem supplyCountdownsExpire : Obligations.SupplyCountdownsExpire := by
  intro s b hr hc
  refine ⟨fun hd => ?_, fun hd => ?_⟩
  · obtain ⟨own, capacity, rest⟩ := supplyWritten_settles b Supply.silent s
    exact ⟨_, exec_telemetryTimeoutExpiry hr hc hd, own, fun hu => capacity.trans (effectiveCapacity_silent hu _), rest⟩
  · obtain ⟨own, capacity, rest⟩ := supplyWritten_settles b (fun v => { v with credit := none }) s
    exact ⟨_, exec_creditExpiry hr hc hd, own, fun k hu hs hk => capacity.trans (effectiveCapacity_base hu hs hk), rest⟩

end Sys2Proof.Machine
end

