-- ==== Sys2Proof/Proofs/SlotPools.lean ====
section
/-! PROOFS. The slot pools in the middle of an action. What the law of the pools asks of slots and of places, apart from
what a grant still owes it, and how much work an action can still hand on. -/

namespace Sys2Proof.Machine

/-! ## Counting records -/

/-- How many of `n` indices have a property. -/
def countOf {n : Nat} (p : Fin n → Bool) : Nat := ((indices n).filter p).length

section
variable {n : Nat} {p q : Fin n → Bool}

theorem countOf_eq_sum (p : Fin n → Bool) : countOf p = ∑ i, (p i).toNat := by
  have sum (l : List (Fin n)) : (l.filter p).length = (l.map fun i => (p i).toNat).sum := by
    induction l with
    | nil => rfl
    | cons i l ih => cases h : p i <;> simp [h, ih, Nat.add_comm]
  rw [countOf, sum, Fin.sum_univ_def, indices]

theorem countOf_congr (h : ∀ i, p i = q i) : countOf p = countOf q := congrArg countOf (funext h)

theorem countOf_le (p : Fin n → Bool) : countOf p ≤ n :=
  (List.length_filter_le _ _).trans (List.length_finRange).le

theorem countOf_mono (h : ∀ i, p i = true → q i = true) : countOf p ≤ countOf q := by
  rw [countOf_eq_sum, countOf_eq_sum]
  exact Finset.sum_le_sum fun i _ => Bool.toNat_le_toNat (h i)

/-- Two properties that agree off one index count alike, but for that index. -/
theorem countOf_change (i : Fin n) (h : ∀ j, j ≠ i → q j = p j) :
    countOf q + (p i).toNat = countOf p + (q i).toNat := by
  have rest : ∑ j ∈ Finset.univ.erase i, (q j).toNat = ∑ j ∈ Finset.univ.erase i, (p j).toNat :=
    Finset.sum_congr rfl fun j hj => by rw [h j (Finset.ne_of_mem_erase hj)]
  rw [countOf_eq_sum, countOf_eq_sum, ← Finset.add_sum_erase _ _ (Finset.mem_univ i),
    ← Finset.add_sum_erase _ (fun j => (p j).toNat) (Finset.mem_univ i), rest]
  omega

end

/-! ## What the pools read of an action -/

/-- Whether a record is that of a train in a stop state. -/
def stopsIn (o : Option Train) : Bool := (o.map (·.state.stopped)).getD false

/-- The substation whose slot a record holds. -/
def slotIn (o : Option Train) : Option SubId := (o.bind (·.slot)).map (·.sub)

/-- What of a train record the places and the slots read. -/
def Train.post (t : Train) : TrainState × Option TpId × Option Nat × Option SubId :=
  (t.state, t.point, t.target, t.slot.map (·.sub))

/-- Whether train `i` stands in a waiting list or in the dead-wait set. -/
def Act.Listed (a : Act) (i : TrainId) : Prop :=
  (∃ b, ∃ w ∈ (a.supply b).waits, w.train = i) ∨ ∃ w ∈ a.s.psv.deadWaits, w.train = i

/-- The pieces of work that an action can still hand on, counted so that a hand-over costs one and a request two: it may end
a hold, which makes a hand-over. A train in a stop state can still be granted a slot, which asks for one request. -/
def Act.work (a : Act) : Nat :=
  2 * a.requests.length + a.handOvers.length + 2 * countOf fun i => stopsIn (a.train i)

theorem Train.of_post {t u : Train} (h : u.post = t.post) : u.state = t.state ∧ u.point = t.point ∧ u.target = t.target := by
  simp only [Train.post, Prod.mk.injEq] at h
  obtain ⟨state, point, target, -⟩ := h
  exact ⟨state, point, target⟩

theorem stopsIn_of_post {o p : Option Train} (h : o.map Train.post = p.map Train.post) : stopsIn o = stopsIn p := by
  cases o <;> cases p <;> simp_all [stopsIn, Train.post]

theorem slotIn_of_post {o p : Option Train} (h : o.map Train.post = p.map Train.post) : slotIn o = slotIn p := by
  cases o <;> cases p <;> simp_all [slotIn, Train.post]

theorem length_slotHolders (s : State) (b : SubId) :
    (slotHolders s b).length = countOf fun i => decide (slotIn (s.rrg.trains.get i) = some b) := rfl

/-! ## The law in the middle of an action -/

/-- The slots of an action: a held count is the number of records that hold a slot there, and a stopped train holds none. -/
structure Slots (a : Act) : Prop where
  held : ∀ b, (a.supply b).held = (slotHolders a.s b).length
  stopped : ∀ i, stopsIn (a.train i) = true → slotIn (a.train i) = none

/-- A place in a waiting list: its train waits for power there, or is about to, as one of those that are `entering`. -/
def Entered (entering : List TrainId) (a : Act) (w : Wait) : Prop :=
  ∃ t, a.train w.train = some t ∧ (t.state = .waitPower ∨ w.train ∈ entering ∧ t.state.stopped = true)
    ∧ t.point = some w.point ∧ t.target = some w.target

/-- The places of an action: those of the lists are in order, and a train stands in one place at most. -/
structure Places (entering : List TrainId) (a : Act) : Prop where
  lists : ∀ b, ∀ w ∈ (a.supply b).waits, Entered entering a w
  dead : ∀ w ∈ a.s.psv.deadWaits, Placed a.s .waitDead w
  apart : ∀ b c, ∀ w ∈ (a.supply b).waits, ∀ v ∈ (a.supply c).waits, w.train = v.train → b = c ∧ w = v
  deadOnce : (a.s.psv.deadWaits.map Wait.train).Nodup
  deadApart : ∀ b, ∀ w ∈ (a.supply b).waits, ∀ v ∈ a.s.psv.deadWaits, w.train ≠ v.train
  order : ∀ b, (a.supply b).waits.Pairwise fun x y => x.before y = true
  joins : ∀ b, ((a.supply b).waits.map Wait.joined).Nodup

/-- No train waits while its substation has a slot free. -/
def Act.Full (a : Act) : Prop := ∀ b, (a.supply b).waits ≠ [] → (a.supply b).capacity ≤ (a.supply b).held

/-- The law of the slot pools in the middle of an action: while `granted` is false slots may be free where trains wait, and
while trains are `entering` these wait without being in WAIT_POWER yet. Records of trains that do not stop stand as `kept`, each
hand-over names a train once, and at most `n` pieces of work are still handed on. -/
structure Pool (granted : Bool) (kept : TrainId → Option Train) (entering : List TrainId) (n : Nat) (a : Act) : Prop where
  slots : Slots a
  places : Places entering a
  full : granted = true → a.Full
  kept : ∀ i t, kept i = some t → t.state.stopped = false → a.train i = some t
  handOvers : ∀ ws ∈ a.handOvers, (ws.map Wait.train).Nodup
  work : a.work ≤ n

section
variable {granted : Bool} {kept : TrainId → Option Train} {entering : List TrainId} {n m : Nat} {a b : Act} {i : TrainId}
  {w : Wait}

theorem Entered.of_post (h : Entered entering a w) (e : (b.train w.train).map Train.post = (a.train w.train).map Train.post) :
    Entered entering b w := by
  obtain ⟨t, ht, state, point, target⟩ := h
  rw [ht] at e
  obtain ⟨u, hu, same⟩ := Option.map_eq_some_iff.mp e
  obtain ⟨hs, hp, ht⟩ := Train.of_post same
  exact ⟨u, hu, hs ▸ state, hp.trans point, ht.trans target⟩

theorem Placed.of_post {st : TrainState} (h : Placed a.s st w)
    (e : (b.train w.train).map Train.post = (a.train w.train).map Train.post) : Placed b.s st w := by
  obtain ⟨t, ht, state, point, target⟩ := h
  rw [show a.train w.train = some t from ht] at e
  obtain ⟨u, hu, same⟩ := Option.map_eq_some_iff.mp e
  obtain ⟨hs, hp, ht⟩ := Train.of_post same
  exact ⟨u, hu, hs.trans state, hp.trans point, ht.trans target⟩

/-- A train that stands in a place is in a stop state. -/
theorem Places.stops (h : Places entering a) (hi : a.Listed i) : stopsIn (a.train i) = true := by
  rcases hi with ⟨b, w, hw, rfl⟩ | ⟨w, hw, rfl⟩
  · obtain ⟨t, ht, state, -⟩ := h.lists b w hw
    rw [ht]
    rcases state with e | e
    · simp [stopsIn, e, TrainState.stopped]
    · exact e.2
  · obtain ⟨t, ht, state, -⟩ := h.dead w hw
    rw [show a.train w.train = some t from ht]
    simp [stopsIn, state, TrainState.stopped]

/-- A train that does not stop stands in no place. -/
theorem Places.unlisted (h : Places entering a) (hi : stopsIn (a.train i) = false) : ¬a.Listed i := fun hl =>
  Bool.false_ne_true (hi.symm.trans (h.stops hl))

/-- Places given up, while the records of the others stand as they are read. -/
theorem Places.fewer (h : Places entering a) (waits : ∀ c, (b.supply c).waits.Sublist (a.supply c).waits)
    (dead : b.s.psv.deadWaits.Sublist a.s.psv.deadWaits)
    (posts : ∀ j, b.Listed j → (b.train j).map Train.post = (a.train j).map Train.post) : Places entering b where
  lists c w hw := (h.lists c w ((waits c).subset hw)).of_post (posts _ (.inl ⟨c, w, hw, rfl⟩))
  dead w hw := (h.dead w (dead.subset hw)).of_post (posts _ (.inr ⟨w, hw, rfl⟩))
  apart c d w hw v hv := h.apart c d w ((waits c).subset hw) v ((waits d).subset hv)
  deadOnce := h.deadOnce.sublist (dead.map _)
  deadApart c w hw v hv := h.deadApart c w ((waits c).subset hw) v (dead.subset hv)
  order c := (h.order c).sublist (waits c)
  joins c := (h.joins c).sublist ((waits c).map _)

/-- A change of records that hold the slots they held, with as many slots held at every substation. -/
theorem Slots.of_same (h : Slots a) (held : ∀ c, (b.supply c).held = (a.supply c).held)
    (slots : ∀ j, slotIn (b.train j) = slotIn (a.train j))
    (stopped : ∀ j, stopsIn (b.train j) = true → slotIn (b.train j) = none) : Slots b := by
  refine ⟨fun c => ?_, stopped⟩
  rw [held, h.held, length_slotHolders, length_slotHolders]
  have same (j : TrainId) : slotIn (b.s.rrg.trains.get j) = slotIn (a.s.rrg.trains.get j) := slots j
  simp only [same]

theorem Act.work_le {b : Act} (hr : b.requests.length ≤ a.requests.length) (hh : b.handOvers.length ≤ a.handOvers.length)
    (hs : ∀ j, stopsIn (b.train j) = true → stopsIn (a.train j) = true) : b.work ≤ a.work := by
  have stops := countOf_mono hs
  unfold Act.work
  omega

theorem Pool.mono (h : Pool granted kept entering n a) (hn : n ≤ m) : Pool granted kept entering m a :=
  { h with work := h.work.trans hn }

/-- What holds once the grants are made holds before them. -/
theorem Pool.loose (h : Pool granted kept entering n a) : Pool false kept entering n a := { h with full := nofun }

theorem Pool.entering_mono {l : List TrainId} (h : Pool granted kept entering n a) (hl : entering ⊆ l) :
    Pool granted kept l n a :=
  { h with
    places := { h.places with
      lists := fun b w hw =>
        have ⟨t, ht, state, here⟩ := h.places.lists b w hw
        ⟨t, ht, state.imp_right (And.imp_left fun e => hl e), here⟩ } }

/-- The records of the trains that do not stop are kept. -/
theorem Pool.keeping (h : Pool granted kept entering n a) : Pool granted a.train entering n a :=
  { h with kept := fun _ _ ht _ => ht }

theorem Pool.keepingNone (h : Pool granted kept entering n a) : Pool granted (fun _ => none) entering n a :=
  { h with kept := (fun _ _ ht => nomatch ht) }

/-- Nothing of what the pools read has changed. -/
theorem Pool.of_same (h : Pool granted kept entering n a) (trains : b.s.rrg.trains = a.s.rrg.trains) (psv : b.s.psv = a.s.psv)
    (requests : b.requests = a.requests) (handOvers : b.handOvers = a.handOvers) : Pool granted kept entering n b := by
  have train (j : TrainId) : b.train j = a.train j := by rw [Act.train, Act.train, trains]
  have supply (c : SubId) : b.supply c = a.supply c := by rw [Act.supply, Act.supply, psv]
  refine ⟨h.slots.of_same (fun c => by rw [supply]) (fun j => by rw [train]) (fun j => by rw [train]; exact h.slots.stopped j),
    h.places.fewer (fun c => by rw [supply]) (by rw [psv]) (fun j _ => by rw [train]), fun hg c => ?_, fun j t => ?_, ?_, ?_⟩
  · rw [supply]
    exact h.full hg c
  · rw [train]
    exact h.kept j t
  · rw [handOvers]
    exact h.handOvers
  · exact (Act.work_le (by rw [requests]) (by rw [handOvers]) (fun j => by rw [train]; exact id)).trans h.work

/-- Records and substations change in what the pools do not read; a capacity may change where grants are still due. -/
theorem Pool.of_posts (h : Pool granted kept entering n a)
    (posts : ∀ j, (b.train j).map Train.post = (a.train j).map Train.post)
    (held : ∀ c, (b.supply c).held = (a.supply c).held) (waits : ∀ c, (b.supply c).waits = (a.supply c).waits)
    (dead : b.s.psv.deadWaits = a.s.psv.deadWaits)
    (capacity : granted = true → ∀ c, (b.supply c).capacity = (a.supply c).capacity)
    (requests : b.requests = a.requests) (handOvers : b.handOvers = a.handOvers) :
    Pool granted (fun _ => none) entering n b := by
  refine ⟨h.slots.of_same held (fun j => slotIn_of_post (posts j)) (fun j hj => ?_),
    h.places.fewer (fun c => by rw [waits]) (by rw [dead]) (fun j _ => posts j), fun hg c => ?_,
    (fun _ _ ht => nomatch ht), ?_, ?_⟩
  · rw [slotIn_of_post (posts j)]
    exact h.slots.stopped j (stopsIn_of_post (posts j) ▸ hj)
  · rw [waits, capacity hg, held]
    exact h.full hg c
  · rw [handOvers]
    exact h.handOvers
  · exact (Act.work_le (by rw [requests]) (by rw [handOvers])
      (fun j hj => stopsIn_of_post (posts j) ▸ hj)).trans h.work

end

end Sys2Proof.Machine
end

