-- ==== Sys2Proof/Proofs/SlotWrites.lean ====
section
/-! PROOFS. The writes that keep the law of the pools: a record that waits in no list, places given up, a place taken, a
slot given or dropped. -/

namespace Sys2Proof.Machine

/-! ## Writes -/

@[simp] theorem Act.onSupply_train (c : SubId) (f : Supply → Supply) (a : Act) (i : TrainId) :
    (a.onSupply c f).train i = a.train i := rfl
@[simp] theorem Act.onTrain_supply (i : TrainId) (f : Train → Train) (a : Act) (c : SubId) :
    (a.onTrain i f).supply c = a.supply c := rfl

theorem withdraw_supply (i : TrainId) (a : Act) (c : SubId) :
    (withdraw i a).supply c
      = { a.supply c with waits := (a.supply c).waits.filter fun w => decide (w.train ≠ i) } := by
  simp [Act.supply, withdraw]

/-- A withdrawn train stands in no place. -/
theorem withdraw_unlisted (i : TrainId) (a : Act) : ¬(withdraw i a).Listed i := by
  rintro (⟨c, w, hw, e⟩ | ⟨w, hw, e⟩)
  · rw [withdraw_supply] at hw
    exact of_decide_eq_true (List.mem_filter.mp hw).2 e
  · exact of_decide_eq_true (List.mem_filter.mp hw).2 e

theorem onTrain_of_train {a : Act} {i : TrainId} {t : Train} (h : a.train i = some t) (f : Train → Train) :
    a.onTrain i f = a.putTrain i (some (f t)) := by rw [Act.onTrain, h]; rfl

section
variable {granted : Bool} {kept : TrainId → Option Train} {entering : List TrainId} {n m : Nat} {a b : Act} {i : TrainId}
  {w : Wait}

/-- The rewriting of one record, with the held counts that follow from it. -/
theorem Slots.rewritten (h : Slots a) (i : TrainId) (others : ∀ j, j ≠ i → b.train j = a.train j)
    (held : ∀ c, (b.supply c).held + (decide (slotIn (a.train i) = some c)).toNat
      = (a.supply c).held + (decide (slotIn (b.train i) = some c)).toNat)
    (free : stopsIn (b.train i) = true → slotIn (b.train i) = none) : Slots b := by
  refine ⟨fun c => ?_, fun j hj => ?_⟩
  · have counts := countOf_change (p := fun j => decide (slotIn (a.train j) = some c))
      (q := fun j => decide (slotIn (b.train j) = some c)) i fun j hj => by rw [others j hj]
    have before : (a.supply c).held = countOf fun j => decide (slotIn (a.train j) = some c) := h.held c
    have written := held c
    have after : (b.supply c).held = countOf fun j => decide (slotIn (b.train j) = some c) := by omega
    exact after
  · by_cases e : j = i
    · exact e ▸ free (e ▸ hj)
    · rw [others j e] at hj ⊢
      exact h.stopped j hj

/-- One record that stands in no place is rewritten, its substations with it. -/
theorem Pool.rewritten (h : Pool granted kept entering n a) (i : TrainId) (hi : ¬a.Listed i)
    (others : ∀ j, j ≠ i → b.train j = a.train j)
    (waits : ∀ c, (b.supply c).waits = (a.supply c).waits) (dead : b.s.psv.deadWaits = a.s.psv.deadWaits)
    (held : ∀ c, (b.supply c).held + (decide (slotIn (a.train i) = some c)).toNat
      = (a.supply c).held + (decide (slotIn (b.train i) = some c)).toNat)
    (free : stopsIn (b.train i) = true → slotIn (b.train i) = none) (full : granted = true → b.Full)
    (hk : stopsIn (a.train i) = true ∨ kept i = none) (handOvers : b.handOvers = a.handOvers)
    (hm : n + 2 * b.requests.length + 2 * (stopsIn (b.train i)).toNat
      ≤ m + 2 * a.requests.length + 2 * (stopsIn (a.train i)).toNat) : Pool granted kept entering m b := by
  refine ⟨h.slots.rewritten i others held free, h.places.fewer (fun c => by rw [waits]) (by rw [dead]) (fun j hj => ?_), full,
    fun j t ht hs => ?_, by rw [handOvers]; exact h.handOvers, ?_⟩
  · rw [others]
    rintro rfl
    refine hi ?_
    rcases hj with ⟨c, w, hw, e⟩ | ⟨w, hw, e⟩
    · exact .inl ⟨c, w, waits c ▸ hw, e⟩
    · exact .inr ⟨w, dead ▸ hw, e⟩
  · have stands := h.kept j t ht hs
    rw [others, stands]
    rintro rfl
    rcases hk with e | e
    · rw [stands] at e
      exact Bool.false_ne_true (hs.symm.trans e)
    · exact nomatch ht.symm.trans e
  · have stops := countOf_change (p := fun j => stopsIn (a.train j)) (q := fun j => stopsIn (b.train j)) i
      fun j hj => by rw [others j hj]
    have before := h.work
    unfold Act.work at before ⊢
    rw [handOvers]
    omega

/-- A record that stands in no place is written, with the slot it had. -/
theorem Pool.putTrain (h : Pool granted kept entering n a) {i : TrainId} {u : Option Train} (hi : ¬a.Listed i)
    (slot : slotIn u = slotIn (a.train i)) (free : stopsIn u = true → slotIn u = none)
    (hk : stopsIn (a.train i) = true ∨ kept i = none)
    (hm : n + 2 * (stopsIn u).toNat ≤ m + 2 * (stopsIn (a.train i)).toNat) :
    Pool granted kept entering m (a.putTrain i u) := by
  refine h.rewritten i hi (fun j hj => ?_) (fun _ => rfl) rfl (fun c => ?_) ?_ (fun hg => h.full hg) hk rfl ?_
  · rw [Act.putTrain_train, if_neg hj.symm]
  · rw [Act.putTrain_train, if_pos rfl, slot]
    rfl
  · rw [Act.putTrain_train, if_pos rfl]
    exact free
  · rw [Act.putTrain_train, if_pos rfl, Act.putTrain_requests]
    omega

/-- A stopped train that stands in no place stays stopped. -/
theorem Pool.stoppedOn (h : Pool granted kept entering n a) {i : TrainId} {t : Train} (ht : a.train i = some t)
    (hs : t.state.stopped = true) (hi : ¬a.Listed i) {f : Train → Train}
    (hf : (f t).state.stopped = true ∧ (f t).slot = t.slot) : Pool granted kept entering n (a.onTrain i f) := by
  have before : stopsIn (a.train i) = true := by rw [ht]; exact hs
  have none := h.slots.stopped i before
  have slot : slotIn (some (f t)) = slotIn (a.train i) := by rw [ht]; exact congrArg (Option.map (·.sub)) hf.2
  rw [onTrain_of_train ht]
  exact h.putTrain hi slot (fun _ => slot.trans none) (.inl before)
    (by rw [before, show stopsIn (some (f t)) = true from hf.1])

/-- Places are given up. -/
theorem Pool.thinned (h : Pool granted kept entering n a) (trains : ∀ j, b.train j = a.train j)
    (pools : ∀ c, ∃ ws, b.supply c = { a.supply c with waits := ws } ∧ ws.Sublist (a.supply c).waits)
    (dead : b.s.psv.deadWaits.Sublist a.s.psv.deadWaits) (requests : b.requests = a.requests)
    (handOvers : b.handOvers = a.handOvers) : Pool granted kept entering n b := by
  refine ⟨h.slots.of_same (fun c => ?_) (fun j => by rw [trains]) (fun j => by rw [trains]; exact h.slots.stopped j),
    h.places.fewer (fun c => ?_) dead (fun j _ => by rw [trains]), fun hg c hc => ?_,
    fun j t => by rw [trains]; exact h.kept j t, by rw [handOvers]; exact h.handOvers, ?_⟩
  · obtain ⟨ws, e, -⟩ := pools c
    rw [e]
  · obtain ⟨ws, e, sub⟩ := pools c
    rw [e]
    exact sub
  · obtain ⟨ws, e, sub⟩ := pools c
    rw [e] at hc ⊢
    exact h.full hg c fun nil => hc (List.sublist_nil.mp (nil ▸ sub))
  · exact (Act.work_le (by rw [requests]) (by rw [handOvers]) (fun j => by rw [trains]; exact id)).trans h.work

theorem Pool.withdraw (h : Pool granted kept entering n a) (i : TrainId) : Pool granted kept entering n (withdraw i a) :=
  h.thinned (fun _ => rfl) (fun c => ⟨_, withdraw_supply i a c, List.filter_sublist⟩) List.filter_sublist rfl rfl

/-- A stopped train gives up its place and stays stopped. -/
theorem Pool.parked (h : Pool granted kept entering n a) {i : TrainId} (hi : a.train i ≠ none → stopsIn (a.train i) = true)
    {f : Train → Train} (hf : ∀ t, (f t).state.stopped = true ∧ (f t).slot = t.slot) :
    Pool granted kept entering n ((Machine.withdraw i a).onTrain i f) := by
  have out := h.withdraw i
  cases ht : a.train i with
  | none =>
    have same : (Machine.withdraw i a).onTrain i f = Machine.withdraw i a := by
      rw [Act.onTrain, show (Machine.withdraw i a).train i = none from ht]
      exact (congrArg (Act.putTrain i · _) ht.symm).trans (Act.putTrain_same i (Machine.withdraw i a))
    rw [same]
    exact out
  | some t =>
    have stops : stopsIn (some t) = true := ht ▸ hi (ht ▸ Option.some_ne_none t)
    exact out.stoppedOn (t := t) ht stops (withdraw_unlisted i a) (hf t)

/-! ## Places taken -/

theorem nextJoin_above (ws : List Wait) : ∀ x ∈ ws, x.joined < nextJoin ws := by
  have above (l : List Wait) (k : Nat) :
      k ≤ l.foldl (fun n w => max n (w.joined + 1)) k
        ∧ ∀ x ∈ l, x.joined < l.foldl (fun n w => max n (w.joined + 1)) k := by
    induction l generalizing k with
    | nil => exact ⟨le_refl k, nofun⟩
    | cons y l ih =>
      obtain ⟨grows, all⟩ := ih (max k (y.joined + 1))
      refine ⟨(le_max_left _ _).trans grows, fun x hx => ?_⟩
      rcases List.mem_cons.mp hx with rfl | hx
      · exact (le_max_right k _).trans grows
      · exact all x hx
  exact (above ws 0).2

/-- Of two places with join numbers of their own one stands before the other. -/
theorem Wait.before_total {x y : Wait} (h : y.before x = false) (hj : x.joined ≠ y.joined) : x.before y = true := by
  rw [Bool.eq_false_iff, ne_eq, Wait.before_iff, Fin.ext_iff] at h
  rw [Wait.before_iff, Fin.ext_iff]
  omega

/-- A list in which no place stands after the next, with join numbers of their own, is in order. -/
theorem pairwise_before {l : List Wait} (h : l.Pairwise fun x y => y.before x = false) (hj : (l.map Wait.joined).Nodup) :
    l.Pairwise fun x y => x.before y = true :=
  h.imp₂ (fun _ _ => Wait.before_total) (List.pairwise_map.mp hj)

theorem waitsWith_perm (w : Wait) (ws : List Wait) : (waitsWith w ws).Perm ({ w with joined := nextJoin ws } :: ws) :=
  insertWait_perm _ ws

theorem waitsWith_joins {ws : List Wait} (h : (ws.map Wait.joined).Nodup) (w : Wait) :
    ((waitsWith w ws).map Wait.joined).Nodup := by
  refine ((waitsWith_perm w ws).map _).nodup_iff.mpr (List.nodup_cons.mpr ⟨fun hm => ?_, h⟩)
  obtain ⟨x, hx, e⟩ := List.mem_map.mp hm
  exact absurd e (nextJoin_above ws x hx).ne

theorem waitsWith_order {ws : List Wait} (h : ws.Pairwise fun x y => x.before y = true) (hj : (ws.map Wait.joined).Nodup)
    (w : Wait) : (waitsWith w ws).Pairwise fun x y => x.before y = true :=
  pairwise_before (insertWait_pairwise _ (h.imp Wait.before_asymm)) (waitsWith_joins hj w)

/-- A train that stands in no place joins a list. -/
theorem Pool.joinList (h : Pool granted kept entering n a) (c : SubId) (hw : Entered entering a w) (hi : ¬a.Listed w.train) :
    Pool false kept entering n (joinList c w a) := by
  have waits (d : SubId) : ((Machine.joinList c w a).supply d).waits
      = if c = d then waitsWith w (a.supply d).waits else (a.supply d).waits := by
    rw [Machine.joinList, Act.onSupply_supply]
    split <;> rfl
  have member {d : SubId} {x : Wait} (hx : x ∈ ((Machine.joinList c w a).supply d).waits) :
      (c = d ∧ x = { w with joined := nextJoin (a.supply d).waits }) ∨ x ∈ (a.supply d).waits := by
    rw [waits] at hx
    split at hx
    · next e => exact (mem_waitsWith.mp hx).imp_left fun e' => ⟨e, e'⟩
    · exact .inr hx
  have absent {d : SubId} {x : Wait} (hx : x ∈ (a.supply d).waits) (e : x.train = w.train) : False :=
    hi (.inl ⟨d, x, hx, e⟩)
  refine ⟨h.slots.of_same (fun d => ?_) (fun _ => rfl) h.slots.stopped, ?_, nofun, h.kept, h.handOvers, h.work⟩
  · rw [Machine.joinList, Act.onSupply_supply]
    split <;> rfl
  · refine { lists := fun d x hx => ?_, dead := h.places.dead, apart := fun d e x hx y hy same => ?_,
             deadOnce := h.places.deadOnce, deadApart := fun d x hx v hv => ?_, order := fun d => ?_, joins := fun d => ?_ }
    · rcases member hx with ⟨-, rfl⟩ | hx
      · exact hw
      · exact h.places.lists d x hx
    · rcases member hx with ⟨rfl, rfl⟩ | hx <;> rcases member hy with ⟨rfl, rfl⟩ | hy
      · exact ⟨rfl, rfl⟩
      · exact (absent hy same.symm).elim
      · exact (absent hx same).elim
      · exact h.places.apart d e x hx y hy same
    · rcases member hx with ⟨-, rfl⟩ | hx
      · exact fun e => hi (.inr ⟨v, hv, e.symm⟩)
      · exact h.places.deadApart d x hx v hv
    · rw [waits]
      split
      · exact waitsWith_order (h.places.order d) (h.places.joins d) w
      · exact h.places.order d
    · rw [waits]
      split
      · exact waitsWith_joins (h.places.joins d) w
      · exact h.places.joins d

/-- A train that stands in no place enters the dead-wait set. -/
theorem Pool.addDead (h : Pool granted kept entering n a) (hw : Placed a.s .waitDead w) (hi : ¬a.Listed w.train) :
    Pool granted kept entering n (a.addDead w) := by
  have member {x : Wait} (hx : x ∈ (a.addDead w).s.psv.deadWaits) : x ∈ a.s.psv.deadWaits ∨ x = { w with joined := 0 } :=
    (List.mem_append.mp hx).imp_right List.mem_singleton.mp
  refine ⟨⟨h.slots.held, h.slots.stopped⟩, ?_, h.full, h.kept, h.handOvers, h.work⟩
  refine { h.places with dead := fun x hx => ?_, deadOnce := ?_, deadApart := fun d x hx v hv => ?_ }
  · rcases member hx with hx | rfl
    · exact h.places.dead x hx
    · exact hw
  · rw [show (a.addDead w).s.psv.deadWaits = a.s.psv.deadWaits ++ [{ w with joined := 0 }] from rfl, List.map_append]
    refine List.nodup_append.mpr ⟨h.places.deadOnce, List.nodup_singleton _, fun x hx y hy e => hi ?_⟩
    obtain ⟨v, hv, rfl⟩ := List.mem_map.mp hx
    exact .inr ⟨v, hv, e.trans (List.mem_singleton.mp hy)⟩
  · rcases member hv with hv | rfl
    · exact h.places.deadApart d x hx v hv
    · exact fun e => hi (.inl ⟨d, x, hx, e⟩)

end
end Sys2Proof.Machine
end

