-- ==== Sys2Proof/Proofs/SlotGrants.lean ====
section
/-! PROOFS. Grants from the waiting lists, slots dropped and released, and what a derivation of the picture releases. -/

namespace Sys2Proof.Machine

/-! ## Grants (R110) -/

/-- A substation's waiting list is written. -/
def Act.setWaits (b : SubId) (ws : List Wait) (a : Act) : Act := a.onSupply b fun v => { v with waits := ws }

@[simp] theorem Act.ask_train (r : Request) (a : Act) (i : TrainId) : (a.ask r).train i = a.train i := rfl
@[simp] theorem Act.release_train (p : TpId) (r : Option Nat) (a : Act) (i : TrainId) : (a.release p r).train i = a.train i :=
  rfl
@[simp] theorem Act.putMemory_train (p : TpId) (m : Memory) (a : Act) (i : TrainId) :
    (a.putMemory p m).train i = a.train i := rfl
@[simp] theorem Act.ask_supply (r : Request) (a : Act) (c : SubId) : (a.ask r).supply c = a.supply c := rfl
@[simp] theorem Act.release_supply (p : TpId) (r : Option Nat) (a : Act) (c : SubId) :
    (a.release p r).supply c = a.supply c := rfl
@[simp] theorem Act.putMemory_supply (p : TpId) (m : Memory) (a : Act) (c : SubId) :
    (a.putMemory p m).supply c = a.supply c := rfl

section
variable {granted : Bool} {kept : TrainId → Option Train} {entering : List TrainId} {n m : Nat} {a : Act} {b : SubId}
  {w : Wait} {rest : List Wait}

theorem setWaits_supply (b c : SubId) (ws : List Wait) (a : Act) :
    (a.setWaits b ws).supply c = { a.supply c with waits := if b = c then ws else (a.supply c).waits } := by
  rw [Act.setWaits, Act.onSupply_supply]
  split <;> rfl

theorem setWaits_same (b : SubId) (a : Act) : a.setWaits b (a.supply b).waits = a := by
  have same : a.s.psv.subs.set b { a.supply b with waits := (a.supply b).waits } = a.s.psv.subs := by
    refine Table.ext_get fun c => ?_
    rw [Table.get_set]
    split
    · next e => rw [← e]; rfl
    · rfl
  rw [Act.setWaits, Act.onSupply, same]

/-- The head of a list gives up its place: it stands in none, and is a stopped train's without a slot. -/
theorem Pool.headLeaves (h : Pool granted kept entering n (a.setWaits b (w :: rest))) :
    Pool granted kept entering n (a.setWaits b rest) ∧ ¬(a.setWaits b rest).Listed w.train
      ∧ ∃ t, a.train w.train = some t ∧ t.state.stopped = true ∧ t.slot = none := by
  have waits (ws : List Wait) : ((a.setWaits b ws).supply b).waits = ws := by rw [setWaits_supply, if_pos rfl]
  have here : w ∈ ((a.setWaits b (w :: rest)).supply b).waits := by rw [waits]; exact List.mem_cons_self
  have fewer (c : SubId) : ((a.setWaits b rest).supply c).waits.Sublist ((a.setWaits b (w :: rest)).supply c).waits := by
    rw [setWaits_supply, setWaits_supply]
    dsimp only
    split
    · exact List.sublist_cons_self w rest
    · exact List.Sublist.refl _
  refine ⟨h.thinned (fun _ => rfl) (fun c => ⟨((a.setWaits b rest).supply c).waits, ?_, fewer c⟩) (List.Sublist.refl _)
    rfl rfl, ?_, ?_⟩
  · rw [setWaits_supply, setWaits_supply]
  · rintro (⟨c, v, hv, e⟩ | ⟨v, hv, e⟩)
    · obtain ⟨rfl, rfl⟩ := h.places.apart c b v ((fewer c).subset hv) w here e
      rw [waits] at hv
      have joins := h.places.joins c
      rw [waits, List.map_cons] at joins
      exact (List.nodup_cons.mp joins).1 (List.mem_map_of_mem hv)
    · exact h.places.deadApart b w here v hv e.symm
  · obtain ⟨t, ht, state, -⟩ := h.places.lists b w here
    have stops := h.places.stops (.inl ⟨b, w, here, rfl⟩)
    have free := h.slots.stopped _ stops
    rw [show (a.setWaits b (w :: rest)).train w.train = some t from ht] at stops free
    exact ⟨t, ht, stops, Option.map_eq_none_iff.mp free⟩

/-- The head that is covered is taken to HELD. -/
theorem Pool.takeToHeld (h : Pool granted kept entering n (a.setWaits b (w :: rest))) :
    Pool granted kept entering n ((takeToHeld w a).setWaits b rest) := by
  obtain ⟨left, hi, t, ht, stops, -⟩ := h.headLeaves
  exact (left.stoppedOn (f := fun t => { t with state := .held, powerWait := none }) ht stops hi ⟨rfl, rfl⟩).of_same rfl rfl
    rfl rfl

theorem grantSlot_eq {t : Train} (ht : a.train w.train = some t) :
    (∃ left, ∀ j, (grantSlot b w a).train j = if w.train = j then
        some { t with state := .departing, powerWait := none, slot := some { sub := b, left := left } } else a.train j)
      ∧ (∀ c, (grantSlot b w a).supply c
        = { a.supply c with held := (a.supply c).held + (decide (b = c)).toNat })
      ∧ (grantSlot b w a).s.psv.deadWaits = a.s.psv.deadWaits
      ∧ (grantSlot b w a).requests = a.requests ++ [.gone .powerWait (.train t.set)]
      ∧ (grantSlot b w a).handOvers = a.handOvers := by
  unfold grantSlot
  rw [ht]
  refine ⟨⟨cycles a.s (a.s.tst.line.points.get w.point).accel 2, fun j => ?_⟩, fun c => ?_, rfl, rfl, rfl⟩
  · rw [Act.ask_train, Act.onTrain_train, Act.putMemory_train, Act.release_train, Act.onTrain_train, Act.onSupply_train]
    split
    · next e => rw [← e, ht]; rfl
    · rfl
  · rw [Act.ask_supply, Act.onTrain_supply, Act.putMemory_supply, Act.release_supply, Act.onTrain_supply,
      Act.onSupply_supply]
    split
    · next e => rw [decide_eq_true e]; rfl
    · next e => rw [decide_eq_false e]; rfl

/-- The head is granted a slot of its substation, which has its power wait reported over. -/
theorem Pool.grantSlot (h : Pool false kept entering n (a.setWaits b (w :: rest))) :
    Pool false kept entering n ((grantSlot b w a).setWaits b rest) := by
  obtain ⟨left, hi, t, ht, stops, free⟩ := h.headLeaves
  obtain ⟨⟨k, trains⟩, supply, dead, requests, handOvers⟩ := grantSlot_eq (b := b) ht
  have self : ((Machine.grantSlot b w a).setWaits b rest).train w.train
      = some { t with state := .departing, powerWait := none, slot := some { sub := b, left := k } } :=
    (trains _).trans (if_pos rfl)
  have before : (a.setWaits b rest).train w.train = some t := ht
  have stopped : stopsIn (some t) = true := stops
  refine left.rewritten w.train hi (fun j hj => (trains j).trans (if_neg (Ne.symm hj))) (fun c => ?_) dead (fun c => ?_) ?_ nofun
    (.inl (before ▸ stopped)) handOvers ?_
  · rw [setWaits_supply, setWaits_supply, supply]
  · rw [setWaits_supply, setWaits_supply, supply, self, before]
    simp [slotIn, free]
  · rw [self]
    exact nofun
  · rw [self, before, stopped, show ((Machine.grantSlot b w a).setWaits b rest).requests = _ from requests,
      show (a.setWaits b rest).requests = a.requests from rfl, List.length_append]
    simp only [stopsIn, TrainState.stopped, Option.map_some, Option.getD_some, List.length_singleton, Bool.toNat_false,
      Bool.toNat_true]
    omega

theorem Pool.grantFrom {ws : List Wait} (h : Pool false kept entering n (a.setWaits b ws)) :
    Pool false kept entering n (grantFrom b ws a) := by
  induction ws generalizing a with
  | nil => exact h
  | cons w rest ih =>
    unfold Machine.grantFrom
    split
    · split
      · exact ih h.takeToHeld
      · exact ih h.grantSlot
    · exact h

theorem Pool.grants (h : Pool false kept entering n a) (b : SubId) : Pool false kept entering n (grants b a) :=
  Pool.grantFrom (by rw [setWaits_same]; exact h)

/-- Whether a substation has no slot free where a train waits for one. -/
def Act.FullAt (a : Act) (b : SubId) : Prop := (a.supply b).waits ≠ [] → (a.supply b).capacity ≤ (a.supply b).held

/-- The grants of a substation leave the others alone. -/
theorem grantFrom_other {ws : List Wait} {c : SubId} (h : b ≠ c) (a : Act) : (grantFrom b ws a).supply c = a.supply c := by
  induction ws generalizing a with
  | nil => exact (Act.onSupply_supply _ _ _ _).trans (if_neg h)
  | cons w rest ih =>
    have granted : (grantSlot b w a).supply c = a.supply c := by
      cases ht : a.train w.train with
      | none => unfold grantSlot; rw [ht]
      | some t =>
        obtain ⟨-, supply, -⟩ := grantSlot_eq (b := b) ht
        rw [supply, decide_eq_false h]
        rfl
    unfold grantFrom
    split
    · split
      · exact ih _
      · exact (ih _).trans granted
    · exact (Act.onSupply_supply _ _ _ _).trans (if_neg h)

/-- After its grants a substation has no slot free where a train waits. -/
theorem grantFrom_full (ws : List Wait) (a : Act) : (grantFrom b ws a).FullAt b := by
  induction ws generalizing a with
  | nil =>
    intro hw
    refine absurd ?_ hw
    rw [grantFrom, Act.onSupply_supply, if_pos rfl]
  | cons w rest ih =>
    unfold grantFrom
    split
    · split
      · exact ih _
      · exact ih _
    · next hn =>
      intro _
      rw [Act.onSupply_supply, if_pos rfl]
      exact Nat.not_lt.mp hn

/-- Once every substation has granted what it can, none has a slot free where a train waits. -/
theorem Pool.grantAll (h : Pool false kept entering n a) : Pool true kept entering n (grantAll a) := by
  have all (l : List SubId) (a : Act) (h : Pool false kept entering n a) :
      Pool false kept entering n (l.foldl (fun a b => Machine.grants b a) a)
        ∧ ∀ c, c ∈ l ∨ a.FullAt c → (l.foldl (fun a b => Machine.grants b a) a).FullAt c := by
    induction l generalizing a with
    | nil => exact ⟨h, fun c hc => hc.resolve_left List.not_mem_nil⟩
    | cons b l ih =>
      obtain ⟨pool, full⟩ := ih _ (h.grants b)
      refine ⟨pool, fun c hc => full c ?_⟩
      by_cases e : b = c
      · exact .inr (e ▸ grantFrom_full _ _)
      · refine hc.imp (fun hc => (List.mem_cons.mp hc).resolve_left (Ne.symm e)) fun hf => ?_
        unfold Act.FullAt Machine.grants
        rw [grantFrom_other e]
        exact hf
  obtain ⟨pool, full⟩ := all (indices 8) a h
  exact { pool with full := fun _ c => full c (.inl (mem_indices c)) }

/-! ## Slots dropped (R112–R114) -/

/-- A train that holds a slot does not stop. -/
theorem Slots.holder_moves (h : Slots a) {i : TrainId} (hi : slotIn (a.train i) = some b) : stopsIn (a.train i) = false := by
  by_contra stops
  exact nomatch hi.symm.trans (h.stopped i (Bool.not_eq_false _ ▸ stops))

theorem Slots.held_pos (h : Slots a) {i : TrainId} (hi : slotIn (a.train i) = some b) : 1 ≤ (a.supply b).held := by
  rw [h.held]
  exact List.length_pos_of_mem (List.mem_filter.mpr ⟨mem_indices i, decide_eq_true hi⟩)

/-- A train gives up the slot it holds, which leaves one slot free. -/
theorem Pool.dropSlot (h : Pool granted (fun _ => none) entering n a) (i : TrainId) :
    Pool false (fun _ => none) entering n (dropSlot i a) := by
  unfold Machine.dropSlot
  split
  · exact h.loose
  · next held hs =>
    obtain ⟨t, ht, slot⟩ := Option.bind_eq_some_iff.mp hs
    have mine : slotIn (a.train i) = some held.sub := congrArg (Option.map HeldSlot.sub) hs
    have moves : stopsIn (a.train i) = false := h.slots.holder_moves mine
    have one := h.slots.held_pos mine
    have self (f : Supply → Supply) : ((a.onSupply held.sub f).onTrain i fun t => { t with slot := none }).train i
        = some { t with slot := none } := by
      rw [Act.onTrain_train, if_pos rfl, Act.onSupply_train, ht]
      rfl
    have free : slotIn (some { t with slot := none }) = none := rfl
    refine h.loose.rewritten i (h.places.unlisted moves) (fun j hj => ?_) (fun c => ?_) rfl (fun c => ?_) ?_ nofun
      (.inr rfl) rfl ?_
    · rw [Act.onTrain_train, if_neg hj.symm, Act.onSupply_train]
    · rw [Act.onTrain_supply, Act.onSupply_supply]
      split <;> rfl
    · rw [self, free, mine, Act.onTrain_supply, Act.onSupply_supply]
      by_cases e : held.sub = c
      · subst e
        simp only [if_pos, decide_true, Bool.toNat_true, reduceCtorEq, decide_false, Bool.toNat_false]
        omega
      · simp [e]
    · rw [self]
      exact fun _ => free
    · rw [self, moves, show stopsIn (some { t with slot := none }) = stopsIn (a.train i) by rw [ht]; rfl, moves]
      exact le_refl _

/-- Each record is rewritten in its turn. -/
theorem forAll_train {F : TrainId → Option Train → Option Train} {f : TrainId → Act → Act}
    (hf : ∀ i a j, (f i a).train j = if i = j then F i (a.train j) else a.train j) (a : Act) (j : TrainId) :
    (forAll 48 f a).train j = F j (a.train j) := by
  have all (l : List TrainId) (hl : l.Nodup) (a : Act) :
      (l.foldl (fun a i => f i a) a).train j = if j ∈ l then F j (a.train j) else a.train j := by
    induction l generalizing a with
    | nil => rfl
    | cons i l ih =>
      obtain ⟨apart, hl⟩ := List.nodup_cons.mp hl
      rw [List.foldl_cons, ih hl, hf]
      by_cases e : i = j
      · subst e
        rw [if_neg apart, if_pos rfl, if_pos List.mem_cons_self]
      · rw [if_neg e]
        simp only [List.mem_cons, Ne.symm e, false_or]
  exact (all _ (List.nodup_finRange 48) a).trans (if_pos (mem_indices j))

/-- Records that are rewritten in turn leave everything else of an action. -/
theorem forAll_frame {k : Nat} {f : Fin k → Act → Act} (hf : ∀ i a, f i a = { a with s.rrg.trains := (f i a).s.rrg.trains })
    (a : Act) : forAll k f a = { a with s.rrg.trains := (forAll k f a).s.rrg.trains } := by
  unfold forAll
  induction indices k generalizing a with
  | nil => rfl
  | cons i l ih => rw [List.foldl_cons, ih, hf]

/-- A record after the slots of substation `b` are released. -/
def Train.tripped (b : SubId) (t : Train) : Train := if t.slot.map (·.sub) = some b then { t with slot := none } else t

/-- The release of the slot a record holds, if it is one of substation `b`. -/
def tripOne (b : SubId) (i : TrainId) (a : Act) : Act :=
  if ((a.train i).bind (·.slot)).map (·.sub) = some b then a.onTrain i fun t => { t with slot := none } else a

theorem releaseTripped_eq (b : SubId) (a : Act) :
    releaseTripped b a = (forAll 48 (tripOne b) a).onSupply b fun v => { v with held := 0 } := rfl

theorem tripOne_frame (b : SubId) (i : TrainId) (a : Act) :
    tripOne b i a = { a with s.rrg.trains := (tripOne b i a).s.rrg.trains } := by
  unfold tripOne
  split <;> rfl

theorem tripOne_train (b : SubId) (i : TrainId) (a : Act) (j : TrainId) :
    (tripOne b i a).train j = if i = j then (a.train j).map (Train.tripped b) else a.train j := by
  unfold tripOne
  split
  · next hs =>
    rw [Act.onTrain_train]
    split
    · next e =>
      subst e
      obtain ⟨held, slot, same⟩ := Option.map_eq_some_iff.mp hs
      obtain ⟨t, ht, slot⟩ := Option.bind_eq_some_iff.mp slot
      rw [ht, Option.map_some, Option.map_some, Train.tripped, slot, Option.map_some, if_pos (congrArg some same)]
    · rfl
  · next hs =>
    split
    · next e =>
      subst e
      cases ht : a.train i with
      | none => rfl
      | some t =>
        rw [ht] at hs
        rw [Option.map_some, Train.tripped]
        exact congrArg some (if_neg hs).symm
    · rfl

theorem releaseTripped_train (b : SubId) (a : Act) (j : TrainId) :
    (releaseTripped b a).train j = (a.train j).map (Train.tripped b) := by
  rw [releaseTripped_eq, Act.onSupply_train,
    forAll_train (F := fun _ => Option.map (Train.tripped b)) fun i a j => tripOne_train b i a j]

/-- What the release of a tripped substation's slots leaves of an action: everything but records and a held count. -/
theorem releaseTripped_frame (b : SubId) (a : Act) :
    releaseTripped b a = { a with
      s.rrg.trains := (releaseTripped b a).s.rrg.trains
      s.psv.subs := a.s.psv.subs.set b { a.supply b with held := 0 } } := by
  have written := forAll_frame (tripOne_frame b) a
  rw [releaseTripped_eq]
  generalize forAll 48 (tripOne b) a = x at written ⊢
  rw [written]
  rfl

theorem releaseTripped_supply (b : SubId) (a : Act) (c : SubId) :
    (releaseTripped b a).supply c = if b = c then { a.supply c with held := 0 } else a.supply c := by
  rw [releaseTripped_frame, Act.supply, Table.get_set]
  split
  · next e => rw [e]
  · rfl

theorem releaseTripped_slotIn (b : SubId) (a : Act) (j : TrainId) :
    slotIn ((releaseTripped b a).train j) = if slotIn (a.train j) = some b then none else slotIn (a.train j) := by
  rw [releaseTripped_train]
  cases a.train j with
  | none => rfl
  | some t =>
    rw [Option.map_some, Train.tripped, show slotIn (some t) = t.slot.map (·.sub) from rfl]
    split <;> rfl

theorem releaseTripped_stopsIn (b : SubId) (a : Act) (j : TrainId) :
    stopsIn ((releaseTripped b a).train j) = stopsIn (a.train j) := by
  rw [releaseTripped_train]
  cases a.train j with
  | none => rfl
  | some t =>
    rw [Option.map_some, Train.tripped]
    split <;> rfl

/-- What a substation's release leaves held: nothing there, and at the others what was. -/
theorem Slots.releaseTripped (h : Slots a) (b : SubId) : Slots (releaseTripped b a) := by
  refine ⟨fun c => ?_, fun j hj => ?_⟩
  · have slots (j : TrainId) : slotIn ((Machine.releaseTripped b a).s.rrg.trains.get j) = _ := releaseTripped_slotIn b a j
    rw [length_slotHolders, releaseTripped_supply]
    simp only [slots]
    split
    · next e =>
      subst e
      refine Eq.symm (List.length_eq_zero_iff.mpr (List.filter_eq_nil_iff.mpr fun j _ e => ?_))
      have e := of_decide_eq_true e
      split at e
      · cases e
      · next hn => exact hn e
    · next e =>
      rw [h.held, length_slotHolders]
      refine countOf_congr fun j => ?_
      by_cases mine : slotIn (a.train j) = some b
      · rw [if_pos mine, show a.s.rrg.trains.get j = a.train j from rfl, mine]
        simp [e]
      · rw [if_neg mine]
        rfl
  · rw [releaseTripped_slotIn, h.stopped j (releaseTripped_stopsIn b a j ▸ hj)]
    rfl

/-- Every slot of a substation is released. -/
theorem Pool.releaseTripped (h : Pool granted (fun _ => none) entering n a) (b : SubId) :
    Pool false (fun _ => none) entering n (releaseTripped b a) := by
  have dead : (Machine.releaseTripped b a).s.psv.deadWaits = a.s.psv.deadWaits := by rw [releaseTripped_frame]
  have requests : (Machine.releaseTripped b a).requests = a.requests := by rw [releaseTripped_frame]
  have handOvers : (Machine.releaseTripped b a).handOvers = a.handOvers := by rw [releaseTripped_frame]
  refine ⟨h.slots.releaseTripped b, h.places.fewer (fun c => ?_) (by rw [dead]) (fun j hj => ?_), nofun,
    (fun _ _ ht => nomatch ht), by rw [handOvers]; exact h.handOvers, ?_⟩
  · rw [releaseTripped_supply]
    split <;> exact List.Sublist.refl _
  · have listed : a.Listed j := by
      rcases hj with ⟨c, w, hw, e⟩ | ⟨w, hw, e⟩
      · refine .inl ⟨c, w, ?_, e⟩
        rw [releaseTripped_supply] at hw
        split at hw <;> exact hw
      · exact .inr ⟨w, dead ▸ hw, e⟩
    have free := h.slots.stopped j (h.places.stops listed)
    rw [releaseTripped_train]
    cases ht : a.train j with
    | none => rfl
    | some t =>
      rw [ht] at free
      rw [Option.map_some, Train.tripped, if_neg]
      exact fun e => nomatch free.symm.trans e
  · exact (Act.work_le (by rw [requests]) (by rw [handOvers]) (fun j hj => releaseTripped_stopsIn b a j ▸ hj)).trans h.work

end
end Sys2Proof.Machine
end

