-- ==== Sys2Proof/Proofs/HandOvers.lean ====
section
/-! PROOFS. The hand-over of trains that are due: each takes a place in the list of its section's slot source or in the
dead-wait set, the grants follow, and what still stands in a list enters WAIT_POWER. -/

namespace Sys2Proof.Machine

/-! ## Placing a hand-over (R108, R109) -/

theorem waitsInList_iff {a : Act} {i : TrainId} :
    waitsInList a.s i = true ↔ ∃ b, ∃ w ∈ (a.supply b).waits, w.train = i := by
  rw [waitsInList, List.any_eq_true]
  constructor
  · rintro ⟨v, hv, hw⟩
    obtain ⟨b, rfl⟩ := Table.exists_get hv
    obtain ⟨w, here, e⟩ := List.any_eq_true.mp hw
    exact ⟨b, w, here, of_decide_eq_true e⟩
  · rintro ⟨b, w, here, e⟩
    exact ⟨_, Table.get_mem _ b, List.any_eq_true.mpr ⟨w, here, decide_eq_true e⟩⟩

theorem placeable_iff {w : Wait} {a : Act} : placeable w a = true ↔ ∃ t, a.train w.train = some t
    ∧ t.point = some w.point ∧ t.target = some w.target
    ∧ (t.state = .dwelling ∨ t.state = .held ∧ underHold a.s w.point = false) := by
  unfold placeable
  cases a.train w.train with
  | none => simp
  | some t => simp [and_assoc]

section
variable {granted : Bool} {kept : TrainId → Option Train} {entering : List TrainId} {n m : Nat} {a : Act} {b : SubId}
  {i : TrainId} {w : Wait}

/-- A train that stands in a place waits, or is one of those that are entering. -/
theorem Places.waits (h : Places entering a) (hi : a.Listed i) :
    ∃ t, a.train i = some t ∧ (t.state = .waitPower ∨ i ∈ entering ∨ t.state = .waitDead) := by
  rcases hi with ⟨b, w, hw, rfl⟩ | ⟨w, hw, rfl⟩
  · obtain ⟨t, ht, state, -⟩ := h.lists b w hw
    exact ⟨t, ht, state.imp_right fun e => .inl e.1⟩
  · obtain ⟨t, ht, state, -⟩ := h.dead w hw
    exact ⟨t, ht, .inr (.inr state)⟩

/-- A train that neither waits nor is entering stands in no place. -/
theorem Places.absent (h : Places entering a) {t : Train} (ht : a.train i = some t)
    (hs : t.state ≠ .waitPower ∧ t.state ≠ .waitDead) (hi : i ∉ entering) : ¬a.Listed i := by
  intro listed
  obtain ⟨u, hu, state⟩ := h.waits listed
  cases ht.symm.trans hu
  rcases state with e | e | e
  · exact hs.1 e
  · exact hi e
  · exact hs.2 e

theorem Pool.placeOne (h : Pool granted kept entering n a) (hw : w.train ∉ entering) :
    Pool false kept (w.train :: entering) n (placeOne w a) := by
  have more : Pool granted kept (w.train :: entering) n a := h.entering_mono (List.subset_cons_self _ _)
  unfold Machine.placeOne
  split
  · next hp =>
    obtain ⟨t, ht, point, target, state⟩ := placeable_iff.mp hp
    have stops : t.state.stopped = true := by rcases state with e | ⟨e, -⟩ <;> rw [e] <;> rfl
    have absent : ¬a.Listed w.train :=
      h.places.absent ht (by rcases state with e | ⟨e, -⟩ <;> rw [e] <;> exact ⟨nofun, nofun⟩) hw
    split
    · next b _ => exact more.joinList b ⟨t, ht, .inr ⟨List.mem_cons_self, stops⟩, point, target⟩ absent
    · have parked := more.loose.stoppedOn (f := fun t => { t with
          state := .waitDead, powerWait := some (cycles a.s (params a.s).powerLimit 4) }) ht stops absent ⟨rfl, rfl⟩
      have self : (startPowerWait w.train .waitDead a).train w.train
          = some { t with state := .waitDead, powerWait := some (cycles a.s (params a.s).powerLimit 4) } := by
        rw [startPowerWait, Act.onTrain_train, if_pos rfl, ht]
        rfl
      have placed : Placed (startPowerWait w.train .waitDead a).s .waitDead w := ⟨_, self, rfl, point, target⟩
      exact (parked.addDead placed absent).of_same rfl rfl rfl rfl
  · exact more.loose

/-- Every request of a hand-over is placed; the trains that join a list are entering. -/
theorem Pool.placeAll {ws : List Wait} (h : Pool false kept entering n a) (once : (ws.map Wait.train).Nodup)
    (apart : ∀ w ∈ ws, w.train ∉ entering) :
    Pool false kept (ws.map Wait.train ++ entering) n (ws.foldl (fun a w => Machine.placeOne w a) a) := by
  induction ws generalizing a entering with
  | nil => exact h
  | cons w ws ih =>
    obtain ⟨first, once⟩ := List.nodup_cons.mp once
    refine (ih (h.placeOne (apart w List.mem_cons_self)) once fun v hv hm => ?_).entering_mono List.perm_middle.subset
    rcases List.mem_cons.mp hm with e | hm
    · exact first (List.mem_map.mpr ⟨v, hv, e⟩)
    · exact apart v (List.mem_cons_of_mem w hv) hm

/-- A train that is entering and stands in a list enters WAIT_POWER. -/
theorem Pool.enterPower (h : Pool granted kept (i :: entering) n a) (hi : waitsInList a.s i = true) {f : Train → Train}
    (hf : ∀ t, (f t).post = (.waitPower, t.point, t.target, t.slot.map (·.sub))) :
    Pool granted kept entering n (a.onTrain i f) := by
  obtain ⟨b, w, hw, rfl⟩ := waitsInList_iff.mp hi
  obtain ⟨t, ht, -⟩ := h.places.lists b w hw
  have stops := h.places.stops (.inl ⟨b, w, hw, rfl⟩)
  have self : (a.onTrain w.train f).train w.train = some (f t) := by rw [Act.onTrain_train, if_pos rfl, ht]; rfl
  have other {j : TrainId} (hj : j ≠ w.train) : (a.onTrain w.train f).train j = a.train j := by
    rw [Act.onTrain_train, if_neg hj.symm]
  have post {γ : Type} (g : TrainState × Option TpId × Option Nat × Option SubId → γ) (u : Train) :
      g (f u).post = g (.waitPower, u.point, u.target, u.slot.map (·.sub)) := congrArg g (hf u)
  have slot : slotIn (some (f t)) = slotIn (a.train w.train) := (post (·.2.2.2) t).trans (by rw [ht]; rfl)
  have waits : stopsIn (some (f t)) = true := congrArg TrainState.stopped (post (·.1) t)
  have slots (j : TrainId) : slotIn ((a.onTrain w.train f).train j) = slotIn (a.train j) := by
    by_cases e : j = w.train
    · rw [e, self, slot]
    · rw [other e]
  have stopped (j : TrainId) : stopsIn ((a.onTrain w.train f).train j) = stopsIn (a.train j) := by
    by_cases e : j = w.train
    · rw [e, self, waits, stops]
    · rw [other e]
  refine ⟨h.slots.of_same (fun _ => rfl) slots fun j hj => ?_,
    { h.places with lists := fun c v hv => ?_, dead := fun v hv => ?_ }, h.full, fun j u hu hs => ?_, h.handOvers, ?_⟩
  · rw [slots]
    exact h.slots.stopped j (stopped j ▸ hj)
  · obtain ⟨u, hu, state, point, target⟩ := h.places.lists c v hv
    by_cases e : v.train = w.train
    · rw [e, ht] at hu
      cases hu
      exact ⟨f t, e ▸ self, .inl (post (·.1) t), (post (·.2.1) t).trans point, (post (·.2.2.1) t).trans target⟩
    · refine ⟨u, (other e).trans hu, state.imp_right fun s => ⟨?_, s.2⟩, point, target⟩
      exact (List.mem_cons.mp s.1).resolve_left e
  · exact (h.places.dead v hv).of_post (by rw [other (h.places.deadApart b w hw v hv).symm])
  · have stands := h.kept j u hu hs
    rw [other, stands]
    rintro rfl
    rw [stands] at stops
    exact Bool.false_ne_true (hs.symm.trans stops)
  · exact (Act.work_le (a := a) (b := a.onTrain w.train f) (le_refl _) (le_refl _) fun j hj => stopped j ▸ hj).trans h.work

/-- A train that is entering and stands in no list is no longer entering. -/
theorem Pool.notEntering (h : Pool granted kept (i :: entering) n a) (hi : waitsInList a.s i = false) :
    Pool granted kept entering n a :=
  { h with
    places := { h.places with
      lists := fun b w hw =>
        have ⟨t, ht, state, here⟩ := h.places.lists b w hw
        ⟨t, ht, state.imp_right (And.imp_left fun e => (List.mem_cons.mp e).resolve_left fun same =>
          Bool.false_ne_true (hi.symm.trans (waitsInList_iff.mpr ⟨b, w, hw, same⟩))), here⟩ } }

theorem Pool.settleWait (h : Pool granted kept (w.train :: entering) n a) : Pool granted kept entering n (settleWait w a) := by
  unfold Machine.settleWait
  split
  · next hi => exact (h.enterPower hi fun _ => rfl).of_same rfl rfl rfl rfl
  · next hi => exact h.notEntering (Bool.not_eq_true _ ▸ hi)

theorem Pool.settleRejoined (h : Pool granted kept (w.train :: entering) n a) :
    Pool granted kept entering n (settleRejoined w a) := by
  unfold Machine.settleRejoined
  split
  · next hi => exact (h.enterPower hi fun _ => rfl).of_same rfl rfl rfl rfl
  · next hi => exact h.notEntering (Bool.not_eq_true _ ▸ hi)

/-- Once each train that is entering has been taken, none is. -/
theorem Pool.settled {f : Wait → Act → Act}
    (hf : ∀ {w a entering}, Pool granted kept (w.train :: entering) n a → Pool granted kept entering n (f w a))
    {ws : List Wait} (h : Pool granted kept (ws.map Wait.train) n a) :
    Pool granted kept [] n (ws.foldl (fun a w => f w a) a) := by
  induction ws generalizing a with
  | nil => exact h
  | cons w ws ih => exact ih (hf h)

/-- A hand-over of requests, each train named once. -/
theorem Pool.placeHandOver {ws : List Wait} (h : Pool granted kept [] n a) (once : (ws.map Wait.train).Nodup) :
    Pool true kept [] n (placeHandOver ws a) := by
  have placed := h.loose.placeAll once fun _ _ => List.not_mem_nil
  rw [List.append_nil] at placed
  exact placed.grantAll.settled Pool.settleWait

end
end Sys2Proof.Machine
end

