-- ==== Sys2Proof/Proofs/PlacesReplaced.lean ====
section
/-! PROOFS. The waiting trains that a change of the picture places anew (R116), and the grants that follow. -/

namespace Sys2Proof.Machine

/-! ## Re-placing waiting trains (R116) -/

section
variable {granted : Bool} {kept : TrainId → Option Train} {entering : List TrainId} {n m : Nat} {a : Act} {b : SubId}
  {i : TrainId} {w : Wait} {ws : List Wait}

theorem Pool.releaseAll (h : Pool granted (fun _ => none) entering n a) (ts : List SubId) :
    Pool false (fun _ => none) entering n (ts.foldl (fun a b => Machine.releaseTripped b a) a) := by
  induction ts generalizing granted a with
  | nil => exact h.loose
  | cons b ts ih =>
    rw [List.foldl_cons]
    exact ih (h.releaseTripped b)

/-- A place is taken out of its list. -/
def Act.leave (b : SubId) (w : Wait) (a : Act) : Act := a.onSupply b fun v => { v with waits := v.waits.erase w }

theorem leave_supply (b c : SubId) (w : Wait) (a : Act) :
    (a.leave b w).supply c = { a.supply c with
      waits := if b = c then (a.supply c).waits.erase w else (a.supply c).waits } := by
  rw [Act.leave, Act.onSupply_supply]
  split <;> rfl

theorem Places.nodup (h : Places entering a) (b : SubId) : (a.supply b).waits.Nodup := (h.joins b).of_map

theorem Pool.leave (h : Pool granted kept entering n a) (b : SubId) (w : Wait) :
    Pool granted kept entering n (a.leave b w) :=
  h.thinned (fun _ => rfl) (fun c => ⟨_, leave_supply b c w a, by split; exacts [List.erase_sublist, List.Sublist.refl _]⟩)
    (List.Sublist.refl _) rfl rfl

/-- A train that has left its list stands in no place. -/
theorem Places.left (h : Places entering a) (hw : w ∈ (a.supply b).waits) : ¬(a.leave b w).Listed w.train := by
  rintro (⟨c, v, hv, e⟩ | ⟨v, hv, e⟩)
  · rw [leave_supply] at hv
    have here : v ∈ (a.supply c).waits := by
      dsimp only at hv
      split at hv
      · exact List.mem_of_mem_erase hv
      · exact hv
    obtain ⟨rfl, rfl⟩ := h.apart c b v here w hw e
    rw [if_pos rfl] at hv
    exact ((h.nodup c).mem_erase_iff.mp hv).1 rfl
  · exact h.deadApart b w hw v hv e.symm

/-- A place of a list is judged by its section; the other places of the list stand. -/
theorem Pool.replaceOne (h : Pool granted kept entering n a) (hw : w ∈ (a.supply b).waits) :
    Pool false kept entering n (replaceOne b w a)
      ∧ ∀ v ∈ (a.supply b).waits, v ≠ w → v ∈ ((Machine.replaceOne b w a).supply b).waits := by
  have away := h.places.left hw
  obtain ⟨t, ht, state, point, target⟩ := h.places.lists b w hw
  have remain {v : Wait} (hv : v ∈ (a.supply b).waits) (hne : v ≠ w) : v ∈ ((a.leave b w).supply b).waits := by
    rw [leave_supply, if_pos rfl]
    exact (List.mem_erase_of_ne hne).mpr hv
  unfold Machine.replaceOne
  split
  · exact ⟨h.loose, fun v hv _ => hv⟩
  · next hs =>
    dsimp only
    split
    · next c hc =>
      have other : c ≠ b := fun e => hs (e ▸ hc)
      refine ⟨(h.leave b w).joinList c ⟨t, ht, state, point, target⟩ away, fun v hv hne => ?_⟩
      rw [Machine.joinList, Act.onSupply_supply, if_neg other]
      exact remain hv hne
    · have stops := h.places.stops (.inl ⟨b, w, hw, rfl⟩)
      rw [ht] at stops
      have parked := (h.leave b w).loose.stoppedOn (f := fun t => { t with state := .waitDead }) ht stops away ⟨rfl, rfl⟩
      have placed : Placed ((a.leave b w).onTrain w.train fun t => { t with state := .waitDead }).s .waitDead w :=
        ⟨{ t with state := .waitDead }, (Act.onTrain_train _ _ _ _).trans ((if_pos rfl).trans (congrArg _ ht)), rfl, point,
          target⟩
      exact ⟨(parked.addDead placed away).of_same rfl rfl rfl rfl, fun v hv hne => remain hv hne⟩

theorem Pool.replaceAllOf (h : Pool false kept entering n a) (hw : ∀ w ∈ ws, w ∈ (a.supply b).waits) (once : ws.Nodup) :
    Pool false kept entering n (ws.foldl (fun a w => Machine.replaceOne b w a) a) := by
  induction ws generalizing a with
  | nil => exact h
  | cons w ws ih =>
    obtain ⟨apart, once⟩ := List.nodup_cons.mp once
    obtain ⟨pool, remain⟩ := h.replaceOne (hw w List.mem_cons_self)
    refine ih pool (fun v hv => remain v (hw v (List.mem_cons_of_mem w hv)) ?_) once
    rintro rfl
    exact apart hv

theorem Pool.replaceList (h : Pool false kept entering n a) (b : SubId) : Pool false kept entering n (replaceList b a) :=
  h.replaceAllOf (fun _ hw => hw) (h.places.nodup b)

/-- A place of the dead-wait set is taken out. -/
def Act.leaveDead (w : Wait) (a : Act) : Act := { a with s.psv.deadWaits := a.s.psv.deadWaits.erase w }

/-- A train of the dead-wait set that joins a list is one of those that are entering; the rest of the set stands. -/
theorem Pool.rejoinOne (h : Pool granted kept entering n a) (hw : w ∈ a.s.psv.deadWaits)
    (he : (sourceOf a.s w.sec).isSome → w.train ∈ entering) :
    Pool false kept entering n (rejoinOne w a) ∧ (Machine.rejoinOne w a).s.psv.secs = a.s.psv.secs
      ∧ ∀ v ∈ a.s.psv.deadWaits, v ≠ w → v ∈ (Machine.rejoinOne w a).s.psv.deadWaits := by
  unfold Machine.rejoinOne
  split
  · exact ⟨h.loose, rfl, fun v hv _ => hv⟩
  · next c hc =>
    obtain ⟨t, ht, state, point, target⟩ := h.places.dead w hw
    have thinned : Pool granted kept entering n (a.leaveDead w) :=
      h.thinned (fun _ => rfl) (fun c => ⟨_, rfl, List.Sublist.refl _⟩) List.erase_sublist rfl rfl
    have entered : Entered entering (a.leaveDead w) w :=
      ⟨t, ht, .inr ⟨he (by rw [hc]; rfl), by rw [state]; rfl⟩, point, target⟩
    have away : ¬(a.leaveDead w).Listed w.train := by
      rintro (⟨b, v, hv, e⟩ | ⟨v, hv, e⟩)
      · exact h.places.deadApart b v hv w hw e
      · have same : v = w := List.inj_on_of_nodup_map h.places.deadOnce (List.mem_of_mem_erase hv) hw e
        exact (h.places.deadOnce.of_map.mem_erase_iff.mp hv).1 same
    exact ⟨thinned.joinList c entered away, rfl, fun v hv hne => (List.mem_erase_of_ne hne).mpr hv⟩

theorem Pool.rejoinAll (h : Pool false kept entering n a) (hw : ∀ w ∈ ws, w ∈ a.s.psv.deadWaits) (once : ws.Nodup)
    (he : ∀ w ∈ ws, (sourceOf a.s w.sec).isSome → w.train ∈ entering) :
    Pool false kept entering n (ws.foldl (fun a w => Machine.rejoinOne w a) a) := by
  induction ws generalizing a with
  | nil => exact h
  | cons w ws ih =>
    obtain ⟨apart, once⟩ := List.nodup_cons.mp once
    obtain ⟨pool, secs, remain⟩ := h.rejoinOne (hw w List.mem_cons_self) (he w List.mem_cons_self)
    refine ih pool (fun v hv => remain v (hw v (List.mem_cons_of_mem w hv)) ?_) once fun v hv hs => ?_
    · rintro rfl
      exact apart hv
    · rw [sourceOf, secs] at hs
      exact he v (List.mem_cons_of_mem w hv) hs

/-- Steps 2 and 3 of R103 leave no slot free where a train waits. -/
theorem Pool.replaceAndGrant (h : Pool granted (fun _ => none) [] n a) (tripped : List SubId) :
    Pool true (fun _ => none) [] n (replaceAndGrant tripped a) := by
  have replaced : Pool false (fun _ => none) [] n
      (forAll 8 Machine.replaceList (tripped.foldl (fun a b => Machine.releaseTripped b a) a)) :=
    List.foldlRecOn (motive := Pool false (fun _ => none) [] n) _ _ (h.releaseAll tripped) fun _ h b _ => h.replaceList b
  unfold Machine.replaceAndGrant
  dsimp only
  generalize forAll 8 Machine.replaceList (tripped.foldl (fun a b => Machine.releaseTripped b a) a) = a at replaced ⊢
  have ready := replaced.entering_mono (List.nil_subset
    ((a.s.psv.deadWaits.filter fun w => (sourceOf a.s w.sec).isSome).map Wait.train))
  have rejoined := ready.rejoinAll (ws := a.s.psv.deadWaits) (fun _ hw => hw) replaced.places.deadOnce.of_map
    fun w hw hs => List.mem_map.mpr ⟨w, List.mem_filter.mpr ⟨hw, hs⟩, rfl⟩
  exact rejoined.grantAll.settled Pool.settleRejoined

end
end Sys2Proof.Machine
end

