-- ==== Sys2Proof/Proofs/PoolRequests.lean ====
section
/-! PROOFS. What the incidents hand to the pools: hold starts and ends gather hand-overs, and a request worked off with
them keeps the law of the pools. -/

namespace Sys2Proof.Machine

/-! ## Hold starts (R151) -/

section
variable {granted : Bool} {kept : TrainId → Option Train} {entering : List TrainId} {n m : Nat} {a b : Act}
  {i : TrainId} {w : Wait} {ws : List Wait} {p : TpId}

theorem Pool.of_offAsc (h : Pool granted kept entering n a) (e : b.offAsc = a.offAsc) : Pool granted kept entering n b := by
  obtain ⟨-, -, -, rrg, psv, -, requests, handOvers⟩ := Act.offAsc_fields e
  exact h.of_same (by rw [rrg]) psv requests handOvers

theorem holdTrain_train (i : TrainId) (a : Act) (j : TrainId) : (holdTrain i a).train j
    = if i = j then (a.train j).map fun t => { t with state := .held, powerWait := none } else a.train j :=
  Act.onTrain_train _ _ _ _

theorem Pool.holdTrain (h : Pool granted kept entering n a) (hi : a.train i ≠ none → stopsIn (a.train i) = true) :
    Pool granted kept entering n (holdTrain i a) := h.parked hi fun _ => ⟨rfl, rfl⟩

theorem takenAt_stops {s : State} {p : TpId} {i : TrainId} (h : i ∈ takenAt s p) : stopsIn (s.rrg.trains.get i) = true := by
  have taken := (List.mem_filter.mp h).2
  cases ht : s.rrg.trains.get i with
  | none => rw [ht] at taken; cases taken
  | some t =>
    rw [ht] at taken
    obtain ⟨-, e | e | e⟩ := of_decide_eq_true taken <;> exact congrArg TrainState.stopped e

theorem Pool.holdStart (h : Pool granted kept entering n a) (p : TpId) : Pool granted kept entering n (holdStart p a) := by
  have all (l : List TrainId) (a : Act) (h : Pool granted kept entering n a)
      (hl : ∀ j ∈ l, a.train j ≠ none → stopsIn (a.train j) = true) :
      Pool granted kept entering n (l.foldl (fun a j => Machine.holdTrain j a) a) := by
    induction l generalizing a with
    | nil => exact h
    | cons i l ih =>
      refine ih _ (h.holdTrain (hl i List.mem_cons_self)) fun j hj hn => ?_
      rw [holdTrain_train] at hn ⊢
      split
      · next e =>
        cases ht : a.train j with
        | none => rw [if_pos e, ht] at hn; exact absurd rfl hn
        | some t => rfl
      · next e =>
        rw [if_neg e] at hn
        exact hl j (List.mem_cons_of_mem i hj) hn
  unfold Machine.holdStart
  split
  · split
    · exact h
    · next _ _ taken =>
      refine (all _ a h fun j hj _ => takenAt_stops (p := p) ?_).of_same rfl rfl rfl rfl
      rw [taken]
      exact hj
  · exact h

/-! ## Hold ends (R91, R152) -/

theorem endedHold_stops (row : Point) (p : TpId) (b : Nat) (t : Train) (h : t.heldAt p = true) :
    (endedHold row p b t).state.stopped = true ∧ (endedHold row p b t).slot = t.slot := by
  obtain ⟨state, -⟩ := of_decide_eq_true h
  rw [endedHold, if_pos h]
  refine ⟨?_, rfl⟩
  dsimp only
  split
  · rw [state]; rfl
  · rfl

theorem endedHold_point (row : Point) (p : TpId) (b : Nat) (t : Train) : (endedHold row p b t).point = t.point := by
  unfold endedHold
  split <;> rfl

/-- One record of a hold end. -/
theorem Pool.unholdTrain {x : List Wait × Act} (h : Pool granted kept [] n x.2) (p : TpId) (b : Nat) (i : TrainId) :
    Pool granted kept [] n (unholdTrain p b i x).2 := by
  rw [unholdTrain_eq]
  cases ht : x.2.train i with
  | none =>
    rw [Option.map_none, ← ht, Act.putTrain_same]
    exact h.of_same rfl rfl rfl rfl
  | some t =>
    rw [Option.map_some]
    generalize x.2.s.tst.line.points.get p = row
    cases held : t.heldAt p with
    | false =>
      rw [endedHold_apart (of_decide_eq_false held), ← ht, Act.putTrain_same]
      exact h.of_same rfl rfl rfl rfl
    | true =>
      obtain ⟨state, -⟩ := of_decide_eq_true held
      have stops : stopsIn (x.2.train i) = true := by rw [ht]; exact congrArg TrainState.stopped state
      obtain ⟨still, slot⟩ := endedHold_stops row p b t held
      have same : slotIn (some (endedHold row p b t)) = slotIn (x.2.train i) := by
        rw [ht]
        exact congrArg (Option.map HeldSlot.sub) slot
      have absent := h.places.absent ht (by rw [state]; exact ⟨nofun, nofun⟩) List.not_mem_nil
      have written : Pool granted kept [] n (x.2.putTrain i (some (endedHold row p b t))) :=
        h.putTrain absent same (fun _ => same.trans (h.slots.stopped i stops)) (.inl stops)
          (by rw [stops, show stopsIn (some (endedHold row p b t)) = true from still])
      exact written.of_same rfl rfl rfl rfl

/-- What the hold ends at the timing points `ps` and, of the records `is`, at `p` have gathered: each train once, from where it
stands. -/
structure Gathered (ps : List TpId) (p : TpId) (is : List TrainId) (x : List Wait × Act) : Prop where
  once : (x.1.map Wait.train).Nodup
  stands : ∀ w ∈ x.1, ∃ t, x.2.train w.train = some t ∧ t.point = some w.point
  origin : ∀ w ∈ x.1, w.point ∈ ps ∨ w.point = p ∧ w.train ∈ is

theorem endedWait_point {row : Point} {b : Nat} {t : Train} (h : endedWait row p b i t = some w) :
    w.train = i ∧ w.point = p ∧ t.point = some p := by
  unfold endedWait at h
  split at h
  · next hc =>
    obtain ⟨sec, -, rfl⟩ := Option.map_eq_some_iff.mp h
    simp only [Bool.and_eq_true, Train.heldAt, decide_eq_true_eq] at hc
    obtain ⟨⟨⟨-, point⟩, -⟩, -⟩ := hc
    exact ⟨rfl, rfl, point⟩
  · cases h

theorem Gathered.unhold {ps : List TpId} {is : List TrainId} {x : List Wait × Act} (h : Gathered ps p is x) (hp : p ∉ ps)
    (hi : i ∉ is) (b : Nat) : Gathered ps p (i :: is) (unholdTrain p b i x) := by
  rw [unholdTrain_eq]
  generalize x.2.s.tst.line.points.get p = row
  have points (j : TrainId) :
      ((x.2.putTrain i ((x.2.train i).map (endedHold row p b))).train j).map Train.point = (x.2.train j).map Train.point := by
    rw [Act.putTrain_train]
    split
    · next e =>
      subst e
      cases x.2.train i with
      | none => rfl
      | some t => exact congrArg some (endedHold_point row p b t)
    · rfl
  have stays {j : TrainId} {t : Train} {q : TpId} (ht : x.2.train j = some t) (hq : t.point = some q) :
      ∃ u, (x.2.putTrain i ((x.2.train i).map (endedHold row p b))).train j = some u ∧ u.point = some q := by
    have e := points j
    rw [ht] at e
    obtain ⟨u, hu, same⟩ := Option.map_eq_some_iff.mp e
    exact ⟨u, hu, same.trans hq⟩
  have new {w : Wait} (hw : w ∈ ((x.2.train i).bind (endedWait row p b i)).toList) :
      w.train = i ∧ w.point = p ∧ ∃ t, x.2.train i = some t ∧ t.point = some p := by
    obtain ⟨t, ht, hw⟩ := Option.bind_eq_some_iff.mp (Option.mem_toList.mp hw)
    obtain ⟨train, point, here⟩ := endedWait_point hw
    exact ⟨train, point, t, ht, here⟩
  refine ⟨?_, fun w hw => ?_, fun w hw => ?_⟩
  · rw [List.map_append]
    refine List.nodup_append.mpr ⟨h.once, ?_, fun j hj k hk e => ?_⟩
    · cases (x.2.train i).bind (endedWait row p b i) <;> simp
    · obtain ⟨v, hv, rfl⟩ := List.mem_map.mp hj
      obtain ⟨w, hw, rfl⟩ := List.mem_map.mp hk
      obtain ⟨train, -, t, ht, point⟩ := new hw
      obtain ⟨u, hu, point'⟩ := h.stands v hv
      rw [e, train] at hu
      cases ht.symm.trans hu
      have here : p = v.point := Option.some_inj.mp (point.symm.trans point')
      rcases h.origin v hv with hm | ⟨-, hm⟩
      · exact hp (here ▸ hm)
      · exact hi (train ▸ e ▸ hm)
  · rcases List.mem_append.mp hw with hw | hw
    · obtain ⟨t, ht, point⟩ := h.stands w hw
      exact stays ht point
    · obtain ⟨train, point, t, ht, here⟩ := new hw
      rw [train, point]
      exact stays ht here
  · rcases List.mem_append.mp hw with hw | hw
    · exact (h.origin w hw).imp_right (And.imp_right (List.mem_cons_of_mem i))
    · obtain ⟨train, point, -⟩ := new hw
      exact .inr ⟨point, train ▸ List.mem_cons_self⟩

/-- The hold ends at one timing point after those at others. -/
theorem Pool.holdEnd {ps : List TpId} {is l : List TrainId} {x : List Wait × Act} (h : Pool granted kept [] n x.2)
    (g : Gathered ps p is x) (hp : p ∉ ps) (hl : l.Nodup) (apart : ∀ i ∈ l, i ∉ is) (b : Nat) :
    let y := l.foldl (fun x i => Machine.unholdTrain p b i x) x
    Pool granted kept [] n y.2 ∧ ∃ js, Gathered ps p js y := by
  induction l generalizing x is with
  | nil => exact ⟨h, is, g⟩
  | cons i l ih =>
    obtain ⟨first, hl⟩ := List.nodup_cons.mp hl
    refine ih (h.unholdTrain p b i) (g.unhold hp (apart i List.mem_cons_self) b) hl fun j hj hm => ?_
    rcases List.mem_cons.mp hm with rfl | hm
    · exact first hj
    · exact apart j (List.mem_cons_of_mem i hj) hm

theorem Gathered.next {ps : List TpId} {is : List TrainId} {x : List Wait × Act} (h : Gathered ps p is x) (q : TpId) :
    Gathered (p :: ps) q [] x :=
  { h with
    origin := fun w hw => .inl (by
      rcases h.origin w hw with e | ⟨e, -⟩
      · exact List.mem_cons_of_mem p e
      · exact e ▸ List.mem_cons_self) }

theorem Pool.holdEndAll {ps qs : List TpId} {x : List Wait × Act} (h : Pool granted kept [] n x.2)
    (g : ∀ q, Gathered ps q [] x) (once : qs.Nodup) (apart : ∀ q ∈ qs, q ∉ ps) (b : Nat) :
    let y := qs.foldl (fun x p => (indices 48).foldl (fun x i => Machine.unholdTrain p b i x) x) x
    Pool granted kept [] n y.2 ∧ (y.1.map Wait.train).Nodup := by
  induction qs generalizing x ps with
  | nil =>
    exact ⟨h, (g 0).once⟩
  | cons p qs ih =>
    obtain ⟨first, once⟩ := List.nodup_cons.mp once
    obtain ⟨pool, is, gathered⟩ := h.holdEnd (g p) (apart p List.mem_cons_self) (l := indices 48)
      (List.nodup_finRange 48) (fun _ _ => List.not_mem_nil) b
    rw [List.foldl_cons]
    refine ih pool gathered.next once fun q hq hm => ?_
    rcases List.mem_cons.mp hm with rfl | hm
    · exact first hq
    · exact apart q (List.mem_cons_of_mem p hq) hm

/-- What is handed on alone has changed. -/
theorem Pool.handing (h : Pool granted kept entering n a) (same : b.s = a.s)
    (handOvers : ∀ ws ∈ b.handOvers, (ws.map Wait.train).Nodup) (work : b.work ≤ m) : Pool granted kept entering m b := by
  obtain ⟨s, out, requests, handed⟩ := a
  obtain ⟨t, out', requests', handed'⟩ := b
  cases same
  exact ⟨⟨h.slots.held, h.slots.stopped⟩,
    ⟨h.places.lists, h.places.dead, h.places.apart, h.places.deadOnce, h.places.deadApart, h.places.order, h.places.joins⟩,
    h.full, h.kept, handOvers, work⟩

/-- A train asks the INC for one more piece of work. -/
theorem Pool.ask (h : Pool granted kept entering n a) (r : Request) : Pool granted kept entering (n + 2) (a.ask r) := by
  refine h.handing rfl h.handOvers ?_
  have before := h.work
  unfold Act.work at before ⊢
  rw [Act.ask_requests, Act.ask_handOvers, List.length_append, List.length_singleton]
  simp only [Act.ask_train]
  omega

/-- The hold ends of one event hand on one hand-over, which names a train once. -/
theorem Pool.holdEnds {ps : List TpId} (h : Pool granted kept [] n a) (once : ps.Nodup) :
    Pool granted kept [] (n + 1) (holdEnds ps a) := by
  unfold Machine.holdEnds
  split
  · exact h.mono (Nat.le_succ n)
  · next b _ =>
    have start (q : TpId) : Gathered [] q [] (([] : List Wait), a) := ⟨List.nodup_nil, nofun, nofun⟩
    obtain ⟨pool, each⟩ := h.holdEndAll (x := (([] : List Wait), a)) start once (fun _ _ => List.not_mem_nil) b
    dsimp only
    generalize ps.foldl (fun x p => (indices 48).foldl (fun x i => Machine.unholdTrain p b i x) x) (([] : List Wait), a) = y
      at pool each ⊢
    split
    · exact pool.mono (Nat.le_succ n)
    · refine pool.handing rfl (fun v hv => ?_) ?_
      · rcases List.mem_append.mp hv with hv | hv
        · exact pool.handOvers v hv
        · rw [List.mem_singleton.mp hv]
          exact ((sortWaits_perm y.1).map _).nodup_iff.mpr each
      · have before := pool.work
        unfold Act.work at before
        change 2 * y.2.requests.length + (y.2.handOvers ++ [sortWaits y.1]).length
          + 2 * countOf (fun i => stopsIn (y.2.train i)) ≤ n + 1
        rw [List.length_append, List.length_singleton]
        omega

/-! ## Incident records -/

theorem Pool.reckonHolds (h : Pool granted kept [] n a) {middle : Act → Act} (hm : ∀ a, (middle a).offAsc = a.offAsc) :
    Pool granted kept [] (n + 1) (reckonHolds middle a) := by
  unfold Machine.reckonHolds
  refine Pool.holdEnds (Pool.of_offAsc ?_ (hm _)) ((List.nodup_finRange 64).filter _)
  exact List.foldlRecOn (motive := Pool granted kept [] n) _ _ (h.of_same rfl rfl rfl rfl) fun _ h p _ => h.holdStart p

theorem offAsc_announceIncident (r : Incident) (a : Act) : (announceIncident r a).offAsc = a.offAsc := by
  unfold announceIncident
  split
  · rfl
  · exact foldl_keeps Act.offAsc _ (fun a z => offAsc_placeEntry z _ a) _ _

theorem offAsc_removeEntries (x : Source) (a : Act) : (forAll 24 (zoneRemove x) a).offAsc = a.offAsc :=
  forAll_keeps Act.offAsc _ (fun z a => offAsc_zoneRemove x z a) a

theorem Pool.openRecord (h : Pool granted kept [] n a) (o : Opening) (i : IncId) :
    Pool granted kept [] (n + 1) (openRecord o i a) := by
  unfold Machine.openRecord
  refine Pool.reckonHolds ?_ (offAsc_announceIncident _)
  exact h.of_same rfl rfl rfl rfl

theorem Pool.recur (h : Pool granted kept [] n a) (i : IncId) (r : Incident) (present : Bool) :
    Pool granted kept [] (n + 1) (recur i r present a) := by
  unfold Machine.recur
  refine Pool.reckonHolds ?_ fun _ => rfl
  exact h.of_same rfl rfl rfl rfl

theorem Pool.reopen (h : Pool granted kept [] n a) (i : IncId) (r : Incident) (present : Bool) :
    Pool granted kept [] (n + 1) (reopen i r present a) := by
  unfold Machine.reopen
  refine Pool.reckonHolds ?_ (offAsc_announceIncident _)
  exact h.of_same rfl rfl rfl rfl

theorem Pool.resolve (h : Pool granted kept [] n a) (i : IncId) (r : Incident) :
    Pool granted kept [] (n + 1) (resolve i r a) := by
  unfold Machine.resolve
  refine Pool.reckonHolds ?_ (offAsc_removeEntries _)
  exact h.of_same rfl rfl rfl rfl

theorem Pool.takeRecord (h : Pool granted kept [] n a) {j : IncId} (hb : takeRecord a = some (j, b)) :
    Pool granted kept [] n b := by
  unfold Machine.takeRecord at hb
  split at hb
  · cases hb
    exact h
  · split at hb
    · cases hb
    · dsimp only at hb
      split at hb <;> cases hb <;> exact h.of_same rfl rfl rfl rfl

theorem Pool.refuseRaise (h : Pool granted kept [] n a) (cls : IncClass) (object : IncObject) :
    Pool granted kept [] n (refuseRaise cls object a) := by
  unfold Machine.refuseRaise
  dsimp only
  split <;> exact h.of_same rfl rfl rfl rfl

theorem Pool.handleRaise (h : Pool granted kept [] n a) (cls : IncClass) (object : IncObject) (present : Bool) :
    Pool granted kept [] (n + 1) (handleRaise cls object present a) := by
  unfold Machine.handleRaise
  split
  · split
    · split
      · exact h.reopen _ _ _
      · exact h.recur _ _ _
    · exact h.mono (Nat.le_succ n)
  · split
    · next hb => exact (h.takeRecord hb).openRecord _ _
    · exact (h.refuseRaise cls object).mono (Nat.le_succ n)

theorem Pool.handleGone (h : Pool granted kept [] n a) (cls : IncClass) (object : IncObject) :
    Pool granted kept [] (n + 1) (handleGone cls object a) := by
  have more := h.mono (Nat.le_succ n)
  unfold Machine.handleGone
  split
  · exact more
  · split
    · split
      · exact more.of_same rfl rfl rfl rfl
      · exact h.resolve _ _
      · exact more
    · exact more

theorem Pool.handleRequest (h : Pool granted kept [] n a) (r : Request) :
    Pool granted kept [] (n + 1) (handleRequest r a) := by
  cases r with
  | raise cls object present => exact h.handleRaise cls object present
  | gone cls object => exact h.handleGone cls object

/-! ## What is handed on -/

/-- With nothing handed on, the work left is that of the trains that can still be granted a slot. -/
theorem Pool.rest (h : Pool granted kept entering n a) (hi : Idle a) : Pool granted kept entering 96 a := by
  refine { h with work := ?_ }
  have stops := countOf_le fun i => stopsIn (a.train i)
  rw [Act.work, hi.requests, hi.handOvers, List.length_nil, List.length_nil]
  omega

/-- As many pieces of work as can be handed on are enough to work off all of it. -/
theorem Pool.drainFor (h : Pool true kept [] m a) : Idle (drainFor m a) ∧ Pool true kept [] 96 (drainFor m a) := by
  induction m generalizing a with
  | zero =>
    have none := h.work
    unfold Act.work at none
    have idle : Idle a := ⟨List.length_eq_zero_iff.mp (by omega), List.length_eq_zero_iff.mp (by omega)⟩
    exact ⟨idle, h.rest idle⟩
  | succ m ih =>
    have work := h.work
    unfold Act.work at work
    unfold Machine.drainFor
    split
    · next _ r rest hr =>
      rw [hr, List.length_cons] at work
      obtain ⟨k, rfl⟩ : ∃ k, m = k + 1 := ⟨m - 1, by omega⟩
      have left : Pool true kept [] k { a with requests := rest } := by
        refine h.handing rfl h.handOvers ?_
        change 2 * rest.length + a.handOvers.length + 2 * countOf (fun i => stopsIn (a.train i)) ≤ k
        omega
      exact ih (left.handleRequest r)
    · next ws rest _ hw =>
      have once := h.handOvers
      rw [hw] at once work
      rw [List.length_cons] at work
      have left : Pool true kept [] m { a with handOvers := rest } := by
        refine h.handing rfl (fun v hv => once v (List.mem_cons_of_mem ws hv)) ?_
        change 2 * a.requests.length + rest.length + 2 * countOf (fun i => stopsIn (a.train i)) ≤ m
        omega
      exact ih (left.placeHandOver (once ws List.mem_cons_self))
    · next hr hw =>
      have idle : Idle a := ⟨hr, hw⟩
      exact ⟨idle, h.rest idle⟩

theorem Pool.drain (h : Pool true kept [] n a) (hn : n ≤ 1000) : Idle (drain a) ∧ Pool true kept [] 96 (drain a) :=
  (h.mono hn).drainFor

end
end Sys2Proof.Machine
end

