-- ==== Sys2Proof/Proofs/SupplyActions.lean ====
section
/-! PROOFS. The law of the supply of an action: the pools, the picture, and no train while the line tables are not VALID.
An action is Sound that has handed on all its work; a derivation makes it so. -/

namespace Sys2Proof.Machine

/-! ## The law of the supply of an action -/

/-- While the line tables are not VALID there is no train. -/
def Act.Bare (a : Act) : Prop := tablesValid a.s = false → ∀ i, a.train i = none

/-- The law of the supply while an action has work to hand on, at most `n` pieces of it. -/
structure Steady (n : Nat) (a : Act) : Prop where
  pool : Pool true (fun _ => none) [] n a
  picture : pictureStands a.s
  bare : a.Bare

/-- What remains of it until the picture is derived and grants are made. -/
structure Loose (n : Nat) (a : Act) : Prop where
  pool : Pool false (fun _ => none) [] n a
  bare : a.Bare

/-- The law of the supply of an action that has worked off all it had to hand on. -/
structure Sound (a : Act) : Prop where
  steady : Steady 96 a
  idle : Idle a

/-- The records of the trains that do not stop stand. -/
def KeepsMoving (a b : Act) : Prop := ∀ i t, a.train i = some t → t.state.stopped = false → b.train i = some t

section
variable {n m : Nat} {a b : Act} {i : TrainId} {t : Train}

theorem Act.Bare.valid (h : a.Bare) (ht : a.train i = some t) : tablesValid a.s = true := by
  by_contra hn
  exact nomatch ht.symm.trans (h (Bool.not_eq_true _ ▸ hn) i)

theorem Act.Bare.of_trains (h : a.Bare) (tst : b.s.tst = a.s.tst) (trains : ∀ i, a.train i = none → b.train i = none) :
    b.Bare := fun hn i => trains i (h (tablesValid_of_tst tst ▸ hn) i)

theorem Act.Bare.of_valid (h : tablesValid a.s = true) : a.Bare := fun hn => nomatch h.symm.trans hn

theorem Act.Bare.of_residue (h : a.Bare) (e : b.residue = a.residue) : b.Bare := by
  obtain ⟨-, -, -, -, -, -, tst, -⟩ := residue_outer e
  exact h.of_trains tst fun i hi => Option.map_eq_none_iff.mp ((residue_train e i).trans (congrArg _ hi))

theorem Steady.mono (h : Steady n a) (hn : n ≤ m) : Steady m a := { h with pool := h.pool.mono hn }

theorem Steady.loose (h : Steady n a) : Loose n a := ⟨h.pool.loose, h.bare⟩

theorem Steady.sound (h : Steady n a) (hi : Idle a) : Sound a := ⟨{ h with pool := h.pool.rest hi }, hi⟩

/-- An operation of grants, hand-overs and incident work keeps the picture, and what is bare. -/
theorem Steady.of_residue (h : Steady n a) (pool : Pool true (fun _ => none) [] m b) (e : b.residue = a.residue) :
    Steady m b := ⟨pool, pictureStands_of_residue e h.picture, h.bare.of_residue e⟩

theorem pictureStands_of_same {s u : State} (h : pictureStands s) (psv : u.psv = s.psv) (tst : u.tst = s.tst) :
    pictureStands u := by
  unfold pictureStands at h ⊢
  rwa [psv, tst]

/-- Records change in what the pools do not read. -/
theorem Steady.of_posts (h : Steady n a) (posts : ∀ j, (b.train j).map Train.post = (a.train j).map Train.post)
    (psv : b.s.psv = a.s.psv) (tst : b.s.tst = a.s.tst) (requests : b.requests = a.requests)
    (handOvers : b.handOvers = a.handOvers) : Steady n b where
  pool := by
    have supply (c : SubId) : b.supply c = a.supply c := by rw [Act.supply, Act.supply, psv]
    exact h.pool.of_posts posts (fun c => by rw [supply]) (fun c => by rw [supply]) (by rw [psv])
      (fun _ c => by rw [supply]) requests handOvers
  picture := pictureStands_of_same h.picture psv tst
  bare := h.bare.of_trains tst fun i hi => Option.map_eq_none_iff.mp ((posts i).trans (congrArg _ hi))

theorem Sound.of_posts (h : Sound a) (posts : ∀ j, (b.train j).map Train.post = (a.train j).map Train.post)
    (psv : b.s.psv = a.s.psv) (tst : b.s.tst = a.s.tst) (requests : b.requests = a.requests)
    (handOvers : b.handOvers = a.handOvers) : Sound b :=
  ⟨h.steady.of_posts posts psv tst requests handOvers, requests.trans h.idle.requests, handOvers.trans h.idle.handOvers⟩

/-- Nothing of what the law reads has changed. -/
theorem Sound.of_same (h : Sound a) (trains : b.s.rrg.trains = a.s.rrg.trains) (psv : b.s.psv = a.s.psv)
    (tst : b.s.tst = a.s.tst) (requests : b.requests = a.requests) (handOvers : b.handOvers = a.handOvers) : Sound b :=
  h.of_posts (fun j => by rw [Act.train, trains]; rfl) psv tst requests handOvers

theorem Sound.of_offAsc (h : Sound a) (e : b.offAsc = a.offAsc) : Sound b := by
  obtain ⟨-, -, tst, rrg, psv, -, requests, handOvers⟩ := Act.offAsc_fields e
  exact h.of_same (by rw [rrg]) psv tst requests handOvers

theorem KeepsMoving.trans {c : Act} (h : KeepsMoving a b) (k : KeepsMoving b c) : KeepsMoving a c :=
  fun i t ht hs => k i t (h i t ht hs) hs

/-! ## Work handed on -/

theorem Steady.ask (h : Steady n a) (r : Request) : Steady (n + 2) (a.ask r) := ⟨h.pool.ask r, h.picture, h.bare⟩

/-- Working off what an action has handed on leaves the law of the supply, and the records of the trains that do not stop. -/
theorem Steady.drain (h : Steady n a) (hn : n ≤ 1000) : Sound (drain a) ∧ KeepsMoving a (drain a) := by
  obtain ⟨idle, pool⟩ := h.pool.keeping.drain hn
  exact ⟨⟨h.of_residue pool.keepingNone (residue_drain a), idle⟩, pool.kept⟩

theorem Sound.request_keeps (h : Sound a) (r : Request) : Sound (a.request r) ∧ KeepsMoving a (a.request r) :=
  (h.steady.ask r).drain (by decide)

theorem Sound.request (h : Sound a) (r : Request) : Sound (a.request r) := (h.request_keeps r).1

/-- The grants that follow the release of a slot. -/
theorem Loose.granted (h : Loose n a) (picture : pictureStands a.s) (hn : n ≤ 1000) :
    Sound (Machine.drain (grantAll a)) ∧ KeepsMoving a (Machine.drain (grantAll a)) := by
  have granted := h.pool.keeping.grantAll
  have steady : Steady n (grantAll a) := ⟨granted.keepingNone, pictureStands_of_residue (residue_grantAll a) picture,
    h.bare.of_residue (residue_grantAll a)⟩
  obtain ⟨sound, keeps⟩ := steady.drain hn
  exact ⟨sound, KeepsMoving.trans granted.kept keeps⟩

theorem dropSlot_train {held : HeldSlot} (ht : a.train i = some t) (hs : t.slot = some held) :
    (dropSlot i a).train i = some { t with slot := none } := by
  have slot : (a.train i).bind (·.slot) = some held := by rw [ht]; exact hs
  unfold dropSlot
  rw [slot]
  dsimp only
  rw [Act.onTrain_train, if_pos rfl, Act.onSupply_train, ht]
  rfl

/-- The release of a slot, worked off: the record stands but for the slot. -/
theorem Sound.releaseSlot (h : Sound a) (i : TrainId) : Sound (Machine.drain (releaseSlot i a))
    ∧ (a.train i = none → (Machine.drain (Machine.releaseSlot i a)).train i = none)
    ∧ ∀ t, a.train i = some t → (Machine.drain (Machine.releaseSlot i a)).train i = some { t with slot := none } := by
  unfold Machine.releaseSlot
  split
  · next hs =>
    obtain ⟨held, hs⟩ := Option.isSome_iff_exists.mp hs
    obtain ⟨t, ht, slot⟩ := Option.bind_eq_some_iff.mp hs
    have moves : stopsIn (a.train i) = false :=
      h.steady.pool.slots.holder_moves (b := held.sub) (congrArg (Option.map HeldSlot.sub) hs)
    rw [ht] at moves
    have loose : Loose 96 (dropSlot i a) := ⟨h.steady.pool.dropSlot i, h.steady.bare.of_residue (residue_dropSlot i a)⟩
    obtain ⟨sound, keeps⟩ := loose.granted (pictureStands_of_residue (residue_dropSlot i a) h.steady.picture) (by decide)
    refine ⟨sound, fun hn => (nomatch ht.symm.trans hn), fun u hu => ?_⟩
    cases ht.symm.trans hu
    exact keeps i _ (dropSlot_train ht slot) moves
  · next hs =>
    rw [h.idle.drain]
    refine ⟨h, id, fun u hu => ?_⟩
    rw [hu] at hs ⊢
    have free : u.slot = none := by simpa using hs
    rw [← free]

/-- The record of a train that does not stop is written, with the slot it had. -/
theorem Sound.putMoving (h : Sound a) (ht : a.train i = some t) (hs : t.state.stopped = false) {u : Train}
    (slot : u.slot.map (·.sub) = t.slot.map (·.sub)) (free : u.state.stopped = true → t.slot = none) :
    Sound (a.putTrain i (some u)) := by
  have moves : stopsIn (a.train i) = false := by rw [ht]; exact hs
  have same : slotIn (some u) = slotIn (a.train i) := by rw [ht]; exact slot
  have pool := h.steady.pool.putTrain (m := 98) (u := some u) (h.steady.pool.places.unlisted moves) same
    (fun e => same.trans (by rw [ht]; exact congrArg (Option.map HeldSlot.sub) (free e))) (.inr rfl)
    (by rw [moves]; have := Bool.toNat_le (stopsIn (some u)); omega)
  refine Steady.sound (n := 98) ⟨pool, pictureStands_of_same h.steady.picture rfl rfl,
    Act.Bare.of_valid (h.steady.bare.valid ht)⟩ ⟨h.idle.requests, h.idle.handOvers⟩

end

/-! ## A derivation (R103) -/

section
variable {n : Nat} {a : Act}

theorem deadRequests_length (x : SecId) (old new : Picture) : (deadRequests x old new).length ≤ 1 := by
  unfold deadRequests
  split
  · exact le_refl _
  · split
    · exact le_refl _
    · exact Nat.zero_le _

theorem length_flatMap_le {α β : Type} {f : α → List β} {k : Nat} (hf : ∀ x, (f x).length ≤ k) (l : List α) :
    (l.flatMap f).length ≤ l.length * k := by
  induction l with
  | nil => exact Nat.zero_le _
  | cons x l ih =>
    rw [List.flatMap_cons, List.length_append, List.length_cons, Nat.succ_mul]
    have := hf x
    omega

theorem sectionRequests_length (s : State) : (sectionRequests s).length ≤ 32 :=
  (length_flatMap_le (fun x => deadRequests_length x _ _) (indices 32)).trans (by simp [indices])

theorem Pool.handleAll {kept : TrainId → Option Train} {granted : Bool} (h : Pool granted kept [] n a) (l : List Request) :
    Pool granted kept [] (n + l.length) (handleAll l a) := by
  unfold Machine.handleAll
  induction l generalizing a n with
  | nil => exact h
  | cons r l ih =>
    rw [List.foldl_cons, List.length_cons, Nat.add_comm l.length, ← Nat.add_assoc]
    exact ih (h.handleRequest r)

/-- A derivation leaves the law of the supply. -/
theorem Loose.deriveSupply (h : Loose n a) {requests : List Request} (tripped : List SubId)
    (hn : n + requests.length + 32 ≤ 1000) : Sound (deriveSupply requests tripped a) := by
  have fresh : Pool false (fun _ => none) [] n { a with s.psv := derived a.s } :=
    h.pool.of_posts (fun _ => rfl) (fun c => by simp [Act.supply, derived]) (fun c => by simp [Act.supply, derived]) rfl
      nofun rfl rfl
  have told : Pool false (fun _ => none) [] 1000 (pictureTold requests a) := by
    refine (fresh.handleAll (requests ++ sectionRequests a.s)).mono ?_
    have := sectionRequests_length a.s
    rw [List.length_append]
    omega
  obtain ⟨idle, pool⟩ := (told.replaceAndGrant tripped).drain (le_refl _)
  rw [← deriveSupply_eq] at idle pool
  have residue := residue_deriveSupply requests tripped a
  have bare : Act.Bare { a with s.psv := derived a.s } := h.bare
  exact ⟨⟨pool, pictureStands_deriveSupply _ _ _, bare.of_residue residue⟩, idle⟩

end
end Sys2Proof.Machine
end

