-- ==== Sys2Proof/Proofs/TrainStops.lean ====
section
/-! PROOFS. Trains removed and stops ended keep the law of the supply. -/

namespace Sys2Proof.Machine

section
variable {n m : Nat} {a b : Act} {i : TrainId} {t : Train}

theorem Loose.onSupply (h : Loose n a) (b : SubId) {f : Supply → Supply}
    (hf : ∀ v, (f v).held = v.held ∧ (f v).waits = v.waits) : Loose n (a.onSupply b f) := by
  refine ⟨h.pool.of_posts (fun _ => rfl) (fun c => ?_) (fun c => ?_) rfl nofun rfl rfl, h.bare⟩
  · rw [Act.onSupply_supply]
    split
    · exact (hf _).1
    · rfl
  · rw [Act.onSupply_supply]
    split
    · exact (hf _).2
    · rfl

theorem Loose.dropSlot (h : Loose n a) (i : TrainId) : Loose n (dropSlot i a) :=
  ⟨h.pool.dropSlot i, h.bare.of_residue (residue_dropSlot i a)⟩

theorem onTrain_of_none {f : Train → Train} (h : a.train i = none) : a.onTrain i f = a := by
  rw [Act.onTrain, h, Option.map_none, ← h, Act.putTrain_same]

/-- Fields of a record are written that the pools do not read. -/
theorem onTrain_posts {f : Train → Train} (hf : ∀ t, (f t).post = t.post) (i : TrainId) (a : Act) (j : TrainId) :
    ((a.onTrain i f).train j).map Train.post = (a.train j).map Train.post := by
  rw [Act.onTrain_train]
  split
  · rw [Option.map_map]
    exact congrArg (fun g => (a.train j).map g) (funext hf)
  · rfl

theorem Sound.onTrain (h : Sound a) (i : TrainId) {f : Train → Train} (hf : ∀ t, (f t).post = t.post) :
    Sound (a.onTrain i f) := h.of_posts (onTrain_posts hf i a) rfl rfl rfl rfl

theorem putTrain_posts {u : Train} (ht : a.train i = some t) (hu : u.post = t.post) (j : TrainId) :
    ((a.putTrain i (some u)).train j).map Train.post = (a.train j).map Train.post := by
  rw [Act.putTrain_train]
  split
  · next e =>
    rw [← e, ht]
    exact congrArg some hu
  · rfl

theorem Sound.putTrain (h : Sound a) (ht : a.train i = some t) {u : Train} (hu : u.post = t.post) :
    Sound (a.putTrain i (some u)) := h.of_posts (putTrain_posts ht hu) rfl rfl rfl rfl

/-! ## Removal (R68) -/

theorem Sound.removeTrain (h : Sound a) (i : TrainId) : Sound (removeTrain i a) := by
  unfold Machine.removeTrain
  split
  · exact h
  · next t ht =>
    obtain ⟨sound, -, released⟩ := h.releaseSlot i
    have here := released t ht
    dsimp only
    generalize Machine.drain (Machine.releaseSlot i a) = b at sound here ⊢
    have away := sound.steady.pool.withdraw i
    have slot : slotIn none = slotIn ((withdraw i b).train i) := by
      rw [show (withdraw i b).train i = b.train i from rfl, here]
      rfl
    have removed : Sound ((withdraw i b).putTrain i none) := by
      refine Steady.sound (n := 98) ⟨?_, ?_, ?_⟩ ⟨sound.idle.requests, sound.idle.handOvers⟩
      · exact away.putTrain (withdraw_unlisted i b) slot nofun (.inr rfl)
          (by rw [show stopsIn none = false from rfl, Bool.toNat_false]; omega)
      · exact pictureStands_of_same (pictureStands_of_residue (residue_withdraw i b) sound.steady.picture) rfl rfl
      · refine sound.steady.bare.of_trains rfl fun j hj => ?_
        rw [Act.putTrain_train]
        split
        · rfl
        · exact hj
    exact ((removed.request _).request _).request _

/-! ## The ends of stops (R64–R66) -/

/-- A record after its stop has ended as an unplanned departure. -/
def Train.endedStop (t : Train) : Train := { t with state := .running, target := none, powerWait := none }

/-- A train leaves its stop and the place it stands in. -/
theorem Sound.leaveStop (h : Sound a) (ht : a.train i = some t) (hs : t.state.stopped = true) :
    Sound ((withdraw i a).onTrain i Train.endedStop)
      ∧ ((withdraw i a).onTrain i Train.endedStop).train i = some t.endedStop := by
  have stops : stopsIn ((withdraw i a).train i) = true := by
    rw [show (withdraw i a).train i = some t from ht]
    exact hs
  have slot : slotIn (some t.endedStop) = slotIn ((withdraw i a).train i) := by
    rw [show (withdraw i a).train i = some t from ht]
    rfl
  rw [onTrain_of_train (a := withdraw i a) (t := t) ht, Act.putTrain_train, if_pos rfl]
  refine ⟨Steady.sound (n := 96) ⟨?_, ?_, ?_⟩ ⟨h.idle.requests, h.idle.handOvers⟩, rfl⟩
  · refine (h.steady.pool.withdraw i).putTrain (withdraw_unlisted i a) slot nofun (.inl stops) ?_
    rw [stops]
    exact le_add_right (le_refl _)
  · exact pictureStands_of_same (pictureStands_of_residue (residue_withdraw i a) h.steady.picture) rfl rfl
  · exact Act.Bare.of_valid (h.steady.bare.valid ht)

theorem Sound.endStop (h : Sound a) (ht : a.train i = some t) (hs : t.state.stopped = true) :
    Sound (endStop i a) ∧ (endStop i a).train i = some t.endedStop := by
  have counted : Sound { a with s.rrg.unplanned := bump a.s.rrg.unplanned } := h.of_same rfl rfl rfl rfl rfl
  obtain ⟨ended, here⟩ := counted.leaveStop (i := i) (t := t) ht hs
  unfold Machine.endStop
  rw [ht]
  obtain ⟨sound, keeps⟩ := ended.request_keeps (.gone .powerWait (.train t.set))
  exact ⟨sound, keeps i _ here rfl⟩

/-- Once a stop is ended a train does not stop, and holds the slot it held. -/
theorem Sound.endAnyStop (h : Sound a) (i : TrainId) : Sound (endAnyStop i a)
    ∧ ∀ u, (endAnyStop i a).train i = some u → u.state.stopped = false := by
  unfold Machine.endAnyStop
  split
  · next hs =>
    cases ht : a.train i with
    | none => rw [ht] at hs; exact nomatch hs
    | some t =>
      rw [ht] at hs
      obtain ⟨sound, running⟩ := h.endStop ht hs
      refine ⟨sound, fun u hu => ?_⟩
      cases running.symm.trans hu
      rfl
  · next hs =>
    refine ⟨h, fun u hu => ?_⟩
    rw [hu] at hs
    exact Bool.not_eq_true _ ▸ hs

/-- A record, if there is one, is that of a train that neither stops nor holds a slot. -/
def Act.Clear (i : TrainId) (a : Act) : Prop := ∀ u, a.train i = some u → u.state.stopped = false ∧ u.slot = none

/-- The start of an arrival or a pass: the stop ended and the slot released. -/
theorem Sound.cleared (h : Sound a) (i : TrainId) : Sound (Machine.drain (Machine.releaseSlot i (Machine.endAnyStop i a)))
    ∧ (Machine.drain (Machine.releaseSlot i (Machine.endAnyStop i a))).Clear i := by
  obtain ⟨ended, moves⟩ := h.endAnyStop i
  obtain ⟨sound, gone, released⟩ := ended.releaseSlot i
  refine ⟨sound, fun u hu => ?_⟩
  cases ht : (Machine.endAnyStop i a).train i with
  | none => exact nomatch (gone ht).symm.trans hu
  | some t =>
    cases (released t ht).symm.trans hu
    exact ⟨moves t ht, rfl⟩

/-- A clear record is written, without a slot. -/
theorem Sound.onClear (h : Sound a) (hc : a.Clear i) {f : Train → Train} (hf : ∀ t, (f t).slot = t.slot) :
    Sound (a.onTrain i f) := by
  cases ht : a.train i with
  | none =>
    rw [onTrain_of_none ht]
    exact h
  | some t =>
    obtain ⟨moves, free⟩ := hc t ht
    rw [onTrain_of_train ht]
    exact h.putMoving ht moves (by rw [hf]) fun _ => free

theorem Act.Clear.onTrain (hc : a.Clear i) {f : Train → Train} (hf : ∀ t, (f t).slot = t.slot ∧ (f t).state = t.state) :
    (a.onTrain i f).Clear i := by
  intro u hu
  rw [Act.onTrain_train, if_pos rfl] at hu
  obtain ⟨t, ht, rfl⟩ := Option.map_eq_some_iff.mp hu
  obtain ⟨slot, state⟩ := hf t
  obtain ⟨moves, free⟩ := hc t ht
  exact ⟨state ▸ moves, slot.trans free⟩

/-- A request that finds a record clear leaves it clear. -/
theorem Sound.request_clear (h : Sound a) (hc : a.Clear i) (r : Request) : (a.request r).Clear i := by
  intro u hu
  cases ht : a.train i with
  | none =>
    have gone := (residue_train (residue_request r a) i).trans (congrArg (Option.map Train.core) ht)
    exact nomatch hu.symm.trans (Option.map_eq_none_iff.mp gone)
  | some t =>
    obtain ⟨moves, free⟩ := hc t ht
    obtain ⟨-, keeps⟩ := h.request_keeps r
    cases (keeps i t ht moves).symm.trans hu
    exact ⟨moves, free⟩

theorem Sound.report (h : Sound a) (k : Nat) (c : List Byte) : Sound (a.report k c) := h.of_same rfl rfl rfl rfl rfl

theorem Sound.hold (h : Sound a) (p : TpId) (r : Option Nat) (k : Nat) (x : HoldReason) : Sound (a.hold p r k x) :=
  h.of_same rfl rfl rfl rfl rfl

end
end Sys2Proof.Machine
end

