-- ==== Sys2Proof/Proofs/SupplyPassages.lean ====
section
/-! PROOFS. Passages, and the trains they bind, move and stop, keep the law of the supply. -/

namespace Sys2Proof.Machine

section
variable {n m : Nat} {a b : Act} {i : TrainId} {t : Train} {p : TpId} {time : Option Nat}

/-! ## Binding (R62, R71, R72) -/

/-- A record is made unscheduled, which may ask for one piece of work. -/
theorem Steady.unbind (h : Steady n a) (i : TrainId) : Steady (n + 2) (unbind i a) := by
  unfold Machine.unbind
  split
  · exact h.mono (by omega)
  · next t ht =>
    have written : Steady n (a.putTrain i (some { t with run := none, step := none, late := false })) :=
      h.of_posts (putTrain_posts ht rfl) rfl rfl rfl rfl
    dsimp only
    split
    · exact written.ask _
    · exact written.mono (by omega)

theorem Sound.unschedule (h : Sound a) (i : TrainId) : Sound (unschedule i a) :=
  ((h.steady.unbind i).drain (by decide)).1

theorem Sound.bindRun (h : Sound a) (i : TrainId) (n : Nat) : Sound (bindRun i n a) := by
  have bound : Sound (a.onTrain i fun t => { t with run := some n, step := none }) := h.onTrain i fun _ => rfl
  unfold Machine.bindRun
  dsimp only
  split
  · exact bound.unschedule _
  · exact bound

theorem Sound.applyRun (h : Sound a) (i : TrainId) (n : Nat) : Sound (applyRun i n a) := by
  unfold Machine.applyRun
  split
  · exact h
  · split
    · exact h.bindRun i n
    · split
      · exact h.unschedule i
      · exact h

/-! ## Passages by event (R64–R67) -/

theorem Train.matched_slot (t : Train) (m : Option (Nat × Run × List Leg)) (time : Option Nat) :
    (t.matched m time).slot = t.slot := by
  cases m <;> rfl

theorem Train.matched_state (t : Train) (m : Option (Nat × Run × List Leg)) (time : Option Nat) :
    (t.matched m time).state = t.state := by
  cases m <;> rfl

theorem Sound.regulate (h : Sound a) (hc : a.Clear i) (p : TpId) (now : Nat) : Sound (regulate i p now a).1 := by
  unfold Machine.regulate
  split
  · exact h
  · next t ht =>
    obtain ⟨moves, free⟩ := hc t ht
    have slot := congrArg (Option.map HeldSlot.sub) (t.matched_slot (matchStep a.s t p) (some now))
    dsimp only
    split
    · refine Sound.hold (h.putMoving ht moves ?_ fun _ => free) _ _ _ _
      exact slot
    · refine Sound.hold (h.putMoving ht moves ?_ fun _ => free) _ _ _ _
      exact slot

theorem Sound.arrive (h : Sound a) (i : TrainId) (p : TpId) (time : Option Nat) : Sound (arrive i p time a).1 := by
  unfold Machine.arrive
  split
  · exact h
  · next t _ =>
    split
    · exact h
    · obtain ⟨sound, clear⟩ := h.cleared i
      dsimp only
      generalize Machine.drain (Machine.releaseSlot i (Machine.endAnyStop i a)) = b at sound clear ⊢
      have written : Sound (b.onTrain i fun t => { t with overdue := none, point := some p, time := time }) :=
        sound.onClear clear fun _ => rfl
      have clear' := clear.onTrain (f := fun t => { t with overdue := none, point := some p, time := time })
        fun _ => ⟨rfl, rfl⟩
      have told := written.request (.gone .trainStalled (.train t.set))
      have clear'' : (stallGone t.set (b.onTrain i fun t => { t with overdue := none, point := some p, time := time })).Clear i :=
        written.request_clear clear' (.gone .trainStalled (.train t.set))
      split
      · exact told.regulate clear'' p _
      · exact told.onClear clear'' fun _ => rfl

/-- A record that runs on after a passage. -/
theorem Sound.runOn (h : Sound a) (ht : a.train i = some t) (hs : t.state.stopped = false) {u : Train}
    (slot : u.slot = t.slot) (state : u.state = .running) : Sound (stallGone u.set (a.putTrain i (some u))) :=
  (h.putMoving ht hs (by rw [slot]) fun e => by rw [state] at e; cases e).request _

theorem Sound.passThrough (h : Sound a) (i : TrainId) (p : TpId) (time : Option Nat) : Sound (passThrough i p time a) := by
  obtain ⟨sound, clear⟩ := h.cleared i
  unfold Machine.passThrough
  dsimp only
  generalize Machine.drain (Machine.releaseSlot i (Machine.endAnyStop i a)) = b at sound clear ⊢
  split
  · exact sound
  · next t ht =>
    obtain ⟨moves, -⟩ := clear t ht
    cases time with
    | none => exact sound.runOn ht moves rfl rfl
    | some now =>
      simp only [Option.isSome_some, ↓reduceIte]
      exact sound.runOn ht moves (Train.matched_slot _ _ _) (Train.matched_state _ _ _)

theorem Sound.departTrain (h : Sound a) (i : TrainId) (p : TpId) (time : Option Nat) : Sound (departTrain i p time a) := by
  obtain ⟨sound, moves⟩ := h.endAnyStop i
  unfold Machine.departTrain
  dsimp only
  generalize Machine.endAnyStop i a = b at sound moves ⊢
  split
  · exact sound
  · next t ht =>
    cases time with
    | none => exact sound.runOn ht (moves t ht) rfl rfl
    | some now =>
      simp only [Option.isSome_some, ↓reduceIte]
      exact sound.runOn ht (moves t ht) (Train.matched_slot _ _ _) (Train.matched_state _ _ _)

theorem Sound.giveCredit (h : Sound a) (p : TpId) : Sound (giveCredit p a) := by
  unfold Machine.giveCredit
  dsimp only
  split
  · split
    · refine Loose.deriveSupply (n := 96) ?_ [] (by decide)
      exact h.steady.loose.onSupply _ fun _ => ⟨rfl, rfl⟩
    · exact h
  · exact h

theorem Sound.eventWork (h : Sound a) (i : TrainId) (q : Passage) (time : Option Nat) : Sound (eventWork i q time a).1 := by
  unfold Machine.eventWork
  split
  · split
    · exact h.arrive i _ time
    · exact h.passThrough i _ time
  · exact h.passThrough i _ time
  · exact h.departTrain i _ time
  · exact h.giveCredit _

/-! ## The passage as a whole (R60) -/

theorem Sound.lateTest (h : Sound a) (i : TrainId) : Sound (lateTest i a) := by
  unfold Machine.lateTest
  split
  · exact h
  · next t ht =>
    dsimp only
    split
    · exact (h.putTrain (u := { t with late := true }) ht rfl).request _
    · split
      · exact (h.putTrain (u := { t with late := false }) ht rfl).request _
      · exact h

theorem Sound.serviceAnnouncement (h : Sound a) (i : TrainId) (p : TpId) (time : Option Nat) (standing : Bool) :
    Sound (serviceAnnouncement i p time standing a) := by
  unfold Machine.serviceAnnouncement
  dsimp only
  split
  · split
    · split
      · exact h.of_offAsc (offAsc_placeEntry _ _ a)
      · exact h
    · exact h
  · exact h

theorem Sound.passageFor (h : Sound a) (i : TrainId) (q : Passage) : Sound (passageFor i q a).1 := by
  have applied := h.applyRun i q.run
  unfold Machine.passageFor
  dsimp only
  generalize Machine.applyRun i q.run a = b at applied ⊢
  split
  · exact applied.removeTrain i
  · have heard : Sound (b.onTrain i fun t => { t with silence := 480 }) := applied.onTrain i fun _ => rfl
    have worked := heard.eventWork i q (passageTime a.s q.offset)
    generalize Machine.eventWork i q (passageTime a.s q.offset) (b.onTrain i fun t => { t with silence := 480 }) = x at worked ⊢
    dsimp only
    split
    · exact worked.serviceAnnouncement i _ _ _
    · exact (worked.lateTest i).serviceAnnouncement i _ _ _

theorem Sound.refuseCreation (h : Sound a) (set : Nat) (p : TpId) : Sound (refuseCreation set p a) := by
  unfold Machine.refuseCreation
  dsimp only
  split
  · exact h.of_same rfl rfl rfl rfl rfl
  · exact h.of_same rfl rfl rfl rfl rfl

/-- A record is created of a train that runs. -/
theorem Sound.create (h : Sound a) (hv : tablesValid a.s = true) (hi : a.train i = none) (set : Nat) :
    Sound (a.putTrain i (some (newTrain set))) := by
  have absent : ¬a.Listed i := h.steady.pool.places.unlisted (by rw [hi]; rfl)
  have pool := h.steady.pool.putTrain (m := 96) (u := some (newTrain set)) absent (by rw [hi]; rfl) nofun (.inr rfl)
    (Nat.le_add_right 96 _)
  exact Steady.sound ⟨pool, pictureStands_of_same h.steady.picture rfl rfl, Act.Bare.of_valid hv⟩
    ⟨h.idle.requests, h.idle.handOvers⟩

theorem freeTrain_free {s : State} (h : freeTrain s = some i) : s.rrg.trains.get i = none := by
  unfold freeTrain at h
  have free := List.find?_some h
  exact Option.isNone_iff_eq_none.mp free

/-- A passage handled while the line tables are VALID. -/
theorem Sound.handlePassage (h : Sound a) (hv : tablesValid a.s = true) (q : Passage) : Sound (handlePassage q a).1 := by
  unfold Machine.handlePassage
  split
  · exact h.passageFor _ q
  · split
    · exact h
    · split
      · next i hi => exact (h.create hv (freeTrain_free hi) q.set).passageFor i q
      · dsimp only
        split
        · exact (h.refuseCreation _ _).giveCredit _
        · exact h.refuseCreation _ _

end
end Sys2Proof.Machine
end

