-- ==== Sys2Proof/Proofs/SupplyEvents.lean ====
section
/-! PROOFS. The reports of substations and equipment, and the trains' and substations' own countdowns, keep the law of the
supply. -/

namespace Sys2Proof.Machine

/-! ## Supply events (R95, R96, R99) -/

section
variable {n : Nat} {a : Act} {i : TrainId}

theorem tripRequests_length (b : SubId) (old new : Supply) : (tripRequests b old new).length ≤ 4 := by
  have one (p : Prop) [Decidable p] (r : Request) : (if p then [r] else []).length ≤ 1 := by
    split
    · exact le_refl _
    · exact Nat.zero_le _
  unfold tripRequests
  rw [List.length_append, List.length_append, List.length_append]
  exact Nat.add_le_add (Nat.add_le_add (Nat.add_le_add (one _ _) (one _ _)) (one _ _)) (one _ _)

theorem tripAll_length (l : List SubId) (hl : l.length ≤ 8) (old new : SubId → Supply) :
    (l.flatMap fun b => tripRequests b (old b) (new b)).length ≤ 32 :=
  (length_flatMap_le (fun b => tripRequests_length b _ _) l).trans (by omega)

theorem indices_filter_length {k : Nat} (p : Fin k → Bool) : ((indices k).filter p).length ≤ k :=
  (List.length_filter_le _ _).trans (by simp [indices])

theorem Sound.statusReport (h : Sound a) (src : Byte) (closed : Bool) (load : Nat) (feeders : List Bool) :
    Sound (statusReport src closed load feeders a) := by
  by_cases hs : statusTargets a.s src = []
  · rw [statusReport_none hs]
    exact h
  · obtain ⟨ts, e⟩ := statusReport_some hs closed load feeders
    have frame := statusWritten_frame src closed load feeders a
    have supply := statusWritten_supply src closed load feeders a
    have trains (j : TrainId) : (statusWritten src closed load feeders a).train j = a.train j := by rw [frame]; rfl
    have loose : Loose 96 (statusWritten src closed load feeders a) := by
      refine ⟨h.steady.loose.pool.of_posts (fun j => by rw [trains]) (fun c => ?_) (fun c => ?_) (by rw [frame]) nofun
        (by rw [frame]) (by rw [frame]), h.steady.bare.of_trains (by rw [frame]) fun j hj => (trains j).trans hj⟩
      · rw [supply]
        split <;> rfl
      · rw [supply]
        split <;> rfl
    rw [e]
    refine loose.deriveSupply ts ?_
    have requests : (statusRequests src closed load feeders a.s).length ≤ 32 :=
      tripAll_length _ (indices_filter_length _) _ _
    omega

theorem Loose.telemetryOut (h : Loose n a) (bs : List SubId) : Loose n (telemetryOut bs a).2 :=
  List.foldlRecOn (motive := Loose n) bs _ h fun _ h b _ => h.onSupply b fun _ => ⟨rfl, rfl⟩

theorem Loose.creditOut (h : Loose n a) (bs : List SubId) : Loose n (creditOut bs a) :=
  List.foldlRecOn (motive := Loose n) bs _ h fun _ h b _ => h.onSupply b fun _ => ⟨rfl, rfl⟩

theorem Sound.supplyBoundary (h : Sound a) : Sound (supplyBoundary a) := by
  unfold Machine.supplyBoundary
  dsimp only
  refine Loose.deriveSupply (n := 96) ?_ [] ?_
  · exact List.foldlRecOn (motive := Loose 96) _ _ ((h.steady.loose.telemetryOut _).creditOut _)
      fun _ h i _ => h.dropSlot i
  · have requests := tripAll_length ((indices 8).filter fun b => decide ((a.supply b).telemetry = some 0))
      (indices_filter_length _) a.supply fun b => (a.supply b).silent
    exact Nat.add_le_add_right (Nat.add_le_add_left requests 96) 32 |>.trans (by decide)

/-! ## Reports from the field (R126–R128) -/

theorem Sound.forAll (h : Sound a) {k : Nat} {f : Fin k → Act → Act} (hf : ∀ i a, Sound a → Sound (f i a)) :
    Sound (forAll k f a) := List.foldlRecOn (motive := Sound) _ _ h fun a h i _ => hf i a h

theorem Sound.actOnInput (h : Sound a) (old : Table Edge 64) (src : Byte) (inputs : List Bool) (k : MapId) :
    Sound (actOnInput old src inputs k a) := by
  unfold Machine.actOnInput
  split
  · exact h
  · dsimp only
    split
    · split
      · split
        · exact h.request _
        · exact h
      · split
        · exact h.request _
        · exact h
    all_goals
      split
      · exact h.request _
      · exact h

theorem Sound.equipmentReport (h : Sound a) (src : Byte) (inputs : List Bool) : Sound (equipmentReport src inputs a) := by
  have written : Sound { a with s.inc.edges := edgesAfter a.s src inputs } := h.of_same rfl rfl rfl rfl rfl
  exact written.forAll fun k _ h => h.actOnInput _ src inputs k

/-! ## The countdowns of a record (R68, R69, R120) -/

theorem Sound.overdueOut (h : Sound a) (i : TrainId) : Sound (overdueOut i a) := by
  unfold Machine.overdueOut
  split
  · exact h
  · next t ht => exact (h.putTrain (u := { t with overdue := none }) ht rfl).request _

theorem Sound.powerWaitOut (h : Sound a) (i : TrainId) : Sound (powerWaitOut i a) := by
  unfold Machine.powerWaitOut
  split
  · exact h
  · next t ht => exact (h.putTrain (u := { t with powerWait := none }) ht rfl).request _

theorem Sound.trainBoundary (h : Sound a) (i : TrainId) : Sound (trainBoundary i a) := by
  have overdue : Sound (if (a.train i).bind (·.overdue) = some 0 then Machine.overdueOut i a else a) := by
    split
    · exact h.overdueOut i
    · exact h
  unfold Machine.trainBoundary
  split
  · exact h
  · split
    · exact h.removeTrain i
    · dsimp only
      generalize (if (a.train i).bind (·.overdue) = some 0 then Machine.overdueOut i a else a) = b at overdue ⊢
      split
      · exact overdue.powerWaitOut i
      · exact overdue

theorem dueRequest_train {s : State} {b : Nat} {w : Wait} (h : dueRequest s b i = some w) : w.train = i := by
  unfold dueRequest at h
  split at h
  · cases h
  · split at h
    · split at h
      · obtain ⟨x, -, rfl⟩ := Option.map_eq_some_iff.mp h
        rfl
      · cases h
    · cases h

/-- A list whose items give at most what they name names each at most once. -/
theorem filterMap_nodup {α β : Type} {f : α → Option β} {g : β → α} {l : List α} (hl : l.Nodup)
    (hf : ∀ x y, f x = some y → g y = x) : ((l.filterMap f).map g).Nodup := by
  refine (hl.filterMap fun x z y hx hz => (hf x y hx).symm.trans (hf z y hz)).map_on fun y hy z hz e => ?_
  obtain ⟨x, -, hx⟩ := List.mem_filterMap.mp hy
  obtain ⟨v, -, hv⟩ := List.mem_filterMap.mp hz
  rw [hf x y hx, hf v z hv] at e
  exact Option.some.inj (hx.symm.trans (e ▸ hv))

theorem Sound.handOverDue (h : Sound a) : Sound (handOverDue a) := by
  unfold Machine.handOverDue
  split
  · exact h
  · next b _ =>
    have each : (((indices 48).filterMap (dueRequest a.s b)).map Wait.train).Nodup :=
      filterMap_nodup (List.nodup_finRange 48) fun _ _ => dueRequest_train
    have once := ((sortWaits_perm _).map Wait.train).nodup_iff.mpr each
    generalize sortWaits ((indices 48).filterMap (dueRequest a.s b)) = ws at once ⊢
    split
    · exact h
    · obtain ⟨sound, -⟩ := (h.steady.of_residue (h.steady.pool.placeHandOver once) (residue_placeHandOver ws a)).drain
        (by omega)
      exact sound

end
end Sys2Proof.Machine
end

