-- ==== Sys2Proof/Proofs/RewrittenPlaces.lean ====
section
/-! PROOFS. Steps that rewrite every record or every place where it stands: the day roll and the fall of the countdowns at
a boundary. -/

namespace Sys2Proof.Machine

/-! ## Places rewritten where they stand -/

section
variable {granted : Bool} {kept : TrainId → Option Train} {n k : Nat} {a b : Act}

theorem mem_of_perm_map {α β : Type} {f : α → β} {l : List β} {ws : List α} (h : l.Perm (ws.map f)) {x : β}
    (hx : x ∈ l) : ∃ w ∈ ws, f w = x := List.mem_map.mp (h.mem_iff.mp hx)

/-- Every place is rewritten, its train and its join number standing, and each list is in order again. -/
theorem Pool.carried (h : Pool granted kept [] n a) (f : Wait → Wait)
    (hf : ∀ w, (f w).train = w.train ∧ (f w).joined = w.joined)
    (supply : ∀ c, ∃ ws, b.supply c = { a.supply c with waits := ws } ∧ ws.Perm ((a.supply c).waits.map f)
      ∧ ws.Pairwise fun x y => y.before x = false)
    (dead : b.s.psv.deadWaits = a.s.psv.deadWaits.map f)
    (lists : ∀ w, Entered [] a w → Entered [] b (f w)) (placed : ∀ w, Placed a.s .waitDead w → Placed b.s .waitDead (f w))
    (slots : ∀ j, slotIn (b.train j) = slotIn (a.train j)) (stops : ∀ j, stopsIn (b.train j) = stopsIn (a.train j))
    (requests : b.requests = a.requests) (handOvers : b.handOvers = a.handOvers) :
    Pool granted (fun _ => none) [] n b := by
  have perm (c : SubId) : (b.supply c).waits.Perm ((a.supply c).waits.map f) := by
    obtain ⟨ws, e, perm, -⟩ := supply c
    rw [e]
    exact perm
  have rest (c : SubId) : (b.supply c).held = (a.supply c).held ∧ (b.supply c).capacity = (a.supply c).capacity := by
    obtain ⟨ws, e, -⟩ := supply c
    rw [e]
    exact ⟨rfl, rfl⟩
  have joins (c : SubId) : ((b.supply c).waits.map Wait.joined).Nodup := by
    refine ((perm c).map Wait.joined).nodup_iff.mpr ?_
    rw [List.map_map, show Wait.joined ∘ f = Wait.joined from funext fun w => (hf w).2]
    exact h.places.joins c
  refine ⟨h.slots.of_same (fun c => (rest c).1) slots fun j hj => ?_, ?_, fun hg c hc => ?_,
    (fun _ _ ht => nomatch ht), ?_, ?_⟩
  · rw [slots]
    exact h.slots.stopped j (stops j ▸ hj)
  · refine { lists := fun c x hx => ?_, dead := fun x hx => ?_, apart := fun c d x hx y hy e => ?_, deadOnce := ?_,
             deadApart := fun c x hx y hy => ?_, order := fun c => ?_, joins := joins }
    · obtain ⟨w, hw, rfl⟩ := mem_of_perm_map (perm c) hx
      exact lists w (h.places.lists c w hw)
    · rw [dead] at hx
      obtain ⟨w, hw, rfl⟩ := List.mem_map.mp hx
      exact placed w (h.places.dead w hw)
    · obtain ⟨w, hw, rfl⟩ := mem_of_perm_map (perm c) hx
      obtain ⟨v, hv, rfl⟩ := mem_of_perm_map (perm d) hy
      obtain ⟨rfl, rfl⟩ := h.places.apart c d w hw v hv ((hf w).1.symm.trans (e.trans (hf v).1))
      exact ⟨rfl, rfl⟩
    · rw [dead, List.map_map, show Wait.train ∘ f = Wait.train from funext fun w => (hf w).1]
      exact h.places.deadOnce
    · obtain ⟨w, hw, rfl⟩ := mem_of_perm_map (perm c) hx
      rw [dead] at hy
      obtain ⟨v, hv, rfl⟩ := List.mem_map.mp hy
      rw [(hf w).1, (hf v).1]
      exact h.places.deadApart c w hw v hv
    · obtain ⟨ws, e, -, sorted⟩ := supply c
      have joins := joins c
      rw [e] at joins ⊢
      exact pairwise_before sorted joins
  · rw [(rest c).1, (rest c).2]
    refine h.full hg c fun nil => hc ?_
    have empty := perm c
    rw [nil] at empty
    exact empty.eq_nil
  · rw [handOvers]
    exact h.handOvers
  · exact (Act.work_le (by rw [requests]) (by rw [handOvers]) fun j hj => stops j ▸ hj).trans h.work

/-- What the picture reads of a substation. -/
def Supply.read (v : Supply) : SubState × Option Nat × Table FeederMemory 8 × Bool × Nat :=
  (v.state, v.load, v.feeders, v.credit.isSome, v.capacity)

/-- The picture of a section is read from the judgements of feeds. -/
theorem pictureOf_of_feeds {v w : Psv} (h : ∀ c f, feedOf v c f = feedOf w c f) (x : Sec) : pictureOf v x = pictureOf w x := by
  have feeds : sectionFeeds v x = sectionFeeds w x := by simp only [sectionFeeds, h]
  simp only [pictureOf, feeds]

theorem pictureStands_of_read {s u : State} (h : pictureStands s)
    (subs : ∀ c, (u.psv.subs.get c).read = (s.psv.subs.get c).read) (secs : u.psv.secs = s.psv.secs) (tst : u.tst = s.tst) :
    pictureStands u := by
  have f {γ : Type} (c : SubId) (g : SubState × Option Nat × Table FeederMemory 8 × Bool × Nat → γ) :
      g (u.psv.subs.get c).read = g (s.psv.subs.get c).read := congrArg g (subs c)
  have state (c : SubId) : (u.psv.subs.get c).state = (s.psv.subs.get c).state := f c (·.1)
  have feeders (c : SubId) : (u.psv.subs.get c).feeders = (s.psv.subs.get c).feeders := f c (·.2.2.1)
  obtain ⟨capacity, sections⟩ := h
  refine ⟨fun c => ?_, fun x => ?_⟩
  · have load : (u.psv.subs.get c).load = (s.psv.subs.get c).load := f c (·.2.1)
    have credit : creditOf (u.psv.subs.get c) = creditOf (s.psv.subs.get c) := f c fun x => x.2.2.2.1.toNat
    have same : (u.psv.subs.get c).capacity = (s.psv.subs.get c).capacity := f c (·.2.2.2.2)
    rw [same, capacity, tst, effectiveCapacity, effectiveCapacity, state, load, credit]
  · have feed (c : SubId) (y : FeederId) : feedOf u.psv c y = feedOf s.psv c y := by rw [feedOf, feedOf, state, feeders]
    rw [secs, sections, tst]
    exact (pictureOf_of_feeds feed _).symm

/-! ## The day roll (R73, R121) -/

/-- A record's times after a day roll. -/
def Train.rolled (k : Nat) (t : Train) : Train := { t with target := t.target.map fun _ => k, time := none }

/-- A place after a day roll. -/
def Wait.retimed (k : Nat) (w : Wait) : Wait := { w with target := k }

theorem rollTrains_train (k : Nat) (a : Act) (j : TrainId) :
    (forAll 48 (rollTrain k) a).train j = (a.train j).map (Train.rolled k) :=
  forAll_train (F := fun _ => Option.map (Train.rolled k)) (fun i a j => Act.onTrain_train i j _ a) a j

theorem rollTrains_frame (k : Nat) (a : Act) :
    forAll 48 (rollTrain k) a = { a with s.rrg.trains := (forAll 48 (rollTrain k) a).s.rrg.trains } :=
  forAll_frame (fun _ _ => rfl) a

theorem rollWaits_supply (k : Nat) (a : Act) (c : SubId) : (a.rollWaits k).supply c
    = { a.supply c with waits := sortWaits ((a.supply c).waits.map (Wait.retimed k)) } :=
  Table.get_map _ _ c

theorem Steady.rolled (h : Steady n a) (k : Nat) : Steady n ((forAll 48 (rollTrain k) a).rollWaits k) := by
  have train := rollTrains_train k a
  have frame := rollTrains_frame k a
  generalize forAll 48 (rollTrain k) a = b at train frame ⊢
  have supply (c : SubId) : (b.rollWaits k).supply c
      = { a.supply c with waits := sortWaits ((a.supply c).waits.map (Wait.retimed k)) } := by
    rw [rollWaits_supply, frame]
    rfl
  have same (j : TrainId) : slotIn ((b.rollWaits k).train j) = slotIn (a.train j)
      ∧ stopsIn ((b.rollWaits k).train j) = stopsIn (a.train j) := by
    rw [show (b.rollWaits k).train j = (a.train j).map (Train.rolled k) from train j]
    cases a.train j <;> exact ⟨rfl, rfl⟩
  have rolled {j : TrainId} {t : Train} (ht : a.train j = some t) : (b.rollWaits k).train j = some (t.rolled k) :=
    (train j).trans (congrArg _ ht)
  have target {t : Train} {w : Wait} (e : t.target = some w.target) : (t.rolled k).target = some (w.retimed k).target :=
    congrArg (Option.map fun _ => k) e
  refine ⟨?_, ?_, ?_⟩
  · refine h.pool.carried (Wait.retimed k) (fun _ => ⟨rfl, rfl⟩)
      (fun c => ⟨_, supply c, sortWaits_perm _, sortWaits_pairwise _⟩) (by rw [frame]; rfl) (fun w hw => ?_) (fun w hw => ?_)
      (fun j => (same j).1) (fun j => (same j).2) (by rw [frame]; rfl) (by rw [frame]; rfl)
    · obtain ⟨t, ht, state, point, due⟩ := hw
      exact ⟨t.rolled k, rolled ht, state, point, target due⟩
    · obtain ⟨t, ht, state, point, due⟩ := hw
      exact ⟨t.rolled k, rolled ht, state, point, target due⟩
  · refine pictureStands_of_read h.picture (fun c => ?_) (by rw [frame]; rfl) (by rw [frame]; rfl)
    exact (congrArg Supply.read (supply c)).trans rfl
  · exact h.bare.of_trains (by rw [frame]; rfl) fun j hj => (train j).trans (congrArg _ hj)

/-- Each of `k` operations hands on at most one piece of work. -/
theorem Steady.forAll_asking (h : Steady n a) {f : Fin k → Act → Act}
    (hf : ∀ {n a} i, Steady n a → Steady (n + 2) (f i a)) :
    Steady (n + 2 * k) (forAll k f a) := by
  have all (l : List (Fin k)) (n : Nat) (a : Act) (h : Steady n a) :
      Steady (n + 2 * l.length) (l.foldl (fun a i => f i a) a) := by
    induction l generalizing n a with
    | nil => exact h
    | cons i l ih =>
      rw [List.length_cons, show n + 2 * (l.length + 1) = n + 2 + 2 * l.length by omega]
      exact ih _ _ (hf i h)
  have sum := all (indices k) n a h
  rwa [indices, List.length_finRange] at sum

theorem Sound.dayRoll (h : Sound a) : Sound (dayRoll a) := by
  have emptied : Steady 96 a.emptyMemories :=
    (h.of_same (b := a.emptyMemories) rfl rfl rfl rfl rfl).steady
  obtain ⟨sound, -⟩ := ((emptied.forAll_asking (f := unbind) fun i h => h.unbind i).rolled ((boundaryTime a.s).getD 0)).drain
    (by omega)
  exact sound

/-! ## The fall of the countdowns (R29) -/

theorem Supply.read_fall (v : Supply) : v.fall.read = v.read := by
  have credit : v.fall.credit.isSome = v.credit.isSome := Option.isSome_map
  rw [Supply.read, Supply.read, credit]
  rfl

theorem Sound.fall (h : Sound a) : Sound { a with s := fallAll a.s } := by
  have posts (j : TrainId) : (({ a with s := fallAll a.s } : Act).train j).map Train.post = (a.train j).map Train.post := by
    rw [Act.train, fallAll, Table.get_map, Option.map_map]
    refine congrArg (fun g => (a.train j).map g) (funext fun t => ?_)
    rw [Function.comp_apply, Train.fall, Train.post, Train.post, Option.map_map]
    rfl
  have supply (c : SubId) : ({ a with s := fallAll a.s } : Act).supply c = (a.supply c).fall := Table.get_map _ _ c
  have pool := h.steady.pool.of_posts (b := { a with s := fallAll a.s }) posts (fun c => by rw [supply]; rfl)
    (fun c => by rw [supply]; rfl) rfl (fun _ c => by rw [supply]; rfl) rfl rfl
  refine Steady.sound ⟨pool, pictureStands_of_read h.steady.picture (fun c => ?_) rfl rfl,
    h.steady.bare.of_trains rfl fun j hj => ?_⟩ ⟨h.idle.requests, h.idle.handOvers⟩
  · exact (congrArg Supply.read (supply c)).trans (Supply.read_fall _)
  · exact Option.map_eq_none_iff.mp ((posts j).trans (congrArg _ hj))

end
end Sys2Proof.Machine
end

