-- ==== Sys2Proof/Proofs/SupplyGroups.lean ====
section
/-! PROOFS. A group of edits and a profile put in force keep the law of the supply. -/

namespace Sys2Proof.Machine

/-! ## What a group leaves of the rows (R54) -/

/-- Two line tables use the same sections and substations. -/
structure SameUse (l m : LineTables) : Prop where
  secs : ∀ x, (m.secs.get x).used = (l.secs.get x).used
  subs : ∀ b, (m.subs.get b).used = (l.subs.get b).used

theorem SameUse.trans {l m k : LineTables} (h : SameUse l m) (g : SameUse m k) : SameUse l k :=
  ⟨fun x => (g.secs x).trans (h.secs x), fun b => (g.subs b).trans (h.subs b)⟩

theorem editRow_keeps {α β : Type} {n : Nat} {P : α → β} {f : α → α} (hf : ∀ x, P (f x) = P x) (t : Table α n)
    (k : Nat) (i : Fin n) : P ((editRow t k f).get i) = P (t.get i) := by
  unfold editRow
  split
  · rw [Table.get_set]
    split
    · next e => rw [hf, e]
    · rfl
  · rfl

theorem Sec.edit_used (v f : Nat) (x : Sec) : (x.edit v f).used = x.used := by
  unfold Sec.edit
  split <;> rfl

theorem Sub.edit_used (v f : Nat) (x : Sub) : (x.edit v f).used = x.used := by
  unfold Sub.edit
  split <;> rfl

theorem Sec.settle_used (x : Sec) : x.settle.used = x.used := by
  unfold Sec.settle
  split <;> rfl

theorem LineTables.edit_use (l : LineTables) (e : HeldEdit) : SameUse l (l.edit e) := by
  unfold LineTables.edit
  split
  case h_3 => exact ⟨fun x => editRow_keeps (Sec.edit_used _ _) _ _ x, fun _ => rfl⟩
  case h_4 => exact ⟨fun _ => rfl, fun b => editRow_keeps (Sub.edit_used _ _) _ _ b⟩
  all_goals exact ⟨fun _ => rfl, fun _ => rfl⟩

theorem Tst.write_use (t : Tst) (e : HeldEdit) : SameUse t.line (t.write e).line := by
  unfold Tst.write
  split
  · exact ⟨fun _ => rfl, fun _ => rfl⟩
  · exact ⟨fun _ => rfl, fun _ => rfl⟩
  · exact t.line.edit_use e

theorem Tst.writeGroup_use (t : Tst) (g : List HeldEdit) : SameUse t.line (t.writeGroup g).line := by
  have writes : SameUse t.line (g.foldl Tst.write t).line := by
    induction g generalizing t with
    | nil => exact ⟨fun _ => rfl, fun _ => rfl⟩
    | cons e g ih => exact (t.write_use e).trans (ih _)
  refine writes.trans ⟨fun x => ?_, fun b => ?_⟩
  · exact (congrArg Sec.used (Table.get_map _ _ x)).trans (Sec.settle_used _)
  · exact (congrArg Sub.used (Table.get_map _ _ b)).trans rfl

/-- A group that changes nothing of what the supply reads leaves the picture standing. -/
theorem pictureStands_of_unchanged {s u : State} (h : pictureStands s) (psv : u.psv = s.psv)
    (use : SameUse s.tst.line u.tst.line) (hn : supplyChanged s.tst.line u.tst.line = false) : pictureStands u := by
  simp only [supplyChanged, Bool.or_eq_false_iff, List.any_eq_false, decide_eq_true_eq, not_not, Prod.mk.injEq] at hn
  obtain ⟨⟨-, secs⟩, subs⟩ := hn
  obtain ⟨capacity, sections⟩ := h
  refine ⟨fun b => ?_, fun x => ?_⟩
  · obtain ⟨cap, l1, l2⟩ := subs b (mem_indices b)
    rw [psv, capacity, effectiveCapacity, effectiveCapacity, baseCapacity, baseCapacity, use.subs b, cap, l1, l2]
  · have same := secs x (mem_indices x)
    simp only [Sec.feedsOf, Prod.mk.injEq] at same
    obtain ⟨subA, feederA, subB, feederB⟩ := same
    have feeds : sectionFeeds s.psv (u.tst.line.secs.get x) = sectionFeeds s.psv (s.tst.line.secs.get x) := by
      simp only [sectionFeeds, subA, feederA, subB, feederB]
    rw [psv, sections, pictureOf, pictureOf, feeds, use.secs x]

section
variable {n : Nat} {a : Act} {w : Wait}

/-! ## The consequences of a group (R54, R104, R118) -/

theorem unwait_train (w : Wait) (a : Act) (j : TrainId) : (unwait w a).train j
    = if w.train = j then (a.train j).map fun t => { t with state := .dwelling, powerWait := none } else a.train j :=
  Act.onTrain_train _ _ _ _

theorem Pool.unwaitAll {granted : Bool} {kept : TrainId → Option Train} (h : Pool granted kept [] n a) (ws : List Wait)
    (hw : ∀ w ∈ ws, a.train w.train ≠ none → stopsIn (a.train w.train) = true) :
    Pool granted kept [] n (ws.foldl (fun a w => unwait w a) a) := by
  induction ws generalizing a with
  | nil => exact h
  | cons w ws ih =>
    rw [List.foldl_cons]
    have parked : Pool granted kept [] n (unwait w a) :=
      (h.parked (f := fun t => { t with state := .dwelling, powerWait := none }) (hw w List.mem_cons_self)
        fun _ => ⟨rfl, rfl⟩).of_same rfl rfl rfl rfl
    refine ih parked fun v hv hn => ?_
    rw [unwait_train] at hn ⊢
    split
    · next e =>
      rw [if_pos e] at hn
      cases ht : a.train v.train with
      | none => rw [ht] at hn; exact absurd rfl hn
      | some t => rfl
    · next e =>
      rw [if_neg e] at hn
      exact hw v (List.mem_cons_of_mem w hv) hn

theorem mem_allWaits {a : Act} : w ∈ allWaits a.s.psv ↔ (∃ b, w ∈ (a.supply b).waits) ∨ w ∈ a.s.psv.deadWaits := by
  rw [allWaits, List.mem_append, List.mem_flatMap]
  refine or_congr_left ⟨?_, ?_⟩
  · rintro ⟨v, hv, hw⟩
    obtain ⟨b, rfl⟩ := Table.exists_get hv
    exact ⟨b, hw⟩
  · rintro ⟨b, hw⟩
    exact ⟨_, Table.get_mem _ b, hw⟩

/-- A place after a group: it may carry another section. -/
def Wait.edited (changed : TpId → Bool) (line : LineTables) (w : Wait) : Wait :=
  if changed w.point then w.resection line else w

theorem Wait.edited_eq (changed : TpId → Bool) (line : LineTables) (w : Wait) :
    w.edited changed line = { w with sec := (w.edited changed line).sec } := by
  unfold Wait.edited Wait.resection
  split
  · split <;> rfl
  · rfl

/-- The trains that an edit has left without a departure section have left their places. -/
def unwaited (changed : TpId → Bool) (a : Act) : Act :=
  ((allWaits a.s.psv).filter fun w => changed w.point && ((a.s.tst.line.points.get w.point).depart).isNone).foldl
    (fun a w => unwait w a) a

theorem resectionWaits_eq (changed : TpId → Bool) (a : Act) :
    resectionWaits changed a = { unwaited changed a with
      s.psv.subs := (unwaited changed a).s.psv.subs.map fun v =>
        { v with waits := v.waits.map (Wait.edited changed (unwaited changed a).s.tst.line) }
      s.psv.deadWaits := (unwaited changed a).s.psv.deadWaits.map (Wait.edited changed (unwaited changed a).s.tst.line) } :=
  rfl

theorem Pool.resection (h : Pool true (fun _ => none) [] n a) (changed : TpId → Bool) :
    Pool true (fun _ => none) [] n (resectionWaits changed a) := by
  have left : Pool true (fun _ => none) [] n (unwaited changed a) := by
    refine h.unwaitAll _ fun w hw _ => h.places.stops ?_
    exact (mem_allWaits.mp (List.mem_of_mem_filter hw)).imp (fun ⟨b, hw⟩ => ⟨b, w, hw, rfl⟩) fun hw => ⟨w, hw, rfl⟩
  rw [resectionWaits_eq]
  generalize unwaited changed a = b at left ⊢
  generalize b.s.tst.line = line
  have same (w : Wait) : w.edited changed line = { w with sec := (w.edited changed line).sec } := w.edited_eq changed line
  have sorted (c : SubId) : ((b.supply c).waits.map (Wait.edited changed line)).Pairwise fun x y => y.before x = false := by
    refine List.pairwise_map.mpr ((left.places.order c).imp fun {x y} hxy => ?_)
    have apart := Wait.before_asymm hxy
    rw [same x, same y]
    exact apart
  refine left.carried (Wait.edited changed line) (fun w => by rw [same]; exact ⟨rfl, rfl⟩)
    (fun c => ⟨_, Table.get_map _ _ c, List.Perm.refl _, sorted c⟩) rfl (fun w hw => ?_) (fun w hw => ?_) (fun _ => rfl)
    (fun _ => rfl) rfl rfl
  · rw [same]
    exact hw
  · rw [same]
    exact hw

theorem Loose.resection (h : Loose n a) (pool : Pool true (fun _ => none) [] n a) (changed : TpId → Bool) :
    Loose n (resectionWaits changed a) := by
  refine ⟨(pool.resection changed).loose, ?_⟩
  have residue : (unwaited changed a).residue = a.residue :=
    foldl_keeps Act.residue (fun a w => unwait w a) (fun a w => residue_unwait a w) _ a
  have bare := h.bare.of_residue residue
  exact bare

/-- The areas derived afresh, and the coverage under HOLD reckoned. -/
theorem Pool.areaConsequence (h : Pool true (fun _ => none) [] n a) (old : LineTables) :
    Pool true (fun _ => none) [] (n + 1) (areaConsequence old a) := by
  unfold Machine.areaConsequence
  dsimp only
  refine Pool.reckonHolds (middle := id) ?_ fun _ => rfl
  exact h.of_same rfl rfl rfl rfl

theorem residue_areaConsequence (old : LineTables) (a : Act) : (areaConsequence old a).residue = a.residue := by
  unfold areaConsequence
  dsimp only
  rw [residue_reckonHolds_id]
  rfl

/-- Each of a list of requests is handed on. -/
theorem Steady.askAll (h : Steady n a) {α : Type} (f : α → Request) (l : List α) :
    Steady (n + 2 * l.length) (l.foldl (fun a x => a.ask (f x)) a) := by
  induction l generalizing n a with
  | nil => exact h
  | cons x l ih =>
    rw [List.length_cons, show n + 2 * (l.length + 1) = n + 2 + 2 * l.length by omega]
    exact ih (h.ask (f x))

theorem incidents_length (s : State) : (incidents s).length ≤ 32 :=
  (List.length_filterMap_le id _).trans s.inc.records.size.le

theorem Steady.inputConsequence (h : Steady n a) (old : LineTables) : Steady (n + 64) (inputConsequence old a) := by
  unfold Machine.inputConsequence
  dsimp only
  refine Steady.mono (Steady.askAll (n := n) ?_ (fun r : Incident => Request.gone r.cls r.object) _) ?_
  · exact h.of_posts (fun _ => rfl) rfl rfl rfl rfl
  · have gone := (List.length_filter_le (fun r : Incident => decide (r.cause = .present
      ∧ (r.cls, r.object) ∈ changedKeys old a.s.tst.line)) (incidents a.s)).trans (incidents_length a.s)
    exact Nat.add_le_add_left (Nat.mul_le_mul_left 2 gone) n

/-- A group written to line tables, with its consequences, keeps the law. -/
theorem Sound.applyGroup (h : Sound a) (g : List HeldEdit) : Sound (applyGroup g a) := by
  have written : Pool true (fun _ => none) [] 96 { a with s.tst := a.s.tst.writeGroup g } :=
    h.steady.pool.of_same rfl rfl rfl rfl
  have bare : Act.Bare { a with s.tst := a.s.tst.writeGroup g } := fun hn => h.steady.bare (by
    unfold tablesValid at hn ⊢
    rwa [← (a.s.tst.edited_writeGroup g).lineState])
  have pool := written.areaConsequence a.s.tst.line
  have residue := residue_areaConsequence a.s.tst.line { a with s.tst := a.s.tst.writeGroup g }
  obtain ⟨-, -, -, -, -, -, tst, -⟩ := residue_outer residue
  have line : (Machine.areaConsequence a.s.tst.line { a with s.tst := a.s.tst.writeGroup g }).s.tst.line
      = (a.s.tst.writeGroup g).line := congrArg Tst.line tst
  have bare := bare.of_residue residue
  unfold Machine.applyGroup
  dsimp only
  generalize Machine.areaConsequence a.s.tst.line { a with s.tst := a.s.tst.writeGroup g } = b at pool residue line bare ⊢
  have supplied : Steady 97 (supplyConsequence a.s.tst.line b) := by
    unfold supplyConsequence
    dsimp only
    split
    · refine Steady.mono (Sound.steady ?_) (Nat.le_succ 96)
      exact Loose.deriveSupply (Loose.resection ⟨pool.loose, bare⟩ pool _) [] (by decide)
    · next hn =>
      rw [line, Bool.not_eq_true] at hn
      have stands : pictureStands { a.s with tst := a.s.tst.writeGroup g } :=
        pictureStands_of_unchanged h.steady.picture rfl (a.s.tst.writeGroup_use g) hn
      exact ⟨pool, pictureStands_of_residue residue stands, bare⟩
  obtain ⟨sound, -⟩ := (supplied.inputConsequence a.s.tst.line).drain (by omega)
  exact sound

/-! ## Activations and boundaries of the Table Store (R51, R54) -/

theorem Steady.rebindOne (h : Steady n a) (i : TrainId) : Steady (n + 2) (rebindOne i a) := by
  have more : Steady (n + 2) a := h.mono (by omega)
  unfold Machine.rebindOne
  split
  · exact more
  · split
    · exact more.of_posts (onTrain_posts (f := fun t => { t with step := none }) (fun _ => rfl) i a) rfl rfl rfl rfl
    · exact h.unbind i

theorem Sound.rebind (h : Sound a) : Sound (rebind a) := by
  obtain ⟨sound, -⟩ := (h.steady.forAll_asking (f := Machine.rebindOne) fun i h => h.rebindOne i).drain (by omega)
  exact sound

/-- What the Table Store holds is written, but for the line tables. -/
theorem Sound.setStore (h : Sound a) {t : Tst} (line : t.line = a.s.tst.line) (state : t.lineState = a.s.tst.lineState) :
    Sound { a with s.tst := t } := by
  refine ⟨⟨h.steady.pool.of_same rfl rfl rfl rfl, ?_, fun hn => h.steady.bare ?_⟩, h.idle.requests, h.idle.handOvers⟩
  · obtain ⟨capacity, sections⟩ := h.steady.picture
    exact ⟨fun b => by dsimp only; rw [line]; exact capacity b, fun x => by dsimp only; rw [line]; exact sections x⟩
  · unfold tablesValid at hn ⊢
    rwa [← state]

theorem Sound.activate (h : Sound a) (i : SlotId) : Sound (activate i a) := by
  have active : Sound { a with s.tst := a.s.tst.makeActive i } := h.setStore rfl rfl
  unfold Machine.activate
  exact active.rebind.report _ _

theorem Sound.activatePending (h : Sound a) : Sound (activatePending a) := by
  unfold Machine.activatePending
  split
  · exact h
  · exact h.activate _

theorem Sound.tstBoundary (h : Sound a) : Sound (tstBoundary a) := by
  unfold Machine.tstBoundary
  dsimp only
  refine Sound.activatePending ?_
  refine Sound.setStore (List.foldlRecOn (motive := Sound) _ _ h fun _ h g _ => h.applyGroup g) rfl rfl

end
end Sys2Proof.Machine
end

