-- ==== Sys2Proof/Proofs/SupplyBoundaries.lean ====
section
/-! PROOFS. The boundary, the field telegrams and the expiries keep the law of the supply. -/

namespace Sys2Proof.Machine

section
variable {a : Act}

/-! ## The boundary (R29, R138, R143) -/

theorem Sound.freeResolved (h : Sound a) (i : IncId) (r : Incident) : Sound (freeResolved i r a) :=
  h.of_same rfl rfl rfl rfl rfl

theorem Sound.retentionOut (h : Sound a) (i : IncId) : Sound (retentionOut i a) := by
  unfold Machine.retentionOut
  split
  · split
    · exact h.freeResolved _ _
    · exact h
  · exact h

theorem Sound.escalate (h : Sound a) (i : IncId) (r : Incident) : Sound (escalate i r a) := by
  unfold Machine.escalate
  dsimp only
  refine Sound.of_offAsc (a := a.putIncident i (some (r.escalated (classRow a.s r.cls).reload))) ?_
    (offAsc_announceIncident _ _)
  exact h.of_same rfl rfl rfl rfl rfl

theorem Sound.tickRecord (h : Sound a) (i : IncId) : Sound (tickRecord i a) := by
  unfold Machine.tickRecord
  split
  · exact h
  · split
    · exact h
    · split
      · split
        · exact h.escalate _ _
        · exact h.of_same rfl rfl rfl rfl rfl
      · exact h

theorem Sound.tick (h : Sound a) : Sound (tick a) := by
  unfold Machine.tick
  refine Sound.forAll ?_ fun i _ h => h.tickRecord i
  exact h.of_same rfl rfl rfl rfl rfl

theorem Sound.incBoundary (h : Sound a) : Sound (incBoundary a) := by
  have freed : Sound (Machine.forAll 32 Machine.retentionOut a) := h.forAll fun i _ h => h.retentionOut i
  unfold Machine.incBoundary
  dsimp only
  split
  · exact freed.tick
  · exact freed

theorem Sound.blocksTake (h : Sound a) (roll : Bool) : Sound (blocksTake roll a) := by
  have zones : Sound (Machine.forAll 24 zoneBoundary (Machine.tstBoundary { a with s := fallAll a.s })) :=
    h.fall.tstBoundary.forAll fun z a h => h.of_offAsc (offAsc_zoneBoundary z a)
  unfold Machine.blocksTake
  dsimp only
  refine Sound.incBoundary (Sound.handOverDue (Sound.supplyBoundary (Sound.forAll ?_ fun i _ h => h.trainBoundary i)))
  split
  · exact zones.dayRoll
  · exact zones

theorem Sound.clockRequest (h : Sound a) (r : Request) : Sound (clockRequest r a) := by
  unfold Machine.clockRequest
  split
  · exact h
  · exact h.request r

theorem Sound.makeBoundary (h : Sound a) (c : Lck) (event : Option ClockEvent) (roll : Bool) :
    Sound (makeBoundary c event roll a) := by
  have clocked : Sound { a with s.lck := c.restart (cycleLength a.s) } := h.of_same rfl rfl rfl rfl rfl
  have taken : Sound (Machine.blocksTake roll (match event with
      | some e => Act.report 2 (clockContent e (c.restart (cycleLength a.s))) { a with s.lck := c.restart (cycleLength a.s) }
      | none => { a with s.lck := c.restart (cycleLength a.s) })) := by
    cases event with
    | none => exact clocked.blocksTake roll
    | some e => exact (clocked.report 2 _).blocksTake roll
  unfold Machine.makeBoundary
  dsimp only
  split
  · exact taken.clockRequest _
  · split
    · exact taken.clockRequest _
    · exact taken

theorem Sound.missBoundary (h : Sound a) : Sound (missBoundary a) := h.makeBoundary _ _ _

theorem Sound.timeoutExpiry (h : Sound a) : Sound (timeoutExpiry a) := by
  unfold Machine.timeoutExpiry
  split
  · split
    · exact h.missBoundary
    · exact h
  · exact h

theorem Sound.takeMarker (h : Sound a) (number dayTime : Nat) : Sound (takeMarker number dayTime a).1 := by
  unfold Machine.takeMarker
  dsimp only
  split
  · dsimp only
    exact h.makeBoundary _ _ _
  · split
    · dsimp only
      exact h.makeBoundary _ _ _
    · split
      · exact h
      · dsimp only
        exact h.makeBoundary _ _ _
    · split
      · dsimp only
        exact h.makeBoundary _ _ _
      · split
        · exact h
        · exact h.missBoundary
    · split
      · dsimp only
        exact h.makeBoundary _ _ _
      · split
        · exact h.of_same rfl rfl rfl rfl rfl
        · exact h.missBoundary

/-- The handling of a field telegram keeps the law of the supply. -/
theorem Sound.dispatch (h : Sound a) (t : Telegram) (c : Contents) : Sound (dispatch t c a).1 := by
  unfold Machine.dispatch
  split
  · exact h.takeMarker _ _
  · split
    · exact h
    · next hm => exact h.handlePassage (decide_eq_true (mode_ne_bare hm)) _
  · dsimp only
    split
    · exact h
    · exact h.statusReport _ _ _ _
  · dsimp only
    split
    · exact h
    · exact h.equipmentReport _ _
  · dsimp only
    split
    · exact h
    · exact h.of_offAsc (offAsc_paDone _ _ _ a)
  · exact h

/-! ## Expiries (log entry 11) -/

theorem Sound.unlessSilent (h : Sound a) (i : TrainId) {work : Act → Act} (hw : Sound (work a)) :
    Sound (unlessSilent i work a) := by
  unfold Machine.unlessSilent
  split
  · exact h.removeTrain i
  · exact hw

theorem Sound.telemetryExpiry (h : Sound a) (b : SubId) :
    Sound (deriveSupply (telemetryOut [b] a).1 [] (telemetryOut [b] a).2) := by
  refine (h.steady.loose.telemetryOut [b]).deriveSupply [] ?_
  have requests : ((telemetryOut [b] a).1).length ≤ 32 := tripAll_length [b] (by simp) a.supply fun b => (a.supply b).silent
  omega

theorem Sound.creditExpiry (h : Sound a) (b : SubId) : Sound (deriveSupply [] [] (creditOut [b] a)) := by
  refine Loose.deriveSupply (n := 96) ?_ [] (by decide)
  exact h.steady.loose.creditOut [b]

theorem Sound.slotExpiry (h : Sound a) (i : TrainId) : Sound (deriveSupply [] [] (dropSlot i a)) := by
  refine Loose.deriveSupply (n := 96) ?_ [] (by decide)
  exact h.steady.loose.dropSlot i

theorem Sound.escalateAt (h : Sound a) (i : IncId) : Sound (escalateAt i a) := by
  unfold Machine.escalateAt
  split
  · exact h.escalate _ _
  · exact h

theorem Sound.freeAt (h : Sound a) (i : IncId) : Sound (freeAt i a) := by
  unfold Machine.freeAt
  split
  · exact h.freeResolved _ _
  · exact h

/-- Work on a zone whose entries have run out. -/
theorem Sound.zoneWork (h : Sound a) {work : Act → Act} (hw : ∀ a, (work a).offAsc = a.offAsc) (z : ZoneId) :
    Sound (work (entriesRunOut z a)) := h.of_offAsc ((hw _).trans rfl)

end
end Sys2Proof.Machine
end

