-- ==== Sys2Proof/Proofs/SupplyCommands.lean ====
section
/-! PROOFS. The MANAGE commands keep the law of the supply; those of a load with the law of the Table Store. -/

namespace Sys2Proof.Machine

section
variable {a b : Act}

/-! ## Trains (R76) -/

theorem Sound.bindCommand (h : Sound a) (set run : Nat) : Sound (bindCommand set run a).1 := by
  unfold Machine.bindCommand
  split
  · exact h
  · split
    · exact h
    · split
      · exact h.unschedule _
      · split
        · exact h
        · split
          · exact h
          · split
            · exact h
            · exact h.bindRun _ _

theorem Sound.removeCommand (h : Sound a) (set : Nat) : Sound (removeCommand set a).1 := by
  unfold Machine.removeCommand
  split
  · exact h
  · split
    · exact h
    · exact h.removeTrain _

/-! ## Incidents (R135–R137) -/

/-- An operation of the INC that hands on one hand-over, worked off. -/
theorem Sound.drained (h : Sound a) (pool : Pool true (fun _ => none) [] 97 b) (e : b.residue = a.residue) :
    Sound (drain b) := by
  obtain ⟨sound, -⟩ := (h.steady.of_residue pool e).drain (by omega)
  exact sound

theorem Sound.resolved (h : Sound a) (i : IncId) (r : Incident) : Sound (drain (resolve i r a)) :=
  h.drained (h.steady.pool.resolve i r) (residue_resolve i r a)

theorem Sound.raiseCommand (h : Sound a) (areas effects reload template mandatory : Nat) :
    Sound (raiseCommand areas effects reload template mandatory a).1 := by
  unfold Machine.raiseCommand
  split
  · exact h
  · split
    · split
      · exact h
      · split
        · exact h.of_same rfl rfl rfl rfl rfl
        · next hb =>
          exact h.drained ((h.steady.pool.takeRecord hb).openRecord _ _)
            ((residue_openRecord _ _ _).trans (residue_takeRecord hb))
    · exact h

theorem Sound.ackCommand (h : Sound a) (tag number reload : Nat) : Sound (ackCommand tag number reload a).1 := by
  unfold Machine.ackCommand
  split
  · exact h
  · split
    · exact h
    · split
      · exact h
      · dsimp only
        split
        · dsimp only
          exact h.resolved _ _
        · exact h.of_same rfl rfl rfl rfl rfl

theorem Sound.resolveCommand (h : Sound a) (number : Nat) : Sound (resolveCommand number a).1 := by
  unfold Machine.resolveCommand
  split
  · exact h
  · split
    · exact h
    · split
      · exact h
      · split
        · exact h
        · dsimp only
          exact h.resolved _ _

/-! ## Zones (R166, R178) -/

theorem Sound.zoneCommand (h : Sound a) (zone st : Nat) : Sound (zoneCommand zone st a).1 := by
  unfold Machine.zoneCommand
  split
  · exact h
  · split
    · exact h
    · split
      · exact h
      · dsimp only
        split
        · exact h.of_offAsc (offAsc_zoneOff _ a)
        · split
          · split
            · exact h
            · exact h.of_offAsc (offAsc_zoneBar _ a)
          · exact h.of_offAsc (offAsc_zoneOpen _ a)

theorem Sound.announceArgs (h : Sound a) (x : List Byte) : Sound (announceArgs x a).1 := by
  unfold Machine.announceArgs
  split
  · exact h
  · dsimp only
    split
    · exact h
    · split
      · exact h
      · exact h.of_offAsc (offAsc_placeAll _ _ a)

theorem Sound.announceCommand (h : Sound a) (t : Telegram) : Sound (announceCommand t a).1 := by
  unfold Machine.announceCommand
  dsimp only
  split
  · exact h.announceArgs _
  · exact h

/-! ## Profiles and edits (R50–R54) -/

theorem Sound.profileActivate (h : Sound a) (slot : Nat) : Sound (profileActivate slot a).1 := by
  unfold Machine.profileActivate
  split
  · exact h
  · split
    · exact h
    · next i _ =>
      split
      · exact h
      · have pending : Sound { a with s.tst.pendingSlot := some i } := h.setStore rfl rfl
        dsimp only
        split
        · exact pending
        · exact pending.activatePending

theorem Sound.closeGroup (h : Sound a) (g : List HeldEdit) : Sound (closeGroup g a).1 := by
  unfold Machine.closeGroup
  split
  · exact h.setStore rfl rfl
  · exact h.applyGroup g

theorem Sound.editHold (h : Sound a) : Sound (editHold a).1 := by
  unfold Machine.editHold
  split
  · exact h
  · split
    · exact h
    · exact h.setStore rfl rfl

theorem Sound.editRelease (h : Sound a) : Sound (editRelease a).1 := by
  unfold Machine.editRelease
  split
  · exact h
  · split
    · exact h
    · have closed : Sound { a with s.tst.openGroup := none } := h.setStore rfl rfl
      split
      · exact closed
      · split
        · exact h
        · exact closed.closeGroup _

theorem Sound.joinGroup (h : Sound a) (e : HeldEdit) (clamped : Bool) : Sound (joinGroup e clamped a).1 := by
  unfold Machine.joinGroup
  split
  · split
    · exact h.setStore rfl rfl
    · exact h
  · split
    · exact h.closeGroup [e]
    · exact h

theorem Sound.edit (h : Sound a) (table index field value : Nat) : Sound (edit table index field value a).1 := by
  unfold Machine.edit
  split
  · exact h
  · split
    · exact h
    · split
      · exact h
      · split
        · exact h
        · split
          · exact h
          · exact h.joinGroup _ _

/-! ## Loads (R44–R48) -/

/-- The Table Store is written, its line tables standing, where no line tables that are VALID cease to be. -/
theorem Sound.setTables (h : Sound a) {t : Tst} (line : t.line = a.s.tst.line)
    (state : t.lineState ≠ .valid → a.s.tst.lineState ≠ .valid) : Sound { a with s.tst := t } := by
  refine ⟨⟨h.steady.pool.of_same rfl rfl rfl rfl, ?_, fun hn => h.steady.bare ?_⟩, h.idle.requests, h.idle.handOvers⟩
  · obtain ⟨capacity, sections⟩ := h.steady.picture
    exact ⟨fun b => by dsimp only; rw [line]; exact capacity b, fun x => by dsimp only; rw [line]; exact sections x⟩
  · exact decide_eq_false (state (of_decide_eq_false hn))

/-- The marking of a load's target leaves VALID line tables VALID, unless the target is they. -/
theorem Tst.mark_lineState (t : Tst) {target : LoadTarget} (h : target = .line → t.lineState ≠ .valid) (st : LineState)
    (sl : SlotState) (hs : (t.mark target st sl).lineState ≠ .valid) : t.lineState ≠ .valid := by
  cases target with
  | line => exact h rfl
  | slot i => exact hs

theorem Sound.loadOpen (h : Sound a) (target count check : Nat) : Sound (loadOpen target count check a).1 := by
  unfold Machine.loadOpen
  split
  · exact h
  · next target _ =>
    split
    · exact h
    · next hm =>
      split
      · exact h
      · split
        · exact h
        · split
          · exact h
          · refine h.setTables (Tst.mark_line _ target _ _) (Tst.mark_lineState _ (fun e => ?_) _ _)
            rw [e, loadMode, Bool.not_eq_false, decide_eq_true_eq] at hm
            exact mode_eq_bare hm

/-- The target of an open load is no line tables that are VALID. -/
theorem TstLaw.loadTarget {t : Tst} (law : TstLaw t) {l : Load} (hl : t.load = some l) (ht : l.target = .line) :
    t.lineState ≠ .valid := by
  rw [law.lineLoading.mpr ⟨l, hl, ht⟩]
  exact nofun

theorem Sound.failLoad (h : Sound a) (law : TstLaw a.s.tst) {l : Load} (hl : a.s.tst.load = some l) :
    Sound { a with s.tst := a.s.tst.failLoad l.target } :=
  h.setTables (Tst.mark_line _ _ _ _) (Tst.mark_lineState _ (law.loadTarget hl) _ _)

theorem Sound.loadAbort (h : Sound a) (law : TstLaw a.s.tst) : Sound (loadAbort a).1 := by
  unfold Machine.loadAbort
  split
  · exact h
  · next l hl =>
    refine h.setTables ?_ ?_
    · rw [Tst.abandonLoad, hl]
      exact Tst.mark_line _ _ _ _
    · rw [Tst.abandonLoad, hl]
      exact Tst.mark_lineState _ (law.loadTarget hl) _ _

/-- Where there is no train, no slot is held and no train waits, the law holds of a picture that stands. -/
theorem Sound.of_empty (trains : ∀ i, a.train i = none) (pools : ∀ c, (a.supply c).held = 0 ∧ (a.supply c).waits = [])
    (dead : a.s.psv.deadWaits = []) (picture : pictureStands a.s) (idle : Idle a) : Sound a := by
  have waits {c : SubId} {w : Wait} (hw : w ∈ (a.supply c).waits) : False := by
    rw [(pools c).2] at hw
    exact List.not_mem_nil hw
  have deads {w : Wait} (hw : w ∈ a.s.psv.deadWaits) : False := by
    rw [dead] at hw
    exact List.not_mem_nil hw
  refine Steady.sound (n := a.work) ⟨⟨⟨fun c => ?_, fun i hi => ?_⟩, ?_, fun _ c hc => absurd (pools c).2 hc,
    (fun _ _ ht => nomatch ht), ?_, le_refl _⟩, picture, fun _ => trains⟩ idle
  · rw [(pools c).1, length_slotHolders, countOf, eq_comm, List.length_eq_zero_iff, List.filter_eq_nil_iff]
    intro i _ e
    have e := of_decide_eq_true e
    rw [show a.s.rrg.trains.get i = none from trains i] at e
    cases e
  · rw [trains]
    rfl
  · exact {
      lists := fun c w hw => (waits hw).elim
      dead := fun w hw => (deads hw).elim
      apart := fun c d w hw => (waits hw).elim
      deadOnce := by rw [dead]; exact List.nodup_nil
      deadApart := fun c w hw => (waits hw).elim
      order := fun c => by rw [(pools c).2]; exact List.Pairwise.nil
      joins := fun c => by rw [(pools c).2]; exact List.nodup_nil }
  · rw [idle.handOvers]
    exact fun _ hw => (List.not_mem_nil hw).elim

theorem Sound.raiseIfUnlocked (h : Sound a) : Sound (raiseIfUnlocked a) := by
  unfold Machine.raiseIfUnlocked
  split
  · exact h.request _
  · exact h

/-- A valid LINE image is put in force where there is no train. -/
theorem Sound.lineInForce (h : Sound a) (hv : a.s.tst.lineState ≠ .valid) (l : LineTables) : Sound (lineInForce l a) := by
  rw [lineInForce_eq]
  refine Sound.raiseIfUnlocked (Sound.of_empty (h.steady.bare (decide_eq_false hv)) (fun c => ?_) rfl
    (lineStanding_picture l a) ⟨h.idle.requests, h.idle.handOvers⟩)
  simp [lineStanding, supplyValidated, derived, Supply.start, Act.supply]

theorem Sound.complete (h : Sound a) (law : TstLaw a.s.tst) {l k : Load} (hl : a.s.tst.load = some l)
    (hk : k.target = l.target) : Sound (complete k a).1 := by
  have failed : Sound { a with s.tst := a.s.tst.failLoad k.target } := hk ▸ h.failLoad law hl
  have fault (x : Option (Nat × Nat)) : Sound (contentFault k x a).1 := by
    cases x with
    | none => exact failed.of_same rfl rfl rfl rfl rfl
    | some x => exact failed
  unfold Machine.complete validate
  dsimp only
  split
  · exact failed
  · split
    · next ht =>
      split
      · exact fault _
      · exact h.lineInForce (law.loadTarget hl (hk.symm.trans ht)) _
    · split
      · exact fault _
      · exact h.setStore rfl rfl

theorem Sound.loadBlock (h : Sound a) (law : TstLaw a.s.tst) (index : Nat) (bytes : List Byte) :
    Sound (loadBlock index bytes a).1 := by
  unfold Machine.loadBlock
  split
  · exact h
  · next l hl =>
    split
    · exact h.failLoad law hl
    · dsimp only
      split
      · exact h.complete law hl rfl
      · exact h.setStore rfl rfl

theorem Sound.blockCommand (h : Sound a) (law : TstLaw a.s.tst) (t : Telegram) : Sound (blockCommand t a).1 := by
  unfold Machine.blockCommand
  dsimp only
  split
  · exact h.loadBlock law _ _
  · exact h

end
end Sys2Proof.Machine
end

