-- ==== Sys2Proof/Proofs/SupplyStates.lean ====
section
/-! PROOFS. The law of the supply of a state is that of the action which begins there; what starts afresh in a step
upholds it. -/

namespace Sys2Proof.Machine

/-! ## The law of a state and of the action that begins there -/

theorem picture_iff {s : State} : s.psv = derived s ↔ pictureStands s := by
  constructor
  · intro h
    have stands := pictureStands_derived s
    rwa [← h] at stands
  · rintro ⟨capacity, sections⟩
    have subs : Table.build 8 (fun b => { s.psv.subs.get b with
        capacity := effectiveCapacity (s.tst.line.subs.get b) (s.psv.subs.get b) }) = s.psv.subs :=
      Table.ext_get fun b => by rw [Table.get_build, ← capacity b]
    have secs : Table.build 32 (fun x => pictureOf s.psv (s.tst.line.secs.get x)) = s.psv.secs :=
      Table.ext_get fun x => by rw [Table.get_build, ← sections x]
    rw [derived, subs, secs]

/-- The trains of all places, list by list. -/
theorem allWaits_trains (psv : Psv) : (allWaits psv).map Wait.train
    = ((indices 8).flatMap fun b => (psv.subs.get b).waits.map Wait.train) ++ psv.deadWaits.map Wait.train := by
  rw [allWaits, List.map_append, Table.items_eq_map, List.flatMap_map, List.map_flatMap]

/-- A train stands in one place at most. -/
theorem places_once {psv : Psv} : ((allWaits psv).map Wait.train).Nodup ↔
    (∀ b, ((psv.subs.get b).waits.map Wait.train).Nodup)
      ∧ (∀ b c, b ≠ c → ∀ w ∈ (psv.subs.get b).waits, ∀ v ∈ (psv.subs.get c).waits, w.train ≠ v.train)
      ∧ (psv.deadWaits.map Wait.train).Nodup
      ∧ ∀ b, ∀ w ∈ (psv.subs.get b).waits, ∀ v ∈ psv.deadWaits, w.train ≠ v.train := by
  rw [allWaits_trains, List.nodup_append, List.nodup_flatMap]
  constructor
  · rintro ⟨⟨each, apart⟩, dead, between⟩
    refine ⟨fun b => each b (mem_indices b), fun b c hne w hw v hv e => ?_, dead, fun b w hw v hv => ?_⟩
    · have symm : Std.Symm (Function.onFun List.Disjoint fun b => (psv.subs.get b).waits.map Wait.train) :=
        ⟨fun _ _ h => List.Disjoint.symm h⟩
      have disjoint := apart.forall (mem_indices b) (mem_indices c) hne
      exact disjoint (List.mem_map_of_mem hw) (e ▸ List.mem_map_of_mem hv)
    · exact between _ (List.mem_flatMap.mpr ⟨b, mem_indices b, List.mem_map_of_mem hw⟩) _ (List.mem_map_of_mem hv)
  · rintro ⟨each, apart, dead, between⟩
    refine ⟨⟨fun b _ => each b, (List.nodup_finRange 8).imp fun {b c} hne x hx hy => ?_⟩, dead, fun x hx y hy => ?_⟩
    · obtain ⟨w, hw, rfl⟩ := List.mem_map.mp hx
      obtain ⟨v, hv, e⟩ := List.mem_map.mp hy
      exact apart b c hne w hw v hv e.symm
    · obtain ⟨b, -, hx⟩ := List.mem_flatMap.mp hx
      obtain ⟨w, hw, rfl⟩ := List.mem_map.mp hx
      obtain ⟨v, hv, rfl⟩ := List.mem_map.mp hy
      exact between b w hw v hv

theorem supplyLaw_iff {s : State} : SupplyLaw s ↔ Sound (Act.start s) := by
  constructor
  · rintro ⟨picture, law⟩
    obtain ⟨each, apart, deadOnce, deadApart⟩ := places_once.mp law.once
    have places : Places [] (Act.start s) := {
      lists := fun b w hw =>
        have ⟨t, ht, state, here⟩ := law.lists b w hw
        ⟨t, ht, .inl state, here⟩
      dead := law.dead
      apart := fun b c w hw v hv e => by
        by_cases same : b = c
        · subst same
          exact ⟨rfl, List.inj_on_of_nodup_map (each b) hw hv e⟩
        · exact absurd e (apart b c same w hw v hv)
      deadOnce := deadOnce
      deadApart := deadApart
      order := law.order
      joins := law.joins }
    have slots : Slots (Act.start s) := ⟨law.held, fun i hi => by
      cases ht : (Act.start s).train i with
      | none => rfl
      | some t =>
        rw [ht] at hi
        rw [slotIn, Option.bind_some, law.stopped i t ht hi]
        rfl⟩
    exact Steady.sound ⟨⟨slots, places, fun _ => law.full, (fun _ _ ht => nomatch ht), (fun _ hw => nomatch hw), le_refl _⟩,
      picture_iff.mp picture, law.bare⟩ ⟨rfl, rfl⟩
  · intro h
    have pool := h.steady.pool
    have places := pool.places
    refine ⟨picture_iff.mpr h.steady.picture, {
      held := pool.slots.held
      stopped := fun i t ht hs => ?_
      lists := fun b w hw => ?_
      dead := places.dead
      once := places_once.mpr ⟨fun b => ?_, fun b c hne w hw v hv e => hne (places.apart b c w hw v hv e).1,
        places.deadOnce, places.deadApart⟩
      order := places.order
      joins := places.joins
      full := pool.full rfl
      bare := h.steady.bare }⟩
    · have free := pool.slots.stopped i (by rw [show (Act.start s).train i = some t from ht]; exact hs)
      rw [show (Act.start s).train i = some t from ht] at free
      exact Option.map_eq_none_iff.mp free
    · obtain ⟨t, ht, state, here⟩ := places.lists b w hw
      exact ⟨t, ht, state.resolve_right fun e => List.not_mem_nil e.1, here⟩
    · exact List.Nodup.map_on (fun w hw v hv e => (places.apart b b w hw v hv e).2) (places.nodup b)

/-! ## What every command keeps -/

/-- The law of the supply of a state, as that of the action that begins there. -/
def Supplied (s : State) : Prop := Sound (Act.start s)

theorem supplied_offQueues : OffQueues Supplied := fun s u h hs => by
  have tst : u.tst = s.tst := congrArg (·.2.1) h
  have rrg : u.rrg = s.rrg := congrArg (·.2.2.1) h
  have psv : u.psv = s.psv := congrArg (·.2.2.2.1) h
  exact Sound.of_same (a := Act.start s) hs (congrArg Rrg.trains rrg) psv tst rfl rfl

/-- The state that an action leaves keeps the law. -/
theorem Sound.supplied {a : Act} (h : Sound a) : Supplied a.s :=
  h.of_same (b := Act.start a.s) rfl rfl rfl h.idle.requests.symm h.idle.handOvers.symm

/-- A part without trains, at the first values of the supply, with no line tables. -/
theorem supplied_of_start {s : State} (trains : ∀ i, s.rrg.trains.get i = none) (psv : s.psv = Psv.start)
    (line : s.tst.line = LineTables.standard) : Supplied s := by
  have picture : pictureStands s := by
    obtain ⟨capacity, sections⟩ := picture_iff.mp psv_start_derived
    unfold pictureStands
    rw [psv, line]
    exact ⟨capacity, sections⟩
  refine Sound.of_empty (a := Act.start s) trains (fun c => ?_) (congrArg Psv.deadWaits psv) picture ⟨rfl, rfl⟩
  rw [Act.supply, Act.start_s, psv, Psv.start, Table.get_fill]
  exact ⟨rfl, rfl⟩

theorem Sound.standing {a : Act} (h : Sound a) : Sound (standing a) := by
  unfold Machine.standing
  split
  · exact h
  · exact List.foldlRecOn (motive := Sound) _ _ h.raiseIfUnlocked fun _ h r _ => h.request r

/-- The state from which a WARM restart goes on keeps the law. -/
theorem supplied_warmState {s : State} (h : TstLaw s.tst) : Supplied (warmState s) := by
  have trains (i : TrainId) : (warmState s).rrg.trains.get i = none := Table.get_fill _ i
  cases hv : tablesValid (warmState s) with
  | false =>
    obtain ⟨-, -, -, line⟩ := h.warm.bare (of_decide_eq_false hv)
    exact supplied_of_start trains (warmState_psv_invalid hv) line
  | true =>
    refine Sound.of_empty (a := Act.start (warmState s)) trains (fun c => ?_) ?_ (warmState_picture hv) ⟨rfl, rfl⟩
    · rw [Act.supply, Act.start_s, warmState_supply hv]
      exact ⟨rfl, rfl⟩
    · rw [Act.start_s, warmState_psv_valid hv]
      rfl

/-! ## Work begun afresh: laws of an action that hands on nothing -/

section
variable {P : State → Prop}

/-- Work that upholds a law of the state wherever it begins an action of its own. -/
def FreshUpholds (P : State → Prop) (work : Act → Act) : Prop := ∀ s, P s → P (work (Act.start s)).s

theorem OffQueues.finishFresh (hP : OffQueues P) {work : Act → Act} (h : FreshUpholds P work) :
    Upholds P fun s => (work (Act.start s)).finish :=
  hP.finish (work := fun a => work (Act.start a.s)) fun a => h a.s

theorem OffQueues.expireFresh (hP : OffQueues P) (due : State → Bool) {work : Act → Act} (h : FreshUpholds P work) :
    Lawful P (Machine.expire due work) :=
  (Upholds.ite (c := fun s => clockSet s ∧ due s) (hP.finishFresh h) Upholds.id).awake hP

theorem OffQueues.commandFresh (hP : OffQueues P) (code : Nat) {f : Telegram → Act → Act × Reply}
    (h : ∀ t, FreshUpholds P fun a => (f t a).1) : Lawful P fun s => .next (Machine.whenAwake (Machine.command code f) s) :=
  hP.command code (f := fun t a => f t (Act.start a.s)) fun t a => h t a.s

theorem FreshUpholds.sized {n : Nat} {f : List Byte → Act → Act × Reply} (h : ∀ x, FreshUpholds P fun a => (f x a).1)
    (t : Telegram) : FreshUpholds P fun a => (Machine.sized n f t a).1 := fun s hs => by
  unfold Machine.sized
  split
  · exact h _ s hs
  · exact hs

theorem OffQueues.sizedFresh (hP : OffQueues P) (code n : Nat) {f : List Byte → Act → Act × Reply}
    (h : ∀ x, FreshUpholds P fun a => (f x a).1) :
    Lawful P fun s => .next (Machine.whenAwake (Machine.command code (Machine.sized n f)) s) :=
  hP.commandFresh code (FreshUpholds.sized h)

/-- A field telegram leaves the blocks as they are, or as its handling leaves them. -/
theorem receiveField_blocks (p : FieldPort) (t : Telegram) (s : State) :
    (receiveField p t s).blocks = s.blocks
      ∨ ∃ c u, u.blocks = s.blocks ∧ (receiveField p t s).blocks = (dispatch t c (Act.start u)).1.s.blocks := by
  have accepted (c : Contents) (u : State) :
      (acceptField t c u).blocks = (dispatch t c (Act.start u)).1.s.blocks := by
    unfold acceptField forwardThenFinish
    split
    · exact (blocks_enterMade _ _).trans (blocks_offerRoom _ _ _)
    · exact blocks_enterMade _ _
  unfold receiveField
  split
  · exact .inl rfl
  · split
    · exact .inl rfl
    · split
      · exact .inl rfl
      · next c _ =>
        split
        · exact .inr ⟨c, s, rfl, accepted c s⟩
        · split
          · exact .inl rfl
          · exact .inr ⟨c, remember t s, rfl, accepted c _⟩

/-- The handling of field telegrams, begun afresh, upholds a law. -/
def DispatchFresh (P : State → Prop) : Prop := ∀ t c, FreshUpholds P fun a => (dispatch t c a).1

theorem OffQueues.soundFresh (hP : OffQueues P) (hd : DispatchFresh P) (p : Port) (t : Telegram) :
    Upholds P (Machine.receiveSound p t) := by
  have field (p : FieldPort) : Upholds P (Machine.receiveField p t) := fun s hs => by
    obtain e | ⟨c, u, hu, e⟩ := receiveField_blocks p t s
    · exact hP _ _ e hs
    · exact hP _ _ e (hd t c u (hP _ _ hu hs))
  cases p
  · exact field .a
  · exact field .b
  · exact hP.receiveRoom t

theorem OffQueues.telegramFresh (hP : OffQueues P) (hd : DispatchFresh P) (p : Port) (t : Telegram) :
    Lawful P fun s => .next (Machine.whenAwake (Machine.receiveTelegram p t) s) :=
  Upholds.awake (f := Machine.receiveTelegram p t) hP (Upholds.ite (Upholds.ite (hP.count _) (hP.soundFresh hd p t)) Upholds.id)

theorem OffQueues.frameFresh (hP : OffQueues P) (hd : DispatchFresh P) (p : Port) (bytes : List Byte) :
    Upholds P (Machine.receiveFrame p bytes) := by
  refine Upholds.ite ?_ Upholds.id
  cases readFrame bytes with
  | lengthFault => exact hP.count _
  | checkFault => exact hP.count _
  | sound t => exact hP.soundFresh hd p t

/-- What a command upholds of two laws it upholds of both. -/
theorem Lawful.and {Q : State → Prop} {m : State → Answer} (hp : Lawful P m) (hq : Lawful Q m) :
    Lawful (fun s => P s ∧ Q s) m := by
  obtain ⟨f, keepsP, hf⟩ := hp
  obtain ⟨g, keepsQ, hg⟩ := hq
  refine ⟨f, fun s hs => ⟨keepsP s hs.1, ?_⟩, hf⟩
  have same : f s = g s := by
    injection (hf s).symm.trans (hg s)
  exact same ▸ keepsQ s hs.2

end
end Sys2Proof.Machine
end

