-- ==== Sys2Proof/Proofs/SupplySteps.lean ====
section
/-! PROOFS. Every command and every step keep the law of the supply. -/

namespace Sys2Proof.Machine

/-! ## The law of the supply beside that of the store -/

/-- The law of the supply, with that of the store, which the loads and the WARM restart lean on. -/
def SupplyKept (s : State) : Prop := StoreLaw s ∧ Supplied s

theorem supplyKept_offQueues : OffQueues SupplyKept := fun s u h hs =>
  ⟨storeLaw_offQueues s u h hs.1, supplied_offQueues s u h hs.2⟩

theorem supplied_dispatch : DispatchFresh Supplied := fun t c _ hs => (Sound.dispatch hs t c).supplied

theorem supplied_start {s : State} (rrg : s.rrg = Rrg.start) (psv : s.psv = Psv.start) (tst : s.tst = Tst.start) :
    Supplied s :=
  supplied_of_start (fun i => by rw [rrg, Rrg.start, Table.get_fill]) psv (congrArg Tst.line tst)

theorem supplied_zoneWork {work : Act → Act} (h : ∀ a, (work a).offAsc = a.offAsc) (z : ZoneId) :
    FreshUpholds Supplied fun a => work (entriesRunOut z a) := fun _ hs => (Sound.zoneWork hs h z).supplied

theorem supplyKept_loadAbort : FreshUpholds SupplyKept fun a => (loadAbort a).1 := fun s hs =>
  ⟨storeLaw_loadAbort (Act.start s) hs.1, (Sound.loadAbort hs.2 hs.1).supplied⟩

theorem supplyKept_blockCommand (t : Telegram) : FreshUpholds SupplyKept fun a => (blockCommand t a).1 := fun s hs =>
  ⟨storeLaw_blockCommand t (Act.start s) hs.1, (Sound.blockCommand hs.2 hs.1 t).supplied⟩

theorem supplyKept_restartWarmly : Upholds SupplyKept restartWarmly := fun s hs =>
  ⟨storeLaw_restartWarmly s hs.1,
    supplied_offQueues _ _ (blocks_enterMade _ _) (Sound.standing (supplied_warmState hs.1)).supplied⟩

theorem supplyKept_restartFully : Upholds SupplyKept restartFully := fun s hs =>
  ⟨storeLaw_restartFully s hs.1, supplied_start rfl rfl rfl⟩

/-! ## Every command and every step -/

theorem exec_keepsSupply (c : Instr) : Lawful SupplyKept (exec c) := by
  have law := supplied_offQueues
  have telegram (p : Port) (t : Telegram) := law.telegramFresh supplied_dispatch p t
  have withStore (h : Lawful Supplied (exec c)) : Lawful SupplyKept (exec c) := (exec_keepsStoreLaw c).and h
  cases c with
  | powerOn straps => exact withStore ⟨powerOnState straps, fun _ _ => supplied_start rfl rfl rfl, fun _ => rfl⟩
  | linkUp p => exact withStore ⟨_, law.upholds fun s => blocks_settleAwake (raiseLink p s), fun _ => rfl⟩
  | linkDown p => exact withStore ⟨_, law.upholds fun s => blocks_settleAwake (dropLink p s), fun _ => rfl⟩
  | resetAssertion => exact withStore ⟨fun s => { s with inReset := true }, law.upholds fun _ => rfl, fun _ => rfl⟩
  | roomTransmissionEnd => exact withStore (Upholds.awake (f := roomFreed) law (law.upholds fun _ => rfl))
  | fieldTransmissionEnd => exact withStore (Upholds.awake (f := fieldFreed) law (law.upholds fun _ => rfl))
  | cycleMarker _ _ _ _ => exact withStore (telegram _ _)
  | passage _ _ _ _ _ _ _ => exact withStore (telegram _ _)
  | substationStatus _ _ _ _ _ => exact withStore (telegram _ _)
  | equipmentStatus _ _ _ => exact withStore (telegram _ _)
  | paDone _ _ _ _ => exact withStore (telegram _ _)
  | otherFieldTelegram _ _ => exact withStore (telegram _ _)
  | roomTelegramForward _ => exact withStore (telegram _ _)
  | manage _ _ _ _ => exact withStore (telegram _ _)
  | telegramDiscarded _ _ => exact withStore ((law.frameFresh supplied_dispatch _ _).awake law)
  | markerTimeoutExpiry =>
    exact withStore ((law.finishFresh fun _ hs => (Sound.timeoutExpiry hs).supplied).awake law)
  | silenceExpiry i => exact withStore (law.expireFresh _ fun _ hs => (Sound.removeTrain hs i).supplied)
  | overdueExpiry i =>
    exact withStore (law.expireFresh _ fun _ hs => (Sound.unlessSilent hs i (Sound.overdueOut hs i)).supplied)
  | powerWaitExpiry i =>
    exact withStore (law.expireFresh _ fun _ hs => (Sound.unlessSilent hs i (Sound.powerWaitOut hs i)).supplied)
  | reportHoldOffExpiry =>
    exact withStore (law.expireFresh _ (work := fun a => { a with s.rrg.holdOff := 0 })
      fun _ hs => Sound.of_same hs rfl rfl rfl rfl rfl)
  | telemetryTimeoutExpiry b =>
    exact withStore (law.expireFresh _ (work := fun a => deriveSupply (telemetryOut [b] a).1 [] (telemetryOut [b] a).2)
      fun _ hs => (Sound.telemetryExpiry hs b).supplied)
  | creditExpiry b =>
    exact withStore (law.expireFresh _ (work := fun a => deriveSupply [] [] (creditOut [b] a))
      fun _ hs => (Sound.creditExpiry hs b).supplied)
  | slotExpiry i =>
    exact withStore (law.expireFresh _ (work := fun a => deriveSupply [] [] (dropSlot i a))
      fun _ hs => (Sound.slotExpiry hs i).supplied)
  | escalationTick => exact withStore (law.expireFresh _ fun _ hs => (Sound.tick hs).supplied)
  | escalation i => exact withStore (law.expireFresh _ fun _ hs => (Sound.escalateAt hs i).supplied)
  | retentionExpiry i => exact withStore (law.expireFresh _ fun _ hs => (Sound.freeAt hs i).supplied)
  | eligibleCountdownExpiry z k =>
    exact withStore (law.expireFresh _ (work := fun a => issueTest z (entriesRunOut z a))
      (supplied_zoneWork (offAsc_issueTest z) z))
  | entryExpiry z k =>
    exact withStore (law.expireFresh _ (work := expireEntry z k) fun _ hs => Sound.of_same hs rfl rfl rfl rfl rfl)
  | playTimeoutExpiry z =>
    exact withStore (law.expireFresh _ (work := fun a => playTimeout z (entriesRunOut z a))
      (supplied_zoneWork (offAsc_playTimeout z) z))
  | guardExpiry z =>
    exact withStore (law.expireFresh _ (work := fun a => guardEnd z (entriesRunOut z a))
      (supplied_zoneWork (offAsc_guardEnd z) z))
  | manageUnknownCommand => exact withStore ((law.takeHead _ (law.answer _)).awake law)
  | loadOpen => exact withStore (law.sizedFresh _ _ fun _ _ hs => (Sound.loadOpen hs _ _ _).supplied)
  | loadBlock => exact supplyKept_offQueues.commandFresh _ supplyKept_blockCommand
  | loadAbort => exact supplyKept_offQueues.sizedFresh _ _ fun _ => supplyKept_loadAbort
  | profileActivate => exact withStore (law.sizedFresh _ _ fun _ _ hs => (Sound.profileActivate hs _).supplied)
  | editHold => exact withStore (law.sizedFresh _ _ fun _ _ hs => (Sound.editHold hs).supplied)
  | edit => exact withStore (law.sizedFresh _ _ fun _ _ hs => (Sound.edit hs _ _ _ _).supplied)
  | editRelease => exact withStore (law.sizedFresh _ _ fun _ _ hs => (Sound.editRelease hs).supplied)
  | incidentRaise => exact withStore (law.sizedFresh _ _ fun _ _ hs => (Sound.raiseCommand hs _ _ _ _ _).supplied)
  | incidentAck =>
    exact withStore (law.commandFresh _ fun t => FreshUpholds.sized (fun _ _ hs => (Sound.ackCommand hs _ _ _).supplied) t)
  | incidentResolve => exact withStore (law.sizedFresh _ _ fun _ _ hs => (Sound.resolveCommand hs _).supplied)
  | zoneSet => exact withStore (law.sizedFresh _ _ fun _ _ hs => (Sound.zoneCommand hs _ _).supplied)
  | announce => exact withStore (law.commandFresh _ fun t _ hs => (Sound.announceCommand hs t).supplied)
  | trainBind => exact withStore (law.sizedFresh _ _ fun _ _ hs => (Sound.bindCommand hs _ _).supplied)
  | trainRemove => exact withStore (law.sizedFresh _ _ fun _ _ hs => (Sound.removeCommand hs _).supplied)
  | queryTrain => exact withStore (law.query _)
  | queryTimingPoint => exact withStore (law.query _)
  | querySection => exact withStore (law.query _)
  | querySubstation => exact withStore (law.query _)
  | queryIncident => exact withStore (law.query _)
  | queryZone => exact withStore (law.query _)
  | queryClock => exact withStore (law.query _)
  | queryProfile => exact withStore (law.query _)
  | queryCounters => exact withStore (law.query _)
  | queryIdentity => exact withStore (law.query _)
  | queryMode => exact withStore (law.query _)
  | countersClear => exact withStore (law.sizedFresh _ _ fun _ _ hs => Sound.of_same hs rfl rfl rfl rfl rfl)
  | restartWarm => exact supplyKept_offQueues.restart false supplyKept_restartWarmly supplyKept_restartFully
  | restartFull => exact supplyKept_offQueues.restart true supplyKept_restartWarmly supplyKept_restartFully

/-- Settles O58: every command keeps the law of the supply beside that of the store, and the passing of time touches
neither. -/
theorem stepKeepsSupplyLaw : Obligations.StepKeepsSupplyLaw := by
  intro s u store supply e
  have timePasses : Upholds SupplyKept fun s => { s with lck.timeBase := s.lck.timeBase + 1 } := fun _ hs =>
    ⟨hs.1, Sound.of_same hs.2 rfl rfl rfl rfl rfl⟩
  obtain ⟨-, kept⟩ := supplyKept_offQueues.step exec_keepsSupply timePasses ⟨store, supplyLaw_iff.mp supply⟩ e
  exact supplyLaw_iff.mpr kept

end Sys2Proof.Machine
end
